-- ==== Sys2Proof/Word.lean ====
section
/-! DEFINITION. The widths of the OW4810: bytes, host-port words, and the numbers of stations, regions, chain
entries, lanes and watches (00_scope.md, section 6 "Numbering"). -/

namespace Sys2Proof

/-- One byte of a frame, a region or the staging buffer. -/
abbrev Byte := BitVec 8

/-- One word of the host port, bits 15 to 0 (00 section 6). -/
abbrev Word := BitVec 16

/-- A host-port word address, A13 to A0 (R165). -/
abbrev WordAddr := BitVec 14

/-- A station number, 0 to 31: the five straps SN4 to SN0, and the low five bits of an access key (R32, R179). -/
abbrev Station := BitVec 5

/-- A region number, 0 to 127 (R1). -/
abbrev RegionNo := Fin 128

/-- A chain entry index, 0 to 255 (R96). -/
abbrev Index := Fin 256

/-- A lane number, 0 to 3 (R126). -/
abbrev LaneNo := Fin 4

/-- A watch number, 0 to 15 (R157). -/
abbrev WatchNo := Fin 16

end Sys2Proof
end

