-- ==== Sys2Proof/Syntax.lean ====
section
/-! DEFINITION. The commands of the block: one constructor per row of spec/opcode_table.json, with the operands the
row's event carries. A host request carries no parameter: it reads P0 to P3 as they stand (R170). -/

namespace Sys2Proof

/-- A command. The bytes of a frame end are those this station received from the access key to the end of the check
word, stuff cells removed (R27, R38). `straps` are the levels on SN4 to SN0 at the sampling moment (R179). -/
inductive Instr where
  /-- CONFIGURE (R173, R174). -/
  | configure
  /-- SOFT_RESET (R176), sampling the straps. -/
  | softReset (straps : Station)
  /-- REJOIN (R92). -/
  | rejoin
  /-- LEAVE (R86). -/
  | leave
  /-- START (R128). -/
  | start
  /-- STOP (R134, R135). -/
  | stop
  /-- GUARD_OPEN (R20). -/
  | guardOpen
  /-- GUARD_SHUT (R20). -/
  | guardShut
  /-- WATCH_ARM (R161). -/
  | watchArm
  /-- WATCH_DISARM (R162). -/
  | watchDisarm
  /-- UNKNOWN_REQUEST (R170): a write of `code` to the request code word. -/
  | unknownRequest (code : Word)
  /-- POP (R149): a write of `value` to the POP word. -/
  | pop (value : Word)
  /-- HOST_WORD_WRITE (R167): a write of `value` at `addr`. -/
  | hostWordWrite (addr : WordAddr) (value : Word)
  /-- PIN_RESET (R177). -/
  | pinReset
  /-- PIN_RESET_END (R178), sampling the straps. -/
  | pinResetEnd (straps : Station)
  /-- ACCESS_OPENING (R30). -/
  | accessOpening
  /-- START_EDGE (R31). -/
  | startEdge
  /-- ARBITRATION_LOST (R33). -/
  | arbitrationLost
  /-- FRAMING_BREAK (R40). -/
  | framingBreak
  /-- SPOILED_FRAME_END (R41). -/
  | spoiledFrameEnd (bytes : List Byte)
  /-- CARRIED_FRAME_END (R43). -/
  | carriedFrameEnd (bytes : List Byte)
  /-- REFRESH_WINDOW_EXPIRY (R77). -/
  | refreshWindowExpiry
  /-- WAIT_TIMEOUT (R119) of one lane. -/
  | waitTimeout (lane : LaneNo)
  /-- ENTRY_TAKE (R102) by one lane. -/
  | entryTake (lane : LaneNo)
  /-- READBACK_DIFFERENCE (R40). -/
  | readbackDifference
  deriving DecidableEq, Repr

end Sys2Proof
end

