-- ==== Sys2Proof/Decode.lean ====
section
/-! DEFINITION. The words of the opcode table: no row of spec/opcode_table.json gives bits (each row's "fields" is
empty and none has a width), so no word spells a command. -/

namespace Sys2Proof

/-- The command that the table's bits spell in a word: none, since no row gives bits. -/
def decodeTableWord (_nbits _w : Nat) : Option Instr := none

end Sys2Proof
end

