-- ==== Sys2Proof/Config.lean ====
section
/-! DEFINITION. What is fixed for the part (sizes and times the spec gives) and the two free values: the order in which
several producers' records of one event are handed over (log 3), and strap levels that a term does not say (log 14). -/

namespace Sys2Proof

/-- The four kinds of station event (R94). -/
inductive StationEvent where
  | joined | adrift | left | halted
  deriving DecidableEq, Repr

/-- A place that can hold one record the completion queue has not taken (R152): a waiting station event of one kind,
one region of the lost set, a lane's CHAIN_END record, a lane's note, a watch's report. -/
inductive Producer where
  | event (k : StationEvent)
  | lost (r : RegionNo)
  | chainEnd (l : LaneNo)
  | note (l : LaneNo)
  | watch (w : WatchNo)
  deriving DecidableEq, Repr

namespace Config

/-- Records the completion queue holds at most (R147). -/
def queueDepth : Nat := 32

/-- The length of the refresh window in milliseconds (R76). -/
def windowMs : Nat := 20

/-- The attempt at which a spoiled frame is abandoned (R42). -/
def maxAttempts : Nat := 8

/-- The spoil streak that takes a listening station to ADRIFT (R46). -/
def maxStreak : Nat := 16

/-- Passes of a join (R78). -/
def maxPasses : Nat := 3

/-- FREE VALUE. The order in which the records that several producers form in one event reach the completion unit.
The spec leaves it open: "the records stand in the completion queue in the order they reach the completion unit"
(R13, R57, R62, R94, R159). The argument is the model's counter `State.choices`. Log 3; safe. -/
opaque handOrder : Nat → List Producer

/-- FREE VALUE. The levels on SN4 to SN0 at a soft reset that an ill-formed term spells as a write of 2 to the request
code word: the term does not carry them, and R176 and R179 sample the pins at the request. The command SOFT_RESET, which
such a write on the port's pins is, carries them. The argument is the model's counter `State.choices`. Log 14; safe. -/
opaque unsaidStraps : Nat → Station

end Config
end Sys2Proof
end

