-- ==== Sys2Proof/Machine/State.lean ====
section
/-! DEFINITION. The state of one OW4810, block by block, as plain data, and its value after a pin reset. -/

namespace Sys2Proof.Machine

/-! ## Reasons a step can stop -/

/-- Why the station stops with a fault. The spec names no event that stops it: every access completes (R165), every
request is answered (R170), every frame end has an outcome. So there is no constructor, and no step faults (log 25). -/
inductive Fault where
  deriving DecidableEq, Repr

/-- Why the model gives a command no meaning. -/
inductive Refusal where
  /-- Raised by exec for a command without a meaning yet, named as the table names it; safe. No arm raises it now. -/
  | notModelled (mnemonic : String)
  deriving DecidableEq, Repr

/-! ## Addressed stores -/

/-- An addressed store of bytes: the listed addresses rise strictly and hold no 0; an unlisted byte is 0 (R24, R98,
R168: a pin reset sets every byte to 0). -/
abbrev Memory := List Host.Cell

/-! ## The region table (R3) -/

/-- A region's state at this station (R4). -/
inductive RegionState where
  | stale | refreshing | current
  deriving DecidableEq, Repr

/-- A region record (R3). `responding` is the region's membership in the response set (R82). -/
structure Region where
  state : RegionState
  owner : Option Station
  count : Word
  guardOpen : Bool
  responding : Bool
  deriving DecidableEq, Repr

/-! ## Frames and the line unit -/

/-- A frame's kind with its body fields (R39, 09 section 9.1). -/
inductive FrameBody where
  | join
  | leave
  | claim (seize : Bool) (r : RegionNo)
  | release (r : RegionNo)
  | ask (first count : Nat)
  | image (r : RegionNo) (owner : Option Station) (count : Word) (data : List Byte)
  | update (r : RegionNo) (offset : Nat) (data : List Byte)
  deriving DecidableEq, Repr

/-- A frame: the station number of its key and its body (R32). -/
structure Frame where
  sender : Station
  body : FrameBody
  deriving DecidableEq, Repr

/-- What the line unit is doing with the line (R29 to R31): off, counting recessive cells toward an opening, access
open, or a frame in progress. -/
inductive LinePhase where
  | off | counting | accessOpen | inFrame
  deriving DecidableEq, Repr

/-- One of the six offer slots (R34). -/
inductive SlotId where
  | lane (l : LaneNo)
  | station
  | image
  deriving DecidableEq, Repr

/-- A frame a lane places (R34). -/
inductive LaneFrame where
  | update (r : RegionNo) (offset : Nat) (data : List Byte)
  | claim (seize : Bool) (r : RegionNo)
  | release (r : RegionNo)
  deriving DecidableEq, Repr

/-- A frame the station controller places (R34). -/
inductive StationFrame where
  | join
  | leave
  | ask (first count : Nat)
  deriving DecidableEq, Repr

/-- An occupied lane slot (R34). Its held withdrawal is the lane's stop-pending (R136). -/
structure LaneSlot where
  frame : LaneFrame
  attempts : Nat
  deriving DecidableEq, Repr

/-- The occupied station slot (R34); `held` marks a withdrawal held until the end of the attempt (R37). -/
structure StationSlot where
  frame : StationFrame
  attempts : Nat
  held : Bool
  deriving DecidableEq, Repr

/-- The occupied image slot: its region alone, since owner, count and data are read at each attempt (R34). -/
structure ImageSlot where
  region : RegionNo
  attempts : Nat
  deriving DecidableEq, Repr

/-- This station's frame on the line (R31): the slot it was chosen from and the frame as driven. `attached`: the slot
still holds it and its producer hears its outcome (cleared by a drift flush, R50, and for a lane frame by LEAVE, R86).
`differed`: a readback difference after the key was found (R40), so this station no longer sends it (R47). -/
structure Flight where
  slot : SlotId
  frame : Frame
  attached : Bool
  differed : Bool
  deriving DecidableEq, Repr

/-! ## Lanes (R126) -/

/-- A lane's state (R127). -/
inductive LaneState where
  | free | running | offered | onLine | waiting | holding
  deriving DecidableEq, Repr

/-- The status of an entry or a chain (09 section 9.3, codes 1 to 13). -/
inductive Status where
  | done | notCurrent | refusedGuard | refusedOwner | claimLost | notOwner | waitTimeout | abandoned
  | badEntry | badSequence | length | stopped | detached
  deriving DecidableEq, Repr

/-- A note not yet posted (R142). -/
structure Note where
  index : Index
  label : Word
  merge : Nat
  deriving DecidableEq, Repr

/-- A CHAIN_END record (R139). -/
structure ChainEnd where
  lane : LaneNo
  status : Status
  tag : Word
  last : Index
  completed : Nat
  folded : Bool
  deriving DecidableEq, Repr

/-- What a lane keeps of the entry under way until it completes (R96): the NEXT flag (of a group's last entry), the
on-fail index if ALT is set (of a group's first entry), and the entries it counts for (R104, R105, R124). -/
structure EntryCtx where
  next : Bool
  alt : Option Index
  size : Nat
  deriving DecidableEq, Repr

/-- The wait mode of a chain entry (R116). -/
inductive WaitMode where
  | ready | changed | unowned | mine
  deriving DecidableEq, Repr

/-- The condition of the WAIT under way (R116). -/
structure WaitCond where
  region : RegionNo
  mode : WaitMode
  value : Word
  deriving DecidableEq, Repr

/-- A lane context (R126). The attempt count is that of the frame in the lane's slot (R130). -/
structure Lane where
  state : LaneState
  tag : Word
  first : Index
  cur : Index
  prevGoto : Bool
  completed : Nat
  stopPending : Bool
  note : Option Note
  endStatus : Option Status
  deadline : Option Nat
  held : Option ChainEnd
  entry : Option EntryCtx
  wait : Option WaitCond
  deriving DecidableEq, Repr

/-! ## The completion unit -/

/-- A completion record (R151). -/
inductive Record where
  | chainEnd (c : ChainEnd)
  | note (lane : LaneNo) (index : Index) (label : Word) (merge : Nat) (tag : Word)
  | watch (w : WatchNo) (region : RegionNo) (count : Word) (changes : Nat) (own ownerChanged : Bool)
      (owner : Option Station)
  | station (k : StationEvent) (value merge : Nat)
  | lost (region : RegionNo) (newOwner : Station)
  deriving DecidableEq, Repr

/-- A station event waiting for queue space (R155). -/
structure WaitingEvent where
  value : Nat
  merge : Nat
  deriving DecidableEq, Repr

/-- The station event set (R155): for each kind nothing or one waiting event. -/
structure EventSet where
  joined : Option WaitingEvent
  adrift : Option WaitingEvent
  left : Option WaitingEvent
  halted : Option WaitingEvent
  deriving DecidableEq, Repr

/-- A watch's state (R157). -/
inductive WatchState where
  | off | armed | pending
  deriving DecidableEq, Repr

/-- A watch's mode (R158). -/
inductive WatchMode where
  | content | peer | owner
  deriving DecidableEq, Repr

/-- A watch (R157). -/
structure Watch where
  state : WatchState
  region : RegionNo
  mode : WatchMode
  changes : Nat
  own : Bool
  ownerChanged : Bool
  deriving DecidableEq, Repr

/-! ## The station controller and the host port -/

/-- The station state (R70). -/
inductive StationState where
  | offline | joining | active | leaving | adrift | halted
  deriving DecidableEq, Repr

/-- The join in progress (R72): whether its JOIN, and whether an ASK of it, has been carried. -/
structure JoinProgress where
  joinCarried : Bool
  askCarried : Bool
  deriving DecidableEq, Repr

/-- The answer codes (09 section 9.5, codes 1 to 7). -/
inductive Answer where
  | ok | noLane | wrongState | badParameter | notRunning | alreadyEnded | unknown
  deriving DecidableEq, Repr

/-- The answer of the most recent request with its result value (R171). -/
structure Reply where
  answer : Answer
  value : Byte
  deriving DecidableEq, Repr

/-- The state of one station. INVENTORY.md lists each field with its rule. -/
structure State where
  /-- commands waiting, first in first out (the model's own queue) -/
  pending : List Instr
  /-- the argument of the free values `Config.handOrder` and `Config.unsaidStraps` (the model's own field, log 4) -/
  choices : Nat
  /-- held in pin reset (R177, R178) -/
  inReset : Bool
  /-- the levels on SN4 to SN0 when they were last sampled (R179, log 7) -/
  straps : Station
  /-- the station number (R179) -/
  stationNumber : Station
  /-- the shared area (R1) -/
  area : Memory
  /-- the region table (R3) -/
  regions : Vector Region 128
  /-- the staging buffer (R168) -/
  staging : Memory
  /-- the chain store (R96), word j of entry i at bytes 16i + 2j (low) and 16i + 2j + 1 -/
  chain : Memory
  /-- P0 to P3 (R169) -/
  p0 : Word
  p1 : Word
  p2 : Word
  p3 : Word
  /-- the request result (R171); none while no request has been taken since a pin reset -/
  result : Option Reply
  /-- the stored rate code, at which the line unit runs (R28, R174) -/
  rateCode : BitVec 2
  /-- the interrupt enable (R175) -/
  irqEnable : Bool
  /-- the line unit (R29 to R37, R46) -/
  phase : LinePhase
  flight : Option Flight
  laneSlots : Vector (Option LaneSlot) 4
  placement : List LaneNo
  stationSlot : Option StationSlot
  stationNext : Option StationFrame
  imageSlot : Option ImageSlot
  spoilStreak : Nat
  /-- the lost set: for each region none, or its new owner (R64) -/
  lost : Vector (Option Station) 128
  /-- the station controller (R70, R72, R76, R77) -/
  stationState : StationState
  passCount : Nat
  window : Option Nat
  join : Option JoinProgress
  /-- the lane contexts (R126) -/
  lanes : Vector Lane 4
  /-- the completion unit (R147, R155, R157) -/
  queue : List Record
  events : EventSet
  watches : Vector Watch 16
  deriving DecidableEq, Repr

/-- A region record after a reset (R24). -/
def Region.reset : Region :=
  { state := .stale, owner := none, count := 0, guardOpen := false, responding := false }

/-- A lane context after a reset (R126). -/
def Lane.reset : Lane :=
  { state := .free, tag := 0, first := 0, cur := 0, prevGoto := false, completed := 0, stopPending := false,
    note := none, endStatus := none, deadline := none, held := none, entry := none, wait := none }

/-- A watch after a reset (R157). -/
def Watch.reset : Watch :=
  { state := .off, region := 0, mode := .content, changes := 0, own := false, ownerChanged := false }

/-- The machine right after a pin reset has ended (R24, R51, R65, R70, R82, R98, R126, R164, R168, R169, R171, R178),
its straps all low (DESIGN CHOICE, log 6). -/
def State.reset : State :=
  { pending := [], choices := 0, inReset := false, straps := 0, stationNumber := 0,
    area := [], regions := Vector.replicate 128 Region.reset, staging := [], chain := [],
    p0 := 0, p1 := 0, p2 := 0, p3 := 0, result := none, rateCode := 0, irqEnable := false,
    phase := .off, flight := none, laneSlots := Vector.replicate 4 none, placement := [],
    stationSlot := none, stationNext := none, imageSlot := none, spoilStreak := 0,
    lost := Vector.replicate 128 none,
    stationState := .offline, passCount := 0, window := none, join := none,
    lanes := Vector.replicate 4 Lane.reset,
    queue := [], events := { joined := none, adrift := none, left := none, halted := none },
    watches := Vector.replicate 16 Watch.reset }

end Sys2Proof.Machine
end

