-- ==== Sys2Proof/Machine/Ops.lean ====
section
/-! DEFINITION. The shared operations: byte order, the addressed stores, access to the tables, the order of regions,
the two resets, and the pin-reset gate that every command passes. -/

namespace Sys2Proof.Machine

/-! ## Bytes and words (00 section 6) -/

/-- The byte in bits 7 to 0, at the lower address. -/
def loByte (w : Word) : Byte := w.setWidth 8

/-- The byte in bits 15 to 8, at the higher address. -/
def hiByte (w : Word) : Byte := (w >>> 8).setWidth 8

/-- The word of two bytes, the lower-addressed one in bits 7 to 0. -/
def wordOf (lo hi : Byte) : Word := (hi.setWidth 16 <<< 8) ||| lo.setWidth 16

/-- The region number in the low seven bits of a byte or word (R10, R53). -/
def regionOf (n : Nat) : RegionNo := ⟨n % 128, Nat.mod_lt _ (by decide)⟩

/-- The chain index in the low eight bits of a word. -/
def indexOf (n : Nat) : Index := ⟨n % 256, Nat.mod_lt _ (by decide)⟩

/-- Addition that stops at `top` (00 section 6: saturating). -/
def satAdd (top a b : Nat) : Nat := min top (a + b)

/-! ## Addressed stores -/

namespace Memory

/-- One byte of a store; an unlisted one is 0. -/
def read : Memory → Nat → Byte
  | [], _ => 0
  | (b, v) :: m, a => if a = b then v else read m a

/-- Write one byte, keeping the canonical form. -/
def write : Memory → Nat → Byte → Memory
  | [], a, v => if v = 0 then [] else [(a, v)]
  | (b, w) :: m, a, v =>
    if a < b then (if v = 0 then (b, w) :: m else (a, v) :: (b, w) :: m)
    else if a = b then (if v = 0 then m else (a, v) :: m)
    else (b, w) :: write m a v

/-- The `n` bytes from address `a`. -/
def readBytes (m : Memory) (a : Nat) : Nat → List Byte
  | 0 => []
  | n + 1 => m.read a :: readBytes m (a + 1) n

/-- Write bytes from address `a` on, in order. -/
def writeBytes (m : Memory) (a : Nat) : List Byte → Memory
  | [] => m
  | v :: vs => writeBytes (m.write a v) (a + 1) vs

/-- Word `w` of a store: bytes 2w (low) and 2w + 1 (high). -/
def readWord (m : Memory) (w : Nat) : Word := wordOf (m.read (2 * w)) (m.read (2 * w + 1))

/-- Write word `w` of a store, always both bytes (R167). -/
def writeWord (m : Memory) (w : Nat) (v : Word) : Memory :=
  (m.write (2 * w) (loByte v)).write (2 * w + 1) (hiByte v)

/-- The canonical form: addresses strictly rising, no entry equal to 0, what an unlisted address reads as. -/
abbrev wf (m : Memory) : Prop :=
  m.Pairwise (fun c d => c.1 < d.1) ∧ ∀ c ∈ m, c.2 ≠ 0

/-- Every listed address is below `n`. -/
abbrev below (n : Nat) (m : Memory) : Prop := ∀ c ∈ m, c.1 < n

end Memory

namespace State

/-! ## The region table and the shared area -/

/-- The record of region r (R3). -/
def region (s : State) (r : RegionNo) : Region := s.regions[r.val]

/-- Replace the record of one region. -/
def setRegion (s : State) (r : RegionNo) (x : Region) : State :=
  { s with regions := s.regions.set r.val x r.isLt }

/-- Change every region record in one claim (R18). -/
def mapRegions (s : State) (f : RegionNo → Region → Region) : State :=
  { s with regions := Vector.ofFn fun r => f r s.regions[r.val] }

/-- Bytes `k` to `k + n - 1` of region r (R1). -/
def regionBytes (s : State) (r : RegionNo) (k n : Nat) : List Byte :=
  s.area.readBytes (128 * r.val + k) n

/-- Replace the bytes of region r from offset k on (R1). -/
def writeRegionBytes (s : State) (r : RegionNo) (k : Nat) (data : List Byte) : State :=
  { s with area := s.area.writeBytes (128 * r.val + k) data }

/-- Every region is CURRENT, none STALE or REFRESHING (R80). -/
abbrev allCurrent (s : State) : Prop := ∀ r : RegionNo, (s.region r).state = .current

/-- The lowest region with a property. -/
def lowest (p : RegionNo → Bool) : Option RegionNo := (List.finRange 128).find? p

/-- The highest region with a property. -/
def highest (p : RegionNo → Bool) : Option RegionNo := (List.finRange 128).reverse.find? p

/-! ## Lanes, lane slots and watches -/

/-- The context of lane l (R126). -/
def lane (s : State) (l : LaneNo) : Lane := s.lanes[l.val]

/-- Replace one lane context. -/
def setLane (s : State) (l : LaneNo) (x : Lane) : State :=
  { s with lanes := s.lanes.set l.val x l.isLt }

/-- Change one lane context. -/
def modifyLane (s : State) (l : LaneNo) (f : Lane → Lane) : State := s.setLane l (f (s.lane l))

/-- Change every lane context. -/
def mapLanes (s : State) (f : LaneNo → Lane → Lane) : State :=
  { s with lanes := Vector.ofFn fun l => f l s.lanes[l.val] }

/-- The lane slot of lane l (R34). -/
def laneSlot (s : State) (l : LaneNo) : Option LaneSlot := s.laneSlots[l.val]

/-- Put a frame into lane l's slot, or empty it. -/
def setLaneSlot (s : State) (l : LaneNo) (x : Option LaneSlot) : State :=
  { s with laneSlots := s.laneSlots.set l.val x l.isLt }

/-- Take the frame out of lane l's slot and out of the order of lane frames (R34, R37). -/
def clearLaneSlot (s : State) (l : LaneNo) : State :=
  { s with laneSlots := s.laneSlots.set l.val none l.isLt, placement := s.placement.filter fun k => k != l }

/-- Place a frame in lane l's slot with attempt count 0, last in the order (R34, R35). -/
def placeLaneFrame (s : State) (l : LaneNo) (f : LaneFrame) : State :=
  { s with laneSlots := s.laneSlots.set l.val (some { frame := f, attempts := 0 }) l.isLt
           placement := (s.placement.filter fun k => k != l) ++ [l] }

/-- The attempt count lane l shows: that of the frame in its slot, else 0 (R126, R130). -/
def laneAttempts (s : State) (l : LaneNo) : Nat :=
  match s.laneSlot l with
  | some o => o.attempts
  | none => 0

/-- Watch w (R157). -/
def watch (s : State) (w : WatchNo) : Watch := s.watches[w.val]

/-- Replace one watch. -/
def setWatch (s : State) (w : WatchNo) (x : Watch) : State :=
  { s with watches := s.watches.set w.val x w.isLt }

/-- Change every watch. -/
def mapWatches (s : State) (f : WatchNo → Watch → Watch) : State :=
  { s with watches := Vector.ofFn fun w => f w s.watches[w.val] }

/-- The new owner held in the lost set for region r, if r is in it (R64). -/
def lostOwner (s : State) (r : RegionNo) : Option Station := s.lost[r.val]

/-- Put region r into the lost set with a new owner, or take it out. -/
def setLost (s : State) (r : RegionNo) (x : Option Station) : State :=
  { s with lost := s.lost.set r.val x r.isLt }

/-! ## Station state -/

/-- A listening station is in JOINING, ACTIVE or LEAVING (00 section 4). -/
def listening (s : State) : Bool :=
  match s.stationState with
  | .joining | .active | .leaving => true
  | .offline | .adrift | .halted => false

/-- Place the answer of a request in the result word (R171). -/
def answer (s : State) (a : Answer) (value : Byte) : State :=
  { s with result := some { answer := a, value := value } }

/-! ## Resets (R24, R51, R65, R146, R164, R176 to R178) -/

/-- Every block at its pin-reset values; the command queue, the free values' counter and the pins are no blocks. The
station number, which nothing shows while the reset lasts, keeps its value until it is sampled (log 8). -/
def blocksReset (s : State) : State :=
  { State.reset with
    pending := s.pending, choices := s.choices, straps := s.straps, stationNumber := s.stationNumber }

/-- Sample the straps: SN0 is the least significant bit, a high strap a 1 (R179). -/
def sampleStraps (s : State) (levels : Station) : State :=
  { s with straps := levels, stationNumber := levels }

end State

/-- The gate of every command but PIN_RESET and PIN_RESET_END: in pin reset host writes are ignored and the line unit
is off (R177), so nothing changes. -/
def unlessReset (f : State → State) (s : State) : Host.Outcome State Fault Refusal :=
  .next (if s.inReset then s else f s)

end Sys2Proof.Machine
end

