-- ==== Sys2Proof/Machine/Frames.lean ====
section
/-! DEFINITION. The bytes of a frame from the access key to the end of the check word: how this station builds a frame
and how it checks a received one (R32, R38, R39, 09 section 9.1). -/

namespace Sys2Proof.Machine

/-- One bit of the check word: shift left, folding in x^16 + x^12 + x^5 + 1 when a 1 leaves (R38). -/
def crcShift (c : Word) : Word := if c.msb then (c <<< 1) ^^^ 0x1021 else c <<< 1

/-- One byte of the check word, most significant bit first. -/
def crcByte (c : Word) (b : Byte) : Word :=
  crcShift (crcShift (crcShift (crcShift (crcShift (crcShift (crcShift (crcShift
    (c ^^^ (b.setWidth 16 <<< 8)))))))))

/-- The check word: CRC-16 from all ones, no final inversion (R38). -/
def checkWord (bytes : List Byte) : Word := bytes.foldl crcByte 0xFFFF

/-- The class of a kind (R32). -/
def FrameBody.keyClass : FrameBody → Nat
  | .join => 0
  | .leave => 0
  | .claim _ _ => 1
  | .release _ => 1
  | .ask _ _ => 1
  | .image _ _ _ _ => 2
  | .update _ _ _ => 3

/-- The kind code (R39). -/
def FrameBody.kindCode : FrameBody → Nat
  | .join => 0
  | .leave => 1
  | .claim _ _ => 2
  | .release _ => 3
  | .ask _ _ => 4
  | .image _ _ _ _ => 5
  | .update _ _ _ => 6

/-- The access key, 32 times the class plus the station number (R32). -/
def Frame.key (f : Frame) : Byte := BitVec.ofNat 8 (32 * f.body.keyClass + f.sender.toNat)

/-- The owner byte of an IMAGE: the station, or 0xFF for none (R182). -/
def ownerByte : Option Station → Byte
  | some t => t.setWidth 8
  | none => 0xFF

/-- The owner an IMAGE's owner byte installs: 0 to 31 that station, every other value none (R10). -/
def ownerOfByte (b : Byte) : Option Station := if b.toNat < 32 then some (b.setWidth 5) else none

/-- The body bytes (09 section 9.1), unassigned bits 0 (R182). -/
def FrameBody.bytes : FrameBody → List Byte
  | .join => []
  | .leave => []
  | .claim seize r => [BitVec.ofNat 8 ((if seize then 128 else 0) + r.val)]
  | .release r => [BitVec.ofNat 8 r.val]
  | .ask first count => [BitVec.ofNat 8 first, BitVec.ofNat 8 (count - 1)]
  | .image r owner count data => BitVec.ofNat 8 r.val :: ownerByte owner :: hiByte count :: loByte count :: data
  | .update r offset data =>
    BitVec.ofNat 8 r.val :: BitVec.ofNat 8 offset :: BitVec.ofNat 8 (data.length - 1) :: data

/-- The bytes the check word covers: key, kind byte, body. -/
def Frame.content (f : Frame) : List Byte := f.key :: BitVec.ofNat 8 f.body.kindCode :: f.body.bytes

/-- The frame's bytes, key to check word, the check word most significant byte first (R38). -/
def Frame.bytes (f : Frame) : List Byte :=
  f.content ++ [hiByte (checkWord f.content), loByte (checkWord f.content)]

/-- The body of a kind code, with its class, when it has the length and meets the condition of R39. -/
def parseBody (kind : Nat) (body : List Byte) : Option FrameBody :=
  match kind, body with
  | 0, [] => some .join
  | 1, [] => some .leave
  | 2, [b] => some (.claim b.msb (regionOf b.toNat))
  | 3, [b] => some (.release (regionOf b.toNat))
  | 4, [f, c] => if f.toNat + (c.toNat + 1) ≤ 128 then some (.ask f.toNat (c.toNat + 1)) else none
  | 5, r :: o :: hi :: lo :: data =>
    if data.length = 128 then some (.image (regionOf r.toNat) (ownerOfByte o) (wordOf lo hi) data) else none
  | 6, r :: k :: n :: data =>
    if data.length = n.toNat + 1 ∧ k.toNat + (n.toNat + 1) ≤ 128 then
      some (.update (regionOf r.toNat) k.toNat data)
    else none
  | _, _ => none

/-- The check of a received frame (R38): none if it is bad, else the frame it carries. The symbol framing has held:
a broken one reaches the station as FRAMING_BREAK. -/
def checkFrame (bytes : List Byte) : Option Frame :=
  if bytes.length > 136 then none
  else
    let content := bytes.take (bytes.length - 2)
    if bytes.drop (bytes.length - 2) = [hiByte (checkWord content), loByte (checkWord content)] then
      match content with
      | key :: kind :: body =>
        match parseBody kind.toNat body with
        | some b => if key.toNat / 32 = b.keyClass then some { sender := key.setWidth 5, body := b } else none
        | none => none
      | _ => none
    else none

/-- The fields a frame's layout can hold (09 section 9.1). -/
abbrev FrameBody.wf : FrameBody → Prop
  | .join => True
  | .leave => True
  | .claim _ _ => True
  | .release _ => True
  | .ask first count => 1 ≤ count ∧ first + count ≤ 128
  | .image _ _ _ data => data.length = 128
  | .update _ offset data => 1 ≤ data.length ∧ offset + data.length ≤ 128

/-- A lane frame's body. -/
def LaneFrame.body : LaneFrame → FrameBody
  | .update r k data => .update r k data
  | .claim seize r => .claim seize r
  | .release r => .release r

/-- The region a lane frame names (R61). -/
def LaneFrame.region : LaneFrame → RegionNo
  | .update r _ _ => r
  | .claim _ r => r
  | .release r => r

/-- An UPDATE waits behind the image slot, a CLAIM or RELEASE goes ahead of it (R35). -/
def LaneFrame.isUpdate : LaneFrame → Bool
  | .update _ _ _ => true
  | .claim _ _ => false
  | .release _ => false

/-- A station frame's body. -/
def StationFrame.body : StationFrame → FrameBody
  | .join => .join
  | .leave => .leave
  | .ask first count => .ask first count

end Sys2Proof.Machine
end

