-- ==== Sys2Proof/Machine/Completion.lean ====
section
/-! DEFINITION. The completion unit: producers, posting, the arbiter, station events, watches and POP (R147 to R164).

A producer that forms a record keeps it in its place: a station event in the event set, a loss in the lost set, a
CHAIN_END in a HOLDING lane, a watch's report in a PENDING watch. `settle`, at the end of the event, posts what the
queue has room for, in the free order (log 3, log 24). -/

namespace Sys2Proof.Machine

/-! ## The station event set (R155) -/

/-- The waiting event of one kind. -/
def EventSet.get (e : EventSet) : StationEvent → Option WaitingEvent
  | .joined => e.joined
  | .adrift => e.adrift
  | .left => e.left
  | .halted => e.halted

/-- Replace the waiting event of one kind. -/
def EventSet.put (e : EventSet) (k : StationEvent) (x : Option WaitingEvent) : EventSet :=
  match k with
  | .joined => { e with joined := x }
  | .adrift => { e with adrift := x }
  | .left => { e with left := x }
  | .halted => { e with halted := x }

namespace State

/-- A station event is formed: it enters the set, or merges with a waiting one of its kind, whose value it replaces
(R155). -/
def handEvent (s : State) (k : StationEvent) (value : Nat) : State :=
  let merged := match s.events.get k with
    | some e => { value := value, merge := satAdd 255 e.merge 1 }
    | none => { value := value, merge := 1 }
  { s with events := s.events.put k (some merged) }

/-! ## Producers, posting and the arbiter (R152, R153) -/

/-- The record a producer keeps, as it would be posted now. A PENDING watch reads its region's count and owner
afresh (R160). -/
def recordOf (s : State) : Producer → Option Record
  | .event k => (s.events.get k).map fun e => .station k e.value e.merge
  | .lost r => (s.lostOwner r).map fun t => .lost r t
  | .chainEnd l => if (s.lane l).state = .holding then (s.lane l).held.map .chainEnd else none
  | .note l => (s.lane l).note.map fun n => .note l n.index n.label n.merge (s.lane l).tag
  | .watch w =>
    if (s.watch w).state = .pending then
      some (.watch w (s.watch w).region (s.region (s.watch w).region).count (s.watch w).changes (s.watch w).own
        (s.watch w).ownerChanged (s.region (s.watch w).region).owner)
    else none

/-- The producer keeps a record the queue has not taken. -/
def isWaiting (s : State) (p : Producer) : Bool := (s.recordOf p).isSome

/-- What serving a producer removes: the event, the lost region, the lane's record (it becomes FREE), the lane's note,
the watch's report (it becomes ARMED) (R153). -/
def clearProducer (s : State) : Producer → State
  | .event k => { s with events := s.events.put k none }
  | .lost r => s.setLost r none
  | .chainEnd l => s.modifyLane l fun x => { x with state := .free, held := none }
  | .note l => s.modifyLane l fun x => { x with note := none }
  | .watch w => s.setWatch w { s.watch w with state := .armed, changes := 0, own := false, ownerChanged := false }

/-- Post a producer's record at the tail and remove what was served (R153); nothing if it keeps none. -/
def serve (s : State) (p : Producer) : State :=
  match s.recordOf p with
  | some rec => { s.clearProducer p with queue := s.queue ++ [rec] }
  | none => s

/-- The queue has room for a record (R147, R152). -/
def hasRoom (s : State) : Bool := decide (s.queue.length < Config.queueDepth)

/-- A producer hands its record to the completion unit: posted if the queue has room, else kept (R152). -/
def offer (s : State) (p : Producer) : State := if s.hasRoom then s.serve p else s

end State

/-- Every producer in the arbiter's order (R153). -/
def allProducers : List Producer :=
  [.event .joined, .event .adrift, .event .left, .event .halted] ++
    (List.finRange 128).map Producer.lost ++
    (List.finRange 4).map Producer.chainEnd ++
    (List.finRange 4).map Producer.note ++
    (List.finRange 16).map Producer.watch

namespace State

/-- The waiting producers in the arbiter's order (R152, R153). -/
def waiting (s : State) : List Producer := allProducers.filter s.isWaiting

/-- The order in which the records formed in this event are handed over: where there is room and more than one, the
free order, and then all that is left (log 3). -/
def schedule (s : State) : List Producer :=
  if s.hasRoom then
    match s.waiting with
    | [] => []
    | [p] => [p]
    | ps => Config.handOrder s.choices ++ ps
  else []

/-- Watches on one region fire in increasing index (R159): a watch's turn is preceded by the lower watches on its
region. -/
def turns (s : State) : Producer → List Producer
  | .watch w =>
    ((List.finRange 16).filter fun v => decide (v ≤ w) && decide ((s.watch v).region = (s.watch w).region)).map
      Producer.watch
  | p => [p]

/-- The end of an event that formed records: each is posted if the queue has room at its turn, else its producer
waits (R152). -/
def settle (s : State) : State :=
  (s.schedule.flatMap s.turns).foldl offer { s with choices := s.choices + 1 }

/-- POP (R149): the head record leaves, and the arbiter fills the freed slot with one record of the first waiting
producer. -/
def popHead (s : State) : State :=
  match s.queue with
  | [] => s
  | _ :: rest =>
    match s.waiting with
    | [] => { s with queue := rest }
    | p :: _ => { s with queue := rest }.serve p

end State

/-! ## Change reports at the watch table (R158 to R160) -/

/-- A change report of a region's content or owner (R13). Its state, owner and count after the change are read from the
region table, where nothing changes them before the report is taken. Reports of kind state alone match no watch and
make no WAIT hold, since the region is then not CURRENT; they are not formed. -/
structure ChangeReport where
  region : RegionNo
  content : Bool
  owner : Bool
  own : Bool
  deriving DecidableEq, Repr

/-- A report matches a watch's mode (R158). -/
def WatchMode.hears (m : WatchMode) (rep : ChangeReport) : Bool :=
  match m with
  | .content => rep.content
  | .peer => rep.content && !rep.own
  | .owner => rep.owner

/-- A watch takes a report (R158 to R160): an ARMED one forms its report, a PENDING one merges. -/
def Watch.take (w : Watch) (rep : ChangeReport) : Watch :=
  if w.region = rep.region ∧ w.mode.hears rep = true then
    match w.state with
    | .off => w
    | .armed => { w with state := .pending, changes := 1, own := rep.own, ownerChanged := rep.owner }
    | .pending =>
      { w with changes := satAdd 255 w.changes 1, own := w.own || rep.own,
               ownerChanged := w.ownerChanged || rep.owner }
  else w

namespace State

/-- The watch table takes a report. -/
def reportWatches (s : State) (rep : ChangeReport) : State := s.mapWatches fun _ w => w.take rep

/-- The mode a WATCH_ARM's P2 names (R158, R161). -/
def watchModeOf (p2 : Word) : WatchMode :=
  match p2.toNat with
  | 0 => .content
  | 1 => .peer
  | _ => .owner

/-- WATCH_ARM (R161). -/
def watchArm (s : State) : State :=
  if h : s.p0.toNat ≤ 15 ∧ s.p1.toNat ≤ 127 ∧ s.p2.toNat ≤ 2 then
    (s.setWatch ⟨s.p0.toNat, by omega⟩
      { state := .armed, region := ⟨s.p1.toNat, by omega⟩, mode := watchModeOf s.p2, changes := 0, own := false,
        ownerChanged := false }).answer .ok 0
  else s.answer .badParameter 0

/-- WATCH_DISARM (R162). -/
def watchDisarm (s : State) : State :=
  if h : s.p0.toNat ≤ 15 then
    (s.setWatch ⟨s.p0.toNat, by omega⟩
      { s.watch ⟨s.p0.toNat, by omega⟩ with state := .off, changes := 0, own := false, ownerChanged := false }).answer
      .ok 0
  else s.answer .badParameter 0

end State

/-- The meaning of POP (R149). The value written is not kept (R167). -/
def execPop (_value : Word) (s : State) : Host.Outcome State Fault Refusal := unlessReset State.popHead s

/-- The meaning of WATCH_ARM (R161). -/
def execWatchArm (s : State) : Host.Outcome State Fault Refusal := unlessReset State.watchArm s

/-- The meaning of WATCH_DISARM (R162). -/
def execWatchDisarm (s : State) : Host.Outcome State Fault Refusal := unlessReset State.watchDisarm s

end Sys2Proof.Machine
end

