-- ==== Sys2Proof/Machine/Lanes.lean ====
section
/-! DEFINITION. The lane engine: how an entry completes and a chain ends, how reports, STOP and detaching reach a lane
(R104 to R107, R126 to R144), and START and STOP. -/

namespace Sys2Proof.Machine

/-- The busy states (R127). -/
def LaneState.busy : LaneState → Bool
  | .running | .offered | .onLine | .waiting => true
  | .free | .holding => false

/-- The end of a chain (R139): end status set, stop-pending, deadline and note dropped, the CHAIN_END record formed
and kept. The lane is HOLDING until the completion unit takes the record (R140), which `State.settle` does at once
when the queue has room. -/
def Lane.endChain (l : LaneNo) (st : Status) (x : Lane) : Lane :=
  { x with
    state := .holding
    stopPending := false
    note := none
    endStatus := some st
    deadline := none
    entry := none
    wait := none
    held := some { lane := l, status := st, tag := x.tag, last := x.cur, completed := x.completed
                   folded := x.note.isSome } }

/-- The lane goes on at an index, RUNNING, with nothing under way. -/
def Lane.goOn (i : Index) (x : Lane) : Lane :=
  { x with state := .running, cur := i, deadline := none, entry := none, wait := none }

/-- What the lane keeps of the entry under way; a lane with none under way keeps nothing to go on by. -/
def Lane.ctx (x : Lane) : EntryCtx :=
  match x.entry with
  | some e => e
  | none => { next := false, alt := none, size := 1 }

/-- An entry completes with DONE or a soft failure: it is counted (R107, R124), and the chain ends STOPPED if a stop is
pending (R104, R136), else goes on under NEXT (R104) or ALT (R105), or ends. -/
def Lane.complete (l : LaneNo) (st : Status) (x : Lane) : Lane :=
  let counted := { x with completed := satAdd 65535 x.completed x.ctx.size }
  if x.stopPending then counted.endChain l .stopped
  else if st = .done then
    if x.ctx.next then
      if h : x.cur.val < 255 then counted.goOn ⟨x.cur.val + 1, by omega⟩
      else counted.endChain l .badSequence
    else counted.endChain l .done
  else
    match x.ctx.alt with
    | some i => counted.goOn i
    | none => counted.endChain l st

/-- A frame on the line whose slot no longer holds it: its outcome is told to no producer (R50, R86). -/
def Flight.detach (f : Flight) : Flight := { f with attached := false }

namespace State

/-- The condition of a WAIT holds (R116). -/
def waitHolds (s : State) (c : WaitCond) : Bool :=
  decide ((s.region c.region).state = .current) &&
    match c.mode with
    | .ready => true
    | .changed => decide ((s.region c.region).count ≠ c.value)
    | .unowned => decide ((s.region c.region).owner = none)
    | .mine => decide ((s.region c.region).owner = some s.stationNumber)

/-- A report for region r reaches every WAITING lane whose WAIT names r, which evaluates its condition again
(R118). -/
def reportLanes (s : State) (r : RegionNo) : State :=
  s.mapLanes fun l x =>
    match x.wait with
    | some c => if x.state = .waiting ∧ c.region = r ∧ s.waitHolds c = true then x.complete l .done else x
    | none => x

/-- A change report reaches the lanes and the watch table (R13). The third receiver, the refresh unit, acts only on a
region that has left CURRENT, which the claims of R89 and R88 do with the whole response set. -/
def report (s : State) (rep : ChangeReport) : State := (s.reportLanes rep.region).reportWatches rep

/-- Every busy lane's chain ends DETACHED (R138). -/
def detachLanes (s : State) : State :=
  s.mapLanes fun l x => if x.state.busy then x.endChain l .detached else x

/-- The frames of the lane slots are gone: those not on the line leave at once, one on the line belongs from then on to
no lane (R138, R50). -/
def dropLaneFrames (s : State) : State :=
  { s with
    laneSlots := Vector.replicate 4 none
    placement := []
    flight := s.flight.map fun f =>
      match f.slot with
      | .lane _ => f.detach
      | .station => f
      | .image => f }

/-- The chain on lane l ends (R139). -/
def endLane (s : State) (l : LaneNo) (st : Status) : State := s.modifyLane l (Lane.endChain l st)

/-- The entry under way on lane l completes. -/
def completeLane (s : State) (l : LaneNo) (st : Status) : State := s.modifyLane l (Lane.complete l st)

/-! ## Notes (R142) -/

/-- A lane forms a note of `count` notes merged: it starts the lane's note, handed to the completion unit at once, or
merges into the pending one. -/
def handNote (s : State) (l : LaneNo) (i : Index) (label : Word) (count : Nat) : State :=
  match (s.lane l).note with
  | none =>
    (s.modifyLane l fun x => { x with note := some { index := i, label := label, merge := satAdd 255 count 0 } }).offer
      (.note l)
  | some n =>
    s.modifyLane l fun x => { x with note := some { index := i, label := label, merge := satAdd 255 n.merge count } }

/-! ## START and STOP -/

/-- The lowest-numbered FREE lane (R128). -/
def freeLane (s : State) : Option LaneNo := (List.finRange 4).find? fun l => decide ((s.lane l).state = .free)

/-- The context of a lane START takes (R128). -/
def startedLane (first : Index) (tag : Word) : Lane :=
  { state := .running, tag := tag, first := first, cur := first, prevGoto := false, completed := 0
    stopPending := false, note := none, endStatus := none, deadline := none, held := none, entry := none
    wait := none }

/-- START (R128): the checks in the order of the table. -/
def start (s : State) : State :=
  if h : s.p0.toNat ≤ 255 then
    match s.stationState with
    | .joining | .active =>
      match s.freeLane with
      | some l => (s.setLane l (startedLane ⟨s.p0.toNat, by omega⟩ s.p1)).answer .ok (BitVec.ofNat 8 l.val)
      | none => s.answer .noLane 0
    | .offline | .leaving | .adrift | .halted => s.answer .wrongState 0
  else s.answer .badParameter 0

/-- STOP on one lane (R134, R135). -/
def stopLane (s : State) (l : LaneNo) : State :=
  match (s.lane l).state with
  | .free => s.answer .notRunning 0
  | .holding => s.answer .alreadyEnded 0
  | .running => ((s.endLane l .stopped).settle).answer .ok 0
  | .waiting => ((s.endLane l .stopped).settle).answer .ok 0
  | .offered => (((s.clearLaneSlot l).endLane l .stopped).settle).answer .ok 0
  | .onLine => (s.modifyLane l fun x => { x with stopPending := true }).answer .ok 0

/-- STOP (R134). -/
def stop (s : State) : State :=
  if h : s.p0.toNat ≤ 3 then s.stopLane ⟨s.p0.toNat, by omega⟩ else s.answer .badParameter 0

/-- The expiry of lane l's WAIT deadline (R119): nothing for a lane that is not WAITING with a deadline. -/
def waitTimeout (s : State) (l : LaneNo) : State :=
  if (s.lane l).state = .waiting ∧ (s.lane l).deadline.isSome = true then (s.completeLane l .waitTimeout).settle else s

/-- One millisecond passes with no command: every running deadline and the refresh window count down, stopping at 0
until their expiry is commanded (R76, R133; log 5). -/
def tick (s : State) : State :=
  { s.mapLanes fun _ x => { x with deadline := x.deadline.map fun t => t - 1 } with
    window := s.window.map fun t => t - 1 }

end State

/-- The meaning of START (R128). -/
def execStart (s : State) : Host.Outcome State Fault Refusal := unlessReset State.start s

/-- The meaning of STOP (R134, R135). -/
def execStop (s : State) : Host.Outcome State Fault Refusal := unlessReset State.stop s

/-- The meaning of WAIT_TIMEOUT (R119). -/
def execWaitTimeout (lane : LaneNo) (s : State) : Host.Outcome State Fault Refusal :=
  unlessReset (fun t => t.waitTimeout lane) s

end Sys2Proof.Machine
end

