-- ==== Sys2Proof/Machine/Replica.lean ====
section
/-! DEFINITION. The replica store and the response set: how UPDATEs, IMAGEs, orphan declarations and guard requests
change regions (R7, R9, R12, R20), and how the image slot follows the response set (R36, R82 to R84). -/

namespace Sys2Proof.Machine
namespace State

/-! ## UPDATE (R7, R8) -/

/-- A carried UPDATE for region r from a sender is applied: CURRENT, and unowned or owned by the sender (R7). -/
def updateApplies (s : State) (r : RegionNo) (sender : Station) : Bool :=
  decide ((s.region r).state = .current) &&
    (decide ((s.region r).owner = none) || decide ((s.region r).owner = some sender))

/-- Apply or refuse a carried UPDATE (R7): the bytes replaced, the count raised by one modulo 65,536, a change report
of content (R8). -/
def applyUpdate (s : State) (sender : Station) (r : RegionNo) (k : Nat) (data : List Byte) : State :=
  if s.updateApplies r sender then
    ((s.writeRegionBytes r k data).setRegion r { s.region r with count := (s.region r).count + 1 }).report
      { region := r, content := true, owner := false, own := decide (sender = s.stationNumber) }
  else s

/-! ## The response set and the image slot -/

/-- The lowest region of the response set (R82). -/
def lowestResponding (s : State) : Option RegionNo := lowest fun r => (s.region r).responding

/-- The image slot takes the lowest region of the response set, with attempt count 0 if that is new to it (R36). -/
def moveImageSlot (s : State) : State :=
  match s.lowestResponding with
  | none => { s with imageSlot := none }
  | some r =>
    match s.imageSlot with
    | some o => if o.region = r then s else { s with imageSlot := some { region := r, attempts := 0 } }
    | none => { s with imageSlot := some { region := r, attempts := 0 } }

/-- The IMAGE in the image slot is on the line. -/
def imageOnLine (s : State) : Bool :=
  match s.flight with
  | some f => f.attached && decide (f.slot = .image)
  | none => false

/-- The image slot follows a change of the response set; while its IMAGE is on the line it waits for the end of the
attempt (R36). -/
def syncImageSlot (s : State) : State := if s.imageOnLine then s else s.moveImageSlot

/-- Region r leaves the response set (R84). -/
def dropResponse (s : State) (r : RegionNo) : State :=
  (s.setRegion r { s.region r with responding := false }).syncImageSlot

/-- A region lies in the range of an ASK. -/
def inRange (first count : Nat) (r : RegionNo) : Bool := decide (first ≤ r.val) && decide (r.val < first + count)

/-- A peer's ASK adds the CURRENT regions of its range to the response set (R83). -/
def addResponses (s : State) (first count : Nat) : State :=
  (s.mapRegions fun r x =>
    if inRange first count r = true ∧ x.state = .current then { x with responding := true } else x).syncImageSlot

/-! ## IMAGE (R9, R10) -/

/-- An IMAGE for region r is installed: it is STALE or REFRESHING here (R9). -/
def installs (s : State) (r : RegionNo) : Bool := decide ((s.region r).state ≠ .current)

/-- Install an IMAGE: content, count, owner and state; guard and responding mark unchanged; a change report of content
and, if the owner is a station, of owner, never marked as this station's own (R9, R10). -/
def installImage (s : State) (r : RegionNo) (owner : Option Station) (count : Word) (data : List Byte) : State :=
  ((s.writeRegionBytes r 0 data).setRegion r
      { s.region r with state := .current, owner := owner, count := count }).report
    { region := r, content := true, owner := owner.isSome, own := false }

/-! ## Orphans and the loss of every region -/

/-- The REFRESHING regions, in region order. -/
def refreshing (s : State) : List RegionNo :=
  (List.finRange 128).filter fun r => decide ((s.region r).state = .refreshing)

/-- The orphan declaration (R12): every REFRESHING region gets zero content, count 0, owner none and becomes CURRENT, as
one claim, and each is reported as a content change. -/
def declareOrphans (s : State) : State :=
  s.refreshing.foldl
    (fun t r => t.report { region := r, content := true, owner := false, own := false })
    ((s.refreshing.foldl (fun t r => t.writeRegionBytes r 0 (List.replicate 128 0)) s).mapRegions fun _ x =>
      if x.state = .refreshing then { x with state := .current, owner := none, count := 0 } else x)

/-- Every region becomes STALE with owner none, content, counts and guards kept, and the response set is emptied with
the image slot (R25, R26, R88, R89). -/
def loseRegions (s : State) : State :=
  { s.mapRegions fun _ x => { x with state := .stale, owner := none, responding := false } with imageSlot := none }

/-! ## Guards (R20) -/

/-- The range of a guard request is valid (R20). -/
def guardRangeOk (s : State) : Bool :=
  decide (s.p0.toNat ≤ 127) && decide (1 ≤ s.p1.toNat) && decide (s.p1.toNat ≤ 128) &&
    decide (s.p0.toNat + s.p1.toNat ≤ 128)

/-- GUARD_OPEN and GUARD_SHUT (R20). -/
def setGuards (s : State) (opened : Bool) : State :=
  if s.guardRangeOk then
    (s.mapRegions fun r x =>
      if inRange s.p0.toNat s.p1.toNat r then { x with guardOpen := opened } else x).answer .ok 0
  else s.answer .badParameter 0

end State

/-- The meaning of GUARD_OPEN (R20). -/
def execGuardOpen (s : State) : Host.Outcome State Fault Refusal := unlessReset (fun t => t.setGuards true) s

/-- The meaning of GUARD_SHUT (R20). -/
def execGuardShut (s : State) : Host.Outcome State Fault Refusal := unlessReset (fun t => t.setGuards false) s

end Sys2Proof.Machine
end

