-- ==== Sys2Proof/Machine/Controller.lean ====
section
/-! DEFINITION. The station controller and refresh unit: the JOINING entry, asking and the refresh window, completion of
a join, leaving, drift, halt, and the requests CONFIGURE, REJOIN and LEAVE (R70 to R95, R173, R174). -/

namespace Sys2Proof.Machine

/-- The causes of an ADRIFT event (R90, 09 section 9.3). -/
inductive DriftCause where
  | streak | joinAbandoned
  deriving DecidableEq, Repr

/-- The value an ADRIFT event carries (09 section 9.3). -/
def DriftCause.code : DriftCause → Nat
  | .streak => 1
  | .joinAbandoned => 2

namespace State

/-! ## The station slot (R34, R37) -/

/-- This station's frame on the line was chosen from the station slot. -/
def stationFrameOnLine (s : State) : Bool :=
  match s.flight with
  | some f => decide (f.slot = .station)
  | none => false

/-- The station controller places a frame in the station slot with attempt count 0, withdrawing the frame there. While
a frame of the slot is on the line the withdrawal is held and the new frame enters at the end of the attempt (R37,
R72, R86). -/
def placeStation (s : State) (f : StationFrame) : State :=
  if s.stationFrameOnLine then
    { s with stationNext := some f, stationSlot := s.stationSlot.map fun o => { o with held := true } }
  else { s with stationSlot := some { frame := f, attempts := 0, held := false } }

/-- An ASK from the lowest to the highest region with a property, if there is one (R74, R77, R79). -/
def askSpan (p : RegionNo → Bool) : Option StationFrame :=
  match lowest p, highest p with
  | some a, some b => some (.ask a.val (b.val - a.val + 1))
  | _, _ => none

/-- Place an ASK over the regions with a property, if there is one. -/
def placeAsk (s : State) (p : RegionNo → Bool) : State :=
  match askSpan p with
  | some f => s.placeStation f
  | none => s

/-- A join that begins: its JOIN not yet carried, no ASK of it carried (R72). -/
def newJoin : JoinProgress := { joinCarried := false, askCarried := false }

/-! ## Entries to JOINING, ADRIFT and HALTED -/

/-- The JOINING entry (R72). -/
def joiningEntry (s : State) : State :=
  ({ s with stationState := .joining, spoilStreak := 0, passCount := 0, window := none
            join := some newJoin } : State).placeStation .join

/-- The drift flush (R89): busy lanes DETACHED, every slot emptied with a frame on the line going on to its end (R50),
the join ended, every region STALE, the response set emptied (R25). The CHAIN_END records are handed over with it. -/
def driftFlush (s : State) : State :=
  ({ s.detachLanes.loseRegions with
     laneSlots := Vector.replicate 4 none
     placement := []
     stationSlot := none
     stationNext := none
     flight := s.flight.map Flight.detach
     window := none
     passCount := 0
     join := none } : State).settle

/-- The ADRIFT entry (R90). -/
def adriftEntry (s : State) (cause : DriftCause) : State :=
  ({ s.driftFlush with stationState := .adrift }.handEvent .adrift cause.code).settle

/-- The HALTED entry (R93); the line unit then neither receives nor sends (R29). -/
def haltedEntry (s : State) : State :=
  ({ s.driftFlush with stationState := .halted, phase := .off }.handEvent .halted 0).settle

/-! ## The join (R74 to R80) -/

/-- An ASK in the station slot is withdrawn when the join completes (R80). -/
def withoutAsk : Option StationSlot → Option StationSlot
  | some o =>
    match o.frame with
    | .ask _ _ => none
    | .join => some o
    | .leave => some o
  | none => none

/-- The join of this state is complete (R80): in JOINING, its JOIN carried, no region STALE or REFRESHING. -/
abbrev joinComplete (s : State) : Prop :=
  s.stationState = .joining ∧ s.join.map JoinProgress.joinCarried = some true ∧ s.allCurrent

/-- The completion test and its actions (R80): the window stops, an ASK of the join is withdrawn, the station is
ACTIVE, a JOINED event carries the orphan count. -/
def tryComplete (s : State) (orphans : Nat) : State :=
  if s.joinComplete then
    { s with window := none, stationSlot := withoutAsk s.stationSlot, stationState := .active
             join := none }.handEvent .joined orphans
  else s

/-- The region is STALE. -/
def isStale (s : State) (r : RegionNo) : Bool := decide ((s.region r).state = .stale)

/-- The region is REFRESHING. -/
def isRefreshing (s : State) (r : RegionNo) : Bool := decide ((s.region r).state = .refreshing)

/-- The JOIN of the current join has been carried and applied (R74). -/
def joinCarried (s : State) : State :=
  match s.stationState, s.join with
  | .joining, some j =>
    let t := { s with join := some { j with joinCarried := true } }
    if (lowest s.isStale).isSome then t.placeAsk s.isStale else t.tryComplete 0
  | _, _ => s

/-- This station's ASK takes the STALE regions of its range to REFRESHING (R75). -/
def refreshRange (s : State) (first count : Nat) : State :=
  s.mapRegions fun r x =>
    if inRange first count r = true ∧ x.state = .stale then { x with state := .refreshing } else x

/-- An ASK of the current join has been carried (R75). In LEAVING it changes the region table alone (R86). -/
def askCarried (s : State) (first count : Nat) : State :=
  let t := s.refreshRange first count
  match s.stationState, s.join with
  | .joining, some j =>
    { t with join := some { j with askCarried := true }, window := some Config.windowMs }.tryComplete 0
  | _, _ => t

/-- The end of the third pass (R78). -/
def thirdPassEnd (s : State) : State :=
  if s.join.map JoinProgress.askCarried = some true then s.declareOrphans.tryComplete s.refreshing.length
  else s.adriftEntry .joinAbandoned

/-- The expiry of the refresh window (R77); nothing when it is stopped (R76). -/
def windowExpiry (s : State) : State :=
  match s.window with
  | none => s
  | some _ =>
    let t := { s with window := none, passCount := s.passCount + 1 }
    if t.passCount < Config.maxPasses then t.placeAsk s.isRefreshing else t.thirdPassEnd

/-- An ASK of the current join is abandoned (R79). -/
def askAbandoned (s : State) : State :=
  match s.stationState, s.join with
  | .joining, some _ =>
    let t := { s with passCount := s.passCount + 1 }
    if t.passCount < Config.maxPasses then t.placeAsk fun r => s.isStale r || s.isRefreshing r else t.thirdPassEnd
  | _, _ => s

/-- What follows the taking of a carried IMAGE (R9, R76, R80): an installation restarts a running window and tests the
join. -/
def afterInstall (s : State) : State :=
  { s with window := s.window.map fun _ => Config.windowMs }.tryComplete 0

/-- A carried IMAGE is taken (R9, R84): installed unless its region is CURRENT, and in both cases removed from the
response set. -/
def takeImage (s : State) (r : RegionNo) (owner : Option Station) (count : Word) (data : List Byte) : State :=
  if s.installs r then ((s.installImage r owner count data).dropResponse r).afterInstall else s.dropResponse r

/-! ## Leaving (R86, R88) -/

/-- The end of LEAVE (R88); the line unit goes off (R29). -/
def endOfLeave (s : State) : State :=
  { s.loseRegions with stationState := .offline, phase := .off }.handEvent .left 0

/-- LEAVE (R71, R86). -/
def leave (s : State) : State :=
  match s.stationState with
  | .joining | .active =>
    (({ s.detachLanes.dropLaneFrames with window := none, join := none, stationState := .leaving }.placeStation
      .leave).settle).answer .ok 0
  | .offline | .leaving | .adrift | .halted => s.answer .wrongState 0

/-- REJOIN (R71, R92). -/
def rejoin (s : State) : State :=
  match s.stationState with
  | .joining | .active | .adrift => s.driftFlush.joiningEntry.answer .ok 0
  | .offline | .leaving | .halted => s.answer .wrongState 0

/-- CONFIGURE (R173, R174): bits 1 to 0 of P0 are the rate code, bit 4 the interrupt enable (09 section 9.4). The line
unit is released and counts toward its first opening (R30). -/
def configure (s : State) : State :=
  if s.p0 &&& 0xFFEC ≠ 0 then s.answer .badParameter 0
  else
    match s.stationState with
    | .offline =>
      ({ s with rateCode := s.p0.setWidth 2, irqEnable := s.p0.getLsbD 4, phase := .counting }.joiningEntry).answer
        .ok 0
    | .joining | .active | .leaving | .adrift | .halted => s.answer .wrongState 0

end State

/-- The meaning of CONFIGURE (R173, R174). -/
def execConfigure (s : State) : Host.Outcome State Fault Refusal := unlessReset State.configure s

/-- The meaning of REJOIN (R92). -/
def execRejoin (s : State) : Host.Outcome State Fault Refusal := unlessReset State.rejoin s

/-- The meaning of LEAVE (R86). -/
def execLeave (s : State) : Host.Outcome State Fault Refusal := unlessReset State.leave s

/-- The meaning of REFRESH_WINDOW_EXPIRY (R77). -/
def execRefreshWindowExpiry (s : State) : Host.Outcome State Fault Refusal :=
  unlessReset (fun t => t.windowExpiry.settle) s

end Sys2Proof.Machine
end

