-- ==== Sys2Proof/Machine/LineCode.lean ====
section
/-! DEFINITION. The coding of a frame into bit cells and the receiver that finds its parts again (R27, R38). A cell is
`true` for recessive (a 1 bit) and `false` for dominant (a 0 bit). The machine's commands stand at the ends of frames
(log 22); these functions say which cells the bytes of a command are. -/

namespace Sys2Proof.Machine.LineCode

/-- The bits of a byte, most significant first. -/
def bitsOfByte (b : Byte) : List Bool :=
  [b.getLsbD 7, b.getLsbD 6, b.getLsbD 5, b.getLsbD 4, b.getLsbD 3, b.getLsbD 2, b.getLsbD 1, b.getLsbD 0]

/-- The byte of eight bits, most significant first. -/
def byteOfBits (b7 b6 b5 b4 b3 b2 b1 b0 : Bool) : Byte :=
  BitVec.ofBool b7 ++ BitVec.ofBool b6 ++ BitVec.ofBool b5 ++ BitVec.ofBool b4 ++ BitVec.ofBool b3 ++
    BitVec.ofBool b2 ++ BitVec.ofBool b1 ++ BitVec.ofBool b0

/-- The bits of a run of bytes. -/
def bitsOf (bytes : List Byte) : List Bool := bytes.flatMap bitsOfByte

/-- The bytes of whole groups of eight bits; none if the bits do not end on a whole byte. -/
def bytesOf : List Bool → Option (List Byte)
  | [] => some []
  | b7 :: b6 :: b5 :: b4 :: b3 :: b2 :: b1 :: b0 :: rest =>
    (bytesOf rest).map fun bs => byteOfBits b7 b6 b5 b4 b3 b2 b1 b0 :: bs
  | _ => none

/-- The length of the run that a cell ends, given the level and length of the run before it. -/
def runAfter (level : Bool) (run : Nat) (c : Bool) : Nat := if c = level then run + 1 else 1

/-- Insert stuff cells: after five cells of one level one cell of the other, which begins the next run (R27). -/
def stuff (level : Bool) (run : Nat) : List Bool → List Bool
  | [] => []
  | c :: cs =>
    if runAfter level run c = 5 then c :: (!c) :: stuff (!c) 1 cs
    else c :: stuff c (runAfter level run c) cs

/-- Remove stuff cells; none where the cell due after five of one level is of the same level (R38). -/
def destuff (level : Bool) (run : Nat) : List Bool → Option (List Bool)
  | [] => some []
  | c :: cs =>
    if runAfter level run c = 5 then
      match cs with
      | [] => none
      | d :: ds => if d = c then none else (destuff d 1 ds).map fun bs => c :: bs
    else (destuff c (runAfter level run c) cs).map fun bs => c :: bs

/-- The start symbol: six dominant cells and one recessive. -/
def startSymbol : List Bool := [false, false, false, false, false, false, true]

/-- The boundary: one dominant cell and six recessive. -/
def boundary : List Bool := [false, true, true, true, true, true, true]

/-- A spoil slot that a station leaves recessive: both its cells. -/
def quietSlot : List Bool := [true, true]

/-- The two dominant cells of a spoil slot that a station drives, and of a spoil mark (R40). -/
def spoilCells : List Bool := [false, false]

/-- The coded part of a frame's bytes; its runs are counted from the access key on. -/
def codedPart (bytes : List Byte) : List Bool := stuff true 0 (bitsOf bytes)

/-- The cells of a whole frame whose spoil slot no station drives, start symbol to end symbol. -/
def frameCells (bytes : List Byte) : List Bool :=
  startSymbol ++ codedPart bytes ++ boundary ++ quietSlot ++ [false]

/-- Split at the first boundary: the coded part before it and the cells after it. `held` are the cells read so far,
latest first. -/
def splitBoundary (held : List Bool) : List Bool → Option (List Bool × List Bool)
  | [] => none
  | c :: cs =>
    match c :: held with
    | true :: true :: true :: true :: true :: true :: false :: before => some (before.reverse, cs)
    | _ => splitBoundary (c :: held) cs

/-- The receiver (R27, R38): the bytes between a start symbol and the spoil slot, and whether the slot's two cells are
both recessive; none if the framing is broken. -/
def receive (cells : List Bool) : Option (List Byte × Bool) :=
  if cells.take 7 = startSymbol then
    match splitBoundary [] (cells.drop 7) with
    | some (coded, a :: b :: _) =>
      match destuff true 0 coded with
      | some bits =>
        match bytesOf bits with
        | some bytes => if bytes.length ≤ 136 then some (bytes, a && b) else none
        | none => none
      | none => none
    | _ => none
  else none

end Sys2Proof.Machine.LineCode
end

