-- ==== Sys2Proof/Machine/Ownership.lean ====
section
/-! DEFINITION. The ownership logic: CLAIM, RELEASE, JOIN and LEAVE, the withdrawal check and the lost set (R53 to
R69). -/

namespace Sys2Proof.Machine

/-- What the withdrawal check does with a lane frame, given this station and the owner the claim left: the status its
entry completes with, or none if the frame stays offered (R62, R63). -/
def LaneFrame.withdrawal (me : Station) (owner : Option Station) : LaneFrame → Option Status
  | .update _ _ _ =>
    match owner with
    | some t => if t = me then none else some .refusedOwner
    | none => none
  | .claim seize _ =>
    if seize then none
    else
      match owner with
      | some t => if t = me then some .done else some .claimLost
      | none => none
  | .release _ => if owner = some me then none else some .notOwner

namespace State

/-- The status with which the withdrawal check takes the frame of lane l out of its slot, if it does (R61, R62). -/
def withdrawalOf (s : State) (changed : RegionNo → Bool) (l : LaneNo) : Option Status :=
  match s.laneSlot l with
  | some o =>
    if changed o.frame.region then o.frame.withdrawal s.stationNumber (s.region o.frame.region).owner else none
  | none => none

/-- The withdrawal check after a claim that changed the owners of some regions (R61, R62, R132). -/
def withdrawalCheck (s : State) (changed : RegionNo → Bool) : State :=
  { s with
    lanes := Vector.ofFn fun l =>
      match s.withdrawalOf changed l with
      | some st => (s.lane l).complete l st
      | none => s.lane l
    laneSlots := Vector.ofFn fun l => if (s.withdrawalOf changed l).isSome then none else s.laneSlot l
    placement := s.placement.filter fun l => (s.withdrawalOf changed l).isNone }

/-- The owner of region r changes because of a frame from a sender: the change report of R57 and the withdrawal
check. -/
def changeOwner (s : State) (sender : Station) (r : RegionNo) (owner : Option Station) : State :=
  ((s.setRegion r { s.region r with owner := owner }).report
    { region := r, content := false, owner := true, own := decide (sender = s.stationNumber) }).withdrawalCheck
    fun q => decide (q = r)

/-- This station loses region r to a seize, in the same claim: r enters the lost set with its new owner, and a LOST
record is posted at once if the queue has room (R64). -/
def loseOwnership (s : State) (r : RegionNo) (newOwner : Station) : State :=
  (s.setLost r (some newOwner)).offer (.lost r)

/-- A carried CLAIM (R53, R54). The record of a region lost to a seize (R64) is formed in the claim and so comes before
those that follow from the change report and the withdrawal check (R13, R61). -/
def applyClaim (s : State) (sender : Station) (seize : Bool) (r : RegionNo) : State :=
  match (s.region r).state with
  | .current =>
    match (s.region r).owner with
    | none => s.changeOwner sender r (some sender)
    | some t =>
      if t = sender then s
      else if seize then
        if t = s.stationNumber then (s.loseOwnership r sender).changeOwner sender r (some sender)
        else s.changeOwner sender r (some sender)
      else s
  | .stale | .refreshing => s

/-- A carried RELEASE (R53, R55). -/
def applyRelease (s : State) (sender : Station) (r : RegionNo) : State :=
  if (s.region r).state = .current ∧ (s.region r).owner = some sender then s.changeOwner sender r none else s

/-- The region is CURRENT and owned by a station. -/
def ownedBy (s : State) (t : Station) (r : RegionNo) : Bool :=
  decide ((s.region r).state = .current) && decide ((s.region r).owner = some t)

/-- A carried JOIN or LEAVE (R56): every CURRENT region of the sender becomes unowned in one claim, each is reported,
and the withdrawal check follows once. -/
def clearOwner (s : State) (sender : Station) : State :=
  (((List.finRange 128).filter (s.ownedBy sender)).foldl
    (fun t r => t.report { region := r, content := false, owner := true, own := decide (sender = s.stationNumber) })
    (s.mapRegions fun r x => if s.ownedBy sender r then { x with owner := none } else x)).withdrawalCheck
    (s.ownedBy sender)

/-- The outcome of this station's own CLAIM, after its application (R59). -/
def claimOutcome (s : State) (r : RegionNo) : Status :=
  if (s.region r).state = .current ∧ (s.region r).owner = some s.stationNumber then .done else .claimLost

/-- The outcome of this station's own RELEASE, after its application (R60). -/
def releaseOutcome (s : State) (r : RegionNo) : Status :=
  if (s.region r).state = .current ∧ (s.region r).owner = none then .done else .notOwner

end State
end Sys2Proof.Machine
end

