-- ==== Sys2Proof/Machine/LineUnit.lean ====
section
/-! DEFINITION. The line unit: openings, the arbiter, the start edge, lost, spoiled and carried attempts, spoiling, the
spoil streak, duplicates, and the return from ADRIFT (R27 to R51). -/

namespace Sys2Proof.Machine
namespace State

/-! ## The arbiter and the start edge (R31, R35) -/

/-- The first lane, in the order of placement, whose frame has a property. -/
def firstPlaced (s : State) (p : LaneFrame → Bool) : Option LaneNo :=
  s.placement.find? fun l =>
    match s.laneSlot l with
    | some o => p o.frame
    | none => false

/-- The slot the arbiter chooses: station slot, lane CLAIMs and RELEASEs in order of placement, image slot, lane
UPDATEs in order of placement (R35). -/
def arbiterChoice (s : State) : Option SlotId :=
  if s.stationSlot.isSome then some .station
  else
    match s.firstPlaced fun f => !f.isUpdate with
    | some l => some (.lane l)
    | none =>
      if s.imageSlot.isSome then some .image
      else (s.firstPlaced LaneFrame.isUpdate).map SlotId.lane

/-- The body of the frame a slot offers. An IMAGE's owner, count and data are read now (R11). -/
def slotBody (s : State) : SlotId → Option FrameBody
  | .lane l => (s.laneSlot l).map fun o => o.frame.body
  | .station => s.stationSlot.map fun o => o.frame.body
  | .image =>
    s.imageSlot.map fun o =>
      .image o.region (s.region o.region).owner (s.region o.region).count (s.regionBytes o.region 0 128)

/-- The slot whose frame's start symbol this station has begun of its own accord: access is open, the station listens
and the arbiter has a choice, whether it had one at the opening or a frame was placed since (R31). The frame goes on
the line at the start edge (log 15). -/
def startSymbol (s : State) : Option SlotId :=
  if s.listening && decide (s.phase = .accessOpen) then s.arbiterChoice else none

/-- The lane whose frame goes on the line is ON_LINE (R130). -/
def markOnLine (s : State) : SlotId → State
  | .lane l => s.modifyLane l fun x => { x with state := .onLine }
  | .station => s
  | .image => s

/-- This station joins in at a start edge with the frame its arbiter chooses then (R31). -/
def joinIn (s : State) : State :=
  match s.arbiterChoice with
  | some slot =>
    match s.slotBody slot with
    | some body =>
      { s.markOnLine slot with
        flight := some { slot := slot, frame := { sender := s.stationNumber, body := body }, attached := true
                         differed := false } }
    | none => s
  | none => s

/-- The first dominant edge of a start symbol, recognised at any time no frame is in progress (R30, R31). A station in
ADRIFT receives the frame and offers none (R29). -/
def startEdge (s : State) : State :=
  match s.phase with
  | .counting | .accessOpen =>
    if s.listening then { s with phase := .inFrame }.joinIn else { s with phase := .inFrame }
  | .off | .inFrame => s

/-- The count of 12 recessive cells expires: access opens (R30). -/
def accessOpening (s : State) : State :=
  match s.phase with
  | .counting => { s with phase := .accessOpen }
  | .off | .accessOpen | .inFrame => s

/-! ## The end of an attempt (R31, R33, R37, R41, R42) -/

/-- The frame waiting for the end of the attempt enters the station slot (R37). -/
def enterNext (s : State) : State :=
  match s.stationNext with
  | some f => { s with stationSlot := some { frame := f, attempts := 0, held := false }, stationNext := none }
  | none => s

/-- The station slot is emptied at the end of an attempt, and the waiting frame, if any, enters. -/
def emptyStationSlot (s : State) : State := { s with stationSlot := none }.enterNext

/-- A lane's frame leaves its slot because a withdrawal was held: the chain ends STOPPED, the entry not counted
(R136). -/
def stopAtEnd (s : State) (l : LaneNo) : State := (s.clearLaneSlot l).endLane l .stopped

/-- A lane returns from ON_LINE to OFFERED (R131). -/
def backToOffered (s : State) (l : LaneNo) : State := s.modifyLane l fun x => { x with state := .offered }

/-- An attempt of this station ends without being counted: arbitration was lost (R33), with a held withdrawal taking
effect (R37). -/
def loseAttempt (s : State) : State :=
  match s.flight with
  | none => s
  | some f =>
    let t := { s with flight := none }
    match f.slot with
    | .lane l =>
      if f.attached then if (t.lane l).stopPending then t.stopAtEnd l else t.backToOffered l else t
    | .station =>
      if f.attached then
        match t.stationSlot with
        | some o => if o.held then t.emptyStationSlot else t
        | none => t.enterNext
      else t.enterNext
    | .image => t.syncImageSlot

/-- A spoiled attempt of lane l's frame is counted; at the eighth the frame is abandoned (R41, R42, R131). -/
def countLaneAttempt (s : State) (l : LaneNo) : State :=
  match s.laneSlot l with
  | some o =>
    if o.attempts + 1 < Config.maxAttempts then
      (s.setLaneSlot l (some { o with attempts := o.attempts + 1 })).backToOffered l
    else (s.clearLaneSlot l).completeLane l .abandoned
  | none => s

/-- What the station controller does when its frame is abandoned (R42, R79, R81, R88). -/
def stationAbandoned (s : State) : StationFrame → State
  | .join => s.adriftEntry .joinAbandoned
  | .ask _ _ => s.askAbandoned
  | .leave => s.endOfLeave

/-- A spoiled attempt of the station slot's frame ends (R37, R41, R42). -/
def countStationAttempt (s : State) : State :=
  match s.stationSlot with
  | some o =>
    if o.held then s.emptyStationSlot
    else if o.attempts + 1 < Config.maxAttempts then
      { s with stationSlot := some { o with attempts := o.attempts + 1 } }
    else { s with stationSlot := none }.stationAbandoned o.frame
  | none => s.enterNext

/-- A spoiled attempt of the image slot's frame is counted; at the eighth its region leaves the response set (R41, R42,
R84). -/
def countImageAttempt (s : State) : State :=
  match s.imageSlot with
  | some o =>
    if o.attempts + 1 < Config.maxAttempts then
      { s with imageSlot := some { o with attempts := o.attempts + 1 } }.syncImageSlot
    else { s with imageSlot := none }.dropResponse o.region
  | none => s.syncImageSlot

/-- An attempt of this station ends spoiled (R41): counted against its frame, unless a withdrawal was held (R37) or a
drift flush or LEAVE took the frame from its slot (R50). -/
def spoilAttempt (s : State) : State :=
  match s.flight with
  | none => s
  | some f =>
    let t := { s with flight := none }
    match f.slot with
    | .lane l =>
      if f.attached then if (t.lane l).stopPending then t.stopAtEnd l else t.countLaneAttempt l else t
    | .station => if f.attached then t.countStationAttempt else t.enterNext
    | .image => if f.attached then t.countImageAttempt else t.syncImageSlot

/-- A readback difference after the key: this station stops driving its bits and no longer counts as having sent the
frame (R40, R47). -/
def readbackDifference (s : State) : State :=
  { s with flight := s.flight.map fun f => { slot := f.slot, frame := f.frame, attached := f.attached, differed := true } }

/-- This station has sent the frame of these bytes: it is this station's frame on the line, and the readback matched
every bit (R47). -/
def sent (s : State) (bytes : List Byte) : Bool :=
  match s.flight with
  | some f => !f.differed && decide (f.frame.bytes = bytes)
  | none => false

/-- The readback of a frame's bytes against those this station drives, where it was not told of a difference by a
command of its own: another key means arbitration was lost (R33), another byte after it a readback difference (R40)
(log 2). -/
def resolveReadback (s : State) (bytes : List Byte) : State :=
  match s.flight with
  | some f =>
    if f.differed = true ∨ f.frame.bytes = bytes then s
    else if bytes.head? = some f.frame.key then s.readbackDifference
    else s.loseAttempt.settle
  | none => s

/-! ## What this station drives into a frame (R27, R40) -/

/-- This station finds the frame of these bytes bad: its readback differed, or the check of R38 fails. -/
def findsBad (s : State) (bytes : List Byte) : Bool :=
  !s.sent bytes &&
    ((match s.flight with
      | some f => f.differed
      | none => false) || (checkFrame bytes).isNone)

/-- The cells this station drives for its frame on the line, its spoil slot recessive (R27); none once a readback
difference has made it stop driving its own bits (R40, R50). -/
def drivenCells (s : State) : Option (List Bool) :=
  match s.flight with
  | some f => if f.differed then none else some (LineCode.frameCells f.frame.bytes)
  | none => none

/-- A listening station receives the frame in progress. -/
def receivesHere (s : State) : Bool := s.listening && decide (s.phase = .inFrame)

/-- The two cells this station leaves in the spoil slot of the frame of these bytes: dominant if it listens and finds the
frame bad, its own included; any other station leaves the slot as it is (R29, R40). -/
def spoilSlot (s : State) (bytes : List Byte) : List Bool :=
  if s.receivesHere && (s.resolveReadback bytes).findsBad bytes then LineCode.spoilCells else LineCode.quietSlot

/-- The cells this station drives where the framing of the frame in progress breaks: a spoil mark if it listens (R40),
nothing in ADRIFT (R29). -/
def spoilMark (s : State) : List Bool := if s.receivesHere then LineCode.spoilCells else []

/-! ## Spoiling (R40, R46) -/

/-- This station drives a spoil slot or a spoil mark: the streak rises, never above 16 (R46). -/
def raiseStreak (s : State) : State := { s with spoilStreak := satAdd Config.maxStreak s.spoilStreak 1 }

/-- A listening station has spoiled the frame on the line: at a streak of 16 the ADRIFT entry, in whose flush this
station's frame is not counted (R46, R90), else the attempt, if this station made one, ends spoiled. -/
def spoil (s : State) : State :=
  if s.raiseStreak.spoilStreak = Config.maxStreak then { s.raiseStreak.adriftEntry .streak with flight := none }
  else s.raiseStreak.spoilAttempt

/-- The frame on the line is over: the line unit counts toward the next opening (R30). -/
def countAgain (s : State) : State := { s with phase := .counting }

/-- A framing break before the spoil slot (R38, R40). A listening station drives a spoil mark; in ADRIFT it drives
nothing. OFFLINE and HALTED receive nothing (R29, log 21). -/
def framingBreak (s : State) : State :=
  match s.stationState with
  | .joining | .active | .leaving => s.countAgain.spoil.settle
  | .adrift => { s.countAgain with flight := none }
  | .offline | .halted => { s with flight := none }

/-- The end of a spoiled frame at a listening station (R41, R46): it drove the slot itself if it found the frame bad;
a frame clean here sets the streak to 0. -/
def spoiledHere (s : State) (bytes : List Byte) : State :=
  if s.findsBad bytes then s.countAgain.spoil else { s.countAgain with spoilStreak := 0 }.spoilAttempt

/-- The end of a spoiled frame (R41). OFFLINE and HALTED receive nothing (R29, log 21). -/
def spoiledFrameEnd (s : State) (bytes : List Byte) : State :=
  match s.stationState with
  | .joining | .active | .leaving => ((s.resolveReadback bytes).spoiledHere bytes).settle
  | .adrift => { s.countAgain with flight := none }
  | .offline | .halted => { s with flight := none }

/-! ## Carried frames (R43, R44) -/

/-- A peer's carried frame is applied (R43). -/
def applyPeer (s : State) (f : Frame) : State :=
  match f.body with
  | .join => s.clearOwner f.sender
  | .leave => s.clearOwner f.sender
  | .claim seize r => s.applyClaim f.sender seize r
  | .release r => s.applyRelease f.sender r
  | .ask first count => s.addResponses first count
  | .image r owner count data => s.takeImage r owner count data
  | .update r k data => s.applyUpdate f.sender r k data

/-- A carried frame of this station leaves its slot before it is applied (R44). -/
def takeOut (s : State) (f : Flight) : State :=
  let t := { s with flight := none }
  match f.slot with
  | .lane l => if f.attached then t.clearLaneSlot l else t
  | .station => if f.attached then t.emptyStationSlot else t.enterNext
  | .image => if f.attached then { t with imageSlot := none } else t

/-- The lane whose frame it was, if still attached, learns the outcome (R44, R131). -/
def tellLane (s : State) (f : Flight) (st : Status) : State :=
  if f.attached then
    match f.slot with
    | .lane l => s.completeLane l st
    | .station => s
    | .image => s
  else s

/-- A carried frame of this station, out of its slot, is applied and its producer learns the outcome (R44). A leftover
frame of the station slot moves nothing but ownership (R73). -/
def applyOwn (s : State) (f : Flight) : State :=
  match f.frame.body with
  | .join => if f.attached then (s.clearOwner f.frame.sender).joinCarried else s.clearOwner f.frame.sender
  | .leave => if f.attached then (s.clearOwner f.frame.sender).endOfLeave else s.clearOwner f.frame.sender
  | .ask first count => if f.attached then s.askCarried first count else s
  | .image r owner count data => s.takeImage r owner count data
  | .claim seize r =>
    (s.applyClaim f.frame.sender seize r).tellLane f ((s.applyClaim f.frame.sender seize r).claimOutcome r)
  | .release r => (s.applyRelease f.frame.sender r).tellLane f ((s.applyRelease f.frame.sender r).releaseOutcome r)
  | .update r k data =>
    (s.applyUpdate f.frame.sender r k data).tellLane f
      (if s.updateApplies r f.frame.sender then .done else .refusedOwner)

/-- A carried frame clean here that this station did not send (R43, R47): a duplicate if it bears this station's
number, else applied. -/
def carriedFromPeer (s : State) (f : Frame) : State :=
  if f.sender = s.stationNumber then s.haltedEntry else (s.applyPeer f).settle

/-- The end of a carried frame at a listening station (R43, R44, R46, R47). -/
def carriedHere (s : State) (bytes : List Byte) : State :=
  match checkFrame bytes with
  | none => s.loseAttempt.countAgain.settle
  | some f =>
    let t := { (s.resolveReadback bytes).countAgain with spoilStreak := 0 }
    match t.flight with
    | some fl =>
      if t.sent bytes then ((t.takeOut fl).applyOwn fl).settle else t.loseAttempt.settle.carriedFromPeer f
    | none => t.carriedFromPeer f

/-- The end of a carried frame in ADRIFT (R44, R47, R49): the first one clean here from a peer brings the JOINING entry
and is not applied; one in this station's number that it did not send is a duplicate. -/
def carriedAdrift (s : State) (bytes : List Byte) : State :=
  let t := { s.countAgain with flight := none }
  match checkFrame bytes with
  | none => t
  | some f =>
    if f.sender = s.stationNumber then if s.sent bytes then t else t.haltedEntry else t.joiningEntry

/-- The end of a carried frame (R43, R49). OFFLINE and HALTED receive nothing (R29, log 21). -/
def carriedFrameEnd (s : State) (bytes : List Byte) : State :=
  match s.stationState with
  | .joining | .active | .leaving => s.carriedHere bytes
  | .adrift => s.carriedAdrift bytes
  | .offline | .halted => { s with flight := none }

/-- This station reads dominant in the key after sending recessive (R33). -/
def arbitrationLost (s : State) : State :=
  match s.flight with
  | some f => if f.differed then s else s.loseAttempt.settle
  | none => s

/-- A frame's end, or the break of its framing, reaches a line unit that has received the frame from its start symbol
on. One that was released in the middle of the frame, or has no frame in progress, does not receive it (R30, log 1). -/
def whileReceiving (f : State → State) (s : State) : State := if s.phase = .inFrame then f s else s

end State

/-- The meaning of ACCESS_OPENING (R30, R31). -/
def execAccessOpening (s : State) : Host.Outcome State Fault Refusal := unlessReset State.accessOpening s

/-- The meaning of START_EDGE (R31). -/
def execStartEdge (s : State) : Host.Outcome State Fault Refusal := unlessReset State.startEdge s

/-- The meaning of ARBITRATION_LOST (R33). -/
def execArbitrationLost (s : State) : Host.Outcome State Fault Refusal := unlessReset State.arbitrationLost s

/-- The meaning of READBACK_DIFFERENCE (R40). -/
def execReadbackDifference (s : State) : Host.Outcome State Fault Refusal := unlessReset State.readbackDifference s

/-- The meaning of FRAMING_BREAK (R40). -/
def execFramingBreak (s : State) : Host.Outcome State Fault Refusal :=
  unlessReset (State.whileReceiving State.framingBreak) s

/-- The meaning of SPOILED_FRAME_END (R41). -/
def execSpoiledFrameEnd (bytes : List Byte) (s : State) : Host.Outcome State Fault Refusal :=
  unlessReset (State.whileReceiving fun t => t.spoiledFrameEnd bytes) s

/-- The meaning of CARRIED_FRAME_END (R43). -/
def execCarriedFrameEnd (bytes : List Byte) (s : State) : Host.Outcome State Fault Refusal :=
  unlessReset (State.whileReceiving fun t => t.carriedFrameEnd bytes) s

end Sys2Proof.Machine
end

