-- ==== Sys2Proof/Machine/Operands.lean ====
section
/-! DEFINITION. The fields of a chain entry and its validity (R99 to R101, 09 section 9.2). -/

namespace Sys2Proof.Machine

/-- The kind of a chain entry (R99). -/
inductive EntryKind where
  | put | get | claim | release | wait | goto
  deriving DecidableEq, Repr

namespace Entry

/-- Word j of entry i (R96). -/
def word (m : Memory) (i : Index) (j : Nat) : Word := m.readWord (8 * i.val + j)

/-- The kind in bits 3 to 0 of word 0; 0 and 7 to 15 are none. -/
def kind (m : Memory) (i : Index) : Option EntryKind :=
  match (word m i 0 &&& 0x000F).toNat with
  | 1 => some .put
  | 2 => some .get
  | 3 => some .claim
  | 4 => some .release
  | 5 => some .wait
  | 6 => some .goto
  | _ => none

/-- The flags of word 0 (R100). -/
def next (m : Memory) (i : Index) : Bool := (word m i 0).getLsbD 4
def link (m : Memory) (i : Index) : Bool := (word m i 0).getLsbD 5
def note (m : Memory) (i : Index) : Bool := (word m i 0).getLsbD 6
def seize (m : Memory) (i : Index) : Bool := (word m i 0).getLsbD 7
def alt (m : Memory) (i : Index) : Bool := (word m i 0).getLsbD 8

/-- The wait mode in bits 10 to 9 of word 0. -/
def mode (m : Memory) (i : Index) : WaitMode :=
  match ((word m i 0 >>> 9) &&& 3).toNat with
  | 0 => .ready
  | 1 => .changed
  | 2 => .unowned
  | _ => .mine

/-- The region in bits 6 to 0 of word 1. -/
def region (m : Memory) (i : Index) : RegionNo := regionOf (word m i 1).toNat

/-- The offset in bits 14 to 8 of word 1. -/
def offset (m : Memory) (i : Index) : Nat := ((word m i 1 >>> 8) &&& 0x7F).toNat

/-- The length in bits 7 to 0 of word 2. -/
def length (m : Memory) (i : Index) : Nat := (word m i 2 &&& 0xFF).toNat

/-- The staging address in bits 11 to 0 of word 3. -/
def staging (m : Memory) (i : Index) : Nat := (word m i 3 &&& 0xFFF).toNat

/-- The GOTO target in bits 7 to 0 of word 4. -/
def target (m : Memory) (i : Index) : Index := indexOf (word m i 4).toNat

/-- The WAIT value, word 4. -/
def value (m : Memory) (i : Index) : Word := word m i 4

/-- The on-fail index in bits 7 to 0 of word 5. -/
def onFail (m : Memory) (i : Index) : Index := indexOf (word m i 5).toNat

/-- The timeout in milliseconds, word 6; 0 is none. -/
def timeout (m : Memory) (i : Index) : Nat := (word m i 6).toNat

/-- The label, word 7. -/
def label (m : Memory) (i : Index) : Word := word m i 7

/-- No unassigned bit is set in word j (R101, R182). -/
def clean (m : Memory) (i : Index) (j : Nat) (unassigned : Word) : Bool := word m i j &&& unassigned == 0

/-- Words 0 and, with ALT, 5 hold no unassigned bit. -/
def cleanHead (m : Memory) (i : Index) : Bool :=
  clean m i 0 0xF800 && (!alt m i || clean m i 5 0xFF00)

/-- The fields of a PUT or GET segment: length 1 to 128 and within the staging buffer (R101). -/
def cleanSegment (m : Memory) (i : Index) : Bool :=
  clean m i 2 0xFF00 && clean m i 3 0xF000 &&
    decide (1 ≤ length m i) && decide (length m i ≤ 128) && decide (staging m i + length m i ≤ 4096)

/-- An entry taken on its own, or first of a group, is valid (R99 to R101). -/
def valid (m : Memory) (i : Index) : Bool :=
  match kind m i with
  | none => false
  | some .put | some .get =>
    cleanHead m i && clean m i 1 0x8080 && cleanSegment m i && !seize m i && mode m i == .ready
  | some .claim =>
    cleanHead m i && clean m i 1 0x8080 && !link m i && mode m i == .ready
  | some .release =>
    cleanHead m i && clean m i 1 0x8080 && !link m i && !seize m i && mode m i == .ready
  | some .wait =>
    cleanHead m i && clean m i 1 0x8080 && !link m i && !seize m i
  | some .goto =>
    clean m i 0 0xFFF0 && clean m i 4 0xFF00

/-- A later part of a group is valid: words 1 and 5 are not read (R99, R122). -/
def validPart (m : Memory) (i : Index) : Bool :=
  clean m i 0 0xF800 && cleanSegment m i && !seize m i && mode m i == .ready

/-- The on-fail index kept from the take, if ALT is set (R105). -/
def failIndex (m : Memory) (i : Index) : Option Index := if alt m i then some (onFail m i) else none

end Entry
end Sys2Proof.Machine
end

