-- ==== Sys2Proof/Machine/Entries.lean ====
section
/-! DEFINITION. Taking a chain entry: reading it or its group, the checks, the note, and the action of each kind
(R102 to R124). -/

namespace Sys2Proof.Machine

/-- A group as read (R120 to R124): its staging segments (address, length) in order, their total length, the index and
NEXT flag of its last entry, how many entries were read, and its note: the index and label of the last entry with NOTE
set and the number of those entries. -/
structure Group where
  segs : List (Nat × Nat)
  total : Nat
  last : Index
  next : Bool
  size : Nat
  note : Option (Index × Word)
  notes : Nat
  deriving DecidableEq, Repr

/-- The outcome of reading a group: a hard failure at an index, or the group. -/
inductive GroupRead where
  | fail (st : Status) (at_ : Index)
  | ok (g : Group)
  deriving DecidableEq, Repr

/-- The outcome of looking for a group's next part: a hard failure, or its index and the entries read on the way. -/
inductive PartRead where
  | fail (st : Status) (at_ : Index)
  | ok (i : Index) (passed : Nat)
  deriving DecidableEq, Repr

namespace Entry

/-- The next part of a group after an entry below index 255: the entry at the next index, or the target of a GOTO there
(R120). A GOTO between parts at index 255 has no next index (R121). -/
def nextPart (m : Memory) (i : Index) : PartRead :=
  let j := indexOf (i.val + 1)
  if kind m j = some .goto then
    if j.val = 255 then .fail .badSequence j
    else if valid m j then .ok (target m j) 1
    else .fail .badEntry j
  else .ok j 0

/-- The checks of a group's entry at index p (R121): sequence, then validity, then the running length. -/
def partFailure (m : Memory) (k : EntryKind) (later : Bool) (offset total : Nat) (p : Index) : Option Status :=
  if kind m p ≠ some k then some .badSequence
  else if link m p = true ∧ p.val = 255 then some .badSequence
  else if (if later then validPart m p else valid m p) = false then some .badEntry
  else if offset + total + length m p > 128 then some .length
  else none

/-- The group with the part at index p added, `passed` GOTOs having been read on the way to it. -/
def addPart (m : Memory) (g : Group) (p : Index) (passed : Nat) : Group :=
  { segs := g.segs ++ [(staging m p, length m p)]
    total := g.total + length m p
    last := p
    next := next m p
    size := g.size + passed + 1
    note := if note m p then some (p, label m p) else g.note
    notes := if note m p then g.notes + 1 else g.notes }

/-- Read the part at index p and those after it (R120). Every length is at least 1, so a read ends LENGTH at the latest
at the 129th part (R121). -/
def readParts (m : Memory) (k : EntryKind) (offset : Nat) : Nat → Bool → Index → Nat → Group → GroupRead
  | 0, _, p, _, _ => .fail .length p
  | fuel + 1, later, p, passed, g =>
    match partFailure m k later offset g.total p with
    | some st => .fail st p
    | none =>
      if link m p then
        match nextPart m p with
        | .fail st q => .fail st q
        | .ok q n => readParts m k offset fuel true q n (addPart m g p passed)
      else .ok (addPart m g p passed)

/-- The group that begins at index i; an entry without LINK is a group of one (R120, R121). -/
def readGroup (m : Memory) (k : EntryKind) (i : Index) : GroupRead :=
  readParts m k (offset m i) 129 false i 0
    { segs := [], total := 0, last := i, next := false, size := 0, note := none, notes := 0 }

end Entry

namespace State

/-! ## The steps of a take -/

/-- The chain ends with a hard failure found at the take, at the entry read last (R102, R106). -/
def failTake (s : State) (l : LaneNo) (st : Status) (i : Index) : State :=
  (s.modifyLane l fun x => { x with cur := i }).endLane l st

/-- The read and its checks have passed: the lane keeps the index read last and what it needs of the entry (R96,
R102). -/
def beginEntry (s : State) (l : LaneNo) (last : Index) (e : EntryCtx) : State :=
  s.modifyLane l fun x => { x with cur := last, entry := some e }

/-- The note of an entry or group, if NOTE is set on it (R102, R122, R142). -/
def handNotes (s : State) (l : LaneNo) (note : Option (Index × Word)) (count : Nat) : State :=
  match note with
  | some (i, label) => s.handNote l i label count
  | none => s

/-- The lane's frame is placed and the lane is OFFERED (R108, R130). -/
def placeFrame (s : State) (l : LaneNo) (f : LaneFrame) : State :=
  (s.placeLaneFrame l f).modifyLane l fun x => { x with state := .offered }

/-! ## GOTO (R103) -/

/-- A GOTO completes at its take, unless it is the chain's first entry (log 11), follows a GOTO, or is invalid. -/
def takeGoto (s : State) (l : LaneNo) : State :=
  let i := (s.lane l).cur
  if (s.lane l).completed = 0 ∨ (s.lane l).prevGoto = true then s.endLane l .badSequence
  else if Entry.valid s.chain i then
    s.modifyLane l fun x =>
      { x with completed := satAdd 65535 x.completed 1, cur := Entry.target s.chain i, prevGoto := true }
  else s.endLane l .badEntry

/-! ## PUT (R108) -/

/-- The bytes of a group's staging segments, in order (R123). -/
def gather (s : State) (segs : List (Nat × Nat)) : List Byte := segs.flatMap fun g => s.staging.readBytes g.1 g.2

/-- The PUT take (R17, R108): CURRENT, guard OPEN, owner none or this station; then the UPDATE is built and placed. -/
def putAction (s : State) (l : LaneNo) (r : RegionNo) (offset : Nat) (g : Group) : State :=
  if (s.region r).state ≠ .current then s.completeLane l .notCurrent
  else if (s.region r).guardOpen = false then s.completeLane l .refusedGuard
  else if (s.region r).owner ≠ none ∧ (s.region r).owner ≠ some s.stationNumber then s.completeLane l .refusedOwner
  else s.placeFrame l (.update r offset (s.gather g.segs))

/-! ## GET (R111) -/

/-- Region bytes from an address of the area on go to the segments in order (R123). -/
def scatter (area : Memory) : Nat → List (Nat × Nat) → Memory → Memory
  | _, [], staging => staging
  | a, g :: gs, staging => scatter area (a + g.2) gs (staging.writeBytes g.1 (area.readBytes a g.2))

/-- The GET copy (R16, R111). -/
def getAction (s : State) (l : LaneNo) (r : RegionNo) (offset : Nat) (g : Group) : State :=
  if (s.region r).state ≠ .current then s.completeLane l .notCurrent
  else { s with staging := scatter s.area (128 * r.val + offset) g.segs s.staging }.completeLane l .done

/-- A PUT or GET, alone or first of a group (R102, R120): the group is read whole, then its note, then its action. -/
def takeTransfer (s : State) (l : LaneNo) (k : EntryKind) (act : State → RegionNo → Nat → Group → State) : State :=
  let i := (s.lane l).cur
  match Entry.readGroup s.chain k i with
  | .fail st q => s.failTake l st q
  | .ok g =>
    act ((s.beginEntry l g.last { next := g.next, alt := Entry.failIndex s.chain i, size := g.size }).handNotes l g.note
        g.notes)
      (Entry.region s.chain i) (Entry.offset s.chain i) g

/-! ## CLAIM, RELEASE and WAIT (R113, R115, R117) -/

/-- The CLAIM take (R58, R113). -/
def claimAction (s : State) (l : LaneNo) (r : RegionNo) (seize : Bool) : State :=
  if (s.region r).state ≠ .current then s.completeLane l .notCurrent
  else if (s.region r).owner = some s.stationNumber then s.completeLane l .done
  else if seize = true ∨ (s.region r).owner = none then s.placeFrame l (.claim seize r)
  else s.completeLane l .claimLost

/-- The RELEASE take (R58, R115). -/
def releaseAction (s : State) (l : LaneNo) (r : RegionNo) : State :=
  if (s.region r).state ≠ .current then s.completeLane l .notCurrent
  else if (s.region r).owner = some s.stationNumber then s.placeFrame l (.release r)
  else s.completeLane l .notOwner

/-- The WAIT take (R117): DONE if the condition holds, else WAITING with its deadline; timeout 0 sets none. -/
def waitAction (s : State) (l : LaneNo) (c : WaitCond) (timeout : Nat) : State :=
  if s.waitHolds c then s.completeLane l .done
  else
    s.modifyLane l fun x =>
      { x with state := .waiting, wait := some c, deadline := if timeout = 0 then none else some timeout }

/-- A CLAIM, RELEASE or WAIT (R102): validity, then the note, then the action. -/
def takeSingle (s : State) (l : LaneNo) (act : State → Index → State) : State :=
  let i := (s.lane l).cur
  if Entry.valid s.chain i then
    act ((s.beginEntry l i { next := Entry.next s.chain i, alt := Entry.failIndex s.chain i, size := 1 }).handNotes l
        (if Entry.note s.chain i then some (i, Entry.label s.chain i) else none) 1) i
  else s.endLane l .badEntry

/-- The condition of a WAIT entry (R116); the value is read in mode CHANGED alone (R99). -/
def waitCondOf (m : Memory) (i : Index) : WaitCond :=
  { region := Entry.region m i, mode := Entry.mode m i
    value := if Entry.mode m i = .changed then Entry.value m i else 0 }

/-- The take of the entry at a RUNNING lane's current index (R102). Taking any entry that is no GOTO clears the
previous-was-GOTO mark (R103). -/
def takeEntry (s : State) (l : LaneNo) : State :=
  let t := s.modifyLane l fun x => { x with prevGoto := false }
  match Entry.kind s.chain (s.lane l).cur with
  | some .goto => s.takeGoto l
  | some .put => t.takeTransfer l .put fun u r k g => u.putAction l r k g
  | some .get => t.takeTransfer l .get fun u r k g => u.getAction l r k g
  | some .claim => t.takeSingle l fun u i => u.claimAction l (Entry.region s.chain i) (Entry.seize s.chain i)
  | some .release => t.takeSingle l fun u i => u.releaseAction l (Entry.region s.chain i)
  | some .wait => t.takeSingle l fun u i => u.waitAction l (waitCondOf s.chain i) (Entry.timeout s.chain i)
  | none => t.endLane l .badEntry

/-- ENTRY_TAKE by lane l (R129): a lane that is not RUNNING takes nothing (log 9). -/
def entryTake (s : State) (l : LaneNo) : State :=
  if (s.lane l).state = .running then (s.takeEntry l).settle else s

end State

/-- The meaning of ENTRY_TAKE (R102). -/
def execEntryTake (lane : LaneNo) (s : State) : Host.Outcome State Fault Refusal :=
  unlessReset (fun t => t.entryTake lane) s

end Sys2Proof.Machine
end

