-- ==== Sys2Proof/WellFormed.lean ====
section
/-! DEFINITION. Which commands are well-formed: a command's operands fit the row it stands for. An ill-formed term is
still given an effect by the machine (that of the write it spells, log 14); no statement leans on one. -/

namespace Sys2Proof

/-- The request code word (R170). -/
def requestCodeAddr : WordAddr := 0x3178

/-- The POP word (R149). -/
def popAddr : WordAddr := 0x3173

/-- The ten request codes are 1 to 10 (09 section 9.5). -/
def knownRequest (code : Word) : Bool := decide (1 ≤ code.toNat) && decide (code.toNat ≤ 10)

/-- The most bytes between a start symbol and the spoil slot; more of them break the framing (R38) and reach the
machine as FRAMING_BREAK. -/
def maxFrameBytes : Nat := 136

namespace Instr

/-- A command is well-formed if its operands are of its row: UNKNOWN_REQUEST writes no known request code,
HOST_WORD_WRITE writes a word with no behaviour of its own, a frame end has at most 136 bytes. -/
def wellFormed : Instr → Bool
  | .unknownRequest code => !knownRequest code
  | .hostWordWrite addr _ => decide (addr ≠ requestCodeAddr) && decide (addr ≠ popAddr)
  | .spoiledFrameEnd bytes => decide (bytes.length ≤ maxFrameBytes)
  | .carriedFrameEnd bytes => decide (bytes.length ≤ maxFrameBytes)
  | .configure => true
  | .softReset _ => true
  | .rejoin => true
  | .leave => true
  | .start => true
  | .stop => true
  | .guardOpen => true
  | .guardShut => true
  | .watchArm => true
  | .watchDisarm => true
  | .pop _ => true
  | .pinReset => true
  | .pinResetEnd _ => true
  | .accessOpening => true
  | .startEdge => true
  | .arbitrationLost => true
  | .framingBreak => true
  | .refreshWindowExpiry => true
  | .waitTimeout _ => true
  | .entryTake _ => true
  | .readbackDifference => true

end Instr
end Sys2Proof
end

