-- ==== Sys2Proof/Machine/HostPort.lean ====
section
/-! DEFINITION. The host port's writes and the resets: what an access on the port's pins is, the request code word,
HOST_WORD_WRITE, SOFT_RESET, PIN_RESET and PIN_RESET_END (R165 to R171, R176 to R178). -/

namespace Sys2Proof.Machine

/-! ## Accesses (R165) -/

/-- One access the host port takes: a read or a write of one word. -/
inductive HostAccess where
  | read (addr : WordAddr)
  | write (addr : WordAddr) (value : Word)
  deriving DecidableEq, Repr

/-- The access that the levels on CSn, RDn and WRn (`true` is high) select, with A0 to A13 and D0 to D15: none unless
CSn is low with a strobe; with both strobes low a read, WRn ignored (R165). -/
def hostAccess (csn rdn wrn : Bool) (addr : WordAddr) (data : Word) : Option HostAccess :=
  if csn then none else if rdn then (if wrn then none else some (.write addr data)) else some (.read addr)

/-- The request a value written to the request code word takes, with the levels on the straps at that moment, which a
SOFT_RESET samples (R170, R176, R179, 09 section 9.5). -/
def requestCommand (code : Word) (levels : Station) : Instr :=
  match code.toNat with
  | 1 => .configure
  | 2 => .softReset levels
  | 3 => .rejoin
  | 4 => .leave
  | 5 => .start
  | 6 => .stop
  | 7 => .guardOpen
  | 8 => .guardShut
  | 9 => .watchArm
  | 10 => .watchDisarm
  | _ => .unknownRequest code

/-- The command a write of a word is: a POP, a request, or the write of a word with no behaviour of its own (R149,
R165, R170). -/
def writeCommand (addr : WordAddr) (value : Word) (levels : Station) : Instr :=
  if addr = popAddr then .pop value
  else if addr = requestCodeAddr then requestCommand value levels
  else .hostWordWrite addr value

namespace State

/-- SOFT_RESET (R176): every block reset, the staging buffer and the chain store kept, the straps sampled, the answer
OK. -/
def softReset (s : State) (levels : Station) : State :=
  (({ s.blocksReset with staging := s.staging, chain := s.chain } : State).sampleStraps levels).answer .ok 0

/-- PIN_RESET (R177): every block held at its reset values. -/
def pinReset (s : State) : State := { s.blocksReset with inReset := true }

/-- PIN_RESET_END (R178): the straps are sampled and the station is OFFLINE at its reset values; nothing outside a pin
reset (log 9). -/
def pinResetEnd (s : State) (levels : Station) : State :=
  if s.inReset then s.blocksReset.sampleStraps levels else s

/-- A write of a value to the request code word takes a request (R170, 09 section 9.5). The terms that come here do not
say the levels on the straps; a soft reset among them, always of an ill-formed term, samples a free value (log 14). -/
def takeRequest (s : State) (code : Word) : State :=
  match code.toNat with
  | 1 => s.configure
  | 2 => { s with choices := s.choices + 1 }.softReset (Config.unsaidStraps s.choices)
  | 3 => s.rejoin
  | 4 => s.leave
  | 5 => s.start
  | 6 => s.stop
  | 7 => s.setGuards true
  | 8 => s.setGuards false
  | 9 => s.watchArm
  | 10 => s.watchDisarm
  | _ => s.answer .unknown 0

/-- A host write of a word (R165, R167). -/
def writeWord (s : State) (addr : WordAddr) (value : Word) : State :=
  let a := addr.toNat
  if 0x2000 ≤ a ∧ a ≤ 0x27FF then { s with staging := s.staging.writeWord (a - 0x2000) value }
  else if 0x2800 ≤ a ∧ a ≤ 0x2FFF then { s with chain := s.chain.writeWord (a - 0x2800) value }
  else if a = 0x3173 then s.popHead
  else if a = 0x3174 then { s with p0 := value }
  else if a = 0x3175 then { s with p1 := value }
  else if a = 0x3176 then { s with p2 := value }
  else if a = 0x3177 then { s with p3 := value }
  else if a = 0x3178 then s.takeRequest value
  else s

end State

/-- The meaning of SOFT_RESET (R176). -/
def execSoftReset (straps : Station) (s : State) : Host.Outcome State Fault Refusal :=
  unlessReset (fun t => t.softReset straps) s

/-- The meaning of UNKNOWN_REQUEST (R170). -/
def execUnknownRequest (code : Word) (s : State) : Host.Outcome State Fault Refusal :=
  unlessReset (fun t => t.takeRequest code) s

/-- The meaning of HOST_WORD_WRITE (R167). -/
def execHostWordWrite (addr : WordAddr) (value : Word) (s : State) : Host.Outcome State Fault Refusal :=
  unlessReset (fun t => t.writeWord addr value) s

/-- The meaning of PIN_RESET (R177), in pin reset too: it goes on. -/
def execPinReset (s : State) : Host.Outcome State Fault Refusal := .next s.pinReset

/-- The meaning of PIN_RESET_END (R178). -/
def execPinResetEnd (straps : Station) (s : State) : Host.Outcome State Fault Refusal := .next (s.pinResetEnd straps)

end Sys2Proof.Machine
end

