-- ==== Sys2Proof/Machine/Flags.lean ====
section
/-! DEFINITION. Codes and flag bits of the words the host reads, and the interrupt output (R22, R145, R148, R150, R157,
R171, R180, 09 sections 9.3 to 9.5). -/

namespace Sys2Proof.Machine

/-- A flag in a bit of a word. -/
def flagBit (b : Bool) (n : Nat) : Nat := if b then 2 ^ n else 0

/-- The code of a region state (09 section 9.4). -/
def RegionState.code : RegionState → Nat
  | .stale => 0
  | .refreshing => 1
  | .current => 2

/-- The code of a station state (09 section 9.4). -/
def StationState.code : StationState → Nat
  | .offline => 0
  | .joining => 1
  | .active => 2
  | .leaving => 3
  | .adrift => 4
  | .halted => 5

/-- The code of a lane state (09 section 9.4). -/
def LaneState.code : LaneState → Nat
  | .free => 0
  | .running => 1
  | .offered => 2
  | .onLine => 3
  | .waiting => 4
  | .holding => 5

/-- The code of a watch state (09 section 9.4). -/
def WatchState.code : WatchState → Nat
  | .off => 0
  | .armed => 1
  | .pending => 2

/-- The code of a watch mode (R158). -/
def WatchMode.code : WatchMode → Nat
  | .content => 0
  | .peer => 1
  | .owner => 2

/-- The chain status codes (09 section 9.3). -/
def Status.code : Status → Nat
  | .done => 1
  | .notCurrent => 2
  | .refusedGuard => 3
  | .refusedOwner => 4
  | .claimLost => 5
  | .notOwner => 6
  | .waitTimeout => 7
  | .abandoned => 8
  | .badEntry => 9
  | .badSequence => 10
  | .length => 11
  | .stopped => 12
  | .detached => 13

/-- The code of an end status, 0 for none (R182). -/
def endStatusCode : Option Status → Nat
  | some st => st.code
  | none => 0

/-- The answer codes (09 section 9.5). -/
def Answer.code : Answer → Nat
  | .ok => 1
  | .noLane => 2
  | .wrongState => 3
  | .badParameter => 4
  | .notRunning => 5
  | .alreadyEnded => 6
  | .unknown => 7

/-- The station event codes (09 section 9.3). -/
def eventCode : StationEvent → Nat
  | .joined => 1
  | .adrift => 2
  | .left => 3
  | .halted => 4

namespace State

/-- Owner-valid: the region is CURRENT and its owner is a station (R22). -/
def ownerValid (s : State) (r : RegionNo) : Bool :=
  decide ((s.region r).state = .current) && (s.region r).owner.isSome

/-- The level of INTn: low exactly while the interrupt enable is set and the queue holds a record (R150, R175). `true`
is high. -/
def intN (s : State) : Bool := !(s.irqEnable && !s.queue.isEmpty)

end State
end Sys2Proof.Machine
end

