-- ==== Sys2Proof/Machine/HostRead.lean ====
section
/-! DEFINITION. What a host read of each word returns (R165, R166, 09 sections 9.3 to 9.6). A read is no command: it
changes no state in any block (R166), and unassigned bits read 0 (R182). -/

namespace Sys2Proof.Machine

/-- The eight bytes of a completion record as four words (09 section 9.3). -/
def Record.word (rec : Record) (j : Nat) : Word :=
  match rec, j with
  | .chainEnd c, 0 => wordOf 1 (BitVec.ofNat 8 (c.lane.val + flagBit c.folded 7))
  | .chainEnd c, 1 => wordOf (BitVec.ofNat 8 c.status.code) (BitVec.ofNat 8 c.last.val)
  | .chainEnd c, 2 => c.tag
  | .chainEnd c, 3 => BitVec.ofNat 16 c.completed
  | .note l _ _ _ _, 0 => wordOf 2 (BitVec.ofNat 8 l.val)
  | .note _ i _ n _, 1 => wordOf (BitVec.ofNat 8 i.val) (BitVec.ofNat 8 n)
  | .note _ _ label _ _, 2 => label
  | .note _ _ _ _ tag, 3 => tag
  | .watch w _ _ _ own oc _, 0 => wordOf 3 (BitVec.ofNat 8 (w.val + flagBit own 6 + flagBit oc 7))
  | .watch _ r _ n _ _ _, 1 => wordOf (BitVec.ofNat 8 r.val) (BitVec.ofNat 8 n)
  | .watch _ _ count _ _ _ _, 2 => count
  | .watch _ _ _ _ _ _ owner, 3 => wordOf (ownerByte owner) 0
  | .station k _ _, 0 => wordOf 4 (BitVec.ofNat 8 (eventCode k))
  | .station _ v n, 1 => wordOf (BitVec.ofNat 8 v) (BitVec.ofNat 8 n)
  | .lost r _, 0 => wordOf 5 (BitVec.ofNat 8 r.val)
  | .lost _ t, 1 => wordOf (t.setWidth 8) 0
  | _, _ => 0

namespace State

/-- The region status word (R22). -/
def regionStatusWord (s : State) (r : RegionNo) : Word :=
  BitVec.ofNat 16
    ((s.region r).state.code + flagBit (s.region r).guardOpen 2 + flagBit (s.region r).responding 3 +
      flagBit (s.ownerValid r) 7 +
      256 * (if s.ownerValid r then (match (s.region r).owner with
        | some t => t.toNat
        | none => 0) else 0))

/-- Word j of lane l's context (R145). -/
def laneWord (s : State) (l : LaneNo) (j : Nat) : Word :=
  match j with
  | 0 =>
    BitVec.ofNat 16 ((s.lane l).state.code + flagBit (s.lane l).stopPending 4 + flagBit (s.lane l).note.isSome 5 +
      flagBit (s.lane l).prevGoto 6)
  | 1 => (s.lane l).tag
  | 2 => BitVec.ofNat 16 ((s.lane l).first.val + 256 * (s.lane l).cur.val)
  | 3 => BitVec.ofNat 16 (s.lane l).completed
  | 4 => BitVec.ofNat 16 (s.laneAttempts l + 256 * endStatusCode (s.lane l).endStatus)
  | 5 =>
    match (s.lane l).note with
    | some n => BitVec.ofNat 16 (n.index.val + 256 * n.merge)
    | none => 0
  | 6 =>
    match (s.lane l).note with
    | some n => n.label
    | none => 0
  | 7 =>
    match (s.lane l).deadline with
    | some t => BitVec.ofNat 16 t
    | none => 0
  | _ => 0

/-- Word j of watch w (R157). -/
def watchWord (s : State) (w : WatchNo) (j : Nat) : Word :=
  match j with
  | 0 =>
    BitVec.ofNat 16 ((s.watch w).state.code + 16 * (s.watch w).mode.code + flagBit (s.watch w).own 6 +
      flagBit (s.watch w).ownerChanged 7)
  | 1 => BitVec.ofNat 16 (s.watch w).region.val
  | 2 => BitVec.ofNat 16 (s.watch w).changes
  | _ => 0

/-- Word j of the head window (R148). -/
def headWord (s : State) (j : Nat) : Word :=
  match s.queue with
  | [] => 0
  | rec :: _ => rec.word j

/-- The station status word (R180). -/
def stationStatusWord (s : State) : Word :=
  BitVec.ofNat 16 (s.stationState.code + 8 * s.stationNumber.toNat + 256 * s.spoilStreak + 8192 * s.passCount)

/-- The configuration readback word (R180). -/
def configWord (s : State) : Word := BitVec.ofNat 16 (s.rateCode.toNat + flagBit s.irqEnable 4)

/-- The request result word (R171). -/
def resultWord (s : State) : Word :=
  match s.result with
  | some x => wordOf (BitVec.ofNat 8 x.answer.code) x.value
  | none => 0

/-- What a host read of a word returns (R165); 0 for every word while the station is in pin reset (R177). -/
def hostRead (s : State) (addr : WordAddr) : Word :=
  let a := addr.toNat
  if s.inReset then 0
  else if a ≤ 0x1FFF then s.area.readWord a
  else if a ≤ 0x27FF then s.staging.readWord (a - 0x2000)
  else if a ≤ 0x2FFF then s.chain.readWord (a - 0x2800)
  else if a ≤ 0x307F then s.regionStatusWord (regionOf (a - 0x3000))
  else if a ≤ 0x30FF then (s.region (regionOf (a - 0x3080))).count
  else if a ≤ 0x311F then s.laneWord ⟨(a - 0x3100) / 8 % 4, by omega⟩ ((a - 0x3100) % 8)
  else if a ≤ 0x315F then s.watchWord ⟨(a - 0x3120) / 4 % 16, by omega⟩ ((a - 0x3120) % 4)
  else if a ≤ 0x3163 then s.headWord (a - 0x3160)
  else if a = 0x3170 then s.stationStatusWord
  else if a = 0x3171 then s.configWord
  else if a = 0x3172 then BitVec.ofNat 16 s.queue.length
  else if a = 0x3174 then s.p0
  else if a = 0x3175 then s.p1
  else if a = 0x3176 then s.p2
  else if a = 0x3177 then s.p3
  else if a = 0x3179 then s.resultWord
  else 0

/-- What the levels on the pins bring (R165), with those on CSn, RDn and WRn, A0 to A13, D0 to D15 and SN0 to SN4 at the
access: the data a read returns, or the command a write is. A SOFT_RESET carries the levels on SN0 to SN4 (R176, R179). -/
def portAccess (s : State) (csn rdn wrn : Bool) (addr : WordAddr) (data : Word) (levels : Station) :
    Option (Word ⊕ Instr) :=
  (hostAccess csn rdn wrn addr data).map fun
    | .read a => .inl (s.hostRead a)
    | .write a v => .inr (writeCommand a v levels)

end State
end Sys2Proof.Machine
end

