-- ==== Sys2Proof/Machine/Dispatch.lean ====
section
/-! DEFINITION. One arm per command: the meaning it calls. -/

namespace Sys2Proof.Machine

def exec (i : Instr) (s : State) : Host.Outcome State Fault Refusal :=
  match i with
  | .configure => Sys2Proof.Machine.execConfigure s
  | .softReset straps => Sys2Proof.Machine.execSoftReset straps s
  | .rejoin => Sys2Proof.Machine.execRejoin s
  | .leave => Sys2Proof.Machine.execLeave s
  | .start => Sys2Proof.Machine.execStart s
  | .stop => Sys2Proof.Machine.execStop s
  | .guardOpen => Sys2Proof.Machine.execGuardOpen s
  | .guardShut => Sys2Proof.Machine.execGuardShut s
  | .watchArm => Sys2Proof.Machine.execWatchArm s
  | .watchDisarm => Sys2Proof.Machine.execWatchDisarm s
  | .unknownRequest code => Sys2Proof.Machine.execUnknownRequest code s
  | .pop value => Sys2Proof.Machine.execPop value s
  | .hostWordWrite addr value => Sys2Proof.Machine.execHostWordWrite addr value s
  | .pinReset => Sys2Proof.Machine.execPinReset s
  | .pinResetEnd straps => Sys2Proof.Machine.execPinResetEnd straps s
  | .accessOpening => Sys2Proof.Machine.execAccessOpening s
  | .startEdge => Sys2Proof.Machine.execStartEdge s
  | .arbitrationLost => Sys2Proof.Machine.execArbitrationLost s
  | .framingBreak => Sys2Proof.Machine.execFramingBreak s
  | .spoiledFrameEnd bytes => Sys2Proof.Machine.execSpoiledFrameEnd bytes s
  | .carriedFrameEnd bytes => Sys2Proof.Machine.execCarriedFrameEnd bytes s
  | .refreshWindowExpiry => Sys2Proof.Machine.execRefreshWindowExpiry s
  | .waitTimeout lane => Sys2Proof.Machine.execWaitTimeout lane s
  | .entryTake lane => Sys2Proof.Machine.execEntryTake lane s
  | .readbackDifference => Sys2Proof.Machine.execReadbackDifference s

end Sys2Proof.Machine
end

