-- ==== Sys2Proof/Safety.lean ====
section
/-! DEFINITION. What it means for a state of the station to be in order: the invariants the statements are about. Each
is a property of one state; that every step keeps it is stated in Certificates/Slice0/Obligations.lean. -/

namespace Sys2Proof.Machine

/-- A region record is in order: a region that is not CURRENT has owner none (R5) and is not in the response set
(R82). -/
def Region.InOrder (x : Region) : Prop := x.state ≠ .current → x.owner = none ∧ x.responding = false

/-- The arbiter's order as a number: the lower one is served first (R153). -/
def producerRank : Producer → Nat
  | .event .joined => 0
  | .event .adrift => 1
  | .event .left => 2
  | .event .halted => 3
  | .lost r => 4 + r.val
  | .chainEnd l => 132 + l.val
  | .note l => 136 + l.val
  | .watch w => 140 + w.val

/-- An answer with result value 0 (R171). -/
def Answer.plain (a : Answer) : Option Reply := some { answer := a, value := 0 }

/-- A region record as a drift flush or the end of LEAVE leaves it (R25, R26). -/
def Region.lost (x : Region) : Region := { x with state := .stale, owner := none, responding := false }

/-- A lane as LEAVE and a drift flush leave it: a busy one ended DETACHED, another as it was (R138). -/
def Lane.detached (l : LaneNo) (x : Lane) : Lane := if x.state.busy then x.endChain l .detached else x

/-- A lane keeps a CHAIN_END record exactly in HOLDING, and it is the lane's own: its number, end status, tag, current
index and count (R139, R140, R141). -/
def Lane.HeldFits (l : LaneNo) (x : Lane) : Prop :=
  (x.held.isSome = true ↔ x.state = .holding) ∧
    ∀ c, x.held = some c →
      c.lane = l ∧ x.endStatus = some c.status ∧ c.tag = x.tag ∧ c.last = x.cur ∧ c.completed = x.completed

/-- A slot holds frames of this kind (R34, R36). -/
def SlotId.Holds : SlotId → FrameBody → Prop
  | .lane _, b => (∃ r k data, b = .update r k data) ∨ (∃ seize r, b = .claim seize r) ∨ ∃ r, b = .release r
  | .station, b => b = .join ∨ b = .leave ∨ ∃ first count, b = .ask first count
  | .image, b => ∃ r owner count data, b = .image r owner count data

/-- A watch's mode matches a change report (R158). -/
def WatchMode.Matches (m : WatchMode) (rep : ChangeReport) : Prop :=
  match m with
  | .content => rep.content = true
  | .peer => rep.content = true ∧ rep.own = false
  | .owner => rep.owner = true

namespace State

/-- The condition of a WAIT (R116): its region CURRENT, and the test of its mode. -/
def WaitTest (s : State) (c : WaitCond) : Prop :=
  (s.region c.region).state = .current ∧
    match c.mode with
    | .ready => True
    | .changed => (s.region c.region).count ≠ c.value
    | .unowned => (s.region c.region).owner = none
    | .mine => (s.region c.region).owner = some s.stationNumber

/-- `u` is `s` after a drift flush, before its records are handed over (R25, R50, R89). -/
def IsFlushOf (u s : State) : Prop :=
  (∀ r, u.region r = (s.region r).lost) ∧ (∀ l, u.lane l = (s.lane l).detached l) ∧
    u = { s with
          regions := u.regions, lanes := u.lanes, laneSlots := Vector.replicate 4 none, placement := []
          stationSlot := none, stationNext := none, imageSlot := none
          flight := s.flight.map fun f => { f with attached := false }
          window := none, passCount := 0, join := none }

/-- A listening station is receiving the frame in progress (R29, R30). -/
def Receives (s : State) : Prop := s.inReset = false ∧ s.listening = true ∧ s.phase = .inFrame

/-- A listening station, with no frame of its own on the line, receives clean the bytes of a peer's frame (R43). -/
def Hears (s : State) (bytes : List Byte) (f : Frame) : Prop :=
  s.Receives ∧ s.flight = none ∧ checkFrame bytes = some f ∧ f.sender ≠ s.stationNumber

/-- The bytes at the frame's end are those of this listening station's own frame on the line, sent without a readback
difference and clean (R44, R47). -/
def Sends (s : State) (bytes : List Byte) (f : Flight) : Prop :=
  s.Receives ∧ s.flight = some f ∧ f.differed = false ∧ f.frame.bytes = bytes ∧
    f.frame.sender = s.stationNumber ∧ checkFrame bytes = some f.frame

/-- The end of a frame that was clean at this listening station: it counts toward the next opening, the spoil streak is 0
(R30, R46). -/
def atFrameEnd (s : State) : State := { s with phase := .counting, spoilStreak := 0 }

/-- A frame entering the station slot (R34), if there is one. -/
def entering (f : Option StationFrame) : Option StationSlot :=
  f.map fun g => { frame := g, attempts := 0, held := false }

/-- This station's frame `f` is over, and lane l's slot empty (R44). -/
def withoutLaneFrame (s : State) (l : LaneNo) : State := { s.clearLaneSlot l with flight := none }

/-- The frame that waits for the end of an attempt enters the station slot, if there is one; else the slot stays as it is
(R37). -/
def nextEntered (s : State) : State :=
  if s.stationNext.isSome then { s with stationSlot := entering s.stationNext, stationNext := none } else s

/-- Command `c` ends the frame on the line as spoiled at this listening station and leaves the spoil streak at `n`, below
16: a framing break, or the end of this station's own frame, sent without a readback difference, or with one that a
command told before or that the bytes tell (R40, R41, R46, log 2). -/
def SpoilEnds (s : State) (c : Instr) (n : Nat) : Prop :=
  s.Receives ∧ n < 16 ∧
    (c = .framingBreak ∧ n = s.spoilStreak + 1 ∨
      ∃ f bytes, s.flight = some f ∧ c = .spoiledFrameEnd bytes ∧
        (f.differed = false ∧ f.frame.bytes = bytes ∧ n = 0 ∨
          (f.differed = true ∨ f.frame.bytes ≠ bytes ∧ bytes.head? = some f.frame.key) ∧ n = s.spoilStreak + 1))

/-- The image slot of `u` as the response set of `u` asks, from the one it was before: the lowest region of the set, kept
with its attempt count if it was there, else new with attempt count 0; empty for an empty set (R36). -/
def ImageSlotFollows (u : State) (before : Option ImageSlot) : Prop :=
  ((∀ r, (u.region r).responding = false) → u.imageSlot = none) ∧
    ∀ r, (u.region r).responding = true → (∀ q, q < r → (u.region q).responding = false) →
      ∃ n, u.imageSlot = some { region := r, attempts := n } ∧
        ((∃ o, before = some o ∧ o.region = r ∧ o.attempts = n) ∨ ((∀ o, before = some o → o.region ≠ r) ∧ n = 0))

/-- `u` is `s` after its attempt with frame `f` is over and not counted, arbitration lost (R33, R37, R50, R136): a lane's
frame stays offered as it was, or leaves its slot with a stop pending, its chain STOPPED; a frame of the station slot
stays, or gives way to the one that waits; the image slot follows the response set. A frame that its slot no longer holds
tells no producer. -/
def AttemptLost (u s : State) (f : Flight) : Prop :=
  (∀ l, f.slot = .lane l → f.attached = true → (s.lane l).stopPending = false →
    (∀ k, u.lane k = if k = l then { s.lane l with state := .offered } else s.lane k) ∧
      u = { s with flight := none, lanes := u.lanes }) ∧
  (∀ l, f.slot = .lane l → f.attached = true → (s.lane l).stopPending = true →
    (∀ k, u.lane k = if k = l then (s.lane l).endChain l .stopped else s.lane k) ∧
      u = { s.withoutLaneFrame l with lanes := u.lanes }) ∧
  (∀ l, f.slot = .lane l → f.attached = false → u = { s with flight := none }) ∧
  (f.slot = .station → f.attached = true → ∀ o, s.stationSlot = some o →
    (o.held = false → u = { s with flight := none }) ∧
      (o.held = true →
        u = { s with flight := none, stationSlot := entering s.stationNext, stationNext := none })) ∧
  (f.slot = .station → f.attached = false → u = { s.nextEntered with flight := none }) ∧
  (f.slot = .image → u.ImageSlotFollows s.imageSlot ∧ u = { s with flight := none, imageSlot := u.imageSlot })

/-- The station was halted as a duplicate in `s`: `t` is `s` after the drift flush, HALTED with the line unit off, and a
HALTED event (R93). -/
def HaltedFrom (t s : State) : Prop :=
  ∃ u : State, u.IsFlushOf s ∧
    t = (({ u.settle with stationState := .halted, phase := .off } : State).handEvent .halted 0).settle

/-! What carried frames and the end of a pass bring, as a relation between the state before and the state after. -/

/-- `u` holds `data` in region r from offset k on, and every other byte of the area as `s` does (R1). -/
def BytesReplaced (u s : State) (r : RegionNo) (k : Nat) (data : List Byte) : Prop :=
  (∀ j b, data[j]? = some b → u.area.read (128 * r.val + k + j) = b) ∧
    ∀ a, a < 128 * r.val + k ∨ 128 * r.val + k + data.length ≤ a → u.area.read a = s.area.read a

/-- `u` is `s` with the bytes of an applied UPDATE written and the count of its region raised by one modulo 65,536, not
yet reported (R7). -/
def UpdateWritten (u s : State) (r : RegionNo) (k : Nat) (data : List Byte) : Prop :=
  u.BytesReplaced s r k data ∧
    (∀ q, u.region q = if q = r then { s.region r with count := (s.region r).count + 1 } else s.region q) ∧
    u = { s with area := u.area, regions := u.regions }

/-- `t` is `s` with the owner of region r changed by a frame of station x: the report of R57, then the withdrawal check
of R61. -/
def OwnerGiven (t s : State) (x : Station) (r : RegionNo) (owner : Option Station) : Prop :=
  ∃ u : State, (∀ q, u.region q = if q = r then { s.region r with owner := owner } else s.region q) ∧
    u = { s with regions := u.regions } ∧
    t = (u.report { region := r, content := false, owner := true, own := decide (x = s.stationNumber) }).withdrawalCheck
      fun q => decide (q = r)

/-- `w` is `s` after this station has lost region r to a seize of station x: the LOST record is posted, or the queue is
full and r is in the lost set with its new owner (R64). -/
def OwnershipLost (w s : State) (r : RegionNo) (x : Station) : Prop :=
  (s.queue.length < 32 →
    (∀ q, w.lostOwner q = if q = r then none else s.lostOwner q) ∧ w.queue = s.queue ++ [.lost r x]) ∧
  (32 ≤ s.queue.length →
    (∀ q, w.lostOwner q = if q = r then some x else s.lostOwner q) ∧ w.queue = s.queue) ∧
  w = { s with lost := w.lost, queue := w.queue }

/-- `t` is `s` after a carried CLAIM of station x (R53, R54); where it seizes a region of this station, the loss comes
first (R64). -/
def ClaimTaken (t s : State) (x : Station) (seize : Bool) (r : RegionNo) : Prop :=
  let moves := (s.region r).state = .current ∧
    ((s.region r).owner = none ∨ seize = true ∧ ∃ y, y ≠ x ∧ (s.region r).owner = some y)
  (¬ moves → t = s) ∧
    (moves → ∃ w : State,
      ((s.region r).owner = some s.stationNumber → w.OwnershipLost s r x) ∧
      ((s.region r).owner ≠ some s.stationNumber → w = s) ∧ t.OwnerGiven w x r (some x))

/-- `t` is `s` after a carried RELEASE of station x (R53, R55). -/
def ReleaseTaken (t s : State) (x : Station) (r : RegionNo) : Prop :=
  ((s.region r).state = .current ∧ (s.region r).owner = some x → t.OwnerGiven s x r none) ∧
    (¬ ((s.region r).state = .current ∧ (s.region r).owner = some x) → t = s)

/-- `t` is `s` after a carried JOIN or LEAVE of station x: its CURRENT regions unowned in one claim, each reported, then
one withdrawal check (R56, R57, R61). -/
def ClearedBy (t s : State) (x : Station) : Prop :=
  ∃ (u : State) (rs : List RegionNo), rs.Pairwise (fun a b => a < b) ∧
    (∀ r, r ∈ rs ↔ (s.region r).state = .current ∧ (s.region r).owner = some x) ∧
    (∀ r, u.region r = if r ∈ rs then { s.region r with owner := none } else s.region r) ∧
    u = { s with regions := u.regions } ∧
    t = (rs.foldl
      (fun w r => w.report { region := r, content := false, owner := true, own := decide (x = s.stationNumber) })
      u).withdrawalCheck fun q => decide (q ∈ rs)

/-- `t` is `s` after the end of LEAVE (R88): every region STALE and unowned, the response set empty, OFFLINE with the line
unit off, and a LEFT event. -/
def LeaveEnded (t s : State) : Prop :=
  ∃ u : State, (∀ r, u.region r = (s.region r).lost) ∧
    u = { s with regions := u.regions, imageSlot := none, stationState := .offline, phase := .off } ∧
    t = u.handEvent .left 0

/-- `t` is `s` with an ASK placed from the lowest to the highest region that has property p, if one has it: at once, or
at the end of the attempt while a frame of the station slot is on the line (R37, R77, R79). -/
def AskPlaced (t s : State) (p : RegionNo → Prop) : Prop :=
  ((∀ r, ¬ p r) → t = s) ∧
    ∀ a b : RegionNo, p a → p b → (∀ r, p r → a ≤ r ∧ r ≤ b) →
      (s.flight.map Flight.slot ≠ some .station →
        t = { s with
              stationSlot := some { frame := .ask a.val (b.val - a.val + 1), attempts := 0, held := false } }) ∧
      (s.flight.map Flight.slot = some .station →
        t = { s with
              stationNext := some (.ask a.val (b.val - a.val + 1))
              stationSlot := s.stationSlot.map fun o => { o with held := true } })

/-- `t` is `s` after the orphan declaration, of `n` regions: every REFRESHING region zero, count 0, unowned and CURRENT in
one claim, each reported as a content change (R12). -/
def OrphansDeclared (t s : State) (n : Nat) : Prop :=
  ∃ (u : State) (rs : List RegionNo), rs.Pairwise (fun a b => a < b) ∧ rs.length = n ∧
    (∀ r, r ∈ rs ↔ (s.region r).state = .refreshing) ∧
    (∀ r, u.region r =
      if r ∈ rs then { s.region r with state := .current, owner := none, count := 0 } else s.region r) ∧
    (∀ (r : RegionNo) (j : Nat), j < 128 →
      u.area.read (128 * r.val + j) = if r ∈ rs then 0 else s.area.read (128 * r.val + j)) ∧
    u = { s with area := u.area, regions := u.regions } ∧
    t = rs.foldl (fun w r => w.report { region := r, content := true, owner := false, own := false }) u

/-- `t` is `s` after the end of a pass of the join in progress: the pass count is raised; before the third pass an ASK
over the regions with property p follows, at the third the orphan declaration and the completion test if an ASK of
the join has been carried, else the ADRIFT entry with cause JOIN_ABANDONED (R77, R78, R79). -/
def PassEnded (t s : State) (p : RegionNo → Prop) : Prop :=
  (s.passCount + 1 < 3 → t.AskPlaced { s with passCount := s.passCount + 1 } p) ∧
    (3 ≤ s.passCount + 1 →
      (s.join.map JoinProgress.askCarried = some true →
        ∃ (u : State) (n : Nat), u.OrphansDeclared { s with passCount := s.passCount + 1 } n ∧ t = u.tryComplete n) ∧
      (s.join.map JoinProgress.askCarried ≠ some true →
        ∃ u : State, u.IsFlushOf s ∧
          t = (({ u.settle with stationState := .adrift } : State).handEvent .adrift 2).settle))

/-- `v` is `s` with lane l having taken, at its current index, an entry or group whose last entry is at `last`: the lane
keeps `e` of it, and its `count` notes, with the index and label of the last, are merged into the pending note or
posted, waiting in the lane while the queue is full (R102, R122, R142). -/
def TakenWith (v s : State) (l : LaneNo) (last : Index) (e : EntryCtx) (note : Option (Index × Word)) (count : Nat) :
    Prop :=
  let x := { s.lane l with prevGoto := false, cur := last, entry := some e }
  v = { s with lanes := v.lanes, queue := v.queue } ∧ (∀ k, k ≠ l → v.lane k = s.lane k) ∧
    (note = none → v.lane l = x ∧ v.queue = s.queue) ∧
    ∀ i label, note = some (i, label) →
      ((s.lane l).note = none → s.queue.length < 32 →
        v.lane l = x ∧ v.queue = s.queue ++ [.note l i label (min 255 count) (s.lane l).tag]) ∧
      ((s.lane l).note = none → 32 ≤ s.queue.length →
        v.lane l = { x with note := some { index := i, label := label, merge := min 255 count } } ∧
          v.queue = s.queue) ∧
      ∀ n, (s.lane l).note = some n →
        v.lane l = { x with note := some { index := i, label := label, merge := min 255 (n.merge + count) } } ∧
          v.queue = s.queue

/-- `v` is `s` with a frame placed in the slot of lane l, last in the order of lane frames, and the lane OFFERED (R34,
R35, R130). -/
def Places (v s : State) (l : LaneNo) (f : LaneFrame) : Prop :=
  (∀ k, v.lane k = if k = l then { s.lane l with state := .offered } else s.lane k) ∧
    (∀ k, v.laneSlot k = if k = l then some { frame := f, attempts := 0 } else s.laneSlot k) ∧
    v.placement = (s.placement.filter fun k => k != l) ++ [l] ∧
    v = { s with lanes := v.lanes, laneSlots := v.laneSlots, placement := v.placement }

/-- Lane l is RUNNING outside a pin reset and the entry at its current index i has the kind code n (R99, R102). -/
def Takes (s : State) (l : LaneNo) (i : Index) (n : Nat) : Prop :=
  s.inReset = false ∧ (s.lane l).state = .running ∧ (s.lane l).cur = i ∧ (Entry.word s.chain i 0).toNat % 16 = n

/-- The three addressed stores are in canonical form and hold nothing beyond their ends (R1, R96, R168). -/
def StoresOk (s : State) : Prop :=
  s.area.wf ∧ s.area.below 16384 ∧ s.staging.wf ∧ s.staging.below 4096 ∧ s.chain.wf ∧ s.chain.below 4096

/-- Every frame offered or on the line has fields its layout can hold (R39), and one on the line bears this station's
number (R32). -/
def FramesOk (s : State) : Prop :=
  (∀ l o, s.laneSlot l = some o → o.frame.body.wf) ∧ (∀ o, s.stationSlot = some o → o.frame.body.wf) ∧
    (∀ f, s.stationNext = some f → f.body.wf) ∧ ∀ f, s.flight = some f → f.frame.body.wf ∧ f.frame.sender = s.stationNumber

/-- The queue holds at most 32 records, and while a producer waits it holds exactly 32 (R147, R152). -/
def QueueOk (s : State) : Prop := s.queue.length ≤ 32 ∧ (s.waiting ≠ [] → s.queue.length = 32)

/-- Every region record is in order (R5, R82). -/
def RegionsOk (s : State) : Prop := ∀ r, (s.region r).InOrder

/-- The spoil streak is at most 16 and every attempt count at most 7 (R46, R34). -/
def CountersOk (s : State) : Prop :=
  s.spoilStreak ≤ 16 ∧ (∀ l o, s.laneSlot l = some o → o.attempts ≤ 7) ∧
    (∀ o, s.stationSlot = some o → o.attempts ≤ 7) ∧ ∀ o, s.imageSlot = some o → o.attempts ≤ 7

/-- A frame of the station slot fits the station state: a LEAVE is there in LEAVING alone (R86), and in JOINING an ASK is
of the current join, whose JOIN has been carried, and covers every STALE region (R74, R75, R79). -/
def FrameFits (s : State) : StationFrame → Prop
  | .join => True
  | .leave => s.stationState = .leaving
  | .ask first count =>
    s.stationState = .joining → s.join.map JoinProgress.joinCarried = some true ∧
      ∀ r, (s.region r).state = .stale → inRange first count r = true

/-- The region table fits the station state: every region CURRENT in ACTIVE, every region STALE in OFFLINE, ADRIFT and
HALTED (R70). -/
def TableFits (s : State) : Prop :=
  (s.stationState = .active → s.allCurrent) ∧ (s.listening = false → ∀ r, (s.region r).state = .stale)

/-- The join, the refresh window and the pass count fit the station state (R72, R75 to R80). -/
def JoinFits (s : State) : Prop :=
  (s.join.isSome = true ↔ s.stationState = .joining) ∧
    (s.window.isSome = true → s.join.map JoinProgress.askCarried = some true) ∧
    (∀ t, s.window = some t → t ≤ 20) ∧ s.passCount ≤ 3 ∧
    ∀ j, s.join = some j → s.passCount ≤ 2 ∧
      (j.askCarried = true → j.joinCarried = true ∧ ∀ r, (s.region r).state ≠ .stale) ∧
      (j.joinCarried = true → ¬ s.allCurrent)

/-- The station slot, the frame that waits to enter it and this station's frame on the line fit the station state and
one another (R29, R37, R50, R72, R86). -/
def OfferFits (s : State) : Prop :=
  (∀ o, s.stationSlot = some o → s.FrameFits o.frame ∧ (s.stationNext.isSome = true → o.held = true)) ∧
    (∀ g, s.stationNext = some g → s.FrameFits g ∧ s.flight.map Flight.slot = some .station) ∧
    (∀ f, s.flight = some f → f.attached = true →
      (f.frame.body = .leave → f.slot = .station ∧ s.stationState = .leaving ∧ s.stationNext = none) ∧
      ∀ a b, f.frame.body = .ask a b → s.FrameFits (.ask a b)) ∧
    (s.listening = false → s.stationSlot = none ∧ s.stationNext = none ∧ s.imageSlot = none ∧
      ∀ f, s.flight = some f → f.attached = false)

/-- The line unit is off in OFFLINE and HALTED alone (R29), and a frame of this station is on the line only while a
frame is in progress (R31). -/
def PhaseFits (s : State) : Prop :=
  (s.phase = .off ↔ s.stationState = .offline ∨ s.stationState = .halted) ∧
    (s.flight.isSome = true → s.phase = .inFrame)

/-- The station controller, the refresh unit and the line unit agree on where the station stands. -/
def ControllerOk (s : State) : Prop := s.TableFits ∧ s.JoinFits ∧ s.OfferFits ∧ s.PhaseFits

/-- The context of lane l fits its slot, the order of the lane frames and the frame on the line: a frame in the slot, and
a place in the order, exactly when OFFERED or ON_LINE, ON_LINE exactly with this lane's frame on the line (R35, R130);
stop-pending in ON_LINE alone (R135); a WAIT and its deadline in WAITING alone (R117); an entry under way in OFFERED,
ON_LINE and WAITING; a note in a busy state alone (R142, R144); no end status in a busy state (R145). -/
def LaneFits (s : State) (l : LaneNo) : Prop :=
  ((s.laneSlot l).isSome = true ↔ (s.lane l).state = .offered ∨ (s.lane l).state = .onLine) ∧
    (l ∈ s.placement ↔ (s.laneSlot l).isSome = true) ∧
    ((s.lane l).state = .onLine ↔ ∃ f, s.flight = some f ∧ f.attached = true ∧ f.slot = .lane l) ∧
    ((s.lane l).stopPending = true → (s.lane l).state = .onLine) ∧
    ((s.lane l).wait.isSome = true ↔ (s.lane l).state = .waiting) ∧
    ((s.lane l).deadline.isSome = true → (s.lane l).state = .waiting) ∧
    ((s.lane l).entry.isSome = true ↔
      (s.lane l).state = .offered ∨ (s.lane l).state = .onLine ∨ (s.lane l).state = .waiting) ∧
    ((s.lane l).note.isSome = true → (s.lane l).state.busy = true) ∧
    ((s.lane l).state.busy = true → (s.lane l).endStatus = none)

/-- Every lane is in order, no lane stands twice in the order of the lane frames, and this station's frame on the line is
of a kind its slot holds (R34, R35, R127, R130). -/
def LanesOk (s : State) : Prop :=
  (∀ l, s.LaneFits l ∧ (s.lane l).HeldFits l) ∧ s.placement.Nodup ∧
    ∀ f, s.flight = some f → f.slot.Holds f.frame.body

/-- The image slot holds the lowest region of the response set, and nothing while the set is empty; while its IMAGE is on
the line it holds a frame (R36, R82). -/
def ImageFits (s : State) : Prop :=
  let onLine := ∃ f, s.flight = some f ∧ f.attached = true ∧ f.slot = .image
  (onLine → s.imageSlot.isSome = true) ∧
    (¬ onLine →
      ((∀ r, (s.region r).responding = false) → s.imageSlot = none) ∧
        ∀ r, (s.region r).responding = true → (∀ q, q < r → (s.region q).responding = false) →
          s.imageSlot.map ImageSlot.region = some r)

end State

/-! ## Groups (R120 to R122) -/

namespace Entry

/-- Of a group of kind k at offset `off`, the part at index p, later than the first if `later`, and with `total` bytes
before it, passes its checks, and so do the parts that follow it, `rest` in order, over `gotos` GOTOs; LINK is set on
each but the last (R120, R121). -/
def Walks (m : Memory) (k : EntryKind) (off : Nat) (later : Bool) (total : Nat) (p : Index) :
    List Index → Nat → Prop
  | [], gotos => partFailure m k later off total p = none ∧ gotos = 0
  | q :: rest, gotos =>
    partFailure m k later off total p = none ∧ link m p = true ∧
      ∃ g n, nextPart m p = .ok q g ∧ gotos = g + n ∧ Walks m k off true (total + length m p) q rest n

/-- The last index of a list that has NOTE set, with its label. -/
def lastNote (m : Memory) (ps : List Index) : Option (Index × Word) :=
  ((ps.filter (note m)).getLast?).map fun p => (p, label m p)

end Entry
end Sys2Proof.Machine
end

