-- ==== Sys2Proof/Certificates/Slice0/Obligations.lean ====
section
/-! DEFINITION. The statements about the station, for the provers. A statement about a command says that `exec` answers
a next state; where the command forms records, that state is `u.settle`, where `u` is the state before the records are
handed to the completion unit and `RecordsAreHandedOver` says what settling does. Likewise `State.report` is described
by `ChangeReportsReachWatchesAndLanes`, `Lane.complete` by `EntriesGoOnOrEnd`. -/

open Sys2Proof Sys2Proof.Machine

/-! ## Steps, resets and the host port -/

/-- A step takes the command at the front of the queue and executes it on the state with the queue's rest. -/
def Obligations.StepRunsFrontCommand : Prop :=
  ∀ (c : Instr) (rest : List Instr) (s : State),
    s.pending = c :: rest → step s = exec c { s with pending := rest }

/-- The model's choice of log 5: with no command waiting a step is one millisecond, in which the WAIT deadlines and the
refresh window count down and nothing else changes. -/
def Obligations.StepWithoutCommandIsOneMillisecond : Prop :=
  ∀ s : State, s.pending = [] →
    ∃ t, step s = .next t ∧
      (∀ l, t.lane l = { s.lane l with deadline := (s.lane l).deadline.map fun n => n - 1 }) ∧
      t = { s with lanes := t.lanes, window := s.window.map fun n => n - 1 }

/-- Every command is answered with a next state, and leaves the commands that wait behind it as they were. That no
command stops the machine is the model's own deduction (log 25). -/
def Obligations.EveryCommandCompletes : Prop :=
  ∀ (c : Instr) (s : State), ∃ t, exec c s = .next t ∧ t.pending = s.pending

/-- In pin reset every command but PIN_RESET and PIN_RESET_END changes nothing (deduced, log 25), every word reads 0,
and PIN_RESET begins one in any state: every block at the values of State.reset, the station number kept until it is
sampled (the model's choice, log 8). PIN_RESET_END leaves the station OFFLINE with every block at those values and the
number its straps give. Of the well-formed commands only PIN_RESET_END and SOFT_RESET change the number, each to the
levels on the straps that it samples. -/
def Obligations.PinResetHoldsAndEnds : Prop :=
  ((∀ (c : Instr) (s : State), s.inReset = true → c ≠ .pinReset → (∀ x, c ≠ .pinResetEnd x) → exec c s = .next s) ∧
     ∀ s : State,
       exec .pinReset s = .next
         { State.reset with
           inReset := true, pending := s.pending, choices := s.choices, straps := s.straps
           stationNumber := s.stationNumber } ∧
       ∀ a, s.inReset = true → s.hostRead a = 0) ∧
    (∀ (s : State) (x : Station), s.inReset = true →
      exec (.pinResetEnd x) s = .next
        { State.reset with pending := s.pending, choices := s.choices, straps := x, stationNumber := x }) ∧
    ∀ (c : Instr) (s t : State), c.wellFormed = true → exec c s = .next t → t.stationNumber ≠ s.stationNumber →
      c = .softReset t.stationNumber ∨ c = .pinResetEnd t.stationNumber

/-- SOFT_RESET sets every block to the values of State.reset in every station state, keeps the staging buffer and the
chain store, samples the straps and answers OK; INTn is high. -/
def Obligations.SoftResetKeepsStagingAndChains : Prop :=
  ∀ (s : State) (x : Station), s.inReset = false →
    ∃ t, exec (.softReset x) s = .next t ∧ t.intN = true ∧ t.flight = none ∧ t.stationState = .offline ∧
      t = { State.reset with
            pending := s.pending, choices := s.choices, straps := x, stationNumber := x
            staging := s.staging, chain := s.chain, result := some { answer := .ok, value := 0 } }

/-- Right after a pin reset every byte of the area, the staging buffer and the chain store reads 0, every region is
STALE with owner none, count 0, guard SHUT and not responding, every lane FREE, every watch OFF, the queue, the lost
set and every offer slot empty, the line unit off with no frame of this station on the line, the station OFFLINE with
no join, at rate 0 with the interrupt enable clear. -/
def Obligations.ResetValues : Prop :=
  (∀ a, State.reset.area.read a = 0 ∧ State.reset.staging.read a = 0 ∧ State.reset.chain.read a = 0) ∧
    (∀ r, State.reset.region r =
      { state := .stale, owner := none, count := 0, guardOpen := false, responding := false }) ∧
    (∀ l, (State.reset.lane l).state = .free ∧ (State.reset.lane l).endStatus = none ∧
      State.reset.laneSlot l = none ∧ ∀ j, State.reset.laneWord l j = 0) ∧
    (∀ w, (State.reset.watch w).state = .off ∧ ∀ j, State.reset.watchWord w j = 0) ∧
    (∀ r, State.reset.lostOwner r = none) ∧
    State.reset.queue = [] ∧ State.reset.waiting = [] ∧ State.reset.stationSlot = none ∧
    State.reset.imageSlot = none ∧ State.reset.placement = [] ∧ State.reset.spoilStreak = 0 ∧
    State.reset.stationState = .offline ∧ State.reset.passCount = 0 ∧ State.reset.window = none ∧
    State.reset.rateCode = 0 ∧ State.reset.irqEnable = false ∧ State.reset.result = none ∧
    State.reset.p0 = 0 ∧ State.reset.p1 = 0 ∧ State.reset.p2 = 0 ∧ State.reset.p3 = 0 ∧
    State.reset.phase = .off ∧ State.reset.flight = none ∧ State.reset.stationNext = none ∧ State.reset.join = none

/-- The checks of CONFIGURE in their order; a refused one changes the request result alone. An accepted one stores the
rate and the enable, releases the line unit and takes the JOINING entry with a JOIN in the station slot; nothing else
changes. In OFFLINE no frame of this station is on the line (PhaseFits). -/
def Obligations.ConfigureIsCheckedAndStartsAJoin : Prop :=
  (∀ s : State, s.inReset = false →
     (s.p0 &&& 0xFFEC ≠ 0 → exec .configure s = .next { s with result := Answer.badParameter.plain }) ∧
     (s.p0 &&& 0xFFEC = 0 → s.stationState ≠ .offline →
       exec .configure s = .next { s with result := Answer.wrongState.plain }) ∧
     (s.p0 &&& 0xFFEC = 0 → s.stationState = .offline →
       ∃ t, exec .configure s = .next t ∧ t.result = Answer.ok.plain)) ∧
    ∀ s : State, s.inReset = false → s.PhaseFits → s.stationState = .offline → s.p0 &&& 0xFFEC = 0 →
      exec .configure s = .next
        { s with
          rateCode := s.p0.setWidth 2, irqEnable := s.p0.getLsbD 4, phase := .counting
          stationState := .joining, spoilStreak := 0, passCount := 0, window := none
          join := some { joinCarried := false, askCarried := false }
          stationSlot := some { frame := .join, attempts := 0, held := false }
          result := Answer.ok.plain }

/-- REJOIN is refused in OFFLINE, LEAVING and HALTED. In JOINING, ACTIVE and ADRIFT it takes the drift flush and then the
JOINING entry; a frame of the station slot still on the line goes on, and the JOIN enters at its end. -/
def Obligations.RejoinFlushesAndJoins : Prop :=
  ∀ s : State, s.inReset = false →
    (s.stationState = .offline ∨ s.stationState = .leaving ∨ s.stationState = .halted →
      exec .rejoin s = .next { s with result := Answer.wrongState.plain }) ∧
    (s.stationState = .joining ∨ s.stationState = .active ∨ s.stationState = .adrift →
      ∃ u : State, u.IsFlushOf s ∧
        exec .rejoin s = .next
          { u.settle with
            stationState := .joining, spoilStreak := 0, join := some { joinCarried := false, askCarried := false }
            stationSlot :=
              if s.flight.map Flight.slot = some .station then none
              else some { frame := .join, attempts := 0, held := false }
            stationNext := if s.flight.map Flight.slot = some .station then some .join else none
            result := Answer.ok.plain })

/-- LEAVE is refused outside JOINING and ACTIVE. There it detaches the busy lanes with their frames, stops the window,
sets LEAVING and puts a LEAVE in the station slot, at the end of the attempt if a frame of the slot is on the line. -/
def Obligations.LeaveDetachesAndOffersLeave : Prop :=
  ∀ s : State, s.inReset = false →
    (s.stationState ≠ .joining → s.stationState ≠ .active →
      exec .leave s = .next { s with result := Answer.wrongState.plain }) ∧
    (s.stationState = .joining ∨ s.stationState = .active →
      ∃ u : State, exec .leave s = .next { u.settle with result := Answer.ok.plain } ∧
        (∀ l, u.lane l = (s.lane l).detached l) ∧
        (s.flight = none → u.flight = none) ∧
        (∀ f, s.flight = some f →
          u.flight = some { f with attached := f.attached && decide (∀ l, f.slot ≠ .lane l) }) ∧
        (s.flight.map Flight.slot ≠ some .station →
          u.stationSlot = some { frame := .leave, attempts := 0, held := false } ∧
            u.stationNext = s.stationNext) ∧
        (s.flight.map Flight.slot = some .station →
          u.stationSlot = s.stationSlot.map (fun o => { o with held := true }) ∧ u.stationNext = some .leave) ∧
        u = { s with
              lanes := u.lanes, laneSlots := Vector.replicate 4 none, placement := []
              flight := u.flight
              stationSlot := u.stationSlot, stationNext := u.stationNext
              window := none, join := none, stationState := .leaving })

/-- A code that is no request's is answered UNKNOWN and has no other effect. -/
def Obligations.UnknownRequestsAreAnswered : Prop :=
  ∀ (s : State) (code : Word), s.inReset = false → (Instr.unknownRequest code).wellFormed = true →
    exec (.unknownRequest code) s = .next { s with result := some { answer := .unknown, value := 0 } }

/-- GUARD_OPEN and GUARD_SHUT set the guards of regions P0 to P0 + P1 - 1 in any station state and change nothing else;
a range outside the 128 regions is refused and changes no guard. -/
def Obligations.GuardRequestsSetARange : Prop :=
  ∀ s : State, s.inReset = false → ∀ opened : Bool,
    let c := if opened then Instr.guardOpen else Instr.guardShut
    (s.p0.toNat ≤ 127 ∧ 1 ≤ s.p1.toNat ∧ s.p1.toNat ≤ 128 ∧ s.p0.toNat + s.p1.toNat ≤ 128 →
      ∃ t, exec c s = .next t ∧
        (∀ r : RegionNo, t.region r =
          if s.p0.toNat ≤ r.val ∧ r.val < s.p0.toNat + s.p1.toNat then { s.region r with guardOpen := opened }
          else s.region r) ∧
        (∀ r, (t.regionStatusWord r).getLsbD 2 = (t.region r).guardOpen) ∧
        t = { s with regions := t.regions, result := Answer.ok.plain }) ∧
    (127 < s.p0.toNat ∨ s.p1.toNat = 0 ∨ 128 < s.p1.toNat ∨ 128 < s.p0.toNat + s.p1.toNat →
      exec c s = .next { s with result := Answer.badParameter.plain })

/-- A host write of a word with no behaviour of its own: it is stored in the staging buffer, the chain store or a
parameter word, both bytes of a stored word replaced and every other byte kept, and ignored anywhere else. A write on
the port's pins (CSn and WRn low, RDn high) is a POP at its word, the request its value codes at the request code
word, and such a write anywhere else. A write of 2 at the request code word is a SOFT_RESET with the levels on SN0 to
SN4 at the access, whatever levels were sampled before. -/
def Obligations.HostWritesStoreOrAreIgnored : Prop :=
  (∀ (s : State) (a : WordAddr) (v : Word) (levels : Station),
     let sends := fun c : Instr => s.portAccess false true false a v levels = some (.inr c)
     (a.toNat = 0x3173 → sends (.pop v)) ∧
     (a.toNat = 0x3178 →
       (v = 1 → sends .configure) ∧ (v = 2 → sends (.softReset levels)) ∧ (v = 3 → sends .rejoin) ∧
       (v = 4 → sends .leave) ∧ (v = 5 → sends .start) ∧ (v = 6 → sends .stop) ∧ (v = 7 → sends .guardOpen) ∧
       (v = 8 → sends .guardShut) ∧ (v = 9 → sends .watchArm) ∧ (v = 10 → sends .watchDisarm) ∧
       (v = 0 ∨ 10 < v.toNat → sends (.unknownRequest v))) ∧
     (a.toNat ≠ 0x3173 → a.toNat ≠ 0x3178 → sends (.hostWordWrite a v))) ∧
  ∀ (s : State) (a : WordAddr) (v : Word), s.inReset = false → s.StoresOk → (Instr.hostWordWrite a v).wellFormed = true →
    (0x2000 ≤ a.toNat → a.toNat ≤ 0x27FF →
      ∃ m, exec (.hostWordWrite a v) s = .next { s with staging := m } ∧
        ∀ b, m.read b =
          if b = 2 * (a.toNat - 0x2000) then v.setWidth 8
          else if b = 2 * (a.toNat - 0x2000) + 1 then (v >>> 8).setWidth 8 else s.staging.read b) ∧
    (0x2800 ≤ a.toNat → a.toNat ≤ 0x2FFF →
      ∃ m, exec (.hostWordWrite a v) s = .next { s with chain := m } ∧
        ∀ b, m.read b =
          if b = 2 * (a.toNat - 0x2800) then v.setWidth 8
          else if b = 2 * (a.toNat - 0x2800) + 1 then (v >>> 8).setWidth 8 else s.chain.read b) ∧
    (a.toNat = 0x3174 → exec (.hostWordWrite a v) s = .next { s with p0 := v }) ∧
    (a.toNat = 0x3175 → exec (.hostWordWrite a v) s = .next { s with p1 := v }) ∧
    (a.toNat = 0x3176 → exec (.hostWordWrite a v) s = .next { s with p2 := v }) ∧
    (a.toNat = 0x3177 → exec (.hostWordWrite a v) s = .next { s with p3 := v }) ∧
    (a.toNat < 0x2000 ∨ 0x2FFF < a.toNat ∧ a.toNat < 0x3174 ∨ 0x3177 < a.toNat →
      exec (.hostWordWrite a v) s = .next s)

/-- What a host read of the stores, the parameters, the request result and the unmapped words returns, with the
numbers of the answer codes. An access on the port's pins is a read whenever CSn and RDn are low, WRn then ignored,
and there is none while CSn is high or both strobes are. -/
def Obligations.HostReadsFollowTheAddressMap : Prop :=
  (∀ (s : State) (a : WordAddr) (v : Word) (rdn wrn : Bool) (levels : Station),
     s.portAccess true rdn wrn a v levels = none ∧ s.portAccess false true true a v levels = none ∧
       s.portAccess false false wrn a v levels = some (.inl (s.hostRead a))) ∧
  (Answer.ok.code = 1 ∧ Answer.noLane.code = 2 ∧ Answer.wrongState.code = 3 ∧ Answer.badParameter.code = 4 ∧
    Answer.notRunning.code = 5 ∧ Answer.alreadyEnded.code = 6 ∧ Answer.unknown.code = 7) ∧
  ∀ (s : State) (a : WordAddr), s.inReset = false →
    (a.toNat ≤ 0x1FFF →
      s.hostRead a = wordOf (s.area.read (2 * a.toNat)) (s.area.read (2 * a.toNat + 1))) ∧
    (0x2000 ≤ a.toNat → a.toNat ≤ 0x27FF →
      s.hostRead a =
        wordOf (s.staging.read (2 * (a.toNat - 0x2000))) (s.staging.read (2 * (a.toNat - 0x2000) + 1))) ∧
    (0x2800 ≤ a.toNat → a.toNat ≤ 0x2FFF →
      s.hostRead a = wordOf (s.chain.read (2 * (a.toNat - 0x2800))) (s.chain.read (2 * (a.toNat - 0x2800) + 1))) ∧
    (a.toNat = 0x3172 → s.hostRead a = BitVec.ofNat 16 s.queue.length) ∧
    (a.toNat = 0x3174 → s.hostRead a = s.p0) ∧ (a.toNat = 0x3175 → s.hostRead a = s.p1) ∧
    (a.toNat = 0x3176 → s.hostRead a = s.p2) ∧ (a.toNat = 0x3177 → s.hostRead a = s.p3) ∧
    (a.toNat = 0x3179 → ∀ x, s.result = some x →
      s.hostRead a = wordOf (BitVec.ofNat 8 x.answer.code) x.value) ∧
    (a.toNat = 0x3179 → s.result = none → s.hostRead a = 0) ∧
    (0x3164 ≤ a.toNat ∧ a.toNat ≤ 0x316F ∨ a.toNat = 0x3173 ∨ a.toNat = 0x3178 ∨ 0x317A ≤ a.toNat →
      s.hostRead a = 0)

/-- The region status word shows the state, guard, responding mark, owner-valid mark and owner of a region, and the
count word its update count; unassigned bits read 0. The watch words show the fields of the watch. The numbers of the
region state, watch state and watch mode codes stand first. -/
def Obligations.RegionAndWatchWordsShowTheirRecords : Prop :=
  (RegionState.stale.code = 0 ∧ RegionState.refreshing.code = 1 ∧ RegionState.current.code = 2 ∧
    WatchState.off.code = 0 ∧ WatchState.armed.code = 1 ∧ WatchState.pending.code = 2 ∧
    WatchMode.content.code = 0 ∧ WatchMode.peer.code = 1 ∧ WatchMode.owner.code = 2) ∧
  (∀ (s : State) (r : RegionNo), s.inReset = false →
     s.hostRead (BitVec.ofNat 14 (0x3080 + r.val)) = (s.region r).count ∧
     ∃ w, s.hostRead (BitVec.ofNat 14 (0x3000 + r.val)) = w ∧
       w.toNat % 4 = (s.region r).state.code ∧ w.getLsbD 2 = (s.region r).guardOpen ∧
       w.getLsbD 3 = (s.region r).responding ∧ w.getLsbD 4 = false ∧ w.getLsbD 5 = false ∧ w.getLsbD 6 = false ∧
       ((s.region r).state = .current →
         ∀ t, (s.region r).owner = some t → w.getLsbD 7 = true ∧ w.toNat / 256 = t.toNat) ∧
       ((s.region r).state ≠ .current ∨ (s.region r).owner = none → w.getLsbD 7 = false ∧ w.toNat / 256 = 0)) ∧
    ∀ (s : State) (w : WatchNo), s.inReset = false →
      let at_ := fun j : Nat => s.hostRead (BitVec.ofNat 14 (0x3120 + 4 * w.val + j))
      (at_ 0).toNat % 4 = (s.watch w).state.code ∧ (at_ 0).toNat / 16 % 4 = (s.watch w).mode.code ∧
        (at_ 0).getLsbD 6 = (s.watch w).own ∧ (at_ 0).getLsbD 7 = (s.watch w).ownerChanged ∧
        at_ 0 &&& 0xFF0C = 0 ∧ (at_ 1).toNat = (s.watch w).region.val ∧
        at_ 2 = BitVec.ofNat 16 (s.watch w).changes ∧ at_ 3 = 0

/-- The station status word and the configuration readback show their fields; the bounds are those of CountersOk and
ControllerOk. The lane context words show the fields of the lane. The numbers of the station state, lane state and end
status codes stand first. -/
def Obligations.StationAndLaneWordsShowTheirFields : Prop :=
  (StationState.offline.code = 0 ∧ StationState.joining.code = 1 ∧ StationState.active.code = 2 ∧
    StationState.leaving.code = 3 ∧ StationState.adrift.code = 4 ∧ StationState.halted.code = 5 ∧
    LaneState.free.code = 0 ∧ LaneState.running.code = 1 ∧ LaneState.offered.code = 2 ∧ LaneState.onLine.code = 3 ∧
    LaneState.waiting.code = 4 ∧ LaneState.holding.code = 5 ∧
    endStatusCode none = 0 ∧ ∀ st : Status, endStatusCode (some st) = st.code) ∧
  (∀ s : State, s.inReset = false → s.spoilStreak ≤ 16 → s.passCount ≤ 3 →
     (∃ w, s.hostRead 0x3170 = w ∧ w.toNat % 8 = s.stationState.code ∧
       w.toNat / 8 % 32 = s.stationNumber.toNat ∧ w.toNat / 256 % 32 = s.spoilStreak ∧
       w.toNat / 8192 = s.passCount) ∧
     ∃ w, s.hostRead 0x3171 = w ∧ w.setWidth 2 = s.rateCode ∧ w.getLsbD 4 = s.irqEnable ∧
       w &&& 0xFFEC = 0) ∧
    ∀ (s : State) (l : LaneNo), s.inReset = false →
      let at_ := fun j : Nat => s.hostRead (BitVec.ofNat 14 (0x3100 + 8 * l.val + j))
      (at_ 0).toNat % 8 = (s.lane l).state.code ∧ (at_ 0).getLsbD 4 = (s.lane l).stopPending ∧
        (at_ 0).getLsbD 5 = (s.lane l).note.isSome ∧ (at_ 0).getLsbD 6 = (s.lane l).prevGoto ∧
        at_ 0 &&& 0xFF88 = 0 ∧
        at_ 1 = (s.lane l).tag ∧ (at_ 2).toNat = (s.lane l).first.val + 256 * (s.lane l).cur.val ∧
        at_ 3 = BitVec.ofNat 16 (s.lane l).completed ∧
        (s.laneAttempts l ≤ 7 →
          (at_ 4).toNat = s.laneAttempts l + 256 * endStatusCode (s.lane l).endStatus) ∧
        ((s.lane l).note = none → at_ 5 = 0 ∧ at_ 6 = 0) ∧
        (∀ n, (s.lane l).note = some n → n.merge ≤ 255 →
          (at_ 5).toNat = n.index.val + 256 * n.merge ∧ at_ 6 = n.label) ∧
        ((s.lane l).deadline = none → at_ 7 = 0) ∧
        ∀ t, (s.lane l).deadline = some t → at_ 7 = BitVec.ofNat 16 t

/-- INTn is low exactly while the interrupt enable is set and the completion queue holds a record, and so it is high
after a reset. A POP takes it high when it empties the queue, and leaves it low when records are left or a producer fills
the slot. CONFIGURE in OFFLINE and the resets, which clear it, are all that changes the enable. -/
def Obligations.InterruptOutputFollowsTheQueue : Prop :=
  (∀ s : State, s.intN = false ↔ s.irqEnable = true ∧ s.queue ≠ []) ∧ State.reset.intN = true ∧
    (∀ (s : State) x, s.inReset = false → ∃ t, exec (.softReset x) s = .next t ∧ t.intN = true) ∧
    (∀ (s : State) (v : Word), s.inReset = false → ∃ t, exec (.pop v) s = .next t ∧
      (t.intN = false ↔ s.irqEnable = true ∧ (2 ≤ s.queue.length ∨ s.queue ≠ [] ∧ s.waiting ≠ []))) ∧
    ∀ (c : Instr) (s t : State), c.wellFormed = true → exec c s = .next t → t.irqEnable ≠ s.irqEnable →
      c = .configure ∧ s.stationState = .offline ∧ t.irqEnable = s.p0.getLsbD 4 ∨
        t.irqEnable = false ∧ (c = .pinReset ∨ ∃ x, c = .softReset x ∨ c = .pinResetEnd x)

/-! ## The completion unit -/

/-- A write of any value to POP: on an empty queue nothing, else the head leaves, and if a producer waits the first
waiting one fills the slot within the same event. -/
def Obligations.PopRemovesTheHead : Prop :=
  ∀ (s : State) (v : Word), s.inReset = false →
    (s.queue = [] → exec (.pop v) s = .next s) ∧
    (∀ head rest, s.queue = head :: rest → s.waiting = [] → exec (.pop v) s = .next { s with queue := rest }) ∧
    ∀ head rest p others, s.queue = head :: rest → s.waiting = p :: others →
      ∃ rec, s.recordOf p = some rec ∧
        exec (.pop v) s = .next { s.clearProducer p with queue := rest ++ [rec] } ∧
        (s.QueueOk → (rest ++ [rec]).length = 32)

/-- The slot a POP frees goes to the waiting producer first in the arbiter's order, and serving it removes what was
served and nothing else. -/
def Obligations.ArbiterServesInOrder : Prop :=
  ∀ (s : State) (v : Word) (head : Record) (rest : List Record) (p : Producer), s.inReset = false →
    s.queue = head :: rest → s.isWaiting p = true → (∀ q, s.isWaiting q = true → producerRank p ≤ producerRank q) →
    ∃ rec, s.recordOf p = some rec ∧ ∃ t, exec (.pop v) s = .next { t with queue := rest ++ [rec] } ∧
      match p with
      | .event k => t = { s with events := s.events.put k none }
      | .lost r =>
        t = { s with lost := t.lost } ∧ ∀ q, t.lostOwner q = if q = r then none else s.lostOwner q
      | .chainEnd l =>
        t = { s with lanes := t.lanes } ∧
          ∀ k, t.lane k = if k = l then { s.lane l with state := .free, held := none } else s.lane k
      | .note l =>
        t = { s with lanes := t.lanes } ∧ ∀ k, t.lane k = if k = l then { s.lane l with note := none } else s.lane k
      | .watch w =>
        t = { s with watches := t.watches } ∧
          ∀ k, t.watch k =
            if k = w then { s.watch w with state := .armed, changes := 0, own := false, ownerChanged := false }
            else s.watch k

/-- What settling does with the records formed in an event: with no room, or none formed, nothing but the model's own
counter (log 4); one record with room is posted at the tail; in every case the queue grows at its tail alone, a
producer keeps its record or has it in the queue, and afterwards a producer waits only for a full queue. The order of
several records is the free value of log 3, but for two watches on one region that fire on one report: they are posted in
index order while the queue has room. First, which record each producer keeps, and that the waiting producers are those
that keep one, in the arbiter's order. -/
def Obligations.RecordsAreHandedOver : Prop :=
  (∀ s : State,
     (∀ k, s.recordOf (.event k) = (s.events.get k).map fun e => .station k e.value e.merge) ∧
     (∀ r, s.recordOf (.lost r) = (s.lostOwner r).map fun x => .lost r x) ∧
     (∀ l c, (s.lane l).state = .holding → (s.lane l).held = some c → s.recordOf (.chainEnd l) = some (.chainEnd c)) ∧
     (∀ l, (s.lane l).state ≠ .holding ∨ (s.lane l).held = none → s.recordOf (.chainEnd l) = none) ∧
     (∀ l, s.recordOf (.note l) = (s.lane l).note.map fun n => .note l n.index n.label n.merge (s.lane l).tag) ∧
     (∀ w, (s.watch w).state ≠ .pending → s.recordOf (.watch w) = none) ∧
     (∀ w, (s.watch w).state = .pending →
       s.recordOf (.watch w) =
         some (.watch w (s.watch w).region (s.region (s.watch w).region).count (s.watch w).changes (s.watch w).own
           (s.watch w).ownerChanged (s.region (s.watch w).region).owner)) ∧
     (∀ p, s.isWaiting p = (s.recordOf p).isSome ∧ (p ∈ s.waiting ↔ s.isWaiting p = true)) ∧
     s.waiting.Pairwise fun p q => producerRank p < producerRank q) ∧
  (∀ s : State,
     (32 ≤ s.queue.length ∨ s.waiting = [] → s.settle = { s with choices := s.choices + 1 }) ∧
     (∀ p rec, s.queue.length < 32 → s.waiting = [p] → s.recordOf p = some rec →
       s.settle = { s.clearProducer p with queue := s.queue ++ [rec], choices := s.choices + 1 }) ∧
     (s.queue.length ≤ 32 → s.settle.QueueOk) ∧
     ∃ posted, s.settle.queue = s.queue ++ posted ∧
       ∀ p, s.settle.recordOf p = s.recordOf p ∨
         s.settle.recordOf p = none ∧ ∃ rec, s.recordOf p = some rec ∧ rec ∈ posted) ∧
    ∀ (s : State) (v w : WatchNo) (a b : Record), v < w → (s.watch v).region = (s.watch w).region →
      s.waiting = [.watch v, .watch w] → s.recordOf (.watch v) = some a → s.recordOf (.watch w) = some b →
      s.queue.length + 2 ≤ 32 → s.settle.queue = s.queue ++ [a, b]

/-- A station event enters the event set, or merges with a waiting one of its kind: the value replaced, the merge count
raised and stopping at 255. Other kinds are unchanged. That it enters the set whatever room the queue has, to be posted at
the end of the event by the settling of RecordsAreHandedOver, is the model's device (deduced, log 24). -/
def Obligations.StationEventsMerge : Prop :=
  ∀ (s : State) (k : StationEvent) (v : Nat),
    (s.events.get k = none → (s.handEvent k v).events.get k = some { value := v, merge := 1 }) ∧
    (∀ e, s.events.get k = some e →
      (s.handEvent k v).events.get k = some { value := v, merge := min 255 (e.merge + 1) }) ∧
    (∀ j, j ≠ k → (s.handEvent k v).events.get j = s.events.get j) ∧
    s.handEvent k v = { s with events := (s.handEvent k v).events }

/-- A change report reaches every watch on its region: an ARMED watch whose mode it matches forms a report of one
change, a PENDING one merges it, every other watch is unchanged. It reaches every lane WAITING on its region, whose entry
completes DONE if its condition holds now; no other lane, and nothing but lanes and watches. That an ARMED watch becomes
PENDING whatever room the queue has, to be posted and ARMED again at the end of the event by the settling of
RecordsAreHandedOver, is the model's device (deduced, log 24). -/
def Obligations.ChangeReportsReachWatchesAndLanes : Prop :=
  (∀ (s : State) (rep : ChangeReport) (w : WatchNo),
     ((s.watch w).region ≠ rep.region ∨ (s.watch w).state = .off ∨ ¬ (s.watch w).mode.Matches rep →
       (s.report rep).watch w = s.watch w) ∧
     ((s.watch w).region = rep.region → (s.watch w).mode.Matches rep →
       ((s.watch w).state = .armed →
         (s.report rep).watch w =
           { s.watch w with state := .pending, changes := 1, own := rep.own, ownerChanged := rep.owner }) ∧
       ((s.watch w).state = .pending →
         (s.report rep).watch w =
           { s.watch w with
             changes := min 255 ((s.watch w).changes + 1), own := (s.watch w).own || rep.own
             ownerChanged := (s.watch w).ownerChanged || rep.owner }))) ∧
    ∀ (s : State) (rep : ChangeReport),
      (∀ l c, (s.lane l).state = .waiting → (s.lane l).wait = some c → c.region = rep.region → s.WaitTest c →
        (s.report rep).lane l = (s.lane l).complete l .done) ∧
      (∀ l, ((s.lane l).state ≠ .waiting ∨
          ∀ c, (s.lane l).wait = some c → c.region ≠ rep.region ∨ ¬ s.WaitTest c) →
        (s.report rep).lane l = s.lane l) ∧
      s.report rep = { s with lanes := (s.report rep).lanes, watches := (s.report rep).watches }

/-- WATCH_ARM arms watch P0 on region P1 in mode P2 in any station state, whatever it held; WATCH_DISARM turns watch
P0 off, keeping its region and mode and dropping a pending report; parameters out of range change no watch. -/
def Obligations.WatchRequestsSetAWatch : Prop :=
  (∀ s : State, s.inReset = false →
     (∀ (w : WatchNo) (r : RegionNo) (m : WatchMode),
       s.p0.toNat = w.val → s.p1.toNat = r.val → s.p2.toNat = m.code →
       ∃ t, exec .watchArm s = .next t ∧
         (∀ k, t.watch k =
           if k = w then
             { state := .armed, region := r, mode := m, changes := 0, own := false, ownerChanged := false }
           else s.watch k) ∧
         t = { s with watches := t.watches, result := Answer.ok.plain }) ∧
     (15 < s.p0.toNat ∨ 127 < s.p1.toNat ∨ 2 < s.p2.toNat →
       exec .watchArm s = .next { s with result := Answer.badParameter.plain })) ∧
    ∀ s : State, s.inReset = false →
      (∀ w : WatchNo, s.p0.toNat = w.val →
        ∃ t, exec .watchDisarm s = .next t ∧
          (∀ k, t.watch k =
            if k = w then { s.watch w with state := .off, changes := 0, own := false, ownerChanged := false }
            else s.watch k) ∧
          t.isWaiting (.watch w) = false ∧ t = { s with watches := t.watches, result := Answer.ok.plain }) ∧
      (15 < s.p0.toNat → exec .watchDisarm s = .next { s with result := Answer.badParameter.plain })

/-- The head window shows the eight bytes of the head record, and 0 while the queue is empty. The numbers of the chain
status and station event codes stand first. -/
def Obligations.HeadWindowShowsTheHead : Prop :=
  (Status.done.code = 1 ∧ Status.notCurrent.code = 2 ∧ Status.refusedGuard.code = 3 ∧ Status.refusedOwner.code = 4 ∧
    Status.claimLost.code = 5 ∧ Status.notOwner.code = 6 ∧ Status.waitTimeout.code = 7 ∧ Status.abandoned.code = 8 ∧
    Status.badEntry.code = 9 ∧ Status.badSequence.code = 10 ∧ Status.length.code = 11 ∧ Status.stopped.code = 12 ∧
    Status.detached.code = 13 ∧
    eventCode .joined = 1 ∧ eventCode .adrift = 2 ∧ eventCode .left = 3 ∧ eventCode .halted = 4) ∧
  ∀ s : State, s.inReset = false →
    (s.queue = [] → s.hostRead 0x3160 = 0 ∧ s.hostRead 0x3161 = 0 ∧ s.hostRead 0x3162 = 0 ∧ s.hostRead 0x3163 = 0) ∧
    (∀ c rest, s.queue = .chainEnd c :: rest →
      (s.hostRead 0x3160).toNat = 1 + 256 * (c.lane.val + if c.folded then 128 else 0) ∧
      (s.hostRead 0x3161).toNat = c.status.code + 256 * c.last.val ∧
      s.hostRead 0x3162 = c.tag ∧ s.hostRead 0x3163 = BitVec.ofNat 16 c.completed) ∧
    (∀ l i label n tag rest, s.queue = .note l i label n tag :: rest → n ≤ 255 →
      (s.hostRead 0x3160).toNat = 2 + 256 * l.val ∧ (s.hostRead 0x3161).toNat = i.val + 256 * n ∧
      s.hostRead 0x3162 = label ∧ s.hostRead 0x3163 = tag) ∧
    (∀ w r count n own oc owner rest, s.queue = .watch w r count n own oc owner :: rest → n ≤ 255 →
      (s.hostRead 0x3160).toNat = 3 + 256 * (w.val + (if own then 64 else 0) + if oc then 128 else 0) ∧
      (s.hostRead 0x3161).toNat = r.val + 256 * n ∧ s.hostRead 0x3162 = count ∧
      ∀ t, (owner = some t → (s.hostRead 0x3163).toNat = t.toNat) ∧
        (owner = none → (s.hostRead 0x3163).toNat = 0xFF)) ∧
    (∀ k v n rest, s.queue = .station k v n :: rest → v ≤ 255 → n ≤ 255 →
      (s.hostRead 0x3160).toNat = 4 + 256 * eventCode k ∧ (s.hostRead 0x3161).toNat = v + 256 * n ∧
      s.hostRead 0x3162 = 0 ∧ s.hostRead 0x3163 = 0) ∧
    ∀ r t rest, s.queue = .lost r t :: rest →
      (s.hostRead 0x3160).toNat = 5 + 256 * r.val ∧ (s.hostRead 0x3161).toNat = t.toNat ∧
      s.hostRead 0x3162 = 0 ∧ s.hostRead 0x3163 = 0

/-! ## Lanes -/

/-- START takes the lowest-numbered FREE lane in JOINING or ACTIVE, RUNNING from the first index P0 with the tag P1; its
checks are made in order, and a refused START changes the request result alone. -/
def Obligations.StartTakesAFreeLane : Prop :=
  ∀ s : State, s.inReset = false →
    (255 < s.p0.toNat → exec .start s = .next { s with result := Answer.badParameter.plain }) ∧
    (s.p0.toNat ≤ 255 → s.stationState ≠ .joining → s.stationState ≠ .active →
      exec .start s = .next { s with result := Answer.wrongState.plain }) ∧
    (s.p0.toNat ≤ 255 → s.stationState = .joining ∨ s.stationState = .active →
      (∀ l, (s.lane l).state ≠ .free) → exec .start s = .next { s with result := Answer.noLane.plain }) ∧
    ∀ (l : LaneNo) (i : Index), s.p0.toNat = i.val → s.stationState = .joining ∨ s.stationState = .active →
      (s.lane l).state = .free → (∀ k, k < l → (s.lane k).state ≠ .free) →
      ∃ t, exec .start s = .next t ∧
        (∀ k, t.lane k =
          if k = l then
            { state := .running, tag := s.p1, first := i, cur := i, prevGoto := false, completed := 0
              stopPending := false, note := none, endStatus := none, deadline := none, held := none, entry := none
              wait := none }
          else s.lane k) ∧
        t = { s with lanes := t.lanes, result := some { answer := .ok, value := BitVec.ofNat 8 l.val } }

/-- The answers of STOP; one other than OK leaves everything but the request result as it was, and for a lane ON_LINE
an OK leaves stop-pending set. On a lane RUNNING, WAITING or OFFERED it ends the chain STOPPED at once: the frame leaves
the slot, the entry is not counted, and the CHAIN_END record of the lane's tag, current index and count is formed, a
pending note folded into it. -/
def Obligations.StopIsAnsweredAndEndsTheChain : Prop :=
  (∀ s : State, s.inReset = false →
     (3 < s.p0.toNat → exec .stop s = .next { s with result := Answer.badParameter.plain }) ∧
     ∀ l : LaneNo, s.p0.toNat = l.val →
       ((s.lane l).state = .free → exec .stop s = .next { s with result := Answer.notRunning.plain }) ∧
       ((s.lane l).state = .holding → exec .stop s = .next { s with result := Answer.alreadyEnded.plain }) ∧
       ((s.lane l).state.busy = true → ∃ t, exec .stop s = .next t ∧ t.result = Answer.ok.plain ∧
         ((s.lane l).state = .onLine →
           (∀ k, t.lane k = if k = l then { s.lane l with stopPending := true } else s.lane k) ∧
             t = { s with lanes := t.lanes, result := t.result }))) ∧
    ∀ (s : State) (l : LaneNo), s.inReset = false → s.p0.toNat = l.val →
      (s.lane l).state = .running ∨ (s.lane l).state = .waiting ∨ (s.lane l).state = .offered →
      ∃ u : State, exec .stop s = .next { u.settle with result := Answer.ok.plain } ∧
        (∀ k, u.lane k =
          if k = l then
            { s.lane l with
              state := .holding, stopPending := false, note := none, endStatus := some .stopped, deadline := none
              entry := none, wait := none
              held := some { lane := l, status := .stopped, tag := (s.lane l).tag, last := (s.lane l).cur
                             completed := (s.lane l).completed, folded := (s.lane l).note.isSome } }
          else s.lane k) ∧
        (∀ k, u.laneSlot k = if k = l ∧ (s.lane l).state = .offered then none else s.laneSlot k) ∧
        u = { s with lanes := u.lanes, laneSlots := u.laneSlots, placement := u.placement } ∧
        u.placement =
          if (s.lane l).state = .offered then s.placement.filter (fun k => k != l) else s.placement

/-- How a lane goes on when the entry under way completes: counted, up to 65,535; then STOPPED if a stop is pending, the
next index under NEXT after DONE, the on-fail index under ALT after any status other than DONE (an entry completes with a
soft failure or DONE alone; the hard ones end a chain without completing its entry), else the end of the chain. At that
end the end status is set, stop-pending, deadline and note are dropped and the CHAIN_END record is formed; tag, first
index, current index and count are kept. That the lane is then HOLDING whatever room the queue has, to be FREE once the
settling of RecordsAreHandedOver has posted the record, is the model's device (deduced, log 24). -/
def Obligations.EntriesGoOnOrEnd : Prop :=
  (∀ (l : LaneNo) (st : Status) (x : Lane) (e : EntryCtx), x.entry = some e →
     let counted := { x with completed := min 65535 (x.completed + e.size) }
     let on := fun i : Index =>
       { counted with state := .running, cur := i, deadline := none, entry := none, wait := none }
     (x.stopPending = true → x.complete l st = counted.endChain l .stopped) ∧
     (x.stopPending = false →
       (st = .done →
         (e.next = true → ∀ i : Index, i.val = x.cur.val + 1 → x.complete l st = on i) ∧
         (e.next = true → x.cur.val = 255 → x.complete l st = counted.endChain l .badSequence) ∧
         (e.next = false → x.complete l st = counted.endChain l .done)) ∧
       (st ≠ .done →
         (∀ i, e.alt = some i → x.complete l st = on i) ∧
         (e.alt = none → x.complete l st = counted.endChain l st)))) ∧
    ∀ (l : LaneNo) (st : Status) (x : Lane),
      x.endChain l st =
        { x with
          state := .holding, stopPending := false, note := none, endStatus := some st, deadline := none
          entry := none, wait := none
          held := some { lane := l, status := st, tag := x.tag, last := x.cur, completed := x.completed
                         folded := x.note.isSome } }

/-- The expiry of a WAIT deadline completes the entry WAIT_TIMEOUT on that lane alone. A lane that is not WAITING with a
deadline hears nothing (log 9). -/
def Obligations.WaitTimeoutCompletesTheWait : Prop :=
  ∀ (s : State) (l : LaneNo), s.inReset = false →
    ((s.lane l).state = .waiting → (s.lane l).deadline.isSome = true →
      ∃ u : State, exec (.waitTimeout l) s = .next u.settle ∧
        (∀ k, u.lane k = if k = l then (s.lane l).complete l .waitTimeout else s.lane k) ∧
        u = { s with lanes := u.lanes }) ∧
    ((s.lane l).state ≠ .waiting ∨ (s.lane l).deadline = none → exec (.waitTimeout l) s = .next s)

/-! ## The line unit -/

/-- The access key of every frame is 32 times its class plus the sender's number, it is the frame's first byte, and a
frame of a lower class has the lower key. -/
def Obligations.AccessKeysAreClassAndNumber : Prop :=
  (∀ f : Frame, f.key.toNat = 32 * f.body.keyClass + f.sender.toNat ∧ f.bytes.head? = some f.key) ∧
    (∀ r seize a c o n data, FrameBody.keyClass .join = 0 ∧ FrameBody.keyClass .leave = 0 ∧
      FrameBody.keyClass (.claim seize r) = 1 ∧ FrameBody.keyClass (.release r) = 1 ∧
      FrameBody.keyClass (.ask a c) = 1 ∧ FrameBody.keyClass (.image r o n data) = 2 ∧
      FrameBody.keyClass (.update r a data) = 3) ∧
    ∀ f g : Frame, f.body.keyClass < g.body.keyClass → f.key.toNat < g.key.toNat

/-- When its count of 12 recessive cells runs out the line unit opens access, and a listening station begins the start
symbol of the frame its arbiter chooses. At any other time nothing happens (log 9). -/
def Obligations.AccessOpens : Prop :=
  ∀ s : State, s.inReset = false →
    (s.phase = .counting →
      ∃ t, exec .accessOpening s = .next t ∧ t = { s with phase := .accessOpen } ∧
        (s.listening = true → t.startSymbol = s.arbiterChoice) ∧ (s.listening = false → t.startSymbol = none)) ∧
    (s.phase ≠ .counting → exec .accessOpening s = .next s)

/-- At a start edge with no frame in progress the frame goes on the line that the arbiter's preference gives: station
slot, the first placed CLAIM or RELEASE, image slot with the region read now, the first placed UPDATE. A station that
offers nothing, or does not listen, only receives. That a station joins in before its own
12 recessive cells are counted is deduced (log 16). -/
def Obligations.StartEdgeFollowsThePreference : Prop :=
  ∀ s : State, s.inReset = false → s.phase = .counting ∨ s.phase = .accessOpen →
    let onLine := fun (slot : SlotId) (body : FrameBody) =>
      some { slot := slot, frame := { sender := s.stationNumber, body := body }, attached := true, differed := false }
    let laneGoes := fun (l : LaneNo) (o : LaneSlot) =>
      ∃ t, exec .startEdge s = .next t ∧
        (∀ k, t.lane k = if k = l then { s.lane l with state := .onLine } else s.lane k) ∧
        t = { s with phase := .inFrame, lanes := t.lanes, flight := onLine (.lane l) o.frame.body }
    (s.listening = false → exec .startEdge s = .next { s with phase := .inFrame }) ∧
    (s.listening = true →
      (∀ o, s.stationSlot = some o →
        exec .startEdge s = .next { s with phase := .inFrame, flight := onLine .station o.frame.body }) ∧
      (s.stationSlot = none →
        (∀ l o before after, s.placement = before ++ l :: after → s.laneSlot l = some o →
          o.frame.isUpdate = false →
          (∀ k, k ∈ before → ∀ p, s.laneSlot k = some p → p.frame.isUpdate = true) → laneGoes l o) ∧
        ((∀ k, k ∈ s.placement → ∀ p, s.laneSlot k = some p → p.frame.isUpdate = true) →
          (∀ o, s.imageSlot = some o →
            exec .startEdge s = .next
              { s with
                phase := .inFrame
                flight := onLine .image
                  (.image o.region (s.region o.region).owner (s.region o.region).count
                    (s.regionBytes o.region 0 128)) }) ∧
          (s.imageSlot = none →
            (∀ l o before after, s.placement = before ++ l :: after → s.laneSlot l = some o →
              (∀ k, k ∈ before → s.laneSlot k = none) → laneGoes l o) ∧
            ((∀ k, k ∈ s.placement → s.laneSlot k = none) →
              exec .startEdge s = .next { s with phase := .inFrame })))))

/-- A station that loses arbitration keeps its frame offered with its attempt count and the spoil streak as they were;
a held withdrawal takes effect; a frame its slot no longer holds is not retried, and one that waits for the station slot
enters it. A frame carried with another key than this station's own on the line means that arbitration was lost (log 2):
the own frame stays offered and the carried one is applied as any peer's. So does a frame that ends spoiled with
another key (log 2): the own frame stays offered, and the spoil is that of a peer's frame, its slot driven dominant and
the streak raised, up to ADRIFT, where it is bad here, the streak 0 where it is clean. -/
def Obligations.ArbitrationLossKeepsTheFrame : Prop :=
  (∀ (s : State) (f : Flight), s.inReset = false → s.flight = some f → f.differed = false →
     ∃ u : State, exec .arbitrationLost s = .next u.settle ∧ u.AttemptLost s f) ∧
    (∀ (s : State) (bytes : List Byte) (f : Frame) (own : Flight), s.Receives →
      s.flight = some own → own.differed = false → checkFrame bytes = some f →
      bytes.head? ≠ some own.frame.key → f.sender ≠ s.stationNumber →
      ∃ u : State, u.AttemptLost s own ∧
        exec (.carriedFrameEnd bytes) s = .next ((u.settle.atFrameEnd).applyPeer f).settle) ∧
    ∀ (s : State) (bytes : List Byte) (own : Flight), s.Receives →
      s.flight = some own → own.differed = false → bytes.head? ≠ some own.frame.key →
      ∃ u : State, u.AttemptLost s own ∧
        ((checkFrame bytes).isSome = true →
          s.spoilSlot bytes = [true, true] ∧
            exec (.spoiledFrameEnd bytes) s = .next u.settle.atFrameEnd.settle) ∧
        (checkFrame bytes = none →
          s.spoilSlot bytes = [false, false] ∧
          (s.spoilStreak < 15 →
            exec (.spoiledFrameEnd bytes) s = .next
              ({ u.settle with phase := .counting, spoilStreak := s.spoilStreak + 1 } : State).settle) ∧
          (15 ≤ s.spoilStreak →
            ∃ v : State, v.IsFlushOf { u.settle with phase := .counting, spoilStreak := 16 } ∧
              exec (.spoiledFrameEnd bytes) s = .next
                ({ (({ v.settle with stationState := .adrift } : State).handEvent .adrift 1).settle with
                   flight := none } : State).settle))

/-- A readback difference after the key: the frame is on the line no longer as one this station sends. It drives none
of the frame's cells any more; while it listens it drives the frame's spoil slot dominant, elsewhere it drives
nothing. Nothing of the state but the mark changes at that moment, and nothing at all without a frame of this station
on the line (the model's choice, log 9). A frame that ends, spoiled or carried, with this station's key but other
bytes than its own after it ends as if the difference had been told before (log 2), and a listening station drives its
spoil slot dominant. -/
def Obligations.ReadbackDifferenceMarksTheFrame : Prop :=
  (∀ (s : State) (f : Flight) (bytes : List Byte), s.Receives → s.flight = some f → f.frame.bytes ≠ bytes →
    bytes.head? = some f.frame.key →
    s.spoilSlot bytes = [false, false] ∧
      ∀ c, c = .spoiledFrameEnd bytes ∨ c = .carriedFrameEnd bytes →
        exec c s = exec c { s with flight := some { f with differed := true } }) ∧
  ∀ s : State, s.inReset = false →
    (∀ f, s.flight = some f →
      (f.differed = false → s.drivenCells = some (LineCode.frameCells f.frame.bytes)) ∧
      exec .readbackDifference s = .next { s with flight := some { f with differed := true } } ∧
        ∀ t bytes, exec .readbackDifference s = .next t →
          t.sent bytes = false ∧ t.drivenCells = none ∧
          (s.Receives → t.spoilSlot bytes = [false, false]) ∧
          (s.listening = false → t.spoilSlot bytes = [true, true] ∧ t.spoilMark = [])) ∧
    (s.flight = none → exec .readbackDifference s = .next s)

/-- A spoiled attempt of a lane's frame: the attempt count rises and the frame stays offered in its place; at the
eighth it is abandoned and the entry completes ABANDONED; with stop-pending the chain ends STOPPED and nothing is
counted. One that its slot no longer holds is over, told to no lane. The other lane frames keep their order. The frame
was sent to its end, or with a readback difference after the key, told before or found in the bytes (log 2). -/
def Obligations.SpoiledLaneFramesAreCounted : Prop :=
  (∀ (s : State) (c : Instr) (n : Nat) (f : Flight) (l : LaneNo), s.SpoilEnds c n → s.flight = some f →
    f.slot = .lane l → f.attached = false →
    exec c s = .next { s with phase := .counting, spoilStreak := n, flight := none }.settle) ∧
  ∀ (s : State) (c : Instr) (n : Nat) (f : Flight) (l : LaneNo) (o : LaneSlot), s.SpoilEnds c n →
    s.flight = some f → f.slot = .lane l → f.attached = true → s.laneSlot l = some o →
    ∃ u : State, exec c s = .next u.settle ∧
      u = { s with
            phase := .counting, spoilStreak := n, flight := none
            lanes := u.lanes, laneSlots := u.laneSlots, placement := u.placement } ∧
      ((s.lane l).stopPending = false → o.attempts + 1 < 8 →
        (∀ k, u.lane k = if k = l then { s.lane l with state := .offered } else s.lane k) ∧
        (∀ k, u.laneSlot k = if k = l then some { o with attempts := o.attempts + 1 } else s.laneSlot k) ∧
        u.placement = s.placement) ∧
      ((s.lane l).stopPending = true ∨ 8 ≤ o.attempts + 1 →
        (∀ k, u.lane k =
          if k = l then
            (if (s.lane l).stopPending then (s.lane l).endChain l .stopped else (s.lane l).complete l .abandoned)
          else s.lane k) ∧
        (∀ k, u.laneSlot k = if k = l then none else s.laneSlot k) ∧
        u.placement = s.placement.filter fun k => k != l)

/-- A spoiled attempt of the station slot's frame: a held withdrawal lets the waiting frame in; else the count rises;
at the eighth a JOIN ends in ADRIFT with cause JOIN_ABANDONED, an ASK ends a pass, a LEAVE ends as if carried. A
leftover frame is neither counted nor retried: the waiting frame enters. The frame was sent to its end, or with a
readback difference after the key, told before or found in the bytes (log 2). -/
def Obligations.SpoiledStationFramesAreCounted : Prop :=
  (∀ (s : State) (c : Instr) (n : Nat) (f : Flight), s.SpoilEnds c n → s.flight = some f → f.slot = .station →
    f.attached = false →
    exec c s = .next { s.nextEntered with phase := .counting, spoilStreak := n, flight := none }.settle) ∧
  ∀ (s : State) (c : Instr) (n : Nat) (f : Flight) (o : StationSlot), s.SpoilEnds c n →
    s.flight = some f → f.slot = .station → f.attached = true → s.stationSlot = some o → s.StoresOk →
    let t := { s with phase := .counting, spoilStreak := n, flight := none }
    let e : State := { t with stationSlot := none }
    (o.held = true →
      exec c s = .next { t with stationSlot := State.entering s.stationNext, stationNext := none }.settle) ∧
    (o.held = false → o.attempts + 1 < 8 →
      exec c s = .next { t with stationSlot := some { o with attempts := o.attempts + 1 } }.settle) ∧
    (o.held = false → 8 ≤ o.attempts + 1 →
      (o.frame = .join →
        ∃ u : State, u.IsFlushOf e ∧
          exec c s = .next
            (({ u.settle with stationState := .adrift } : State).handEvent .adrift 2).settle.settle) ∧
      (∀ a b, o.frame = .ask a b →
        (s.stationState = .joining → s.join.isSome = true →
          ∃ u : State, u.PassEnded e (fun r => (s.region r).state ≠ .current) ∧ exec c s = .next u.settle) ∧
        (s.stationState ≠ .joining → exec c s = .next e.settle)) ∧
      (o.frame = .leave → ∃ u : State, u.LeaveEnded e ∧ exec c s = .next u.settle))

/-- A spoiled attempt of an IMAGE is counted; at the eighth the region leaves the response set. The image slot follows
the set. One that its slot no longer holds is not counted. The frame was sent to its end, or with a readback
difference after the key, told before or found in the bytes (log 2). -/
def Obligations.SpoiledImagesAreCounted : Prop :=
  (∀ (s : State) (c : Instr) (n : Nat) (f : Flight), s.SpoilEnds c n → s.flight = some f → f.slot = .image →
    f.attached = false →
    ∃ u : State, exec c s = .next u.settle ∧ u.ImageSlotFollows s.imageSlot ∧
      u = { s with phase := .counting, spoilStreak := n, flight := none, imageSlot := u.imageSlot }) ∧
  ∀ (s : State) (c : Instr) (n : Nat) (f : Flight) (o : ImageSlot), s.SpoilEnds c n →
    s.flight = some f → f.slot = .image → f.attached = true → s.imageSlot = some o →
    ∃ u : State, exec c s = .next u.settle ∧
      u = { s with
            phase := .counting, spoilStreak := n, flight := none, regions := u.regions
            imageSlot := u.imageSlot } ∧
      (o.attempts + 1 < 8 →
        u.regions = s.regions ∧ u.ImageSlotFollows (some { o with attempts := o.attempts + 1 })) ∧
      (8 ≤ o.attempts + 1 →
        (∀ r, u.region r = if r = o.region then { s.region r with responding := false } else s.region r) ∧
          u.ImageSlotFollows none)

/-- Spoils of frames this station does not send: it drives a two-cell spoil mark where the framing breaks and the
spoil slot of a frame that is bad here dominant, each raising the streak; a frame clean here sets the streak to 0, its
slot left recessive; and nothing of the frame is applied. The spoil that brings the streak to 16 takes a listening
station to ADRIFT: the drift flush, the state, then an ADRIFT event of cause STREAK; a frame of this station on the
line is over, and its attempt is not counted. -/
def Obligations.SpoilsMoveTheStreakToAdrift : Prop :=
  (∀ s : State, s.Receives → s.flight = none →
     s.spoilMark = [false, false] ∧
     (s.spoilStreak < 15 →
       exec .framingBreak s = .next { s with phase := .counting, spoilStreak := s.spoilStreak + 1 }.settle) ∧
     ∀ bytes,
       (checkFrame bytes = none → s.spoilSlot bytes = [false, false]) ∧
       ((checkFrame bytes).isSome = true → s.spoilSlot bytes = [true, true]) ∧
       (checkFrame bytes = none → s.spoilStreak < 15 →
         exec (.spoiledFrameEnd bytes) s = .next
           { s with phase := .counting, spoilStreak := s.spoilStreak + 1 }.settle) ∧
       ((checkFrame bytes).isSome = true → exec (.spoiledFrameEnd bytes) s = .next s.atFrameEnd.settle)) ∧
    ∀ s : State, s.Receives → 15 ≤ s.spoilStreak →
      ∀ c, (c = .framingBreak ∨
          ∃ bytes, c = .spoiledFrameEnd bytes ∧
            (s.flight = none ∧ checkFrame bytes = none ∨ ∃ f, s.flight = some f ∧ f.differed = true)) →
        ∃ u : State, u.IsFlushOf { s with phase := .counting, spoilStreak := 16 } ∧
          exec c s = .next
            ({ (({ u.settle with stationState := .adrift } : State).handEvent .adrift 1).settle with
               flight := none } : State).settle

/-- A station that has not received a frame from its start symbol, released in the middle of it or with its line unit
off, takes nothing of the frame's end; that even its phase stays is the model's choice (log 1). One that does not
listen applies and spoils nothing: in ADRIFT a framing break, a spoiled frame, a carried frame that is bad here and
its own carried frame only bring it to count toward the next opening. ADRIFT ends at a frame carried and clean here:
one from a peer brings the JOINING entry and is not applied; one in this station's own number that it did not send
brings HALTED. -/
def Obligations.SilentStationsApplyNothing : Prop :=
  (∀ (s : State) (bytes : List Byte), s.phase ≠ .inFrame →
     exec .framingBreak s = .next s ∧ exec (.spoiledFrameEnd bytes) s = .next s ∧
       exec (.carriedFrameEnd bytes) s = .next s ∧ s.spoilMark = [] ∧ s.spoilSlot bytes = [true, true]) ∧
  (∀ (s : State) (bytes : List Byte), s.inReset = false → s.phase = .inFrame → s.stationState = .adrift →
     s.spoilMark = [] ∧ s.spoilSlot bytes = [true, true] ∧
     exec .framingBreak s = .next { s with phase := .counting, flight := none } ∧
     exec (.spoiledFrameEnd bytes) s = .next { s with phase := .counting, flight := none } ∧
     (checkFrame bytes = none →
       exec (.carriedFrameEnd bytes) s = .next { s with phase := .counting, flight := none })) ∧
    ∀ (s : State) (bytes : List Byte) (f : Frame), s.inReset = false → s.phase = .inFrame →
      s.stationState = .adrift → checkFrame bytes = some f →
      (f.sender ≠ s.stationNumber →
        exec (.carriedFrameEnd bytes) s = .next
          { s with
            phase := .counting, flight := none, stationState := .joining, spoilStreak := 0, passCount := 0
            window := none, join := some { joinCarried := false, askCarried := false }
            stationSlot := some { frame := .join, attempts := 0, held := false } }) ∧
      (f.sender = s.stationNumber →
        (∀ own, s.flight = some own → own.differed = false → own.frame.bytes = bytes →
          exec (.carriedFrameEnd bytes) s = .next { s with phase := .counting, flight := none }) ∧
        ((∀ own, s.flight = some own → own.differed = true ∨ own.frame.bytes ≠ bytes) →
          ∃ t : State, t.HaltedFrom { s with phase := .counting, flight := none } ∧
            exec (.carriedFrameEnd bytes) s = .next t))

/-- A carried frame in this station's number that it did not send is not applied: the drift flush, HALTED, and a HALTED
event. It did not send it if it has no frame on the line, lost arbitration in the key, or read back a difference after the
key, told by a command of its own or found in the bytes (log 2); its own attempt is then over. -/
def Obligations.DuplicatesHalt : Prop :=
  ∀ (s : State) (bytes : List Byte) (f : Frame), s.Receives → checkFrame bytes = some f → f.sender = s.stationNumber →
    (s.flight = none →
      ∃ t : State, t.HaltedFrom s.atFrameEnd ∧ exec (.carriedFrameEnd bytes) s = .next t) ∧
    ∀ own, s.flight = some own →
      (own.differed = false → bytes.head? ≠ some own.frame.key →
        ∃ u t : State, u.AttemptLost s own ∧ t.HaltedFrom u.settle.atFrameEnd ∧
          exec (.carriedFrameEnd bytes) s = .next t) ∧
      (own.differed = true ∨ bytes.head? = some own.frame.key ∧ own.frame.bytes ≠ bytes →
        ∃ u t : State, u.AttemptLost s.atFrameEnd { own with differed := true } ∧ t.HaltedFrom u.settle ∧
          exec (.carriedFrameEnd bytes) s = .next t)

/-! ## Carried frames -/

/-- A carried UPDATE of a peer is applied to a CURRENT region that is unowned or the sender's, and then reported; else
nothing of it is taken. -/
def Obligations.CarriedUpdatesAreAppliedOrRefused : Prop :=
  ∀ (s : State) (bytes : List Byte) (f : Frame) (r : RegionNo) (k : Nat) (data : List Byte),
    s.Hears bytes f → f.body = .update r k data → s.StoresOk →
    let applies := (s.region r).state = .current ∧
      ((s.region r).owner = none ∨ (s.region r).owner = some f.sender)
    (applies → ∃ u : State, u.UpdateWritten s.atFrameEnd r k data ∧
      exec (.carriedFrameEnd bytes) s = .next
        (u.report { region := r, content := true, owner := false, own := false }).settle) ∧
    (¬ applies → exec (.carriedFrameEnd bytes) s = .next s.atFrameEnd.settle)

/-- A carried IMAGE, a peer's or this station's own, still in its slot or on the line since before a flush, takes its
region out of the response set; where the region is not CURRENT here its content, count and owner are installed,
reported, and the window restarts. -/
def Obligations.CarriedImagesAreInstalledOrDropped : Prop :=
  ∀ (s v : State) (bytes : List Byte) (r : RegionNo) (owner : Option Station) (count : Word) (data : List Byte),
    ((∃ f, s.Hears bytes f ∧ f.body = .image r owner count data ∧ v = s.atFrameEnd) ∨
      ∃ f, s.Sends bytes f ∧ f.frame.body = .image r owner count data ∧ f.slot = .image ∧
        v = { s.atFrameEnd with flight := none, imageSlot := if f.attached then none else s.imageSlot }) → s.StoresOk →
    ((s.region r).state = .current →
      ∃ w : State, exec (.carriedFrameEnd bytes) s = .next w.settle ∧
        (∀ q, w.region q = if q = r then { s.region r with responding := false } else s.region q) ∧
        w.ImageSlotFollows v.imageSlot ∧ w = { v with regions := w.regions, imageSlot := w.imageSlot }) ∧
    ((s.region r).state ≠ .current →
      ∃ u w : State, exec (.carriedFrameEnd bytes) s = .next (w.tryComplete 0).settle ∧
        u.BytesReplaced s r 0 data ∧ data.length = 128 ∧
        (∀ q, u.region q =
          if q = r then { s.region r with state := .current, owner := owner, count := count } else s.region q) ∧
        u = { v with area := u.area, regions := u.regions } ∧
        (∀ q, w.region q = if q = r then { u.region r with responding := false } else u.region q) ∧
        w.ImageSlotFollows v.imageSlot ∧
        w = { u.report { region := r, content := true, owner := owner.isSome, own := false } with
              regions := w.regions, imageSlot := w.imageSlot, window := s.window.map fun _ => 20 })

/-- A carried CLAIM of a peer moves the owner of a CURRENT region that is unowned, or another's when it seizes; a region
seized from this station enters the lost set. A carried RELEASE of a peer frees a CURRENT region it owns, a carried JOIN
or LEAVE every CURRENT region it owns. Else nothing of the frame is taken. -/
def Obligations.CarriedOwnershipFramesMoveOwners : Prop :=
  (∀ (s : State) (bytes : List Byte) (f : Frame) (seize : Bool) (r : RegionNo),
     s.Hears bytes f → f.body = .claim seize r →
     ∃ t : State, t.ClaimTaken s.atFrameEnd f.sender seize r ∧ exec (.carriedFrameEnd bytes) s = .next t.settle) ∧
    ∀ (s : State) (bytes : List Byte) (f : Frame), s.Hears bytes f →
      (∀ r, f.body = .release r →
        ∃ t : State, t.ReleaseTaken s.atFrameEnd f.sender r ∧
          exec (.carriedFrameEnd bytes) s = .next t.settle) ∧
      (f.body = .join ∨ f.body = .leave →
        ∃ t : State, t.ClearedBy s.atFrameEnd f.sender ∧ exec (.carriedFrameEnd bytes) s = .next t.settle)

/-- A carried ASK of a peer adds the CURRENT regions of its range to the response set. -/
def Obligations.CarriedAsksFillTheResponseSet : Prop :=
  ∀ (s : State) (bytes : List Byte) (f : Frame) (first count : Nat),
    s.Hears bytes f → f.body = .ask first count →
    ∃ w : State, exec (.carriedFrameEnd bytes) s = .next w.settle ∧
      (∀ r, w.region r =
        if first ≤ r.val ∧ r.val < first + count ∧ (s.region r).state = .current then
          { s.region r with responding := true }
        else s.region r) ∧
      w.ImageSlotFollows s.imageSlot ∧ w = { s.atFrameEnd with regions := w.regions, imageSlot := w.imageSlot }

/-- The withdrawal check looks at the frames of the lane slots for the regions whose owner changed: an UPDATE goes
REFUSED_OWNER if another station now owns the region, a plain CLAIM goes DONE or CLAIM_LOST if the region is owned, a
RELEASE goes NOT_OWNER if this station no longer owns it; every other frame stays. -/
def Obligations.WithdrawalCheckTakesFramesOut : Prop :=
  ∀ (s : State) (changed : RegionNo → Bool) (l : LaneNo),
    let u := s.withdrawalCheck changed
    let me := s.stationNumber
    let goes := fun st : Status =>
      u.lane l = (s.lane l).complete l st ∧ u.laneSlot l = none ∧ ¬ l ∈ u.placement
    let stays := u.lane l = s.lane l ∧ u.laneSlot l = s.laneSlot l ∧ (l ∈ u.placement ↔ l ∈ s.placement)
    (s.laneSlot l = none → stays) ∧
    (∀ o, s.laneSlot l = some o → changed o.frame.region = false → stays) ∧
    (∀ r k data n, s.laneSlot l = some { frame := .update r k data, attempts := n } → changed r = true →
      (∀ t, (s.region r).owner = some t → t ≠ me → goes .refusedOwner) ∧
      ((s.region r).owner = none ∨ (s.region r).owner = some me → stays)) ∧
    (∀ r n, s.laneSlot l = some { frame := .claim false r, attempts := n } → changed r = true →
      ((s.region r).owner = some me → goes .done) ∧
      (∀ t, (s.region r).owner = some t → t ≠ me → goes .claimLost) ∧ ((s.region r).owner = none → stays)) ∧
    (∀ r n, s.laneSlot l = some { frame := .claim true r, attempts := n } → stays) ∧
    (∀ r n, s.laneSlot l = some { frame := .release r, attempts := n } → changed r = true →
      ((s.region r).owner = some me → stays) ∧ ((s.region r).owner ≠ some me → goes .notOwner)) ∧
    u.placement.Sublist s.placement ∧
    u = { s with lanes := u.lanes, laneSlots := u.laneSlots, placement := u.placement }

/-- A carried frame of this station leaves its lane slot, is applied as a peer's would be, and its lane learns the
outcome: an UPDATE DONE or REFUSED_OWNER, a CLAIM DONE or CLAIM_LOST, a RELEASE DONE or NOT_OWNER. One the lane no longer
holds is applied alone. -/
def Obligations.OwnLaneFramesTellTheirLane : Prop :=
  ∀ (s : State) (bytes : List Byte) (f : Flight) (l : LaneNo), s.Sends bytes f → f.slot = .lane l → s.StoresOk →
    let me := s.stationNumber
    (f.attached = true →
      let v := (s.withoutLaneFrame l).atFrameEnd
      (∀ r k data, f.frame.body = .update r k data →
        let applies := (s.region r).state = .current ∧
          ((s.region r).owner = none ∨ (s.region r).owner = some me)
        (applies → ∃ u : State, u.UpdateWritten v r k data ∧
          exec (.carriedFrameEnd bytes) s = .next
            ((u.report { region := r, content := true, owner := false, own := true }).completeLane l
              .done).settle) ∧
        (¬ applies → exec (.carriedFrameEnd bytes) s = .next (v.completeLane l .refusedOwner).settle)) ∧
      (∀ seize r, f.frame.body = .claim seize r →
        ∃ t : State, t.ClaimTaken v me seize r ∧
          ((t.region r).state = .current ∧ (t.region r).owner = some me →
            exec (.carriedFrameEnd bytes) s = .next (t.completeLane l .done).settle) ∧
          (¬ ((t.region r).state = .current ∧ (t.region r).owner = some me) →
            exec (.carriedFrameEnd bytes) s = .next (t.completeLane l .claimLost).settle)) ∧
      ∀ r, f.frame.body = .release r →
        ∃ t : State, t.ReleaseTaken v me r ∧
          ((t.region r).state = .current ∧ (t.region r).owner = none →
            exec (.carriedFrameEnd bytes) s = .next (t.completeLane l .done).settle) ∧
          (¬ ((t.region r).state = .current ∧ (t.region r).owner = none) →
            exec (.carriedFrameEnd bytes) s = .next (t.completeLane l .notOwner).settle)) ∧
    (f.attached = false →
      let v := { s.atFrameEnd with flight := none }
      (∀ r k data, f.frame.body = .update r k data →
        let applies := (s.region r).state = .current ∧
          ((s.region r).owner = none ∨ (s.region r).owner = some me)
        (applies → ∃ u : State, u.UpdateWritten v r k data ∧
          exec (.carriedFrameEnd bytes) s = .next
            (u.report { region := r, content := true, owner := false, own := true }).settle) ∧
        (¬ applies → exec (.carriedFrameEnd bytes) s = .next v.settle)) ∧
      (∀ seize r, f.frame.body = .claim seize r →
        ∃ t : State, t.ClaimTaken v me seize r ∧ exec (.carriedFrameEnd bytes) s = .next t.settle) ∧
      ∀ r, f.frame.body = .release r →
        ∃ t : State, t.ReleaseTaken v me r ∧ exec (.carriedFrameEnd bytes) s = .next t.settle)

/-- A carried frame of the station slot: the JOIN of the current join is followed by the first ASK, over the STALE
regions, or by the completion test; its ASK takes the STALE regions of its range to REFRESHING and starts the window; the
LEAVE ends the leaving. One left over from before a flush moves ownership alone. -/
def Obligations.OwnStationFramesMoveTheJoin : Prop :=
  ∀ (s : State) (bytes : List Byte) (f : Flight), s.Sends bytes f → f.slot = .station →
    let v := { s.atFrameEnd with
               flight := none, stationSlot := State.entering s.stationNext, stationNext := none }
    let me := s.stationNumber
    (f.attached = true →
      (f.frame.body = .join →
        ∃ t : State, t.ClearedBy v me ∧
          (∀ j, s.stationState = .joining → s.join = some j →
            ∃ u : State, u = { t with join := some { j with joinCarried := true } } ∧
              ((∀ r, (t.region r).state ≠ .stale) →
                exec (.carriedFrameEnd bytes) s = .next (u.tryComplete 0).settle) ∧
              ((∃ r, (t.region r).state = .stale) →
                ∃ w : State, w.AskPlaced u (fun r => (t.region r).state = .stale) ∧
                  exec (.carriedFrameEnd bytes) s = .next w.settle)) ∧
          (s.stationState ≠ .joining → exec (.carriedFrameEnd bytes) s = .next t.settle)) ∧
      (∀ first count, f.frame.body = .ask first count →
        ∃ u : State,
          (∀ r, u.region r =
            if first ≤ r.val ∧ r.val < first + count ∧ (s.region r).state = .stale then
              { s.region r with state := .refreshing }
            else s.region r) ∧
          u = { v with regions := u.regions } ∧
          (∀ j, s.stationState = .joining → s.join = some j →
            exec (.carriedFrameEnd bytes) s = .next
              (({ u with join := some { j with askCarried := true }, window := some 20 } : State).tryComplete
                0).settle) ∧
          (s.stationState ≠ .joining → exec (.carriedFrameEnd bytes) s = .next u.settle)) ∧
      (f.frame.body = .leave →
        ∃ t w : State, t.ClearedBy v me ∧ w.LeaveEnded t ∧
          exec (.carriedFrameEnd bytes) s = .next w.settle)) ∧
    (f.attached = false → s.stationSlot = none →
      (f.frame.body = .join ∨ f.frame.body = .leave →
        ∃ t : State, t.ClearedBy v me ∧ exec (.carriedFrameEnd bytes) s = .next t.settle) ∧
      ∀ first count, f.frame.body = .ask first count →
        exec (.carriedFrameEnd bytes) s = .next v.settle)

/-- The completion test: in JOINING with the JOIN carried and every region CURRENT the window stops, an ASK in the
station slot is withdrawn, the station is ACTIVE and a JOINED event carries the orphan count; else nothing happens. -/
def Obligations.JoinsCompleteWhenTheTableIsCurrent : Prop :=
  ∀ (s : State) (orphans : Nat),
    let complete := s.stationState = .joining ∧ s.join.map JoinProgress.joinCarried = some true ∧
      ∀ r, (s.region r).state = .current
    (¬ complete → s.tryComplete orphans = s) ∧
    (complete →
      ∃ u : State, s.tryComplete orphans = u.handEvent .joined orphans ∧
        (∀ o, s.stationSlot = some o →
          (∀ a b, o.frame = .ask a b → u.stationSlot = none) ∧
          ((∀ a b, o.frame ≠ .ask a b) → u.stationSlot = some o)) ∧
        (s.stationSlot = none → u.stationSlot = none) ∧
        u = { s with window := none, join := none, stationState := .active, stationSlot := u.stationSlot })

/-- The expiry of the refresh window ends a pass of the join. With no window running there is none (log 9). -/
def Obligations.WindowExpiryEndsAPass : Prop :=
  ∀ s : State, s.inReset = false → s.StoresOk →
    (s.window = none → exec .refreshWindowExpiry s = .next s.settle) ∧
    (s.window.isSome = true →
      ∃ t : State, t.PassEnded { s with window := none } (fun r => (s.region r).state = .refreshing) ∧
        exec .refreshWindowExpiry s = .next t.settle)

/-! ## Taking chain entries -/

/-- The entry fields that decide validity, bit by bit: the reserved bits of the words a kind uses are 0, a transfer's
length is 1 to 128 and its segment lies in the staging buffer, LINK is on transfers alone, SEIZE on a CLAIM alone, the
wait mode on a WAIT alone; a GOTO has neither flags nor mode. A kind code 0 or above 6 is none. First, word j of entry i
is the host's word at 0x2800 + 8i + j, and where each field of an entry stands in its words. -/
def Obligations.EntryValidityFollowsTheFields : Prop :=
  (∀ (s : State) (i : Index) (j : Nat), s.inReset = false → j < 8 →
     s.hostRead (BitVec.ofNat 14 (0x2800 + 8 * i.val + j)) = Entry.word s.chain i j) ∧
  (∀ (m : Memory) (i : Index),
     let w := Entry.word m i
     (∀ j, w j = wordOf (m.read (16 * i.val + 2 * j)) (m.read (16 * i.val + 2 * j + 1))) ∧
     Entry.next m i = (w 0).getLsbD 4 ∧ Entry.link m i = (w 0).getLsbD 5 ∧ Entry.note m i = (w 0).getLsbD 6 ∧
     (Entry.region m i).val = (w 1).toNat % 128 ∧ Entry.offset m i = (w 1).toNat / 256 % 128 ∧
     Entry.length m i = (w 2).toNat % 256 ∧ Entry.staging m i = (w 3).toNat % 4096 ∧ Entry.label m i = w 7 ∧
     ((w 0).getLsbD 8 = false → Entry.failIndex m i = none) ∧
     ∀ k : Index, (w 0).getLsbD 8 = true → (w 5).toNat % 256 = k.val → Entry.failIndex m i = some k) ∧
  (∀ (m : Memory) (i : Index),
     (Entry.note m i = false → Entry.lastNote m [i] = none) ∧
     (Entry.note m i = true → Entry.lastNote m [i] = some (i, Entry.word m i 7))) ∧
  ∀ (m : Memory) (i : Index),
    let w := Entry.word m i
    let head := w 0 &&& 0xF800 = 0 ∧ ((w 0).getLsbD 8 = true → w 5 &&& 0xFF00 = 0) ∧ w 1 &&& 0x8080 = 0
    let segment := w 2 &&& 0xFF00 = 0 ∧ w 3 &&& 0xF000 = 0 ∧ 1 ≤ (w 2).toNat ∧ (w 2).toNat ≤ 128 ∧
      (w 3).toNat + (w 2).toNat ≤ 4096
    ((w 0).toNat % 16 = 1 ∨ (w 0).toNat % 16 = 2 →
      (Entry.valid m i = true ↔ head ∧ segment ∧ w 0 &&& 0x0680 = 0) ∧
      (Entry.validPart m i = true ↔ w 0 &&& 0xF800 = 0 ∧ segment ∧ w 0 &&& 0x0680 = 0)) ∧
    ((w 0).toNat % 16 = 3 → (Entry.valid m i = true ↔ head ∧ w 0 &&& 0x0620 = 0)) ∧
    ((w 0).toNat % 16 = 4 → (Entry.valid m i = true ↔ head ∧ w 0 &&& 0x06A0 = 0)) ∧
    ((w 0).toNat % 16 = 5 → (Entry.valid m i = true ↔ head ∧ w 0 &&& 0x00A0 = 0)) ∧
    ((w 0).toNat % 16 = 6 → (Entry.valid m i = true ↔ w 0 &&& 0xFFF0 = 0 ∧ w 4 &&& 0xFF00 = 0)) ∧
    ((w 0).toNat % 16 = 0 ∨ 6 < (w 0).toNat % 16 → Entry.valid m i = false)

/-- A lane that is not RUNNING takes nothing (log 9). An entry of no kind, and an invalid CLAIM, RELEASE or WAIT, ends the
chain BAD_ENTRY at its index; a PUT or GET whose group cannot be read ends it with that failure at the entry read last.
Neither forms a note. -/
def Obligations.FailedTakesEndTheChain : Prop :=
  (∀ (s : State) (l : LaneNo), s.inReset = false →
     ((s.lane l).state ≠ .running → exec (.entryTake l) s = .next s) ∧
     ∀ i n, s.Takes l i n → n ≠ 1 → n ≠ 2 → n ≠ 6 → Entry.valid s.chain i = false →
       ∃ u : State, exec (.entryTake l) s = .next u.settle ∧
         (∀ k, u.lane k =
           if k = l then Lane.endChain l .badEntry { s.lane l with prevGoto := false } else s.lane k) ∧
         u = { s with lanes := u.lanes }) ∧
    ∀ (s : State) (l : LaneNo) (i : Index) (k : EntryKind) (st : Status) (q : Index),
      (s.Takes l i 1 ∧ k = .put ∨ s.Takes l i 2 ∧ k = .get) → Entry.readGroup s.chain k i = .fail st q →
      ∃ u : State, exec (.entryTake l) s = .next u.settle ∧
        (∀ j, u.lane j =
          if j = l then Lane.endChain l st { s.lane l with prevGoto := false, cur := q } else s.lane j) ∧
        u = { s with lanes := u.lanes }

/-- A GOTO that is the first entry of its chain (log 11) or follows a GOTO ends the chain BAD_SEQUENCE, an invalid one
BAD_ENTRY; else it is counted and the lane goes on at its target. -/
def Obligations.GotosMoveTheLane : Prop :=
  ∀ (s : State) (l : LaneNo) (i : Index), s.Takes l i 6 →
    ∃ u : State, exec (.entryTake l) s = .next u.settle ∧ u = { s with lanes := u.lanes } ∧
      (∀ k, k ≠ l → u.lane k = s.lane k) ∧
      ((s.lane l).completed = 0 ∨ (s.lane l).prevGoto = true →
        u.lane l = (s.lane l).endChain l .badSequence) ∧
      ((s.lane l).completed ≠ 0 → (s.lane l).prevGoto = false →
        (Entry.valid s.chain i = false → u.lane l = (s.lane l).endChain l .badEntry) ∧
        ∀ target : Index, Entry.valid s.chain i = true → (Entry.word s.chain i 4).toNat = target.val →
          u.lane l =
            { s.lane l with
              completed := min 65535 ((s.lane l).completed + 1), cur := target, prevGoto := true })

/-- How a PUT or GET is read with its group: from part to part at the next index or over one GOTO, each part checked
in turn, segments and notes gathered; a part that fails its checks, or a GOTO between parts that does, ends the read
at its index, and so does a first entry, or an only one, that fails its checks. The checks of a group's entry in their
order: another kind, or LINK at index 255, is BAD_SEQUENCE, then an invalid entry BAD_ENTRY, then a range beyond the
region's end LENGTH. The next part is at the next index, or at the target of a GOTO there, which index 255 has no next
index for (log 12). -/
def Obligations.GroupsAreReadPartByPart : Prop :=
  (∀ (m : Memory) (k : EntryKind) (i : Index) (parts : List Index) (gotos : Nat),
     k = .put ∨ k = .get → Entry.Walks m k (Entry.offset m i) false 0 i parts gotos →
     let all := i :: parts
     let total := ((all.map (Entry.length m)).sum)
     let last := all.getLast (by simp [all])
     (Entry.link m last = false →
       Entry.readGroup m k i = .ok
         { segs := all.map fun p => (Entry.staging m p, Entry.length m p), total := total, last := last
           next := Entry.next m last, size := all.length + gotos, note := Entry.lastNote m all
           notes := (all.filter (Entry.note m)).length }) ∧
     (Entry.link m last = true →
       (∀ st q, Entry.nextPart m last = .fail st q → Entry.readGroup m k i = .fail st q) ∧
       ∀ q n st, Entry.nextPart m last = .ok q n →
         Entry.partFailure m k true (Entry.offset m i) total q = some st →
         Entry.readGroup m k i = .fail st q)) ∧
    (∀ (m : Memory) (k : EntryKind) (i : Index) (st : Status),
      Entry.partFailure m k false (Entry.offset m i) 0 i = some st → Entry.readGroup m k i = .fail st i) ∧
    (∀ (m : Memory) (k : EntryKind) (later : Bool) (off total : Nat) (p : Index),
      let sequence := Entry.kind m p ≠ some k ∨ Entry.link m p = true ∧ p.val = 255
      let good := if later then Entry.validPart m p = true else Entry.valid m p = true
      (sequence → Entry.partFailure m k later off total p = some .badSequence) ∧
      (¬ sequence → ¬ good → Entry.partFailure m k later off total p = some .badEntry) ∧
      (¬ sequence → good → 128 < off + total + Entry.length m p →
        Entry.partFailure m k later off total p = some .length) ∧
      (¬ sequence → good → off + total + Entry.length m p ≤ 128 →
        Entry.partFailure m k later off total p = none)) ∧
    ∀ (m : Memory) (i j : Index), j.val = i.val + 1 →
      ((Entry.word m j 0).toNat % 16 ≠ 6 → Entry.nextPart m i = .ok j 0) ∧
      ((Entry.word m j 0).toNat % 16 = 6 →
        (j.val = 255 → Entry.nextPart m i = .fail .badSequence j) ∧
        (j.val ≠ 255 → Entry.valid m j = false → Entry.nextPart m i = .fail .badEntry j) ∧
        ∀ target : Index, j.val ≠ 255 → Entry.valid m j = true → (Entry.word m j 4).toNat = target.val →
          Entry.nextPart m i = .ok target 1)

/-- A PUT checks its region, guard and owner in that order, and then places the UPDATE of the gathered bytes. -/
def Obligations.PutChecksAndPlacesAnUpdate : Prop :=
  ∀ (s : State) (l : LaneNo) (i : Index) (g : Group), s.Takes l i 1 → Entry.readGroup s.chain .put i = .ok g →
    let r := regionOf (Entry.word s.chain i 1).toNat
    let owner := (s.region r).owner
    ∃ v : State,
      v.TakenWith s l g.last { next := g.next, alt := Entry.failIndex s.chain i, size := g.size } g.note g.notes ∧
      ((s.region r).state ≠ .current →
        exec (.entryTake l) s = .next (v.completeLane l .notCurrent).settle) ∧
      ((s.region r).state = .current → (s.region r).guardOpen = false →
        exec (.entryTake l) s = .next (v.completeLane l .refusedGuard).settle) ∧
      ((s.region r).state = .current → (s.region r).guardOpen = true →
        (∀ t, owner = some t → t ≠ s.stationNumber →
          exec (.entryTake l) s = .next (v.completeLane l .refusedOwner).settle) ∧
        (owner = none ∨ owner = some s.stationNumber →
          ∃ u : State, exec (.entryTake l) s = .next u.settle ∧
            u.Places v l
              (.update r ((Entry.word s.chain i 1).toNat / 256 % 128)
                (g.segs.flatMap fun c => (List.range c.2).map fun j => s.staging.read (c.1 + j)))))

/-- A GET of a CURRENT region copies its bytes to the segments in order, a later segment over an earlier one, and
completes DONE. -/
def Obligations.GetCopiesTheRegion : Prop :=
  ∀ (s : State) (l : LaneNo) (i : Index) (g : Group), s.Takes l i 2 → Entry.readGroup s.chain .get i = .ok g →
    s.StoresOk →
    let r := regionOf (Entry.word s.chain i 1).toNat
    let from_ := 128 * r.val + (Entry.word s.chain i 1).toNat / 256 % 128
    let inside := fun (b : Nat) (c : Nat × Nat) => c.1 ≤ b ∧ b < c.1 + c.2
    ∃ v : State,
      v.TakenWith s l g.last { next := g.next, alt := Entry.failIndex s.chain i, size := g.size } g.note g.notes ∧
      ((s.region r).state ≠ .current →
        exec (.entryTake l) s = .next (v.completeLane l .notCurrent).settle) ∧
      ((s.region r).state = .current →
        ∃ copied : Memory,
          exec (.entryTake l) s = .next ({ v with staging := copied }.completeLane l .done).settle ∧
          (∀ before c after b, g.segs = before ++ c :: after → inside b c → (∀ d ∈ after, ¬ inside b d) →
            copied.read b = s.area.read (from_ + (before.map Prod.snd).sum + (b - c.1))) ∧
          ∀ b, (∀ c ∈ g.segs, ¬ inside b c) → copied.read b = s.staging.read b)

/-- A CLAIM of a region not CURRENT completes NOT_CURRENT, of one this station owns DONE, of another's without SEIZE
CLAIM_LOST; a RELEASE of a region not CURRENT completes NOT_CURRENT, of one this station does not own NOT_OWNER; else the
frame is placed. -/
def Obligations.ClaimAndReleaseEntriesAreTaken : Prop :=
  (∀ (s : State) (l : LaneNo) (i : Index), s.Takes l i 3 → Entry.valid s.chain i = true →
     let r := regionOf (Entry.word s.chain i 1).toNat
     let seize := (Entry.word s.chain i 0).getLsbD 7
     let owner := (s.region r).owner
     ∃ v : State,
       v.TakenWith s l i { next := Entry.next s.chain i, alt := Entry.failIndex s.chain i, size := 1 }
         (Entry.lastNote s.chain [i]) 1 ∧
       ((s.region r).state ≠ .current →
         exec (.entryTake l) s = .next (v.completeLane l .notCurrent).settle) ∧
       ((s.region r).state = .current →
         (owner = some s.stationNumber → exec (.entryTake l) s = .next (v.completeLane l .done).settle) ∧
         (owner = none ∨ seize = true ∧ owner ≠ some s.stationNumber →
           ∃ u : State, exec (.entryTake l) s = .next u.settle ∧ u.Places v l (.claim seize r)) ∧
         (seize = false → ∀ t, owner = some t → t ≠ s.stationNumber →
           exec (.entryTake l) s = .next (v.completeLane l .claimLost).settle))) ∧
    ∀ (s : State) (l : LaneNo) (i : Index), s.Takes l i 4 → Entry.valid s.chain i = true →
      let r := regionOf (Entry.word s.chain i 1).toNat
      ∃ v : State,
        v.TakenWith s l i { next := Entry.next s.chain i, alt := Entry.failIndex s.chain i, size := 1 }
          (Entry.lastNote s.chain [i]) 1 ∧
        ((s.region r).state ≠ .current →
          exec (.entryTake l) s = .next (v.completeLane l .notCurrent).settle) ∧
        ((s.region r).state = .current →
          ((s.region r).owner = some s.stationNumber →
            ∃ u : State, exec (.entryTake l) s = .next u.settle ∧ u.Places v l (.release r)) ∧
          ((s.region r).owner ≠ some s.stationNumber →
            exec (.entryTake l) s = .next (v.completeLane l .notOwner).settle))

/-- A WAIT whose condition holds completes DONE; else its lane is WAITING on the condition, with a deadline of the
timeout in milliseconds, or none for timeout 0. -/
def Obligations.WaitEntriesAreTaken : Prop :=
  ∀ (s : State) (l : LaneNo) (i : Index) (c : WaitCond), s.Takes l i 5 → Entry.valid s.chain i = true →
    c.region = regionOf (Entry.word s.chain i 1).toNat →
    (Entry.word s.chain i 0).toNat / 512 % 4 =
      (match c.mode with | .ready => 0 | .changed => 1 | .unowned => 2 | .mine => 3) →
    (c.mode = .changed → c.value = Entry.word s.chain i 4) → (c.mode ≠ .changed → c.value = 0) →
    ∃ v : State,
      v.TakenWith s l i { next := Entry.next s.chain i, alt := Entry.failIndex s.chain i, size := 1 }
        (Entry.lastNote s.chain [i]) 1 ∧
      (s.WaitTest c → exec (.entryTake l) s = .next (v.completeLane l .done).settle) ∧
      (¬ s.WaitTest c →
        ∃ u : State, exec (.entryTake l) s = .next u.settle ∧ u = { v with lanes := u.lanes } ∧
          ∀ k, u.lane k =
            if k = l then
              { v.lane l with
                state := .waiting, wait := some c
                deadline :=
                  if Entry.word s.chain i 6 = 0 then none else some (Entry.word s.chain i 6).toNat }
            else v.lane k)

/-! ## Frames and the line code -/

/-- The check of a received frame reads back exactly the frame whose bytes were built, and those bytes fit in 136. The
check word is the CRC of R38, bit by bit: from all ones, most significant bit first, x^16 + x^12 + x^5 + 1, no final
inversion. Received bytes, a key, a kind, a body and two check bytes, are clean exactly if the check word is right, the
kind is 0 to 6, the key is below 128 and of the kind's class, and the body meets the condition of R39; fewer than 4 bytes
or more than 136 are bad. A clean frame is the one its bytes spell. -/
def Obligations.FramesAreReadAsBuilt : Prop :=
  (∀ f : Frame, f.body.wf → checkFrame f.bytes = some f ∧ f.bytes.length ≤ 136) ∧
    (checkWord [] = 0xFFFF ∧ ∀ (bytes : List Byte) (b : Byte),
      checkWord (bytes ++ [b]) =
        [7, 6, 5, 4, 3, 2, 1, 0].foldl
          (fun (c : Word) (j : Nat) => if c.msb = b.getLsbD j then c <<< 1 else (c <<< 1) ^^^ 0x1021) (checkWord bytes)) ∧
    (∀ bytes : List Byte, bytes.length < 4 ∨ 136 < bytes.length → checkFrame bytes = none) ∧
    ∀ (key kind : Byte) (body : List Byte) (hi lo : Byte),
      let received := key :: kind :: (body ++ [hi, lo])
      let at_ := fun j : Nat => (body.getD j 0).toNat
      let fits := match kind.toNat with
        | 0 | 1 => key.toNat / 32 = 0 ∧ body.length = 0
        | 2 | 3 => key.toNat / 32 = 1 ∧ body.length = 1
        | 4 => key.toNat / 32 = 1 ∧ body.length = 2 ∧ at_ 0 + (at_ 1 + 1) ≤ 128
        | 5 => key.toNat / 32 = 2 ∧ body.length = 132
        | 6 => key.toNat / 32 = 3 ∧ body.length = 3 + (at_ 2 + 1) ∧ at_ 1 + (at_ 2 + 1) ≤ 128
        | _ => False
      ((checkFrame received).isSome = true ↔ wordOf lo hi = checkWord (key :: kind :: body) ∧ fits) ∧
      ∀ f, checkFrame received = some f →
        f.sender.toNat = key.toNat % 32 ∧
        (kind = 0 → f.body = .join) ∧ (kind = 1 → f.body = .leave) ∧ (kind = 4 → f.body = .ask (at_ 0) (at_ 1 + 1)) ∧
        ∀ r : RegionNo, at_ 0 % 128 = r.val →
          (kind = 2 → f.body = .claim (decide (128 ≤ at_ 0)) r) ∧ (kind = 3 → f.body = .release r) ∧
          (kind = 6 → f.body = .update r (at_ 1) (body.drop 3)) ∧
          ∀ count : Word, count.toNat = 256 * at_ 2 + at_ 3 →
            (∀ x : Station, kind = 5 → at_ 1 = x.toNat → f.body = .image r (some x) count (body.drop 4)) ∧
              (kind = 5 → 32 ≤ at_ 1 → f.body = .image r none count (body.drop 4))

/-- The cells of a frame bring its bytes to the receiver, whatever they are, with the level of the spoil slot's two
cells. -/
def Obligations.FramesArriveThroughTheLineCode : Prop :=
  ∀ (bytes : List Byte) (a b : Bool), bytes.length ≤ 136 →
    LineCode.receive
      (LineCode.startSymbol ++ LineCode.codedPart bytes ++ LineCode.boundary ++ [a, b] ++ [false]) =
      some (bytes, a && b)

/-! ## Invariants -/

/-- Every step keeps the three stores in canonical form within their ends, and the frames within their layouts. -/
def Obligations.StepsKeepStoresAndFramesInOrder : Prop :=
  ∀ s t : State, s.StoresOk → s.FramesOk → step s = .next t → t.StoresOk ∧ t.FramesOk

/-- Every step keeps the queue and its waiting producers, and the streak and attempt counts, in order; and it keeps the
region records in order, and the controller, the refresh unit and the line unit in agreement: every region CURRENT in
ACTIVE, STALE in OFFLINE, ADRIFT and HALTED, and the rest of ControllerOk; and the lane contexts in agreement with their
slots, their order and the frame on the line, and the image slot with the response set. -/
def Obligations.StepsKeepTheStationInOrder : Prop :=
  (∀ s t : State, s.QueueOk → s.CountersOk → step s = .next t → t.QueueOk ∧ t.CountersOk) ∧
    (∀ s t : State, s.RegionsOk → s.ControllerOk → step s = .next t → t.RegionsOk ∧ t.ControllerOk) ∧
    ∀ s t : State, s.ControllerOk → s.LanesOk → s.ImageFits → step s = .next t → t.LanesOk ∧ t.ImageFits

/-- The state right after a pin reset is in order. -/
def Obligations.ResetIsInOrder : Prop :=
  State.reset.StoresOk ∧ State.reset.FramesOk ∧ State.reset.QueueOk ∧ State.reset.CountersOk ∧
    State.reset.RegionsOk ∧ State.reset.ControllerOk ∧ State.reset.LanesOk ∧ State.reset.ImageFits
end

