-- ==== Sys2Proof/Laws/State.lean ====
section
/-! SUPPORT. The state's updates: which field each one changes, and what the accessors read after it. -/

namespace Sys2Proof.Machine.State

/-! ## Reading back what was written -/

theorem region_setRegion (s : State) (r r' : RegionNo) (x : Region) :
    (s.setRegion r x).region r' = if r' = r then x else s.region r' := by
  simp only [region, setRegion, Vector.getElem_set, Fin.ext_iff, eq_comm]

@[simp] theorem region_setRegion_same (s : State) (r : RegionNo) (x : Region) : (s.setRegion r x).region r = x := by
  simp [region_setRegion]

@[simp] theorem region_mapRegions (s : State) (f : RegionNo → Region → Region) (r : RegionNo) :
    (s.mapRegions f).region r = f r (s.region r) := by
  simp [region, mapRegions]

theorem lane_setLane (s : State) (l l' : LaneNo) (x : Lane) :
    (s.setLane l x).lane l' = if l' = l then x else s.lane l' := by
  simp only [lane, setLane, Vector.getElem_set, Fin.ext_iff, eq_comm]

@[simp] theorem lane_setLane_same (s : State) (l : LaneNo) (x : Lane) : (s.setLane l x).lane l = x := by
  simp [lane_setLane]

theorem lane_modifyLane (s : State) (l l' : LaneNo) (f : Lane → Lane) :
    (s.modifyLane l f).lane l' = if l' = l then f (s.lane l) else s.lane l' := lane_setLane s l l' _

@[simp] theorem lane_modifyLane_same (s : State) (l : LaneNo) (f : Lane → Lane) :
    (s.modifyLane l f).lane l = f (s.lane l) := lane_setLane_same s l _

@[simp] theorem lane_mapLanes (s : State) (f : LaneNo → Lane → Lane) (l : LaneNo) :
    (s.mapLanes f).lane l = f l (s.lane l) := by
  simp [lane, mapLanes]

theorem laneSlot_setLaneSlot (s : State) (l l' : LaneNo) (x : Option LaneSlot) :
    (s.setLaneSlot l x).laneSlot l' = if l' = l then x else s.laneSlot l' := by
  simp only [laneSlot, setLaneSlot, Vector.getElem_set, Fin.ext_iff, eq_comm]

theorem laneSlot_clearLaneSlot (s : State) (l l' : LaneNo) :
    (s.clearLaneSlot l).laneSlot l' = if l' = l then none else s.laneSlot l' := by
  simp only [laneSlot, clearLaneSlot, Vector.getElem_set, Fin.ext_iff, eq_comm]

theorem laneSlot_placeLaneFrame (s : State) (l l' : LaneNo) (f : LaneFrame) :
    (s.placeLaneFrame l f).laneSlot l' = if l' = l then some { frame := f, attempts := 0 } else s.laneSlot l' := by
  simp only [laneSlot, placeLaneFrame, Vector.getElem_set, Fin.ext_iff, eq_comm]

theorem watch_setWatch (s : State) (w w' : WatchNo) (x : Watch) :
    (s.setWatch w x).watch w' = if w' = w then x else s.watch w' := by
  simp only [watch, setWatch, Vector.getElem_set, Fin.ext_iff, eq_comm]

@[simp] theorem watch_setWatch_same (s : State) (w : WatchNo) (x : Watch) : (s.setWatch w x).watch w = x := by
  simp [watch_setWatch]

@[simp] theorem watch_mapWatches (s : State) (f : WatchNo → Watch → Watch) (w : WatchNo) :
    (s.mapWatches f).watch w = f w (s.watch w) := by
  simp [watch, mapWatches]

theorem lostOwner_setLost (s : State) (r r' : RegionNo) (x : Option Station) :
    (s.setLost r x).lostOwner r' = if r' = r then x else s.lostOwner r' := by
  simp only [lostOwner, setLost, Vector.getElem_set, Fin.ext_iff, eq_comm]

/-- Two states whose fields agree are one state. -/
@[ext] theorem ext_fields {s t : State}
    (h0 : s.pending = t.pending)
    (h1 : s.choices = t.choices)
    (h2 : s.inReset = t.inReset)
    (h3 : s.straps = t.straps)
    (h4 : s.stationNumber = t.stationNumber)
    (h5 : s.area = t.area)
    (h6 : s.regions = t.regions)
    (h7 : s.staging = t.staging)
    (h8 : s.chain = t.chain)
    (h9 : s.p0 = t.p0)
    (h10 : s.p1 = t.p1)
    (h11 : s.p2 = t.p2)
    (h12 : s.p3 = t.p3)
    (h13 : s.result = t.result)
    (h14 : s.rateCode = t.rateCode)
    (h15 : s.irqEnable = t.irqEnable)
    (h16 : s.phase = t.phase)
    (h17 : s.flight = t.flight)
    (h18 : s.laneSlots = t.laneSlots)
    (h19 : s.placement = t.placement)
    (h20 : s.stationSlot = t.stationSlot)
    (h21 : s.stationNext = t.stationNext)
    (h22 : s.imageSlot = t.imageSlot)
    (h23 : s.spoilStreak = t.spoilStreak)
    (h24 : s.lost = t.lost)
    (h25 : s.stationState = t.stationState)
    (h26 : s.passCount = t.passCount)
    (h27 : s.window = t.window)
    (h28 : s.join = t.join)
    (h29 : s.lanes = t.lanes)
    (h30 : s.queue = t.queue)
    (h31 : s.events = t.events)
    (h32 : s.watches = t.watches) :
    s = t := by
  cases s
  cases t
  simp only at *
  subst h0 h1 h2 h3 h4 h5 h6 h7 h8 h9 h10 h11 h12 h13 h14 h15 h16 h17 h18 h19 h20 h21 h22 h23 h24 h25 h26 h27 h28 h29 h30 h31 h32
  rfl

/-- Two region tables with the same records are equal. -/
theorem regions_ext {v w : Vector Region 128} (h : ∀ r : RegionNo, v[r.val] = w[r.val]) : v = w := by
  apply Vector.ext
  intro i hi
  exact h ⟨i, hi⟩

theorem lanes_ext {v w : Vector Lane 4} (h : ∀ l : LaneNo, v[l.val] = w[l.val]) : v = w := by
  apply Vector.ext
  intro i hi
  exact h ⟨i, hi⟩

theorem watches_ext {v w : Vector Watch 16} (h : ∀ l : WatchNo, v[l.val] = w[l.val]) : v = w := by
  apply Vector.ext
  intro i hi
  exact h ⟨i, hi⟩

/-! ## What an update leaves as it was, field by field -/

/-- `setRegion` leaves every field but `regions` as it was. -/
@[simp] theorem setRegion_other (s : State) (r : RegionNo) (x : Region) :
    (s.setRegion r x).pending = s.pending ∧ (s.setRegion r x).choices = s.choices ∧
    (s.setRegion r x).inReset = s.inReset ∧ (s.setRegion r x).straps = s.straps ∧
    (s.setRegion r x).stationNumber = s.stationNumber ∧ (s.setRegion r x).area = s.area ∧
    (s.setRegion r x).staging = s.staging ∧ (s.setRegion r x).chain = s.chain ∧ (s.setRegion r x).p0 = s.p0 ∧
    (s.setRegion r x).p1 = s.p1 ∧ (s.setRegion r x).p2 = s.p2 ∧ (s.setRegion r x).p3 = s.p3 ∧
    (s.setRegion r x).result = s.result ∧ (s.setRegion r x).rateCode = s.rateCode ∧
    (s.setRegion r x).irqEnable = s.irqEnable ∧ (s.setRegion r x).phase = s.phase ∧
    (s.setRegion r x).flight = s.flight ∧ (s.setRegion r x).laneSlots = s.laneSlots ∧
    (s.setRegion r x).placement = s.placement ∧ (s.setRegion r x).stationSlot = s.stationSlot ∧
    (s.setRegion r x).stationNext = s.stationNext ∧ (s.setRegion r x).imageSlot = s.imageSlot ∧
    (s.setRegion r x).spoilStreak = s.spoilStreak ∧ (s.setRegion r x).lost = s.lost ∧
    (s.setRegion r x).stationState = s.stationState ∧ (s.setRegion r x).passCount = s.passCount ∧
    (s.setRegion r x).window = s.window ∧ (s.setRegion r x).join = s.join ∧ (s.setRegion r x).lanes = s.lanes ∧
    (s.setRegion r x).queue = s.queue ∧ (s.setRegion r x).events = s.events ∧
    (s.setRegion r x).watches = s.watches := by
  simp only [setRegion, and_self]

/-- `mapRegions` leaves every field but `regions` as it was. -/
@[simp] theorem mapRegions_other (s : State) (f : RegionNo → Region → Region) :
    (s.mapRegions f).pending = s.pending ∧ (s.mapRegions f).choices = s.choices ∧
    (s.mapRegions f).inReset = s.inReset ∧ (s.mapRegions f).straps = s.straps ∧
    (s.mapRegions f).stationNumber = s.stationNumber ∧ (s.mapRegions f).area = s.area ∧
    (s.mapRegions f).staging = s.staging ∧ (s.mapRegions f).chain = s.chain ∧ (s.mapRegions f).p0 = s.p0 ∧
    (s.mapRegions f).p1 = s.p1 ∧ (s.mapRegions f).p2 = s.p2 ∧ (s.mapRegions f).p3 = s.p3 ∧
    (s.mapRegions f).result = s.result ∧ (s.mapRegions f).rateCode = s.rateCode ∧
    (s.mapRegions f).irqEnable = s.irqEnable ∧ (s.mapRegions f).phase = s.phase ∧
    (s.mapRegions f).flight = s.flight ∧ (s.mapRegions f).laneSlots = s.laneSlots ∧
    (s.mapRegions f).placement = s.placement ∧ (s.mapRegions f).stationSlot = s.stationSlot ∧
    (s.mapRegions f).stationNext = s.stationNext ∧ (s.mapRegions f).imageSlot = s.imageSlot ∧
    (s.mapRegions f).spoilStreak = s.spoilStreak ∧ (s.mapRegions f).lost = s.lost ∧
    (s.mapRegions f).stationState = s.stationState ∧ (s.mapRegions f).passCount = s.passCount ∧
    (s.mapRegions f).window = s.window ∧ (s.mapRegions f).join = s.join ∧ (s.mapRegions f).lanes = s.lanes ∧
    (s.mapRegions f).queue = s.queue ∧ (s.mapRegions f).events = s.events ∧
    (s.mapRegions f).watches = s.watches := by
  simp only [mapRegions, and_self]

/-- `writeRegionBytes` leaves every field but `area` as it was. -/
@[simp] theorem writeRegionBytes_other (s : State) (r : RegionNo) (k : Nat) (d : List Byte) :
    (s.writeRegionBytes r k d).pending = s.pending ∧ (s.writeRegionBytes r k d).choices = s.choices ∧
    (s.writeRegionBytes r k d).inReset = s.inReset ∧ (s.writeRegionBytes r k d).straps = s.straps ∧
    (s.writeRegionBytes r k d).stationNumber = s.stationNumber ∧ (s.writeRegionBytes r k d).regions = s.regions ∧
    (s.writeRegionBytes r k d).staging = s.staging ∧ (s.writeRegionBytes r k d).chain = s.chain ∧
    (s.writeRegionBytes r k d).p0 = s.p0 ∧ (s.writeRegionBytes r k d).p1 = s.p1 ∧
    (s.writeRegionBytes r k d).p2 = s.p2 ∧ (s.writeRegionBytes r k d).p3 = s.p3 ∧
    (s.writeRegionBytes r k d).result = s.result ∧ (s.writeRegionBytes r k d).rateCode = s.rateCode ∧
    (s.writeRegionBytes r k d).irqEnable = s.irqEnable ∧ (s.writeRegionBytes r k d).phase = s.phase ∧
    (s.writeRegionBytes r k d).flight = s.flight ∧ (s.writeRegionBytes r k d).laneSlots = s.laneSlots ∧
    (s.writeRegionBytes r k d).placement = s.placement ∧ (s.writeRegionBytes r k d).stationSlot = s.stationSlot ∧
    (s.writeRegionBytes r k d).stationNext = s.stationNext ∧ (s.writeRegionBytes r k d).imageSlot = s.imageSlot ∧
    (s.writeRegionBytes r k d).spoilStreak = s.spoilStreak ∧ (s.writeRegionBytes r k d).lost = s.lost ∧
    (s.writeRegionBytes r k d).stationState = s.stationState ∧ (s.writeRegionBytes r k d).passCount = s.passCount ∧
    (s.writeRegionBytes r k d).window = s.window ∧ (s.writeRegionBytes r k d).join = s.join ∧
    (s.writeRegionBytes r k d).lanes = s.lanes ∧ (s.writeRegionBytes r k d).queue = s.queue ∧
    (s.writeRegionBytes r k d).events = s.events ∧ (s.writeRegionBytes r k d).watches = s.watches := by
  simp only [writeRegionBytes, and_self]

/-- `setLane` leaves every field but `lanes` as it was. -/
@[simp] theorem setLane_other (s : State) (l : LaneNo) (x : Lane) :
    (s.setLane l x).pending = s.pending ∧ (s.setLane l x).choices = s.choices ∧
    (s.setLane l x).inReset = s.inReset ∧ (s.setLane l x).straps = s.straps ∧
    (s.setLane l x).stationNumber = s.stationNumber ∧ (s.setLane l x).area = s.area ∧
    (s.setLane l x).regions = s.regions ∧ (s.setLane l x).staging = s.staging ∧ (s.setLane l x).chain = s.chain ∧
    (s.setLane l x).p0 = s.p0 ∧ (s.setLane l x).p1 = s.p1 ∧ (s.setLane l x).p2 = s.p2 ∧ (s.setLane l x).p3 = s.p3 ∧
    (s.setLane l x).result = s.result ∧ (s.setLane l x).rateCode = s.rateCode ∧
    (s.setLane l x).irqEnable = s.irqEnable ∧ (s.setLane l x).phase = s.phase ∧ (s.setLane l x).flight = s.flight ∧
    (s.setLane l x).laneSlots = s.laneSlots ∧ (s.setLane l x).placement = s.placement ∧
    (s.setLane l x).stationSlot = s.stationSlot ∧ (s.setLane l x).stationNext = s.stationNext ∧
    (s.setLane l x).imageSlot = s.imageSlot ∧ (s.setLane l x).spoilStreak = s.spoilStreak ∧
    (s.setLane l x).lost = s.lost ∧ (s.setLane l x).stationState = s.stationState ∧
    (s.setLane l x).passCount = s.passCount ∧ (s.setLane l x).window = s.window ∧ (s.setLane l x).join = s.join ∧
    (s.setLane l x).queue = s.queue ∧ (s.setLane l x).events = s.events ∧ (s.setLane l x).watches = s.watches := by
  simp only [setLane, and_self]

/-- `modifyLane` leaves every field but `lanes` as it was. -/
@[simp] theorem modifyLane_other (s : State) (l : LaneNo) (f : Lane → Lane) :
    (s.modifyLane l f).pending = s.pending ∧ (s.modifyLane l f).choices = s.choices ∧
    (s.modifyLane l f).inReset = s.inReset ∧ (s.modifyLane l f).straps = s.straps ∧
    (s.modifyLane l f).stationNumber = s.stationNumber ∧ (s.modifyLane l f).area = s.area ∧
    (s.modifyLane l f).regions = s.regions ∧ (s.modifyLane l f).staging = s.staging ∧
    (s.modifyLane l f).chain = s.chain ∧ (s.modifyLane l f).p0 = s.p0 ∧ (s.modifyLane l f).p1 = s.p1 ∧
    (s.modifyLane l f).p2 = s.p2 ∧ (s.modifyLane l f).p3 = s.p3 ∧ (s.modifyLane l f).result = s.result ∧
    (s.modifyLane l f).rateCode = s.rateCode ∧ (s.modifyLane l f).irqEnable = s.irqEnable ∧
    (s.modifyLane l f).phase = s.phase ∧ (s.modifyLane l f).flight = s.flight ∧
    (s.modifyLane l f).laneSlots = s.laneSlots ∧ (s.modifyLane l f).placement = s.placement ∧
    (s.modifyLane l f).stationSlot = s.stationSlot ∧ (s.modifyLane l f).stationNext = s.stationNext ∧
    (s.modifyLane l f).imageSlot = s.imageSlot ∧ (s.modifyLane l f).spoilStreak = s.spoilStreak ∧
    (s.modifyLane l f).lost = s.lost ∧ (s.modifyLane l f).stationState = s.stationState ∧
    (s.modifyLane l f).passCount = s.passCount ∧ (s.modifyLane l f).window = s.window ∧
    (s.modifyLane l f).join = s.join ∧ (s.modifyLane l f).queue = s.queue ∧ (s.modifyLane l f).events = s.events ∧
    (s.modifyLane l f).watches = s.watches := by
  simp only [modifyLane, setLane, and_self]

/-- `mapLanes` leaves every field but `lanes` as it was. -/
@[simp] theorem mapLanes_other (s : State) (f : LaneNo → Lane → Lane) :
    (s.mapLanes f).pending = s.pending ∧ (s.mapLanes f).choices = s.choices ∧ (s.mapLanes f).inReset = s.inReset ∧
    (s.mapLanes f).straps = s.straps ∧ (s.mapLanes f).stationNumber = s.stationNumber ∧
    (s.mapLanes f).area = s.area ∧ (s.mapLanes f).regions = s.regions ∧ (s.mapLanes f).staging = s.staging ∧
    (s.mapLanes f).chain = s.chain ∧ (s.mapLanes f).p0 = s.p0 ∧ (s.mapLanes f).p1 = s.p1 ∧
    (s.mapLanes f).p2 = s.p2 ∧ (s.mapLanes f).p3 = s.p3 ∧ (s.mapLanes f).result = s.result ∧
    (s.mapLanes f).rateCode = s.rateCode ∧ (s.mapLanes f).irqEnable = s.irqEnable ∧ (s.mapLanes f).phase = s.phase ∧
    (s.mapLanes f).flight = s.flight ∧ (s.mapLanes f).laneSlots = s.laneSlots ∧
    (s.mapLanes f).placement = s.placement ∧ (s.mapLanes f).stationSlot = s.stationSlot ∧
    (s.mapLanes f).stationNext = s.stationNext ∧ (s.mapLanes f).imageSlot = s.imageSlot ∧
    (s.mapLanes f).spoilStreak = s.spoilStreak ∧ (s.mapLanes f).lost = s.lost ∧
    (s.mapLanes f).stationState = s.stationState ∧ (s.mapLanes f).passCount = s.passCount ∧
    (s.mapLanes f).window = s.window ∧ (s.mapLanes f).join = s.join ∧ (s.mapLanes f).queue = s.queue ∧
    (s.mapLanes f).events = s.events ∧ (s.mapLanes f).watches = s.watches := by
  simp only [mapLanes, and_self]

/-- `setLaneSlot` leaves every field but `laneSlots` as it was. -/
@[simp] theorem setLaneSlot_other (s : State) (l : LaneNo) (x : Option LaneSlot) :
    (s.setLaneSlot l x).pending = s.pending ∧ (s.setLaneSlot l x).choices = s.choices ∧
    (s.setLaneSlot l x).inReset = s.inReset ∧ (s.setLaneSlot l x).straps = s.straps ∧
    (s.setLaneSlot l x).stationNumber = s.stationNumber ∧ (s.setLaneSlot l x).area = s.area ∧
    (s.setLaneSlot l x).regions = s.regions ∧ (s.setLaneSlot l x).staging = s.staging ∧
    (s.setLaneSlot l x).chain = s.chain ∧ (s.setLaneSlot l x).p0 = s.p0 ∧ (s.setLaneSlot l x).p1 = s.p1 ∧
    (s.setLaneSlot l x).p2 = s.p2 ∧ (s.setLaneSlot l x).p3 = s.p3 ∧ (s.setLaneSlot l x).result = s.result ∧
    (s.setLaneSlot l x).rateCode = s.rateCode ∧ (s.setLaneSlot l x).irqEnable = s.irqEnable ∧
    (s.setLaneSlot l x).phase = s.phase ∧ (s.setLaneSlot l x).flight = s.flight ∧
    (s.setLaneSlot l x).placement = s.placement ∧ (s.setLaneSlot l x).stationSlot = s.stationSlot ∧
    (s.setLaneSlot l x).stationNext = s.stationNext ∧ (s.setLaneSlot l x).imageSlot = s.imageSlot ∧
    (s.setLaneSlot l x).spoilStreak = s.spoilStreak ∧ (s.setLaneSlot l x).lost = s.lost ∧
    (s.setLaneSlot l x).stationState = s.stationState ∧ (s.setLaneSlot l x).passCount = s.passCount ∧
    (s.setLaneSlot l x).window = s.window ∧ (s.setLaneSlot l x).join = s.join ∧
    (s.setLaneSlot l x).lanes = s.lanes ∧ (s.setLaneSlot l x).queue = s.queue ∧
    (s.setLaneSlot l x).events = s.events ∧ (s.setLaneSlot l x).watches = s.watches := by
  simp only [setLaneSlot, and_self]

/-- `clearLaneSlot` leaves every field but `laneSlots` and `placement` as it was. -/
@[simp] theorem clearLaneSlot_other (s : State) (l : LaneNo) :
    (s.clearLaneSlot l).pending = s.pending ∧ (s.clearLaneSlot l).choices = s.choices ∧
    (s.clearLaneSlot l).inReset = s.inReset ∧ (s.clearLaneSlot l).straps = s.straps ∧
    (s.clearLaneSlot l).stationNumber = s.stationNumber ∧ (s.clearLaneSlot l).area = s.area ∧
    (s.clearLaneSlot l).regions = s.regions ∧ (s.clearLaneSlot l).staging = s.staging ∧
    (s.clearLaneSlot l).chain = s.chain ∧ (s.clearLaneSlot l).p0 = s.p0 ∧ (s.clearLaneSlot l).p1 = s.p1 ∧
    (s.clearLaneSlot l).p2 = s.p2 ∧ (s.clearLaneSlot l).p3 = s.p3 ∧ (s.clearLaneSlot l).result = s.result ∧
    (s.clearLaneSlot l).rateCode = s.rateCode ∧ (s.clearLaneSlot l).irqEnable = s.irqEnable ∧
    (s.clearLaneSlot l).phase = s.phase ∧ (s.clearLaneSlot l).flight = s.flight ∧
    (s.clearLaneSlot l).stationSlot = s.stationSlot ∧ (s.clearLaneSlot l).stationNext = s.stationNext ∧
    (s.clearLaneSlot l).imageSlot = s.imageSlot ∧ (s.clearLaneSlot l).spoilStreak = s.spoilStreak ∧
    (s.clearLaneSlot l).lost = s.lost ∧ (s.clearLaneSlot l).stationState = s.stationState ∧
    (s.clearLaneSlot l).passCount = s.passCount ∧ (s.clearLaneSlot l).window = s.window ∧
    (s.clearLaneSlot l).join = s.join ∧ (s.clearLaneSlot l).lanes = s.lanes ∧ (s.clearLaneSlot l).queue = s.queue ∧
    (s.clearLaneSlot l).events = s.events ∧ (s.clearLaneSlot l).watches = s.watches := by
  simp only [clearLaneSlot, and_self]

/-- `placeLaneFrame` leaves every field but `laneSlots` and `placement` as it was. -/
@[simp] theorem placeLaneFrame_other (s : State) (l : LaneNo) (f : LaneFrame) :
    (s.placeLaneFrame l f).pending = s.pending ∧ (s.placeLaneFrame l f).choices = s.choices ∧
    (s.placeLaneFrame l f).inReset = s.inReset ∧ (s.placeLaneFrame l f).straps = s.straps ∧
    (s.placeLaneFrame l f).stationNumber = s.stationNumber ∧ (s.placeLaneFrame l f).area = s.area ∧
    (s.placeLaneFrame l f).regions = s.regions ∧ (s.placeLaneFrame l f).staging = s.staging ∧
    (s.placeLaneFrame l f).chain = s.chain ∧ (s.placeLaneFrame l f).p0 = s.p0 ∧ (s.placeLaneFrame l f).p1 = s.p1 ∧
    (s.placeLaneFrame l f).p2 = s.p2 ∧ (s.placeLaneFrame l f).p3 = s.p3 ∧ (s.placeLaneFrame l f).result = s.result ∧
    (s.placeLaneFrame l f).rateCode = s.rateCode ∧ (s.placeLaneFrame l f).irqEnable = s.irqEnable ∧
    (s.placeLaneFrame l f).phase = s.phase ∧ (s.placeLaneFrame l f).flight = s.flight ∧
    (s.placeLaneFrame l f).stationSlot = s.stationSlot ∧ (s.placeLaneFrame l f).stationNext = s.stationNext ∧
    (s.placeLaneFrame l f).imageSlot = s.imageSlot ∧ (s.placeLaneFrame l f).spoilStreak = s.spoilStreak ∧
    (s.placeLaneFrame l f).lost = s.lost ∧ (s.placeLaneFrame l f).stationState = s.stationState ∧
    (s.placeLaneFrame l f).passCount = s.passCount ∧ (s.placeLaneFrame l f).window = s.window ∧
    (s.placeLaneFrame l f).join = s.join ∧ (s.placeLaneFrame l f).lanes = s.lanes ∧
    (s.placeLaneFrame l f).queue = s.queue ∧ (s.placeLaneFrame l f).events = s.events ∧
    (s.placeLaneFrame l f).watches = s.watches := by
  simp only [placeLaneFrame, and_self]

/-- `setWatch` leaves every field but `watches` as it was. -/
@[simp] theorem setWatch_other (s : State) (w : WatchNo) (x : Watch) :
    (s.setWatch w x).pending = s.pending ∧ (s.setWatch w x).choices = s.choices ∧
    (s.setWatch w x).inReset = s.inReset ∧ (s.setWatch w x).straps = s.straps ∧
    (s.setWatch w x).stationNumber = s.stationNumber ∧ (s.setWatch w x).area = s.area ∧
    (s.setWatch w x).regions = s.regions ∧ (s.setWatch w x).staging = s.staging ∧ (s.setWatch w x).chain = s.chain ∧
    (s.setWatch w x).p0 = s.p0 ∧ (s.setWatch w x).p1 = s.p1 ∧ (s.setWatch w x).p2 = s.p2 ∧
    (s.setWatch w x).p3 = s.p3 ∧ (s.setWatch w x).result = s.result ∧ (s.setWatch w x).rateCode = s.rateCode ∧
    (s.setWatch w x).irqEnable = s.irqEnable ∧ (s.setWatch w x).phase = s.phase ∧
    (s.setWatch w x).flight = s.flight ∧ (s.setWatch w x).laneSlots = s.laneSlots ∧
    (s.setWatch w x).placement = s.placement ∧ (s.setWatch w x).stationSlot = s.stationSlot ∧
    (s.setWatch w x).stationNext = s.stationNext ∧ (s.setWatch w x).imageSlot = s.imageSlot ∧
    (s.setWatch w x).spoilStreak = s.spoilStreak ∧ (s.setWatch w x).lost = s.lost ∧
    (s.setWatch w x).stationState = s.stationState ∧ (s.setWatch w x).passCount = s.passCount ∧
    (s.setWatch w x).window = s.window ∧ (s.setWatch w x).join = s.join ∧ (s.setWatch w x).lanes = s.lanes ∧
    (s.setWatch w x).queue = s.queue ∧ (s.setWatch w x).events = s.events := by
  simp only [setWatch, and_self]

/-- `mapWatches` leaves every field but `watches` as it was. -/
@[simp] theorem mapWatches_other (s : State) (f : WatchNo → Watch → Watch) :
    (s.mapWatches f).pending = s.pending ∧ (s.mapWatches f).choices = s.choices ∧
    (s.mapWatches f).inReset = s.inReset ∧ (s.mapWatches f).straps = s.straps ∧
    (s.mapWatches f).stationNumber = s.stationNumber ∧ (s.mapWatches f).area = s.area ∧
    (s.mapWatches f).regions = s.regions ∧ (s.mapWatches f).staging = s.staging ∧ (s.mapWatches f).chain = s.chain ∧
    (s.mapWatches f).p0 = s.p0 ∧ (s.mapWatches f).p1 = s.p1 ∧ (s.mapWatches f).p2 = s.p2 ∧
    (s.mapWatches f).p3 = s.p3 ∧ (s.mapWatches f).result = s.result ∧ (s.mapWatches f).rateCode = s.rateCode ∧
    (s.mapWatches f).irqEnable = s.irqEnable ∧ (s.mapWatches f).phase = s.phase ∧
    (s.mapWatches f).flight = s.flight ∧ (s.mapWatches f).laneSlots = s.laneSlots ∧
    (s.mapWatches f).placement = s.placement ∧ (s.mapWatches f).stationSlot = s.stationSlot ∧
    (s.mapWatches f).stationNext = s.stationNext ∧ (s.mapWatches f).imageSlot = s.imageSlot ∧
    (s.mapWatches f).spoilStreak = s.spoilStreak ∧ (s.mapWatches f).lost = s.lost ∧
    (s.mapWatches f).stationState = s.stationState ∧ (s.mapWatches f).passCount = s.passCount ∧
    (s.mapWatches f).window = s.window ∧ (s.mapWatches f).join = s.join ∧ (s.mapWatches f).lanes = s.lanes ∧
    (s.mapWatches f).queue = s.queue ∧ (s.mapWatches f).events = s.events := by
  simp only [mapWatches, and_self]

/-- `setLost` leaves every field but `lost` as it was. -/
@[simp] theorem setLost_other (s : State) (r : RegionNo) (x : Option Station) :
    (s.setLost r x).pending = s.pending ∧ (s.setLost r x).choices = s.choices ∧
    (s.setLost r x).inReset = s.inReset ∧ (s.setLost r x).straps = s.straps ∧
    (s.setLost r x).stationNumber = s.stationNumber ∧ (s.setLost r x).area = s.area ∧
    (s.setLost r x).regions = s.regions ∧ (s.setLost r x).staging = s.staging ∧ (s.setLost r x).chain = s.chain ∧
    (s.setLost r x).p0 = s.p0 ∧ (s.setLost r x).p1 = s.p1 ∧ (s.setLost r x).p2 = s.p2 ∧ (s.setLost r x).p3 = s.p3 ∧
    (s.setLost r x).result = s.result ∧ (s.setLost r x).rateCode = s.rateCode ∧
    (s.setLost r x).irqEnable = s.irqEnable ∧ (s.setLost r x).phase = s.phase ∧ (s.setLost r x).flight = s.flight ∧
    (s.setLost r x).laneSlots = s.laneSlots ∧ (s.setLost r x).placement = s.placement ∧
    (s.setLost r x).stationSlot = s.stationSlot ∧ (s.setLost r x).stationNext = s.stationNext ∧
    (s.setLost r x).imageSlot = s.imageSlot ∧ (s.setLost r x).spoilStreak = s.spoilStreak ∧
    (s.setLost r x).stationState = s.stationState ∧ (s.setLost r x).passCount = s.passCount ∧
    (s.setLost r x).window = s.window ∧ (s.setLost r x).join = s.join ∧ (s.setLost r x).lanes = s.lanes ∧
    (s.setLost r x).queue = s.queue ∧ (s.setLost r x).events = s.events ∧ (s.setLost r x).watches = s.watches := by
  simp only [setLost, and_self]

/-- `answer` leaves every field but `result` as it was. -/
@[simp] theorem answer_other (s : State) (a : Answer) (v : Byte) :
    (s.answer a v).pending = s.pending ∧ (s.answer a v).choices = s.choices ∧ (s.answer a v).inReset = s.inReset ∧
    (s.answer a v).straps = s.straps ∧ (s.answer a v).stationNumber = s.stationNumber ∧
    (s.answer a v).area = s.area ∧ (s.answer a v).regions = s.regions ∧ (s.answer a v).staging = s.staging ∧
    (s.answer a v).chain = s.chain ∧ (s.answer a v).p0 = s.p0 ∧ (s.answer a v).p1 = s.p1 ∧
    (s.answer a v).p2 = s.p2 ∧ (s.answer a v).p3 = s.p3 ∧ (s.answer a v).rateCode = s.rateCode ∧
    (s.answer a v).irqEnable = s.irqEnable ∧ (s.answer a v).phase = s.phase ∧ (s.answer a v).flight = s.flight ∧
    (s.answer a v).laneSlots = s.laneSlots ∧ (s.answer a v).placement = s.placement ∧
    (s.answer a v).stationSlot = s.stationSlot ∧ (s.answer a v).stationNext = s.stationNext ∧
    (s.answer a v).imageSlot = s.imageSlot ∧ (s.answer a v).spoilStreak = s.spoilStreak ∧
    (s.answer a v).lost = s.lost ∧ (s.answer a v).stationState = s.stationState ∧
    (s.answer a v).passCount = s.passCount ∧ (s.answer a v).window = s.window ∧ (s.answer a v).join = s.join ∧
    (s.answer a v).lanes = s.lanes ∧ (s.answer a v).queue = s.queue ∧ (s.answer a v).events = s.events ∧
    (s.answer a v).watches = s.watches := by
  simp only [answer, and_self]

/-! ## What the accessors read after an update elsewhere -/

@[simp] theorem setRegion_access (s : State) (r : RegionNo) (x : Region) :
    (∀ l', (s.setRegion r x).lane l' = s.lane l') ∧ (∀ l', (s.setRegion r x).laneSlot l' = s.laneSlot l') ∧
    (∀ w', (s.setRegion r x).watch w' = s.watch w') ∧ (∀ r', (s.setRegion r x).lostOwner r' = s.lostOwner r') := by
  simp only [setRegion, lane, laneSlot, watch, lostOwner, implies_true, and_self]

@[simp] theorem mapRegions_access (s : State) (f : RegionNo → Region → Region) :
    (∀ l', (s.mapRegions f).lane l' = s.lane l') ∧ (∀ l', (s.mapRegions f).laneSlot l' = s.laneSlot l') ∧
    (∀ w', (s.mapRegions f).watch w' = s.watch w') ∧ (∀ r', (s.mapRegions f).lostOwner r' = s.lostOwner r') := by
  simp only [mapRegions, lane, laneSlot, watch, lostOwner, implies_true, and_self]

@[simp] theorem writeRegionBytes_access (s : State) (r : RegionNo) (k : Nat) (d : List Byte) :
    (∀ r', (s.writeRegionBytes r k d).region r' = s.region r') ∧
    (∀ l', (s.writeRegionBytes r k d).lane l' = s.lane l') ∧
    (∀ l', (s.writeRegionBytes r k d).laneSlot l' = s.laneSlot l') ∧
    (∀ w', (s.writeRegionBytes r k d).watch w' = s.watch w') ∧
    (∀ r', (s.writeRegionBytes r k d).lostOwner r' = s.lostOwner r') := by
  simp only [writeRegionBytes, region, lane, laneSlot, watch, lostOwner, implies_true, and_self]

@[simp] theorem setLane_access (s : State) (l : LaneNo) (x : Lane) :
    (∀ r', (s.setLane l x).region r' = s.region r') ∧ (∀ l', (s.setLane l x).laneSlot l' = s.laneSlot l') ∧
    (∀ w', (s.setLane l x).watch w' = s.watch w') ∧ (∀ r', (s.setLane l x).lostOwner r' = s.lostOwner r') := by
  simp only [setLane, region, laneSlot, watch, lostOwner, implies_true, and_self]

@[simp] theorem modifyLane_access (s : State) (l : LaneNo) (f : Lane → Lane) :
    (∀ r', (s.modifyLane l f).region r' = s.region r') ∧ (∀ l', (s.modifyLane l f).laneSlot l' = s.laneSlot l') ∧
    (∀ w', (s.modifyLane l f).watch w' = s.watch w') ∧
    (∀ r', (s.modifyLane l f).lostOwner r' = s.lostOwner r') := by
  simp only [modifyLane, setLane, region, laneSlot, watch, lostOwner, implies_true, and_self]

@[simp] theorem mapLanes_access (s : State) (f : LaneNo → Lane → Lane) :
    (∀ r', (s.mapLanes f).region r' = s.region r') ∧ (∀ l', (s.mapLanes f).laneSlot l' = s.laneSlot l') ∧
    (∀ w', (s.mapLanes f).watch w' = s.watch w') ∧ (∀ r', (s.mapLanes f).lostOwner r' = s.lostOwner r') := by
  simp only [mapLanes, region, laneSlot, watch, lostOwner, implies_true, and_self]

@[simp] theorem setLaneSlot_access (s : State) (l : LaneNo) (x : Option LaneSlot) :
    (∀ r', (s.setLaneSlot l x).region r' = s.region r') ∧ (∀ l', (s.setLaneSlot l x).lane l' = s.lane l') ∧
    (∀ w', (s.setLaneSlot l x).watch w' = s.watch w') ∧
    (∀ r', (s.setLaneSlot l x).lostOwner r' = s.lostOwner r') := by
  simp only [setLaneSlot, region, lane, watch, lostOwner, implies_true, and_self]

@[simp] theorem clearLaneSlot_access (s : State) (l : LaneNo) :
    (∀ r', (s.clearLaneSlot l).region r' = s.region r') ∧ (∀ l', (s.clearLaneSlot l).lane l' = s.lane l') ∧
    (∀ w', (s.clearLaneSlot l).watch w' = s.watch w') ∧
    (∀ r', (s.clearLaneSlot l).lostOwner r' = s.lostOwner r') := by
  simp only [clearLaneSlot, region, lane, watch, lostOwner, implies_true, and_self]

@[simp] theorem placeLaneFrame_access (s : State) (l : LaneNo) (f : LaneFrame) :
    (∀ r', (s.placeLaneFrame l f).region r' = s.region r') ∧ (∀ l', (s.placeLaneFrame l f).lane l' = s.lane l') ∧
    (∀ w', (s.placeLaneFrame l f).watch w' = s.watch w') ∧
    (∀ r', (s.placeLaneFrame l f).lostOwner r' = s.lostOwner r') := by
  simp only [placeLaneFrame, region, lane, watch, lostOwner, implies_true, and_self]

@[simp] theorem setWatch_access (s : State) (w : WatchNo) (x : Watch) :
    (∀ r', (s.setWatch w x).region r' = s.region r') ∧ (∀ l', (s.setWatch w x).lane l' = s.lane l') ∧
    (∀ l', (s.setWatch w x).laneSlot l' = s.laneSlot l') ∧
    (∀ r', (s.setWatch w x).lostOwner r' = s.lostOwner r') := by
  simp only [setWatch, region, lane, laneSlot, lostOwner, implies_true, and_self]

@[simp] theorem mapWatches_access (s : State) (f : WatchNo → Watch → Watch) :
    (∀ r', (s.mapWatches f).region r' = s.region r') ∧ (∀ l', (s.mapWatches f).lane l' = s.lane l') ∧
    (∀ l', (s.mapWatches f).laneSlot l' = s.laneSlot l') ∧
    (∀ r', (s.mapWatches f).lostOwner r' = s.lostOwner r') := by
  simp only [mapWatches, region, lane, laneSlot, lostOwner, implies_true, and_self]

@[simp] theorem setLost_access (s : State) (r : RegionNo) (x : Option Station) :
    (∀ r', (s.setLost r x).region r' = s.region r') ∧ (∀ l', (s.setLost r x).lane l' = s.lane l') ∧
    (∀ l', (s.setLost r x).laneSlot l' = s.laneSlot l') ∧ (∀ w', (s.setLost r x).watch w' = s.watch w') := by
  simp only [setLost, region, lane, laneSlot, watch, implies_true, and_self]

@[simp] theorem answer_access (s : State) (a : Answer) (v : Byte) :
    (∀ r', (s.answer a v).region r' = s.region r') ∧ (∀ l', (s.answer a v).lane l' = s.lane l') ∧
    (∀ l', (s.answer a v).laneSlot l' = s.laneSlot l') ∧ (∀ w', (s.answer a v).watch w' = s.watch w') ∧
    (∀ r', (s.answer a v).lostOwner r' = s.lostOwner r') := by
  simp only [answer, region, lane, laneSlot, watch, lostOwner, implies_true, and_self]

end Sys2Proof.Machine.State
end

