-- ==== Sys2Proof/Laws/Completion.lean ====
section
/-! SUPPORT. What posting does: one producer served, one record offered, and the end of an event (R152, R153). -/

namespace Sys2Proof.Machine

theorem mem_allProducers (p : Producer) : p ∈ allProducers := by
  simp only [allProducers, List.mem_append, List.mem_cons, List.mem_map, List.mem_finRange, true_and, List.not_mem_nil,
    or_false]
  cases p with
  | event k => cases k <;> simp
  | lost r => simp
  | chainEnd l => simp
  | note l => simp
  | watch w => simp

namespace State

theorem hasRoom_iff (s : State) : s.hasRoom = true ↔ s.queue.length < 32 := decide_eq_true_iff

theorem hasRoom_false_iff (s : State) : s.hasRoom = false ↔ 32 ≤ s.queue.length := by
  rw [← Bool.not_eq_true, hasRoom_iff, not_lt]

theorem mem_waiting (s : State) (p : Producer) : p ∈ s.waiting ↔ s.isWaiting p = true := by
  simp [waiting, mem_allProducers]

theorem waiting_eq_nil (s : State) : s.waiting = [] ↔ ∀ p, s.recordOf p = none := by
  rw [List.eq_nil_iff_forall_not_mem]
  simp only [mem_waiting, isWaiting, Bool.not_eq_true, Option.isSome_eq_false_iff, Option.isNone_iff_eq_none]

theorem get_put (e : EventSet) (k k' : StationEvent) (x : Option WaitingEvent) :
    (e.put k x).get k' = if k' = k then x else e.get k' := by
  cases k <;> cases k' <;> rfl

/-! ## When a producer keeps a record -/

theorem isWaiting_event (s : State) (k : StationEvent) :
    s.isWaiting (.event k) = true ↔ (s.events.get k).isSome = true := by
  simp [isWaiting, recordOf]

theorem isWaiting_lost (s : State) (r : RegionNo) : s.isWaiting (.lost r) = true ↔ (s.lostOwner r).isSome = true := by
  simp [isWaiting, recordOf]

theorem isWaiting_chainEnd (s : State) (l : LaneNo) :
    s.isWaiting (.chainEnd l) = true ↔ (s.lane l).state = .holding ∧ (s.lane l).held.isSome = true := by
  simp only [isWaiting, recordOf]
  split <;> simp_all

theorem isWaiting_note (s : State) (l : LaneNo) : s.isWaiting (.note l) = true ↔ (s.lane l).note.isSome = true := by
  simp [isWaiting, recordOf]

theorem isWaiting_watch (s : State) (w : WatchNo) : s.isWaiting (.watch w) = true ↔ (s.watch w).state = .pending := by
  simp only [isWaiting, recordOf]
  split <;> simp_all

/-! ## One producer served -/

/-- What a record depends on. -/
theorem recordOf_congr {s t : State} (he : t.events = s.events) (hl : t.lost = s.lost) (hn : t.lanes = s.lanes)
    (hw : t.watches = s.watches) (hr : t.regions = s.regions) (p : Producer) : t.recordOf p = s.recordOf p := by
  cases s
  cases t
  simp only at he hl hn hw hr
  subst he hl hn hw hr
  cases p <;> rfl

/-- Clearing a producer removes its record. -/
theorem recordOf_clear_self (s : State) (p : Producer) : (s.clearProducer p).recordOf p = none := by
  cases p with
  | event k => simp [clearProducer, recordOf, get_put]
  | lost r => simp [clearProducer, recordOf, lostOwner_setLost]
  | chainEnd l => simp [clearProducer, recordOf]
  | note l => simp [clearProducer, recordOf]
  | watch w => simp [clearProducer, recordOf]

/-- Clearing a producer removes no other record. -/
theorem recordOf_clear_ne (s : State) (p q : Producer) (h : q ≠ p) : (s.clearProducer p).recordOf q = s.recordOf q := by
  cases p with
  | event k =>
    cases q with
    | event k' =>
      have : k' ≠ k := fun e => h (by rw [e])
      simp [clearProducer, recordOf, get_put, this]
    | lost r => rfl
    | chainEnd l => rfl
    | note l => rfl
    | watch w => rfl
  | lost r =>
    cases q with
    | lost r' =>
      have : r' ≠ r := fun e => h (by rw [e])
      simp [clearProducer, recordOf, lostOwner_setLost, this]
    | event k => rfl
    | chainEnd l => rfl
    | note l => rfl
    | watch w => rfl
  | chainEnd l =>
    cases q with
    | chainEnd l' =>
      have : l' ≠ l := fun e => h (by rw [e])
      simp [clearProducer, recordOf, lane_modifyLane, this]
    | note l' =>
      simp only [clearProducer, recordOf, lane_modifyLane]
      split <;> simp_all
    | event k => rfl
    | lost r => rfl
    | watch w => rfl
  | note l =>
    cases q with
    | note l' =>
      have : l' ≠ l := fun e => h (by rw [e])
      simp [clearProducer, recordOf, lane_modifyLane, this]
    | chainEnd l' =>
      simp only [clearProducer, recordOf, lane_modifyLane]
      split <;> simp_all
    | event k => rfl
    | lost r => rfl
    | watch w => rfl
  | watch w =>
    cases q with
    | watch w' =>
      have : w' ≠ w := fun e => h (by rw [e])
      simp [clearProducer, recordOf, watch_setWatch, this]
    | event k => rfl
    | lost r => rfl
    | chainEnd l => rfl
    | note l => rfl

theorem serve_of_none {s : State} {p : Producer} (h : s.recordOf p = none) : s.serve p = s := by
  simp [serve, h]

theorem serve_of_some {s : State} {p : Producer} {rec : Record} (h : s.recordOf p = some rec) :
    s.serve p = { s.clearProducer p with queue := s.queue ++ [rec] } := by
  simp [serve, h]

theorem queue_serve (s : State) (p : Producer) : (s.serve p).queue = s.queue ++ (s.recordOf p).toList := by
  cases h : s.recordOf p with
  | none => simp [serve_of_none h]
  | some rec => simp [serve_of_some h]

theorem recordOf_serve (s : State) (p q : Producer) :
    (s.serve p).recordOf q = if q = p then none else s.recordOf q := by
  cases h : s.recordOf p with
  | none =>
    rw [serve_of_none h]
    split
    · next e => rw [e, h]
    · rfl
  | some rec =>
    rw [serve_of_some h]
    have : ({ s.clearProducer p with queue := s.queue ++ [rec] } : State).recordOf q = (s.clearProducer p).recordOf q :=
      recordOf_congr rfl rfl rfl rfl rfl q
    rw [this]
    split
    · next e => rw [e, recordOf_clear_self]
    · next e => exact recordOf_clear_ne s p q e

/-! ## The fields posting can change -/

/-- Two states agree on all that posting does not touch. -/
def SamePost (s t : State) : Prop :=
  t = { s with queue := t.queue, events := t.events, lost := t.lost, lanes := t.lanes, watches := t.watches }

theorem SamePost.refl (s : State) : SamePost s s := rfl

theorem SamePost.trans {s t u : State} (h1 : SamePost s t) (h2 : SamePost t u) : SamePost s u := by
  unfold SamePost at *
  rw [h2, h1]

theorem samePost_serve (s : State) (p : Producer) : SamePost s (s.serve p) := by
  cases h : s.recordOf p with
  | none => rw [serve_of_none h]; exact SamePost.refl s
  | some rec =>
    rw [serve_of_some h]
    cases p <;> rfl

theorem samePost_offer (s : State) (p : Producer) : SamePost s (s.offer p) := by
  unfold offer
  split
  · exact samePost_serve s p
  · exact SamePost.refl s

theorem samePost_foldl (ps : List Producer) : ∀ s : State, SamePost s (ps.foldl offer s) := by
  induction ps with
  | nil => exact SamePost.refl
  | cons p ps ih => exact fun s => (samePost_offer s p).trans (ih _)

/-! ## Offering records one after another -/

theorem recordOf_offer (s : State) (p q : Producer) :
    (s.offer p).recordOf q = s.recordOf q ∨ (q = p ∧ (s.offer p).recordOf q = none) := by
  unfold offer
  split
  · rw [recordOf_serve]
    split
    · next e => exact Or.inr ⟨e, rfl⟩
    · exact Or.inl rfl
  · exact Or.inl rfl

theorem offer_of_none {s : State} {p : Producer} (h : s.recordOf p = none) : s.offer p = s := by
  unfold offer
  rw [serve_of_none h]
  split <;> rfl

theorem offer_of_full {s : State} (h : s.hasRoom = false) (p : Producer) : s.offer p = s := by
  simp [offer, h]

theorem queue_offer (s : State) (p : Producer) : ∃ recs, (s.offer p).queue = s.queue ++ recs := by
  unfold offer
  split
  · exact ⟨_, queue_serve s p⟩
  · exact ⟨[], by simp⟩

theorem queue_foldl (ps : List Producer) : ∀ s : State, ∃ recs, (ps.foldl offer s).queue = s.queue ++ recs := by
  induction ps with
  | nil => exact fun s => ⟨[], by simp⟩
  | cons p ps ih =>
    intro s
    obtain ⟨a, ha⟩ := queue_offer s p
    obtain ⟨b, hb⟩ := ih (s.offer p)
    exact ⟨a ++ b, by rw [List.foldl_cons, hb, ha, List.append_assoc]⟩

theorem recordOf_foldl (ps : List Producer) : ∀ (s : State) (q : Producer),
    (ps.foldl offer s).recordOf q = none ∨ (ps.foldl offer s).recordOf q = s.recordOf q := by
  induction ps with
  | nil => exact fun s q => Or.inr rfl
  | cons p ps ih =>
    intro s q
    rcases ih (s.offer p) q with h | h
    · exact Or.inl h
    · rcases recordOf_offer s p q with h' | ⟨_, h'⟩
      · exact Or.inr (h.trans h')
      · exact Or.inl (h.trans h')

theorem length_offer_le (s : State) (p : Producer) (h : s.queue.length ≤ 32) : (s.offer p).queue.length ≤ 32 := by
  unfold offer
  split
  · next hr =>
    rw [queue_serve]
    rw [hasRoom_iff] at hr
    cases s.recordOf p <;> simp <;> omega
  · exact h

theorem length_foldl_le (ps : List Producer) : ∀ s : State, s.queue.length ≤ 32 →
    (ps.foldl offer s).queue.length ≤ 32 := by
  induction ps with
  | nil => exact fun s h => h
  | cons p ps ih => exact fun s h => ih _ (length_offer_le s p h)

/-- A producer that was offered with room left at the end keeps no record. -/
theorem recordOf_foldl_of_mem (ps : List Producer) : ∀ (s : State) (q : Producer), q ∈ ps →
    (ps.foldl offer s).queue.length < 32 → (ps.foldl offer s).recordOf q = none := by
  induction ps with
  | nil => intro s q h; simp at h
  | cons p ps ih =>
    intro s q h hl
    rw [List.foldl_cons] at hl ⊢
    by_cases hq : q ∈ ps
    · exact ih _ q hq hl
    · have hqp : q = p := by simpa [hq] using h
      subst hqp
      have hroom : s.hasRoom = true := by
        obtain ⟨a, ha⟩ := queue_offer s q
        obtain ⟨b, hb⟩ := queue_foldl ps (s.offer q)
        rw [hb, ha] at hl
        simp only [List.length_append] at hl
        rw [hasRoom_iff]
        omega
      have h0 : (s.offer q).recordOf q = none := by simp [offer, hroom, recordOf_serve]
      rcases recordOf_foldl ps (s.offer q) q with h | h
      · exact h
      · rw [h, h0]

/-- Offering producers none of which keeps a record changes nothing. -/
theorem foldl_offer_of_none (ps : List Producer) : ∀ s : State, (∀ p ∈ ps, s.recordOf p = none) →
    ps.foldl offer s = s := by
  induction ps with
  | nil => exact fun s _ => rfl
  | cons p ps ih =>
    intro s h
    rw [List.foldl_cons, offer_of_none (h p (by simp))]
    exact ih s fun q hq => h q (by simp [hq])

/-! ## The end of an event -/

theorem mem_turns (s : State) (p : Producer) : p ∈ s.turns p := by
  cases p <;> simp [turns]

/-- The counter's value changes no record. -/
theorem recordOf_choices (s : State) (n : Nat) (p : Producer) :
    ({ s with choices := n } : State).recordOf p = s.recordOf p := recordOf_congr rfl rfl rfl rfl rfl p

/-- `settle` changes the counter, the queue and the places producers keep records in, nothing else. -/
theorem settle_frame (s : State) :
    s.settle = { s with choices := s.choices + 1, queue := s.settle.queue, events := s.settle.events
                        lost := s.settle.lost, lanes := s.settle.lanes, watches := s.settle.watches } :=
  samePost_foldl (s.schedule.flatMap s.turns) { s with choices := s.choices + 1 }

/-- `settle` adds records at the tail. -/
theorem settle_queue (s : State) : ∃ recs, s.settle.queue = s.queue ++ recs :=
  queue_foldl _ { s with choices := s.choices + 1 }

/-- After `settle` a producer keeps what it kept, or nothing. -/
theorem settle_recordOf (s : State) (p : Producer) :
    s.settle.recordOf p = none ∨ s.settle.recordOf p = s.recordOf p := by
  rcases recordOf_foldl (s.schedule.flatMap s.turns) { s with choices := s.choices + 1 } p with h | h
  · exact Or.inl h
  · exact Or.inr (h.trans (recordOf_choices s _ p))

theorem settle_length (s : State) (h : s.queue.length ≤ 32) : s.settle.queue.length ≤ 32 :=
  length_foldl_le _ _ h

theorem mem_schedule (s : State) (hr : s.hasRoom = true) (p : Producer) (hp : p ∈ s.waiting) : p ∈ s.schedule := by
  unfold schedule
  rw [if_pos hr]
  split
  · next h => simp [h] at hp
  · next q h => simpa [h] using hp
  · exact List.mem_append_right _ hp

/-- After `settle` the queue is full or no producer waits (R152). -/
theorem settle_complete (s : State) (h : s.settle.queue.length < 32) : s.settle.waiting = [] := by
  rw [waiting_eq_nil]
  intro p
  rcases settle_recordOf s p with h0 | h0
  · exact h0
  · cases hp : s.recordOf p with
    | none => rw [h0, hp]
    | some rec =>
      obtain ⟨recs, hq⟩ := settle_queue s
      have hr : s.hasRoom = true := by
        rw [hq, List.length_append] at h
        rw [hasRoom_iff]
        omega
      have hw : p ∈ s.waiting := by simp [mem_waiting, isWaiting, hp]
      refine recordOf_foldl_of_mem _ _ p ?_ h
      exact List.mem_flatMap.2 ⟨p, mem_schedule s hr p hw, mem_turns s p⟩

/-- With the queue full, `settle` posts nothing. -/
theorem settle_of_full (s : State) (h : s.hasRoom = false) : s.settle = { s with choices := s.choices + 1 } := by
  simp [settle, schedule, h]

/-- With no producer waiting, `settle` posts nothing. -/
theorem settle_of_none (s : State) (h : s.waiting = []) : s.settle = { s with choices := s.choices + 1 } := by
  unfold settle schedule
  rw [h]
  split <;> rfl

/-- With room and one producer waiting, `settle` posts its record. -/
theorem settle_of_one (s : State) (p : Producer) (hr : s.hasRoom = true) (h : s.waiting = [p]) :
    s.settle = ({ s with choices := s.choices + 1 } : State).serve p := by
  have hs : s.schedule = [p] := by
    unfold schedule
    rw [h, if_pos hr]
  unfold settle
  rw [hs]
  simp only [List.flatMap_cons, List.flatMap_nil, List.append_nil]
  have hn : ∀ q, q ≠ p → s.recordOf q = none := by
    intro q hq
    by_contra hc
    have : q ∈ s.waiting := by
      rw [mem_waiting, isWaiting]
      exact Option.isSome_iff_ne_none.2 hc
    rw [h] at this
    exact hq (by simpa using this)
  generalize hL : s.turns p = L
  have hmem : p ∈ L := hL ▸ mem_turns s p
  clear hL hs
  have hroom : ({ s with choices := s.choices + 1 } : State).hasRoom = true := hr
  have key : ∀ (L : List Producer) (t : State), t.hasRoom = true → (∀ q, q ≠ p → t.recordOf q = none) → p ∈ L →
      L.foldl offer t = t.serve p := by
    intro L
    induction L with
    | nil => intro t _ _ h; simp at h
    | cons q L ih =>
      intro t ht hq hm
      rw [List.foldl_cons]
      by_cases e : q = p
      · subst e
        have : t.offer q = t.serve q := by simp [offer, ht]
        rw [this]
        refine foldl_offer_of_none L _ fun r _ => ?_
        rw [recordOf_serve]
        split
        · rfl
        · next e => exact hq r e
      · rw [offer_of_none (hq q e)]
        refine ih t ht hq ?_
        rcases List.mem_cons.1 hm with rfl | hm
        · exact absurd rfl e
        · exact hm
  exact key L _ hroom (fun q hq => (recordOf_choices s _ q).trans (hn q hq)) hmem

end State
end Sys2Proof.Machine
end

