-- ==== Sys2Proof/Laws/Frame.lean ====
section
/-! SUPPORT. What each operation leaves as it was, field by field: a later proof cites these and does not unfold the
operation. A field that is missing from a lemma is one the operation may change. -/

namespace Sys2Proof.Machine.State

/-- A field that one step of a fold keeps, the fold keeps. -/
theorem foldl_keeps {α β : Type} (p : State → β) (f : State → α → State) (h : ∀ t x, p (f t x) = p t) :
    ∀ (xs : List α) (s : State), p (xs.foldl f s) = p s := by
  intro xs
  induction xs with
  | nil => exact fun s => rfl
  | cons x xs ih => exact fun s => (ih (f s x)).trans (h s x)

@[simp] theorem handEvent_frame (s : State) (k : StationEvent) (v : Nat) :
    (s.handEvent k v).pending = s.pending ∧ (s.handEvent k v).choices = s.choices ∧
    (s.handEvent k v).inReset = s.inReset ∧ (s.handEvent k v).straps = s.straps ∧
    (s.handEvent k v).stationNumber = s.stationNumber ∧ (s.handEvent k v).area = s.area ∧
    (s.handEvent k v).regions = s.regions ∧ (s.handEvent k v).staging = s.staging ∧
    (s.handEvent k v).chain = s.chain ∧ (s.handEvent k v).p0 = s.p0 ∧ (s.handEvent k v).p1 = s.p1 ∧
    (s.handEvent k v).p2 = s.p2 ∧ (s.handEvent k v).p3 = s.p3 ∧ (s.handEvent k v).result = s.result ∧
    (s.handEvent k v).rateCode = s.rateCode ∧ (s.handEvent k v).irqEnable = s.irqEnable ∧
    (s.handEvent k v).phase = s.phase ∧ (s.handEvent k v).flight = s.flight ∧
    (s.handEvent k v).laneSlots = s.laneSlots ∧ (s.handEvent k v).placement = s.placement ∧
    (s.handEvent k v).stationSlot = s.stationSlot ∧ (s.handEvent k v).stationNext = s.stationNext ∧
    (s.handEvent k v).imageSlot = s.imageSlot ∧ (s.handEvent k v).spoilStreak = s.spoilStreak ∧
    (s.handEvent k v).lost = s.lost ∧ (s.handEvent k v).stationState = s.stationState ∧
    (s.handEvent k v).passCount = s.passCount ∧ (s.handEvent k v).window = s.window ∧
    (s.handEvent k v).join = s.join ∧ (s.handEvent k v).lanes = s.lanes ∧ (s.handEvent k v).queue = s.queue ∧
    (s.handEvent k v).watches = s.watches := by
  unfold handEvent
  simp

@[simp] theorem clearProducer_frame (s : State) (p : Producer) :
    (s.clearProducer p).pending = s.pending ∧ (s.clearProducer p).choices = s.choices ∧
    (s.clearProducer p).inReset = s.inReset ∧ (s.clearProducer p).straps = s.straps ∧
    (s.clearProducer p).stationNumber = s.stationNumber ∧ (s.clearProducer p).area = s.area ∧
    (s.clearProducer p).regions = s.regions ∧ (s.clearProducer p).staging = s.staging ∧
    (s.clearProducer p).chain = s.chain ∧ (s.clearProducer p).p0 = s.p0 ∧ (s.clearProducer p).p1 = s.p1 ∧
    (s.clearProducer p).p2 = s.p2 ∧ (s.clearProducer p).p3 = s.p3 ∧ (s.clearProducer p).result = s.result ∧
    (s.clearProducer p).rateCode = s.rateCode ∧ (s.clearProducer p).irqEnable = s.irqEnable ∧
    (s.clearProducer p).phase = s.phase ∧ (s.clearProducer p).flight = s.flight ∧
    (s.clearProducer p).laneSlots = s.laneSlots ∧ (s.clearProducer p).placement = s.placement ∧
    (s.clearProducer p).stationSlot = s.stationSlot ∧ (s.clearProducer p).stationNext = s.stationNext ∧
    (s.clearProducer p).imageSlot = s.imageSlot ∧ (s.clearProducer p).spoilStreak = s.spoilStreak ∧
    (s.clearProducer p).stationState = s.stationState ∧ (s.clearProducer p).passCount = s.passCount ∧
    (s.clearProducer p).window = s.window ∧ (s.clearProducer p).join = s.join ∧
    (s.clearProducer p).queue = s.queue := by
  cases p <;> simp [clearProducer]

@[simp] theorem serve_frame (s : State) (p : Producer) :
    (s.serve p).pending = s.pending ∧ (s.serve p).choices = s.choices ∧ (s.serve p).inReset = s.inReset ∧
    (s.serve p).straps = s.straps ∧ (s.serve p).stationNumber = s.stationNumber ∧ (s.serve p).area = s.area ∧
    (s.serve p).regions = s.regions ∧ (s.serve p).staging = s.staging ∧ (s.serve p).chain = s.chain ∧
    (s.serve p).p0 = s.p0 ∧ (s.serve p).p1 = s.p1 ∧ (s.serve p).p2 = s.p2 ∧ (s.serve p).p3 = s.p3 ∧
    (s.serve p).result = s.result ∧ (s.serve p).rateCode = s.rateCode ∧ (s.serve p).irqEnable = s.irqEnable ∧
    (s.serve p).phase = s.phase ∧ (s.serve p).flight = s.flight ∧ (s.serve p).laneSlots = s.laneSlots ∧
    (s.serve p).placement = s.placement ∧ (s.serve p).stationSlot = s.stationSlot ∧
    (s.serve p).stationNext = s.stationNext ∧ (s.serve p).imageSlot = s.imageSlot ∧
    (s.serve p).spoilStreak = s.spoilStreak ∧ (s.serve p).stationState = s.stationState ∧
    (s.serve p).passCount = s.passCount ∧ (s.serve p).window = s.window ∧ (s.serve p).join = s.join := by
  unfold serve
  repeat' split
  all_goals simp

@[simp] theorem offer_frame (s : State) (p : Producer) :
    (s.offer p).pending = s.pending ∧ (s.offer p).choices = s.choices ∧ (s.offer p).inReset = s.inReset ∧
    (s.offer p).straps = s.straps ∧ (s.offer p).stationNumber = s.stationNumber ∧ (s.offer p).area = s.area ∧
    (s.offer p).regions = s.regions ∧ (s.offer p).staging = s.staging ∧ (s.offer p).chain = s.chain ∧
    (s.offer p).p0 = s.p0 ∧ (s.offer p).p1 = s.p1 ∧ (s.offer p).p2 = s.p2 ∧ (s.offer p).p3 = s.p3 ∧
    (s.offer p).result = s.result ∧ (s.offer p).rateCode = s.rateCode ∧ (s.offer p).irqEnable = s.irqEnable ∧
    (s.offer p).phase = s.phase ∧ (s.offer p).flight = s.flight ∧ (s.offer p).laneSlots = s.laneSlots ∧
    (s.offer p).placement = s.placement ∧ (s.offer p).stationSlot = s.stationSlot ∧
    (s.offer p).stationNext = s.stationNext ∧ (s.offer p).imageSlot = s.imageSlot ∧
    (s.offer p).spoilStreak = s.spoilStreak ∧ (s.offer p).stationState = s.stationState ∧
    (s.offer p).passCount = s.passCount ∧ (s.offer p).window = s.window ∧ (s.offer p).join = s.join := by
  unfold offer
  repeat' split
  all_goals simp

@[simp] theorem settle_frames (s : State) :
    s.settle.pending = s.pending ∧ s.settle.inReset = s.inReset ∧ s.settle.straps = s.straps ∧
    s.settle.stationNumber = s.stationNumber ∧ s.settle.area = s.area ∧ s.settle.regions = s.regions ∧
    s.settle.staging = s.staging ∧ s.settle.chain = s.chain ∧ s.settle.p0 = s.p0 ∧ s.settle.p1 = s.p1 ∧
    s.settle.p2 = s.p2 ∧ s.settle.p3 = s.p3 ∧ s.settle.result = s.result ∧ s.settle.rateCode = s.rateCode ∧
    s.settle.irqEnable = s.irqEnable ∧ s.settle.phase = s.phase ∧ s.settle.flight = s.flight ∧
    s.settle.laneSlots = s.laneSlots ∧ s.settle.placement = s.placement ∧ s.settle.stationSlot = s.stationSlot ∧
    s.settle.stationNext = s.stationNext ∧ s.settle.imageSlot = s.imageSlot ∧ s.settle.spoilStreak = s.spoilStreak ∧
    s.settle.stationState = s.stationState ∧ s.settle.passCount = s.passCount ∧ s.settle.window = s.window ∧
    s.settle.join = s.join := by
  have h := settle_frame s
  constructorm* _ ∧ _ <;> rw [h]

@[simp] theorem popHead_frame (s : State) :
    s.popHead.pending = s.pending ∧ s.popHead.choices = s.choices ∧ s.popHead.inReset = s.inReset ∧
    s.popHead.straps = s.straps ∧ s.popHead.stationNumber = s.stationNumber ∧ s.popHead.area = s.area ∧
    s.popHead.regions = s.regions ∧ s.popHead.staging = s.staging ∧ s.popHead.chain = s.chain ∧ s.popHead.p0 = s.p0 ∧
    s.popHead.p1 = s.p1 ∧ s.popHead.p2 = s.p2 ∧ s.popHead.p3 = s.p3 ∧ s.popHead.result = s.result ∧
    s.popHead.rateCode = s.rateCode ∧ s.popHead.irqEnable = s.irqEnable ∧ s.popHead.phase = s.phase ∧
    s.popHead.flight = s.flight ∧ s.popHead.laneSlots = s.laneSlots ∧ s.popHead.placement = s.placement ∧
    s.popHead.stationSlot = s.stationSlot ∧ s.popHead.stationNext = s.stationNext ∧
    s.popHead.imageSlot = s.imageSlot ∧ s.popHead.spoilStreak = s.spoilStreak ∧
    s.popHead.stationState = s.stationState ∧ s.popHead.passCount = s.passCount ∧ s.popHead.window = s.window ∧
    s.popHead.join = s.join := by
  unfold popHead
  repeat' split
  all_goals simp

@[simp] theorem reportWatches_frame (s : State) (rep : ChangeReport) :
    (s.reportWatches rep).pending = s.pending ∧ (s.reportWatches rep).choices = s.choices ∧
    (s.reportWatches rep).inReset = s.inReset ∧ (s.reportWatches rep).straps = s.straps ∧
    (s.reportWatches rep).stationNumber = s.stationNumber ∧ (s.reportWatches rep).area = s.area ∧
    (s.reportWatches rep).regions = s.regions ∧ (s.reportWatches rep).staging = s.staging ∧
    (s.reportWatches rep).chain = s.chain ∧ (s.reportWatches rep).p0 = s.p0 ∧ (s.reportWatches rep).p1 = s.p1 ∧
    (s.reportWatches rep).p2 = s.p2 ∧ (s.reportWatches rep).p3 = s.p3 ∧ (s.reportWatches rep).result = s.result ∧
    (s.reportWatches rep).rateCode = s.rateCode ∧ (s.reportWatches rep).irqEnable = s.irqEnable ∧
    (s.reportWatches rep).phase = s.phase ∧ (s.reportWatches rep).flight = s.flight ∧
    (s.reportWatches rep).laneSlots = s.laneSlots ∧ (s.reportWatches rep).placement = s.placement ∧
    (s.reportWatches rep).stationSlot = s.stationSlot ∧ (s.reportWatches rep).stationNext = s.stationNext ∧
    (s.reportWatches rep).imageSlot = s.imageSlot ∧ (s.reportWatches rep).spoilStreak = s.spoilStreak ∧
    (s.reportWatches rep).lost = s.lost ∧ (s.reportWatches rep).stationState = s.stationState ∧
    (s.reportWatches rep).passCount = s.passCount ∧ (s.reportWatches rep).window = s.window ∧
    (s.reportWatches rep).join = s.join ∧ (s.reportWatches rep).lanes = s.lanes ∧
    (s.reportWatches rep).queue = s.queue ∧ (s.reportWatches rep).events = s.events := by
  unfold reportWatches
  simp

@[simp] theorem watchArm_frame (s : State) :
    s.watchArm.pending = s.pending ∧ s.watchArm.choices = s.choices ∧ s.watchArm.inReset = s.inReset ∧
    s.watchArm.straps = s.straps ∧ s.watchArm.stationNumber = s.stationNumber ∧ s.watchArm.area = s.area ∧
    s.watchArm.regions = s.regions ∧ s.watchArm.staging = s.staging ∧ s.watchArm.chain = s.chain ∧
    s.watchArm.p0 = s.p0 ∧ s.watchArm.p1 = s.p1 ∧ s.watchArm.p2 = s.p2 ∧ s.watchArm.p3 = s.p3 ∧
    s.watchArm.rateCode = s.rateCode ∧ s.watchArm.irqEnable = s.irqEnable ∧ s.watchArm.phase = s.phase ∧
    s.watchArm.flight = s.flight ∧ s.watchArm.laneSlots = s.laneSlots ∧ s.watchArm.placement = s.placement ∧
    s.watchArm.stationSlot = s.stationSlot ∧ s.watchArm.stationNext = s.stationNext ∧
    s.watchArm.imageSlot = s.imageSlot ∧ s.watchArm.spoilStreak = s.spoilStreak ∧ s.watchArm.lost = s.lost ∧
    s.watchArm.stationState = s.stationState ∧ s.watchArm.passCount = s.passCount ∧ s.watchArm.window = s.window ∧
    s.watchArm.join = s.join ∧ s.watchArm.lanes = s.lanes ∧ s.watchArm.queue = s.queue ∧
    s.watchArm.events = s.events := by
  unfold watchArm
  repeat' split
  all_goals simp

@[simp] theorem watchDisarm_frame (s : State) :
    s.watchDisarm.pending = s.pending ∧ s.watchDisarm.choices = s.choices ∧ s.watchDisarm.inReset = s.inReset ∧
    s.watchDisarm.straps = s.straps ∧ s.watchDisarm.stationNumber = s.stationNumber ∧ s.watchDisarm.area = s.area ∧
    s.watchDisarm.regions = s.regions ∧ s.watchDisarm.staging = s.staging ∧ s.watchDisarm.chain = s.chain ∧
    s.watchDisarm.p0 = s.p0 ∧ s.watchDisarm.p1 = s.p1 ∧ s.watchDisarm.p2 = s.p2 ∧ s.watchDisarm.p3 = s.p3 ∧
    s.watchDisarm.rateCode = s.rateCode ∧ s.watchDisarm.irqEnable = s.irqEnable ∧ s.watchDisarm.phase = s.phase ∧
    s.watchDisarm.flight = s.flight ∧ s.watchDisarm.laneSlots = s.laneSlots ∧ s.watchDisarm.placement = s.placement ∧
    s.watchDisarm.stationSlot = s.stationSlot ∧ s.watchDisarm.stationNext = s.stationNext ∧
    s.watchDisarm.imageSlot = s.imageSlot ∧ s.watchDisarm.spoilStreak = s.spoilStreak ∧ s.watchDisarm.lost = s.lost ∧
    s.watchDisarm.stationState = s.stationState ∧ s.watchDisarm.passCount = s.passCount ∧
    s.watchDisarm.window = s.window ∧ s.watchDisarm.join = s.join ∧ s.watchDisarm.lanes = s.lanes ∧
    s.watchDisarm.queue = s.queue ∧ s.watchDisarm.events = s.events := by
  unfold watchDisarm
  repeat' split
  all_goals simp

@[simp] theorem reportLanes_frame (s : State) (r : RegionNo) :
    (s.reportLanes r).pending = s.pending ∧ (s.reportLanes r).choices = s.choices ∧
    (s.reportLanes r).inReset = s.inReset ∧ (s.reportLanes r).straps = s.straps ∧
    (s.reportLanes r).stationNumber = s.stationNumber ∧ (s.reportLanes r).area = s.area ∧
    (s.reportLanes r).regions = s.regions ∧ (s.reportLanes r).staging = s.staging ∧
    (s.reportLanes r).chain = s.chain ∧ (s.reportLanes r).p0 = s.p0 ∧ (s.reportLanes r).p1 = s.p1 ∧
    (s.reportLanes r).p2 = s.p2 ∧ (s.reportLanes r).p3 = s.p3 ∧ (s.reportLanes r).result = s.result ∧
    (s.reportLanes r).rateCode = s.rateCode ∧ (s.reportLanes r).irqEnable = s.irqEnable ∧
    (s.reportLanes r).phase = s.phase ∧ (s.reportLanes r).flight = s.flight ∧
    (s.reportLanes r).laneSlots = s.laneSlots ∧ (s.reportLanes r).placement = s.placement ∧
    (s.reportLanes r).stationSlot = s.stationSlot ∧ (s.reportLanes r).stationNext = s.stationNext ∧
    (s.reportLanes r).imageSlot = s.imageSlot ∧ (s.reportLanes r).spoilStreak = s.spoilStreak ∧
    (s.reportLanes r).lost = s.lost ∧ (s.reportLanes r).stationState = s.stationState ∧
    (s.reportLanes r).passCount = s.passCount ∧ (s.reportLanes r).window = s.window ∧
    (s.reportLanes r).join = s.join ∧ (s.reportLanes r).queue = s.queue ∧ (s.reportLanes r).events = s.events ∧
    (s.reportLanes r).watches = s.watches := by
  unfold reportLanes
  simp

@[simp] theorem report_frame (s : State) (rep : ChangeReport) :
    (s.report rep).pending = s.pending ∧ (s.report rep).choices = s.choices ∧ (s.report rep).inReset = s.inReset ∧
    (s.report rep).straps = s.straps ∧ (s.report rep).stationNumber = s.stationNumber ∧ (s.report rep).area = s.area ∧
    (s.report rep).regions = s.regions ∧ (s.report rep).staging = s.staging ∧ (s.report rep).chain = s.chain ∧
    (s.report rep).p0 = s.p0 ∧ (s.report rep).p1 = s.p1 ∧ (s.report rep).p2 = s.p2 ∧ (s.report rep).p3 = s.p3 ∧
    (s.report rep).result = s.result ∧ (s.report rep).rateCode = s.rateCode ∧ (s.report rep).irqEnable = s.irqEnable ∧
    (s.report rep).phase = s.phase ∧ (s.report rep).flight = s.flight ∧ (s.report rep).laneSlots = s.laneSlots ∧
    (s.report rep).placement = s.placement ∧ (s.report rep).stationSlot = s.stationSlot ∧
    (s.report rep).stationNext = s.stationNext ∧ (s.report rep).imageSlot = s.imageSlot ∧
    (s.report rep).spoilStreak = s.spoilStreak ∧ (s.report rep).lost = s.lost ∧
    (s.report rep).stationState = s.stationState ∧ (s.report rep).passCount = s.passCount ∧
    (s.report rep).window = s.window ∧ (s.report rep).join = s.join ∧ (s.report rep).queue = s.queue ∧
    (s.report rep).events = s.events := by
  unfold report
  simp

@[simp] theorem detachLanes_frame (s : State) :
    s.detachLanes.pending = s.pending ∧ s.detachLanes.choices = s.choices ∧ s.detachLanes.inReset = s.inReset ∧
    s.detachLanes.straps = s.straps ∧ s.detachLanes.stationNumber = s.stationNumber ∧ s.detachLanes.area = s.area ∧
    s.detachLanes.regions = s.regions ∧ s.detachLanes.staging = s.staging ∧ s.detachLanes.chain = s.chain ∧
    s.detachLanes.p0 = s.p0 ∧ s.detachLanes.p1 = s.p1 ∧ s.detachLanes.p2 = s.p2 ∧ s.detachLanes.p3 = s.p3 ∧
    s.detachLanes.result = s.result ∧ s.detachLanes.rateCode = s.rateCode ∧ s.detachLanes.irqEnable = s.irqEnable ∧
    s.detachLanes.phase = s.phase ∧ s.detachLanes.flight = s.flight ∧ s.detachLanes.laneSlots = s.laneSlots ∧
    s.detachLanes.placement = s.placement ∧ s.detachLanes.stationSlot = s.stationSlot ∧
    s.detachLanes.stationNext = s.stationNext ∧ s.detachLanes.imageSlot = s.imageSlot ∧
    s.detachLanes.spoilStreak = s.spoilStreak ∧ s.detachLanes.lost = s.lost ∧
    s.detachLanes.stationState = s.stationState ∧ s.detachLanes.passCount = s.passCount ∧
    s.detachLanes.window = s.window ∧ s.detachLanes.join = s.join ∧ s.detachLanes.queue = s.queue ∧
    s.detachLanes.events = s.events ∧ s.detachLanes.watches = s.watches := by
  unfold detachLanes
  simp

@[simp] theorem dropLaneFrames_frame (s : State) :
    s.dropLaneFrames.pending = s.pending ∧ s.dropLaneFrames.choices = s.choices ∧
    s.dropLaneFrames.inReset = s.inReset ∧ s.dropLaneFrames.straps = s.straps ∧
    s.dropLaneFrames.stationNumber = s.stationNumber ∧ s.dropLaneFrames.area = s.area ∧
    s.dropLaneFrames.regions = s.regions ∧ s.dropLaneFrames.staging = s.staging ∧ s.dropLaneFrames.chain = s.chain ∧
    s.dropLaneFrames.p0 = s.p0 ∧ s.dropLaneFrames.p1 = s.p1 ∧ s.dropLaneFrames.p2 = s.p2 ∧
    s.dropLaneFrames.p3 = s.p3 ∧ s.dropLaneFrames.result = s.result ∧ s.dropLaneFrames.rateCode = s.rateCode ∧
    s.dropLaneFrames.irqEnable = s.irqEnable ∧ s.dropLaneFrames.phase = s.phase ∧
    s.dropLaneFrames.stationSlot = s.stationSlot ∧ s.dropLaneFrames.stationNext = s.stationNext ∧
    s.dropLaneFrames.imageSlot = s.imageSlot ∧ s.dropLaneFrames.spoilStreak = s.spoilStreak ∧
    s.dropLaneFrames.lost = s.lost ∧ s.dropLaneFrames.stationState = s.stationState ∧
    s.dropLaneFrames.passCount = s.passCount ∧ s.dropLaneFrames.window = s.window ∧ s.dropLaneFrames.join = s.join ∧
    s.dropLaneFrames.lanes = s.lanes ∧ s.dropLaneFrames.queue = s.queue ∧ s.dropLaneFrames.events = s.events ∧
    s.dropLaneFrames.watches = s.watches := by
  unfold dropLaneFrames
  simp

@[simp] theorem endLane_frame (s : State) (l : LaneNo) (st : Status) :
    (s.endLane l st).pending = s.pending ∧ (s.endLane l st).choices = s.choices ∧
    (s.endLane l st).inReset = s.inReset ∧ (s.endLane l st).straps = s.straps ∧
    (s.endLane l st).stationNumber = s.stationNumber ∧ (s.endLane l st).area = s.area ∧
    (s.endLane l st).regions = s.regions ∧ (s.endLane l st).staging = s.staging ∧ (s.endLane l st).chain = s.chain ∧
    (s.endLane l st).p0 = s.p0 ∧ (s.endLane l st).p1 = s.p1 ∧ (s.endLane l st).p2 = s.p2 ∧
    (s.endLane l st).p3 = s.p3 ∧ (s.endLane l st).result = s.result ∧ (s.endLane l st).rateCode = s.rateCode ∧
    (s.endLane l st).irqEnable = s.irqEnable ∧ (s.endLane l st).phase = s.phase ∧ (s.endLane l st).flight = s.flight ∧
    (s.endLane l st).laneSlots = s.laneSlots ∧ (s.endLane l st).placement = s.placement ∧
    (s.endLane l st).stationSlot = s.stationSlot ∧ (s.endLane l st).stationNext = s.stationNext ∧
    (s.endLane l st).imageSlot = s.imageSlot ∧ (s.endLane l st).spoilStreak = s.spoilStreak ∧
    (s.endLane l st).lost = s.lost ∧ (s.endLane l st).stationState = s.stationState ∧
    (s.endLane l st).passCount = s.passCount ∧ (s.endLane l st).window = s.window ∧ (s.endLane l st).join = s.join ∧
    (s.endLane l st).queue = s.queue ∧ (s.endLane l st).events = s.events ∧ (s.endLane l st).watches = s.watches := by
  unfold endLane
  simp

@[simp] theorem completeLane_frame (s : State) (l : LaneNo) (st : Status) :
    (s.completeLane l st).pending = s.pending ∧ (s.completeLane l st).choices = s.choices ∧
    (s.completeLane l st).inReset = s.inReset ∧ (s.completeLane l st).straps = s.straps ∧
    (s.completeLane l st).stationNumber = s.stationNumber ∧ (s.completeLane l st).area = s.area ∧
    (s.completeLane l st).regions = s.regions ∧ (s.completeLane l st).staging = s.staging ∧
    (s.completeLane l st).chain = s.chain ∧ (s.completeLane l st).p0 = s.p0 ∧ (s.completeLane l st).p1 = s.p1 ∧
    (s.completeLane l st).p2 = s.p2 ∧ (s.completeLane l st).p3 = s.p3 ∧ (s.completeLane l st).result = s.result ∧
    (s.completeLane l st).rateCode = s.rateCode ∧ (s.completeLane l st).irqEnable = s.irqEnable ∧
    (s.completeLane l st).phase = s.phase ∧ (s.completeLane l st).flight = s.flight ∧
    (s.completeLane l st).laneSlots = s.laneSlots ∧ (s.completeLane l st).placement = s.placement ∧
    (s.completeLane l st).stationSlot = s.stationSlot ∧ (s.completeLane l st).stationNext = s.stationNext ∧
    (s.completeLane l st).imageSlot = s.imageSlot ∧ (s.completeLane l st).spoilStreak = s.spoilStreak ∧
    (s.completeLane l st).lost = s.lost ∧ (s.completeLane l st).stationState = s.stationState ∧
    (s.completeLane l st).passCount = s.passCount ∧ (s.completeLane l st).window = s.window ∧
    (s.completeLane l st).join = s.join ∧ (s.completeLane l st).queue = s.queue ∧
    (s.completeLane l st).events = s.events ∧ (s.completeLane l st).watches = s.watches := by
  unfold completeLane
  simp

@[simp] theorem handNote_frame (s : State) (l : LaneNo) (i : Index) (x : Word) (n : Nat) :
    (s.handNote l i x n).pending = s.pending ∧ (s.handNote l i x n).choices = s.choices ∧
    (s.handNote l i x n).inReset = s.inReset ∧ (s.handNote l i x n).straps = s.straps ∧
    (s.handNote l i x n).stationNumber = s.stationNumber ∧ (s.handNote l i x n).area = s.area ∧
    (s.handNote l i x n).regions = s.regions ∧ (s.handNote l i x n).staging = s.staging ∧
    (s.handNote l i x n).chain = s.chain ∧ (s.handNote l i x n).p0 = s.p0 ∧ (s.handNote l i x n).p1 = s.p1 ∧
    (s.handNote l i x n).p2 = s.p2 ∧ (s.handNote l i x n).p3 = s.p3 ∧ (s.handNote l i x n).result = s.result ∧
    (s.handNote l i x n).rateCode = s.rateCode ∧ (s.handNote l i x n).irqEnable = s.irqEnable ∧
    (s.handNote l i x n).phase = s.phase ∧ (s.handNote l i x n).flight = s.flight ∧
    (s.handNote l i x n).laneSlots = s.laneSlots ∧ (s.handNote l i x n).placement = s.placement ∧
    (s.handNote l i x n).stationSlot = s.stationSlot ∧ (s.handNote l i x n).stationNext = s.stationNext ∧
    (s.handNote l i x n).imageSlot = s.imageSlot ∧ (s.handNote l i x n).spoilStreak = s.spoilStreak ∧
    (s.handNote l i x n).stationState = s.stationState ∧ (s.handNote l i x n).passCount = s.passCount ∧
    (s.handNote l i x n).window = s.window ∧ (s.handNote l i x n).join = s.join := by
  unfold handNote
  repeat' split
  all_goals simp

@[simp] theorem start_frame (s : State) :
    s.start.pending = s.pending ∧ s.start.choices = s.choices ∧ s.start.inReset = s.inReset ∧
    s.start.straps = s.straps ∧ s.start.stationNumber = s.stationNumber ∧ s.start.area = s.area ∧
    s.start.regions = s.regions ∧ s.start.staging = s.staging ∧ s.start.chain = s.chain ∧ s.start.p0 = s.p0 ∧
    s.start.p1 = s.p1 ∧ s.start.p2 = s.p2 ∧ s.start.p3 = s.p3 ∧ s.start.rateCode = s.rateCode ∧
    s.start.irqEnable = s.irqEnable ∧ s.start.phase = s.phase ∧ s.start.flight = s.flight ∧
    s.start.laneSlots = s.laneSlots ∧ s.start.placement = s.placement ∧ s.start.stationSlot = s.stationSlot ∧
    s.start.stationNext = s.stationNext ∧ s.start.imageSlot = s.imageSlot ∧ s.start.spoilStreak = s.spoilStreak ∧
    s.start.lost = s.lost ∧ s.start.stationState = s.stationState ∧ s.start.passCount = s.passCount ∧
    s.start.window = s.window ∧ s.start.join = s.join ∧ s.start.queue = s.queue ∧ s.start.events = s.events ∧
    s.start.watches = s.watches := by
  unfold start
  repeat' split
  all_goals simp

@[simp] theorem stopLane_frame (s : State) (l : LaneNo) :
    (s.stopLane l).pending = s.pending ∧ (s.stopLane l).inReset = s.inReset ∧ (s.stopLane l).straps = s.straps ∧
    (s.stopLane l).stationNumber = s.stationNumber ∧ (s.stopLane l).area = s.area ∧
    (s.stopLane l).regions = s.regions ∧ (s.stopLane l).staging = s.staging ∧ (s.stopLane l).chain = s.chain ∧
    (s.stopLane l).p0 = s.p0 ∧ (s.stopLane l).p1 = s.p1 ∧ (s.stopLane l).p2 = s.p2 ∧ (s.stopLane l).p3 = s.p3 ∧
    (s.stopLane l).rateCode = s.rateCode ∧ (s.stopLane l).irqEnable = s.irqEnable ∧ (s.stopLane l).phase = s.phase ∧
    (s.stopLane l).flight = s.flight ∧ (s.stopLane l).stationSlot = s.stationSlot ∧
    (s.stopLane l).stationNext = s.stationNext ∧ (s.stopLane l).imageSlot = s.imageSlot ∧
    (s.stopLane l).spoilStreak = s.spoilStreak ∧ (s.stopLane l).stationState = s.stationState ∧
    (s.stopLane l).passCount = s.passCount ∧ (s.stopLane l).window = s.window ∧ (s.stopLane l).join = s.join := by
  unfold stopLane
  repeat' split
  all_goals simp

@[simp] theorem stop_frame (s : State) :
    s.stop.pending = s.pending ∧ s.stop.inReset = s.inReset ∧ s.stop.straps = s.straps ∧
    s.stop.stationNumber = s.stationNumber ∧ s.stop.area = s.area ∧ s.stop.regions = s.regions ∧
    s.stop.staging = s.staging ∧ s.stop.chain = s.chain ∧ s.stop.p0 = s.p0 ∧ s.stop.p1 = s.p1 ∧ s.stop.p2 = s.p2 ∧
    s.stop.p3 = s.p3 ∧ s.stop.rateCode = s.rateCode ∧ s.stop.irqEnable = s.irqEnable ∧ s.stop.phase = s.phase ∧
    s.stop.flight = s.flight ∧ s.stop.stationSlot = s.stationSlot ∧ s.stop.stationNext = s.stationNext ∧
    s.stop.imageSlot = s.imageSlot ∧ s.stop.spoilStreak = s.spoilStreak ∧ s.stop.stationState = s.stationState ∧
    s.stop.passCount = s.passCount ∧ s.stop.window = s.window ∧ s.stop.join = s.join := by
  unfold stop
  repeat' split
  all_goals simp

@[simp] theorem waitTimeout_frame (s : State) (l : LaneNo) :
    (s.waitTimeout l).pending = s.pending ∧ (s.waitTimeout l).inReset = s.inReset ∧
    (s.waitTimeout l).straps = s.straps ∧ (s.waitTimeout l).stationNumber = s.stationNumber ∧
    (s.waitTimeout l).area = s.area ∧ (s.waitTimeout l).regions = s.regions ∧ (s.waitTimeout l).staging = s.staging ∧
    (s.waitTimeout l).chain = s.chain ∧ (s.waitTimeout l).p0 = s.p0 ∧ (s.waitTimeout l).p1 = s.p1 ∧
    (s.waitTimeout l).p2 = s.p2 ∧ (s.waitTimeout l).p3 = s.p3 ∧ (s.waitTimeout l).result = s.result ∧
    (s.waitTimeout l).rateCode = s.rateCode ∧ (s.waitTimeout l).irqEnable = s.irqEnable ∧
    (s.waitTimeout l).phase = s.phase ∧ (s.waitTimeout l).flight = s.flight ∧
    (s.waitTimeout l).laneSlots = s.laneSlots ∧ (s.waitTimeout l).placement = s.placement ∧
    (s.waitTimeout l).stationSlot = s.stationSlot ∧ (s.waitTimeout l).stationNext = s.stationNext ∧
    (s.waitTimeout l).imageSlot = s.imageSlot ∧ (s.waitTimeout l).spoilStreak = s.spoilStreak ∧
    (s.waitTimeout l).stationState = s.stationState ∧ (s.waitTimeout l).passCount = s.passCount ∧
    (s.waitTimeout l).window = s.window ∧ (s.waitTimeout l).join = s.join := by
  unfold waitTimeout
  repeat' split
  all_goals simp

@[simp] theorem tick_frame (s : State) :
    s.tick.pending = s.pending ∧ s.tick.choices = s.choices ∧ s.tick.inReset = s.inReset ∧ s.tick.straps = s.straps ∧
    s.tick.stationNumber = s.stationNumber ∧ s.tick.area = s.area ∧ s.tick.regions = s.regions ∧
    s.tick.staging = s.staging ∧ s.tick.chain = s.chain ∧ s.tick.p0 = s.p0 ∧ s.tick.p1 = s.p1 ∧ s.tick.p2 = s.p2 ∧
    s.tick.p3 = s.p3 ∧ s.tick.result = s.result ∧ s.tick.rateCode = s.rateCode ∧ s.tick.irqEnable = s.irqEnable ∧
    s.tick.phase = s.phase ∧ s.tick.flight = s.flight ∧ s.tick.laneSlots = s.laneSlots ∧
    s.tick.placement = s.placement ∧ s.tick.stationSlot = s.stationSlot ∧ s.tick.stationNext = s.stationNext ∧
    s.tick.imageSlot = s.imageSlot ∧ s.tick.spoilStreak = s.spoilStreak ∧ s.tick.lost = s.lost ∧
    s.tick.stationState = s.stationState ∧ s.tick.passCount = s.passCount ∧ s.tick.join = s.join ∧
    s.tick.queue = s.queue ∧ s.tick.events = s.events ∧ s.tick.watches = s.watches := by
  unfold tick
  simp

@[simp] theorem applyUpdate_frame (s : State) (x : Station) (r : RegionNo) (k : Nat) (d : List Byte) :
    (s.applyUpdate x r k d).pending = s.pending ∧ (s.applyUpdate x r k d).choices = s.choices ∧
    (s.applyUpdate x r k d).inReset = s.inReset ∧ (s.applyUpdate x r k d).straps = s.straps ∧
    (s.applyUpdate x r k d).stationNumber = s.stationNumber ∧ (s.applyUpdate x r k d).staging = s.staging ∧
    (s.applyUpdate x r k d).chain = s.chain ∧ (s.applyUpdate x r k d).p0 = s.p0 ∧ (s.applyUpdate x r k d).p1 = s.p1 ∧
    (s.applyUpdate x r k d).p2 = s.p2 ∧ (s.applyUpdate x r k d).p3 = s.p3 ∧
    (s.applyUpdate x r k d).result = s.result ∧ (s.applyUpdate x r k d).rateCode = s.rateCode ∧
    (s.applyUpdate x r k d).irqEnable = s.irqEnable ∧ (s.applyUpdate x r k d).phase = s.phase ∧
    (s.applyUpdate x r k d).flight = s.flight ∧ (s.applyUpdate x r k d).laneSlots = s.laneSlots ∧
    (s.applyUpdate x r k d).placement = s.placement ∧ (s.applyUpdate x r k d).stationSlot = s.stationSlot ∧
    (s.applyUpdate x r k d).stationNext = s.stationNext ∧ (s.applyUpdate x r k d).imageSlot = s.imageSlot ∧
    (s.applyUpdate x r k d).spoilStreak = s.spoilStreak ∧ (s.applyUpdate x r k d).lost = s.lost ∧
    (s.applyUpdate x r k d).stationState = s.stationState ∧ (s.applyUpdate x r k d).passCount = s.passCount ∧
    (s.applyUpdate x r k d).window = s.window ∧ (s.applyUpdate x r k d).join = s.join ∧
    (s.applyUpdate x r k d).queue = s.queue ∧ (s.applyUpdate x r k d).events = s.events := by
  unfold applyUpdate
  repeat' split
  all_goals simp

@[simp] theorem moveImageSlot_frame (s : State) :
    s.moveImageSlot.pending = s.pending ∧ s.moveImageSlot.choices = s.choices ∧ s.moveImageSlot.inReset = s.inReset ∧
    s.moveImageSlot.straps = s.straps ∧ s.moveImageSlot.stationNumber = s.stationNumber ∧
    s.moveImageSlot.area = s.area ∧ s.moveImageSlot.regions = s.regions ∧ s.moveImageSlot.staging = s.staging ∧
    s.moveImageSlot.chain = s.chain ∧ s.moveImageSlot.p0 = s.p0 ∧ s.moveImageSlot.p1 = s.p1 ∧
    s.moveImageSlot.p2 = s.p2 ∧ s.moveImageSlot.p3 = s.p3 ∧ s.moveImageSlot.result = s.result ∧
    s.moveImageSlot.rateCode = s.rateCode ∧ s.moveImageSlot.irqEnable = s.irqEnable ∧
    s.moveImageSlot.phase = s.phase ∧ s.moveImageSlot.flight = s.flight ∧ s.moveImageSlot.laneSlots = s.laneSlots ∧
    s.moveImageSlot.placement = s.placement ∧ s.moveImageSlot.stationSlot = s.stationSlot ∧
    s.moveImageSlot.stationNext = s.stationNext ∧ s.moveImageSlot.spoilStreak = s.spoilStreak ∧
    s.moveImageSlot.lost = s.lost ∧ s.moveImageSlot.stationState = s.stationState ∧
    s.moveImageSlot.passCount = s.passCount ∧ s.moveImageSlot.window = s.window ∧ s.moveImageSlot.join = s.join ∧
    s.moveImageSlot.lanes = s.lanes ∧ s.moveImageSlot.queue = s.queue ∧ s.moveImageSlot.events = s.events ∧
    s.moveImageSlot.watches = s.watches := by
  unfold moveImageSlot
  repeat' split
  all_goals simp

@[simp] theorem syncImageSlot_frame (s : State) :
    s.syncImageSlot.pending = s.pending ∧ s.syncImageSlot.choices = s.choices ∧ s.syncImageSlot.inReset = s.inReset ∧
    s.syncImageSlot.straps = s.straps ∧ s.syncImageSlot.stationNumber = s.stationNumber ∧
    s.syncImageSlot.area = s.area ∧ s.syncImageSlot.regions = s.regions ∧ s.syncImageSlot.staging = s.staging ∧
    s.syncImageSlot.chain = s.chain ∧ s.syncImageSlot.p0 = s.p0 ∧ s.syncImageSlot.p1 = s.p1 ∧
    s.syncImageSlot.p2 = s.p2 ∧ s.syncImageSlot.p3 = s.p3 ∧ s.syncImageSlot.result = s.result ∧
    s.syncImageSlot.rateCode = s.rateCode ∧ s.syncImageSlot.irqEnable = s.irqEnable ∧
    s.syncImageSlot.phase = s.phase ∧ s.syncImageSlot.flight = s.flight ∧ s.syncImageSlot.laneSlots = s.laneSlots ∧
    s.syncImageSlot.placement = s.placement ∧ s.syncImageSlot.stationSlot = s.stationSlot ∧
    s.syncImageSlot.stationNext = s.stationNext ∧ s.syncImageSlot.spoilStreak = s.spoilStreak ∧
    s.syncImageSlot.lost = s.lost ∧ s.syncImageSlot.stationState = s.stationState ∧
    s.syncImageSlot.passCount = s.passCount ∧ s.syncImageSlot.window = s.window ∧ s.syncImageSlot.join = s.join ∧
    s.syncImageSlot.lanes = s.lanes ∧ s.syncImageSlot.queue = s.queue ∧ s.syncImageSlot.events = s.events ∧
    s.syncImageSlot.watches = s.watches := by
  unfold syncImageSlot
  repeat' split
  all_goals simp

@[simp] theorem dropResponse_frame (s : State) (r : RegionNo) :
    (s.dropResponse r).pending = s.pending ∧ (s.dropResponse r).choices = s.choices ∧
    (s.dropResponse r).inReset = s.inReset ∧ (s.dropResponse r).straps = s.straps ∧
    (s.dropResponse r).stationNumber = s.stationNumber ∧ (s.dropResponse r).area = s.area ∧
    (s.dropResponse r).staging = s.staging ∧ (s.dropResponse r).chain = s.chain ∧ (s.dropResponse r).p0 = s.p0 ∧
    (s.dropResponse r).p1 = s.p1 ∧ (s.dropResponse r).p2 = s.p2 ∧ (s.dropResponse r).p3 = s.p3 ∧
    (s.dropResponse r).result = s.result ∧ (s.dropResponse r).rateCode = s.rateCode ∧
    (s.dropResponse r).irqEnable = s.irqEnable ∧ (s.dropResponse r).phase = s.phase ∧
    (s.dropResponse r).flight = s.flight ∧ (s.dropResponse r).laneSlots = s.laneSlots ∧
    (s.dropResponse r).placement = s.placement ∧ (s.dropResponse r).stationSlot = s.stationSlot ∧
    (s.dropResponse r).stationNext = s.stationNext ∧ (s.dropResponse r).spoilStreak = s.spoilStreak ∧
    (s.dropResponse r).lost = s.lost ∧ (s.dropResponse r).stationState = s.stationState ∧
    (s.dropResponse r).passCount = s.passCount ∧ (s.dropResponse r).window = s.window ∧
    (s.dropResponse r).join = s.join ∧ (s.dropResponse r).lanes = s.lanes ∧ (s.dropResponse r).queue = s.queue ∧
    (s.dropResponse r).events = s.events ∧ (s.dropResponse r).watches = s.watches := by
  unfold dropResponse
  simp

@[simp] theorem addResponses_frame (s : State) (a b : Nat) :
    (s.addResponses a b).pending = s.pending ∧ (s.addResponses a b).choices = s.choices ∧
    (s.addResponses a b).inReset = s.inReset ∧ (s.addResponses a b).straps = s.straps ∧
    (s.addResponses a b).stationNumber = s.stationNumber ∧ (s.addResponses a b).area = s.area ∧
    (s.addResponses a b).staging = s.staging ∧ (s.addResponses a b).chain = s.chain ∧ (s.addResponses a b).p0 = s.p0 ∧
    (s.addResponses a b).p1 = s.p1 ∧ (s.addResponses a b).p2 = s.p2 ∧ (s.addResponses a b).p3 = s.p3 ∧
    (s.addResponses a b).result = s.result ∧ (s.addResponses a b).rateCode = s.rateCode ∧
    (s.addResponses a b).irqEnable = s.irqEnable ∧ (s.addResponses a b).phase = s.phase ∧
    (s.addResponses a b).flight = s.flight ∧ (s.addResponses a b).laneSlots = s.laneSlots ∧
    (s.addResponses a b).placement = s.placement ∧ (s.addResponses a b).stationSlot = s.stationSlot ∧
    (s.addResponses a b).stationNext = s.stationNext ∧ (s.addResponses a b).spoilStreak = s.spoilStreak ∧
    (s.addResponses a b).lost = s.lost ∧ (s.addResponses a b).stationState = s.stationState ∧
    (s.addResponses a b).passCount = s.passCount ∧ (s.addResponses a b).window = s.window ∧
    (s.addResponses a b).join = s.join ∧ (s.addResponses a b).lanes = s.lanes ∧ (s.addResponses a b).queue = s.queue ∧
    (s.addResponses a b).events = s.events ∧ (s.addResponses a b).watches = s.watches := by
  unfold addResponses
  simp

@[simp] theorem installImage_frame (s : State) (r : RegionNo) (o : Option Station) (c : Word) (d : List Byte) :
    (s.installImage r o c d).pending = s.pending ∧ (s.installImage r o c d).choices = s.choices ∧
    (s.installImage r o c d).inReset = s.inReset ∧ (s.installImage r o c d).straps = s.straps ∧
    (s.installImage r o c d).stationNumber = s.stationNumber ∧ (s.installImage r o c d).staging = s.staging ∧
    (s.installImage r o c d).chain = s.chain ∧ (s.installImage r o c d).p0 = s.p0 ∧
    (s.installImage r o c d).p1 = s.p1 ∧ (s.installImage r o c d).p2 = s.p2 ∧ (s.installImage r o c d).p3 = s.p3 ∧
    (s.installImage r o c d).result = s.result ∧ (s.installImage r o c d).rateCode = s.rateCode ∧
    (s.installImage r o c d).irqEnable = s.irqEnable ∧ (s.installImage r o c d).phase = s.phase ∧
    (s.installImage r o c d).flight = s.flight ∧ (s.installImage r o c d).laneSlots = s.laneSlots ∧
    (s.installImage r o c d).placement = s.placement ∧ (s.installImage r o c d).stationSlot = s.stationSlot ∧
    (s.installImage r o c d).stationNext = s.stationNext ∧ (s.installImage r o c d).imageSlot = s.imageSlot ∧
    (s.installImage r o c d).spoilStreak = s.spoilStreak ∧ (s.installImage r o c d).lost = s.lost ∧
    (s.installImage r o c d).stationState = s.stationState ∧ (s.installImage r o c d).passCount = s.passCount ∧
    (s.installImage r o c d).window = s.window ∧ (s.installImage r o c d).join = s.join ∧
    (s.installImage r o c d).queue = s.queue ∧ (s.installImage r o c d).events = s.events := by
  unfold installImage
  simp

@[simp] theorem declareOrphans_frame (s : State) :
    s.declareOrphans.pending = s.pending ∧ s.declareOrphans.choices = s.choices ∧
    s.declareOrphans.inReset = s.inReset ∧ s.declareOrphans.straps = s.straps ∧
    s.declareOrphans.stationNumber = s.stationNumber ∧ s.declareOrphans.staging = s.staging ∧
    s.declareOrphans.chain = s.chain ∧ s.declareOrphans.p0 = s.p0 ∧ s.declareOrphans.p1 = s.p1 ∧
    s.declareOrphans.p2 = s.p2 ∧ s.declareOrphans.p3 = s.p3 ∧ s.declareOrphans.result = s.result ∧
    s.declareOrphans.rateCode = s.rateCode ∧ s.declareOrphans.irqEnable = s.irqEnable ∧
    s.declareOrphans.phase = s.phase ∧ s.declareOrphans.flight = s.flight ∧ s.declareOrphans.laneSlots = s.laneSlots ∧
    s.declareOrphans.placement = s.placement ∧ s.declareOrphans.stationSlot = s.stationSlot ∧
    s.declareOrphans.stationNext = s.stationNext ∧ s.declareOrphans.imageSlot = s.imageSlot ∧
    s.declareOrphans.spoilStreak = s.spoilStreak ∧ s.declareOrphans.lost = s.lost ∧
    s.declareOrphans.stationState = s.stationState ∧ s.declareOrphans.passCount = s.passCount ∧
    s.declareOrphans.window = s.window ∧ s.declareOrphans.join = s.join ∧ s.declareOrphans.queue = s.queue ∧
    s.declareOrphans.events = s.events := by
  unfold declareOrphans
  refine ⟨?_, ?_, ?_, ?_, ?_, ?_, ?_, ?_, ?_, ?_, ?_, ?_, ?_, ?_, ?_, ?_, ?_, ?_, ?_, ?_, ?_, ?_, ?_, ?_, ?_, ?_, ?_, ?_, ?_⟩
  · rw [foldl_keeps State.pending _ (fun t r => by simp)]
    simp only [mapRegions_other]
    exact foldl_keeps State.pending _ (fun t r => by simp) _ _
  · rw [foldl_keeps State.choices _ (fun t r => by simp)]
    simp only [mapRegions_other]
    exact foldl_keeps State.choices _ (fun t r => by simp) _ _
  · rw [foldl_keeps State.inReset _ (fun t r => by simp)]
    simp only [mapRegions_other]
    exact foldl_keeps State.inReset _ (fun t r => by simp) _ _
  · rw [foldl_keeps State.straps _ (fun t r => by simp)]
    simp only [mapRegions_other]
    exact foldl_keeps State.straps _ (fun t r => by simp) _ _
  · rw [foldl_keeps State.stationNumber _ (fun t r => by simp)]
    simp only [mapRegions_other]
    exact foldl_keeps State.stationNumber _ (fun t r => by simp) _ _
  · rw [foldl_keeps State.staging _ (fun t r => by simp)]
    simp only [mapRegions_other]
    exact foldl_keeps State.staging _ (fun t r => by simp) _ _
  · rw [foldl_keeps State.chain _ (fun t r => by simp)]
    simp only [mapRegions_other]
    exact foldl_keeps State.chain _ (fun t r => by simp) _ _
  · rw [foldl_keeps State.p0 _ (fun t r => by simp)]
    simp only [mapRegions_other]
    exact foldl_keeps State.p0 _ (fun t r => by simp) _ _
  · rw [foldl_keeps State.p1 _ (fun t r => by simp)]
    simp only [mapRegions_other]
    exact foldl_keeps State.p1 _ (fun t r => by simp) _ _
  · rw [foldl_keeps State.p2 _ (fun t r => by simp)]
    simp only [mapRegions_other]
    exact foldl_keeps State.p2 _ (fun t r => by simp) _ _
  · rw [foldl_keeps State.p3 _ (fun t r => by simp)]
    simp only [mapRegions_other]
    exact foldl_keeps State.p3 _ (fun t r => by simp) _ _
  · rw [foldl_keeps State.result _ (fun t r => by simp)]
    simp only [mapRegions_other]
    exact foldl_keeps State.result _ (fun t r => by simp) _ _
  · rw [foldl_keeps State.rateCode _ (fun t r => by simp)]
    simp only [mapRegions_other]
    exact foldl_keeps State.rateCode _ (fun t r => by simp) _ _
  · rw [foldl_keeps State.irqEnable _ (fun t r => by simp)]
    simp only [mapRegions_other]
    exact foldl_keeps State.irqEnable _ (fun t r => by simp) _ _
  · rw [foldl_keeps State.phase _ (fun t r => by simp)]
    simp only [mapRegions_other]
    exact foldl_keeps State.phase _ (fun t r => by simp) _ _
  · rw [foldl_keeps State.flight _ (fun t r => by simp)]
    simp only [mapRegions_other]
    exact foldl_keeps State.flight _ (fun t r => by simp) _ _
  · rw [foldl_keeps State.laneSlots _ (fun t r => by simp)]
    simp only [mapRegions_other]
    exact foldl_keeps State.laneSlots _ (fun t r => by simp) _ _
  · rw [foldl_keeps State.placement _ (fun t r => by simp)]
    simp only [mapRegions_other]
    exact foldl_keeps State.placement _ (fun t r => by simp) _ _
  · rw [foldl_keeps State.stationSlot _ (fun t r => by simp)]
    simp only [mapRegions_other]
    exact foldl_keeps State.stationSlot _ (fun t r => by simp) _ _
  · rw [foldl_keeps State.stationNext _ (fun t r => by simp)]
    simp only [mapRegions_other]
    exact foldl_keeps State.stationNext _ (fun t r => by simp) _ _
  · rw [foldl_keeps State.imageSlot _ (fun t r => by simp)]
    simp only [mapRegions_other]
    exact foldl_keeps State.imageSlot _ (fun t r => by simp) _ _
  · rw [foldl_keeps State.spoilStreak _ (fun t r => by simp)]
    simp only [mapRegions_other]
    exact foldl_keeps State.spoilStreak _ (fun t r => by simp) _ _
  · rw [foldl_keeps State.lost _ (fun t r => by simp)]
    simp only [mapRegions_other]
    exact foldl_keeps State.lost _ (fun t r => by simp) _ _
  · rw [foldl_keeps State.stationState _ (fun t r => by simp)]
    simp only [mapRegions_other]
    exact foldl_keeps State.stationState _ (fun t r => by simp) _ _
  · rw [foldl_keeps State.passCount _ (fun t r => by simp)]
    simp only [mapRegions_other]
    exact foldl_keeps State.passCount _ (fun t r => by simp) _ _
  · rw [foldl_keeps State.window _ (fun t r => by simp)]
    simp only [mapRegions_other]
    exact foldl_keeps State.window _ (fun t r => by simp) _ _
  · rw [foldl_keeps State.join _ (fun t r => by simp)]
    simp only [mapRegions_other]
    exact foldl_keeps State.join _ (fun t r => by simp) _ _
  · rw [foldl_keeps State.queue _ (fun t r => by simp)]
    simp only [mapRegions_other]
    exact foldl_keeps State.queue _ (fun t r => by simp) _ _
  · rw [foldl_keeps State.events _ (fun t r => by simp)]
    simp only [mapRegions_other]
    exact foldl_keeps State.events _ (fun t r => by simp) _ _

@[simp] theorem loseRegions_frame (s : State) :
    s.loseRegions.pending = s.pending ∧ s.loseRegions.choices = s.choices ∧ s.loseRegions.inReset = s.inReset ∧
    s.loseRegions.straps = s.straps ∧ s.loseRegions.stationNumber = s.stationNumber ∧ s.loseRegions.area = s.area ∧
    s.loseRegions.staging = s.staging ∧ s.loseRegions.chain = s.chain ∧ s.loseRegions.p0 = s.p0 ∧
    s.loseRegions.p1 = s.p1 ∧ s.loseRegions.p2 = s.p2 ∧ s.loseRegions.p3 = s.p3 ∧ s.loseRegions.result = s.result ∧
    s.loseRegions.rateCode = s.rateCode ∧ s.loseRegions.irqEnable = s.irqEnable ∧ s.loseRegions.phase = s.phase ∧
    s.loseRegions.flight = s.flight ∧ s.loseRegions.laneSlots = s.laneSlots ∧ s.loseRegions.placement = s.placement ∧
    s.loseRegions.stationSlot = s.stationSlot ∧ s.loseRegions.stationNext = s.stationNext ∧
    s.loseRegions.spoilStreak = s.spoilStreak ∧ s.loseRegions.lost = s.lost ∧
    s.loseRegions.stationState = s.stationState ∧ s.loseRegions.passCount = s.passCount ∧
    s.loseRegions.window = s.window ∧ s.loseRegions.join = s.join ∧ s.loseRegions.lanes = s.lanes ∧
    s.loseRegions.queue = s.queue ∧ s.loseRegions.events = s.events ∧ s.loseRegions.watches = s.watches := by
  unfold loseRegions
  simp

@[simp] theorem setGuards_frame (s : State) (b : Bool) :
    (s.setGuards b).pending = s.pending ∧ (s.setGuards b).choices = s.choices ∧ (s.setGuards b).inReset = s.inReset ∧
    (s.setGuards b).straps = s.straps ∧ (s.setGuards b).stationNumber = s.stationNumber ∧
    (s.setGuards b).area = s.area ∧ (s.setGuards b).staging = s.staging ∧ (s.setGuards b).chain = s.chain ∧
    (s.setGuards b).p0 = s.p0 ∧ (s.setGuards b).p1 = s.p1 ∧ (s.setGuards b).p2 = s.p2 ∧ (s.setGuards b).p3 = s.p3 ∧
    (s.setGuards b).rateCode = s.rateCode ∧ (s.setGuards b).irqEnable = s.irqEnable ∧
    (s.setGuards b).phase = s.phase ∧ (s.setGuards b).flight = s.flight ∧ (s.setGuards b).laneSlots = s.laneSlots ∧
    (s.setGuards b).placement = s.placement ∧ (s.setGuards b).stationSlot = s.stationSlot ∧
    (s.setGuards b).stationNext = s.stationNext ∧ (s.setGuards b).imageSlot = s.imageSlot ∧
    (s.setGuards b).spoilStreak = s.spoilStreak ∧ (s.setGuards b).lost = s.lost ∧
    (s.setGuards b).stationState = s.stationState ∧ (s.setGuards b).passCount = s.passCount ∧
    (s.setGuards b).window = s.window ∧ (s.setGuards b).join = s.join ∧ (s.setGuards b).lanes = s.lanes ∧
    (s.setGuards b).queue = s.queue ∧ (s.setGuards b).events = s.events ∧ (s.setGuards b).watches = s.watches := by
  unfold setGuards
  repeat' split
  all_goals simp

@[simp] theorem placeStation_frame (s : State) (f : StationFrame) :
    (s.placeStation f).pending = s.pending ∧ (s.placeStation f).choices = s.choices ∧
    (s.placeStation f).inReset = s.inReset ∧ (s.placeStation f).straps = s.straps ∧
    (s.placeStation f).stationNumber = s.stationNumber ∧ (s.placeStation f).area = s.area ∧
    (s.placeStation f).regions = s.regions ∧ (s.placeStation f).staging = s.staging ∧
    (s.placeStation f).chain = s.chain ∧ (s.placeStation f).p0 = s.p0 ∧ (s.placeStation f).p1 = s.p1 ∧
    (s.placeStation f).p2 = s.p2 ∧ (s.placeStation f).p3 = s.p3 ∧ (s.placeStation f).result = s.result ∧
    (s.placeStation f).rateCode = s.rateCode ∧ (s.placeStation f).irqEnable = s.irqEnable ∧
    (s.placeStation f).phase = s.phase ∧ (s.placeStation f).flight = s.flight ∧
    (s.placeStation f).laneSlots = s.laneSlots ∧ (s.placeStation f).placement = s.placement ∧
    (s.placeStation f).imageSlot = s.imageSlot ∧ (s.placeStation f).spoilStreak = s.spoilStreak ∧
    (s.placeStation f).lost = s.lost ∧ (s.placeStation f).stationState = s.stationState ∧
    (s.placeStation f).passCount = s.passCount ∧ (s.placeStation f).window = s.window ∧
    (s.placeStation f).join = s.join ∧ (s.placeStation f).lanes = s.lanes ∧ (s.placeStation f).queue = s.queue ∧
    (s.placeStation f).events = s.events ∧ (s.placeStation f).watches = s.watches := by
  unfold placeStation
  repeat' split
  all_goals simp

@[simp] theorem placeAsk_frame (s : State) (p : RegionNo → Bool) :
    (s.placeAsk p).pending = s.pending ∧ (s.placeAsk p).choices = s.choices ∧ (s.placeAsk p).inReset = s.inReset ∧
    (s.placeAsk p).straps = s.straps ∧ (s.placeAsk p).stationNumber = s.stationNumber ∧ (s.placeAsk p).area = s.area ∧
    (s.placeAsk p).regions = s.regions ∧ (s.placeAsk p).staging = s.staging ∧ (s.placeAsk p).chain = s.chain ∧
    (s.placeAsk p).p0 = s.p0 ∧ (s.placeAsk p).p1 = s.p1 ∧ (s.placeAsk p).p2 = s.p2 ∧ (s.placeAsk p).p3 = s.p3 ∧
    (s.placeAsk p).result = s.result ∧ (s.placeAsk p).rateCode = s.rateCode ∧ (s.placeAsk p).irqEnable = s.irqEnable ∧
    (s.placeAsk p).phase = s.phase ∧ (s.placeAsk p).flight = s.flight ∧ (s.placeAsk p).laneSlots = s.laneSlots ∧
    (s.placeAsk p).placement = s.placement ∧ (s.placeAsk p).imageSlot = s.imageSlot ∧
    (s.placeAsk p).spoilStreak = s.spoilStreak ∧ (s.placeAsk p).lost = s.lost ∧
    (s.placeAsk p).stationState = s.stationState ∧ (s.placeAsk p).passCount = s.passCount ∧
    (s.placeAsk p).window = s.window ∧ (s.placeAsk p).join = s.join ∧ (s.placeAsk p).lanes = s.lanes ∧
    (s.placeAsk p).queue = s.queue ∧ (s.placeAsk p).events = s.events ∧ (s.placeAsk p).watches = s.watches := by
  unfold placeAsk
  repeat' split
  all_goals simp

@[simp] theorem joiningEntry_frame (s : State) :
    s.joiningEntry.pending = s.pending ∧ s.joiningEntry.choices = s.choices ∧ s.joiningEntry.inReset = s.inReset ∧
    s.joiningEntry.straps = s.straps ∧ s.joiningEntry.stationNumber = s.stationNumber ∧ s.joiningEntry.area = s.area ∧
    s.joiningEntry.regions = s.regions ∧ s.joiningEntry.staging = s.staging ∧ s.joiningEntry.chain = s.chain ∧
    s.joiningEntry.p0 = s.p0 ∧ s.joiningEntry.p1 = s.p1 ∧ s.joiningEntry.p2 = s.p2 ∧ s.joiningEntry.p3 = s.p3 ∧
    s.joiningEntry.result = s.result ∧ s.joiningEntry.rateCode = s.rateCode ∧ s.joiningEntry.irqEnable = s.irqEnable ∧
    s.joiningEntry.phase = s.phase ∧ s.joiningEntry.flight = s.flight ∧ s.joiningEntry.laneSlots = s.laneSlots ∧
    s.joiningEntry.placement = s.placement ∧ s.joiningEntry.imageSlot = s.imageSlot ∧ s.joiningEntry.lost = s.lost ∧
    s.joiningEntry.lanes = s.lanes ∧ s.joiningEntry.queue = s.queue ∧ s.joiningEntry.events = s.events ∧
    s.joiningEntry.watches = s.watches := by
  unfold joiningEntry
  simp

@[simp] theorem driftFlush_frame (s : State) :
    s.driftFlush.pending = s.pending ∧ s.driftFlush.inReset = s.inReset ∧ s.driftFlush.straps = s.straps ∧
    s.driftFlush.stationNumber = s.stationNumber ∧ s.driftFlush.area = s.area ∧ s.driftFlush.staging = s.staging ∧
    s.driftFlush.chain = s.chain ∧ s.driftFlush.p0 = s.p0 ∧ s.driftFlush.p1 = s.p1 ∧ s.driftFlush.p2 = s.p2 ∧
    s.driftFlush.p3 = s.p3 ∧ s.driftFlush.result = s.result ∧ s.driftFlush.rateCode = s.rateCode ∧
    s.driftFlush.irqEnable = s.irqEnable ∧ s.driftFlush.phase = s.phase ∧ s.driftFlush.spoilStreak = s.spoilStreak ∧
    s.driftFlush.stationState = s.stationState := by
  unfold driftFlush
  simp

@[simp] theorem adriftEntry_frame (s : State) (c : DriftCause) :
    (s.adriftEntry c).pending = s.pending ∧ (s.adriftEntry c).inReset = s.inReset ∧
    (s.adriftEntry c).straps = s.straps ∧ (s.adriftEntry c).stationNumber = s.stationNumber ∧
    (s.adriftEntry c).area = s.area ∧ (s.adriftEntry c).staging = s.staging ∧ (s.adriftEntry c).chain = s.chain ∧
    (s.adriftEntry c).p0 = s.p0 ∧ (s.adriftEntry c).p1 = s.p1 ∧ (s.adriftEntry c).p2 = s.p2 ∧
    (s.adriftEntry c).p3 = s.p3 ∧ (s.adriftEntry c).result = s.result ∧ (s.adriftEntry c).rateCode = s.rateCode ∧
    (s.adriftEntry c).irqEnable = s.irqEnable ∧ (s.adriftEntry c).phase = s.phase ∧
    (s.adriftEntry c).spoilStreak = s.spoilStreak := by
  unfold adriftEntry
  simp

@[simp] theorem haltedEntry_frame (s : State) :
    s.haltedEntry.pending = s.pending ∧ s.haltedEntry.inReset = s.inReset ∧ s.haltedEntry.straps = s.straps ∧
    s.haltedEntry.stationNumber = s.stationNumber ∧ s.haltedEntry.area = s.area ∧ s.haltedEntry.staging = s.staging ∧
    s.haltedEntry.chain = s.chain ∧ s.haltedEntry.p0 = s.p0 ∧ s.haltedEntry.p1 = s.p1 ∧ s.haltedEntry.p2 = s.p2 ∧
    s.haltedEntry.p3 = s.p3 ∧ s.haltedEntry.result = s.result ∧ s.haltedEntry.rateCode = s.rateCode ∧
    s.haltedEntry.irqEnable = s.irqEnable ∧ s.haltedEntry.spoilStreak = s.spoilStreak := by
  unfold haltedEntry
  simp

@[simp] theorem tryComplete_frame (s : State) (n : Nat) :
    (s.tryComplete n).pending = s.pending ∧ (s.tryComplete n).choices = s.choices ∧
    (s.tryComplete n).inReset = s.inReset ∧ (s.tryComplete n).straps = s.straps ∧
    (s.tryComplete n).stationNumber = s.stationNumber ∧ (s.tryComplete n).area = s.area ∧
    (s.tryComplete n).regions = s.regions ∧ (s.tryComplete n).staging = s.staging ∧
    (s.tryComplete n).chain = s.chain ∧ (s.tryComplete n).p0 = s.p0 ∧ (s.tryComplete n).p1 = s.p1 ∧
    (s.tryComplete n).p2 = s.p2 ∧ (s.tryComplete n).p3 = s.p3 ∧ (s.tryComplete n).result = s.result ∧
    (s.tryComplete n).rateCode = s.rateCode ∧ (s.tryComplete n).irqEnable = s.irqEnable ∧
    (s.tryComplete n).phase = s.phase ∧ (s.tryComplete n).flight = s.flight ∧
    (s.tryComplete n).laneSlots = s.laneSlots ∧ (s.tryComplete n).placement = s.placement ∧
    (s.tryComplete n).stationNext = s.stationNext ∧ (s.tryComplete n).imageSlot = s.imageSlot ∧
    (s.tryComplete n).spoilStreak = s.spoilStreak ∧ (s.tryComplete n).lost = s.lost ∧
    (s.tryComplete n).passCount = s.passCount ∧ (s.tryComplete n).lanes = s.lanes ∧
    (s.tryComplete n).queue = s.queue ∧ (s.tryComplete n).watches = s.watches := by
  unfold tryComplete
  repeat' split
  all_goals simp

@[simp] theorem joinCarried_frame (s : State) :
    s.joinCarried.pending = s.pending ∧ s.joinCarried.choices = s.choices ∧ s.joinCarried.inReset = s.inReset ∧
    s.joinCarried.straps = s.straps ∧ s.joinCarried.stationNumber = s.stationNumber ∧ s.joinCarried.area = s.area ∧
    s.joinCarried.regions = s.regions ∧ s.joinCarried.staging = s.staging ∧ s.joinCarried.chain = s.chain ∧
    s.joinCarried.p0 = s.p0 ∧ s.joinCarried.p1 = s.p1 ∧ s.joinCarried.p2 = s.p2 ∧ s.joinCarried.p3 = s.p3 ∧
    s.joinCarried.result = s.result ∧ s.joinCarried.rateCode = s.rateCode ∧ s.joinCarried.irqEnable = s.irqEnable ∧
    s.joinCarried.phase = s.phase ∧ s.joinCarried.flight = s.flight ∧ s.joinCarried.laneSlots = s.laneSlots ∧
    s.joinCarried.placement = s.placement ∧ s.joinCarried.imageSlot = s.imageSlot ∧
    s.joinCarried.spoilStreak = s.spoilStreak ∧ s.joinCarried.lost = s.lost ∧ s.joinCarried.passCount = s.passCount ∧
    s.joinCarried.lanes = s.lanes ∧ s.joinCarried.queue = s.queue ∧ s.joinCarried.watches = s.watches := by
  unfold joinCarried
  dsimp only
  repeat' split
  all_goals simp

@[simp] theorem refreshRange_frame (s : State) (a b : Nat) :
    (s.refreshRange a b).pending = s.pending ∧ (s.refreshRange a b).choices = s.choices ∧
    (s.refreshRange a b).inReset = s.inReset ∧ (s.refreshRange a b).straps = s.straps ∧
    (s.refreshRange a b).stationNumber = s.stationNumber ∧ (s.refreshRange a b).area = s.area ∧
    (s.refreshRange a b).staging = s.staging ∧ (s.refreshRange a b).chain = s.chain ∧ (s.refreshRange a b).p0 = s.p0 ∧
    (s.refreshRange a b).p1 = s.p1 ∧ (s.refreshRange a b).p2 = s.p2 ∧ (s.refreshRange a b).p3 = s.p3 ∧
    (s.refreshRange a b).result = s.result ∧ (s.refreshRange a b).rateCode = s.rateCode ∧
    (s.refreshRange a b).irqEnable = s.irqEnable ∧ (s.refreshRange a b).phase = s.phase ∧
    (s.refreshRange a b).flight = s.flight ∧ (s.refreshRange a b).laneSlots = s.laneSlots ∧
    (s.refreshRange a b).placement = s.placement ∧ (s.refreshRange a b).stationSlot = s.stationSlot ∧
    (s.refreshRange a b).stationNext = s.stationNext ∧ (s.refreshRange a b).imageSlot = s.imageSlot ∧
    (s.refreshRange a b).spoilStreak = s.spoilStreak ∧ (s.refreshRange a b).lost = s.lost ∧
    (s.refreshRange a b).stationState = s.stationState ∧ (s.refreshRange a b).passCount = s.passCount ∧
    (s.refreshRange a b).window = s.window ∧ (s.refreshRange a b).join = s.join ∧
    (s.refreshRange a b).lanes = s.lanes ∧ (s.refreshRange a b).queue = s.queue ∧
    (s.refreshRange a b).events = s.events ∧ (s.refreshRange a b).watches = s.watches := by
  unfold refreshRange
  simp

@[simp] theorem askCarried_frame (s : State) (a b : Nat) :
    (s.askCarried a b).pending = s.pending ∧ (s.askCarried a b).choices = s.choices ∧
    (s.askCarried a b).inReset = s.inReset ∧ (s.askCarried a b).straps = s.straps ∧
    (s.askCarried a b).stationNumber = s.stationNumber ∧ (s.askCarried a b).area = s.area ∧
    (s.askCarried a b).staging = s.staging ∧ (s.askCarried a b).chain = s.chain ∧ (s.askCarried a b).p0 = s.p0 ∧
    (s.askCarried a b).p1 = s.p1 ∧ (s.askCarried a b).p2 = s.p2 ∧ (s.askCarried a b).p3 = s.p3 ∧
    (s.askCarried a b).result = s.result ∧ (s.askCarried a b).rateCode = s.rateCode ∧
    (s.askCarried a b).irqEnable = s.irqEnable ∧ (s.askCarried a b).phase = s.phase ∧
    (s.askCarried a b).flight = s.flight ∧ (s.askCarried a b).laneSlots = s.laneSlots ∧
    (s.askCarried a b).placement = s.placement ∧ (s.askCarried a b).stationNext = s.stationNext ∧
    (s.askCarried a b).imageSlot = s.imageSlot ∧ (s.askCarried a b).spoilStreak = s.spoilStreak ∧
    (s.askCarried a b).lost = s.lost ∧ (s.askCarried a b).passCount = s.passCount ∧
    (s.askCarried a b).lanes = s.lanes ∧ (s.askCarried a b).queue = s.queue ∧
    (s.askCarried a b).watches = s.watches := by
  unfold askCarried
  dsimp only
  repeat' split
  all_goals simp

@[simp] theorem thirdPassEnd_frame (s : State) :
    s.thirdPassEnd.pending = s.pending ∧ s.thirdPassEnd.inReset = s.inReset ∧ s.thirdPassEnd.straps = s.straps ∧
    s.thirdPassEnd.stationNumber = s.stationNumber ∧ s.thirdPassEnd.staging = s.staging ∧
    s.thirdPassEnd.chain = s.chain ∧ s.thirdPassEnd.p0 = s.p0 ∧ s.thirdPassEnd.p1 = s.p1 ∧ s.thirdPassEnd.p2 = s.p2 ∧
    s.thirdPassEnd.p3 = s.p3 ∧ s.thirdPassEnd.result = s.result ∧ s.thirdPassEnd.rateCode = s.rateCode ∧
    s.thirdPassEnd.irqEnable = s.irqEnable ∧ s.thirdPassEnd.phase = s.phase ∧
    s.thirdPassEnd.spoilStreak = s.spoilStreak := by
  unfold thirdPassEnd
  repeat' split
  all_goals simp

@[simp] theorem windowExpiry_frame (s : State) :
    s.windowExpiry.pending = s.pending ∧ s.windowExpiry.inReset = s.inReset ∧ s.windowExpiry.straps = s.straps ∧
    s.windowExpiry.stationNumber = s.stationNumber ∧ s.windowExpiry.staging = s.staging ∧
    s.windowExpiry.chain = s.chain ∧ s.windowExpiry.p0 = s.p0 ∧ s.windowExpiry.p1 = s.p1 ∧ s.windowExpiry.p2 = s.p2 ∧
    s.windowExpiry.p3 = s.p3 ∧ s.windowExpiry.result = s.result ∧ s.windowExpiry.rateCode = s.rateCode ∧
    s.windowExpiry.irqEnable = s.irqEnable ∧ s.windowExpiry.phase = s.phase ∧
    s.windowExpiry.spoilStreak = s.spoilStreak := by
  unfold windowExpiry
  dsimp only
  repeat' split
  all_goals simp

@[simp] theorem askAbandoned_frame (s : State) :
    s.askAbandoned.pending = s.pending ∧ s.askAbandoned.inReset = s.inReset ∧ s.askAbandoned.straps = s.straps ∧
    s.askAbandoned.stationNumber = s.stationNumber ∧ s.askAbandoned.staging = s.staging ∧
    s.askAbandoned.chain = s.chain ∧ s.askAbandoned.p0 = s.p0 ∧ s.askAbandoned.p1 = s.p1 ∧ s.askAbandoned.p2 = s.p2 ∧
    s.askAbandoned.p3 = s.p3 ∧ s.askAbandoned.result = s.result ∧ s.askAbandoned.rateCode = s.rateCode ∧
    s.askAbandoned.irqEnable = s.irqEnable ∧ s.askAbandoned.phase = s.phase ∧
    s.askAbandoned.spoilStreak = s.spoilStreak := by
  unfold askAbandoned
  dsimp only
  repeat' split
  all_goals simp

@[simp] theorem afterInstall_frame (s : State) :
    s.afterInstall.pending = s.pending ∧ s.afterInstall.choices = s.choices ∧ s.afterInstall.inReset = s.inReset ∧
    s.afterInstall.straps = s.straps ∧ s.afterInstall.stationNumber = s.stationNumber ∧ s.afterInstall.area = s.area ∧
    s.afterInstall.regions = s.regions ∧ s.afterInstall.staging = s.staging ∧ s.afterInstall.chain = s.chain ∧
    s.afterInstall.p0 = s.p0 ∧ s.afterInstall.p1 = s.p1 ∧ s.afterInstall.p2 = s.p2 ∧ s.afterInstall.p3 = s.p3 ∧
    s.afterInstall.result = s.result ∧ s.afterInstall.rateCode = s.rateCode ∧ s.afterInstall.irqEnable = s.irqEnable ∧
    s.afterInstall.phase = s.phase ∧ s.afterInstall.flight = s.flight ∧ s.afterInstall.laneSlots = s.laneSlots ∧
    s.afterInstall.placement = s.placement ∧ s.afterInstall.stationNext = s.stationNext ∧
    s.afterInstall.imageSlot = s.imageSlot ∧ s.afterInstall.spoilStreak = s.spoilStreak ∧
    s.afterInstall.lost = s.lost ∧ s.afterInstall.passCount = s.passCount ∧ s.afterInstall.lanes = s.lanes ∧
    s.afterInstall.queue = s.queue ∧ s.afterInstall.watches = s.watches := by
  unfold afterInstall
  simp

@[simp] theorem takeImage_frame (s : State) (r : RegionNo) (o : Option Station) (c : Word) (d : List Byte) :
    (s.takeImage r o c d).pending = s.pending ∧ (s.takeImage r o c d).choices = s.choices ∧
    (s.takeImage r o c d).inReset = s.inReset ∧ (s.takeImage r o c d).straps = s.straps ∧
    (s.takeImage r o c d).stationNumber = s.stationNumber ∧ (s.takeImage r o c d).staging = s.staging ∧
    (s.takeImage r o c d).chain = s.chain ∧ (s.takeImage r o c d).p0 = s.p0 ∧ (s.takeImage r o c d).p1 = s.p1 ∧
    (s.takeImage r o c d).p2 = s.p2 ∧ (s.takeImage r o c d).p3 = s.p3 ∧ (s.takeImage r o c d).result = s.result ∧
    (s.takeImage r o c d).rateCode = s.rateCode ∧ (s.takeImage r o c d).irqEnable = s.irqEnable ∧
    (s.takeImage r o c d).phase = s.phase ∧ (s.takeImage r o c d).flight = s.flight ∧
    (s.takeImage r o c d).laneSlots = s.laneSlots ∧ (s.takeImage r o c d).placement = s.placement ∧
    (s.takeImage r o c d).stationNext = s.stationNext ∧ (s.takeImage r o c d).spoilStreak = s.spoilStreak ∧
    (s.takeImage r o c d).lost = s.lost ∧ (s.takeImage r o c d).passCount = s.passCount ∧
    (s.takeImage r o c d).queue = s.queue := by
  unfold takeImage
  repeat' split
  all_goals simp

@[simp] theorem endOfLeave_frame (s : State) :
    s.endOfLeave.pending = s.pending ∧ s.endOfLeave.choices = s.choices ∧ s.endOfLeave.inReset = s.inReset ∧
    s.endOfLeave.straps = s.straps ∧ s.endOfLeave.stationNumber = s.stationNumber ∧ s.endOfLeave.area = s.area ∧
    s.endOfLeave.staging = s.staging ∧ s.endOfLeave.chain = s.chain ∧ s.endOfLeave.p0 = s.p0 ∧
    s.endOfLeave.p1 = s.p1 ∧ s.endOfLeave.p2 = s.p2 ∧ s.endOfLeave.p3 = s.p3 ∧ s.endOfLeave.result = s.result ∧
    s.endOfLeave.rateCode = s.rateCode ∧ s.endOfLeave.irqEnable = s.irqEnable ∧ s.endOfLeave.flight = s.flight ∧
    s.endOfLeave.laneSlots = s.laneSlots ∧ s.endOfLeave.placement = s.placement ∧
    s.endOfLeave.stationSlot = s.stationSlot ∧ s.endOfLeave.stationNext = s.stationNext ∧
    s.endOfLeave.spoilStreak = s.spoilStreak ∧ s.endOfLeave.lost = s.lost ∧ s.endOfLeave.passCount = s.passCount ∧
    s.endOfLeave.window = s.window ∧ s.endOfLeave.join = s.join ∧ s.endOfLeave.lanes = s.lanes ∧
    s.endOfLeave.queue = s.queue ∧ s.endOfLeave.watches = s.watches := by
  unfold endOfLeave
  simp

@[simp] theorem leave_frame (s : State) :
    s.leave.pending = s.pending ∧ s.leave.inReset = s.inReset ∧ s.leave.straps = s.straps ∧
    s.leave.stationNumber = s.stationNumber ∧ s.leave.area = s.area ∧ s.leave.regions = s.regions ∧
    s.leave.staging = s.staging ∧ s.leave.chain = s.chain ∧ s.leave.p0 = s.p0 ∧ s.leave.p1 = s.p1 ∧
    s.leave.p2 = s.p2 ∧ s.leave.p3 = s.p3 ∧ s.leave.rateCode = s.rateCode ∧ s.leave.irqEnable = s.irqEnable ∧
    s.leave.phase = s.phase ∧ s.leave.imageSlot = s.imageSlot ∧ s.leave.spoilStreak = s.spoilStreak ∧
    s.leave.passCount = s.passCount := by
  unfold leave
  repeat' split
  all_goals simp

@[simp] theorem rejoin_frame (s : State) :
    s.rejoin.pending = s.pending ∧ s.rejoin.inReset = s.inReset ∧ s.rejoin.straps = s.straps ∧
    s.rejoin.stationNumber = s.stationNumber ∧ s.rejoin.area = s.area ∧ s.rejoin.staging = s.staging ∧
    s.rejoin.chain = s.chain ∧ s.rejoin.p0 = s.p0 ∧ s.rejoin.p1 = s.p1 ∧ s.rejoin.p2 = s.p2 ∧ s.rejoin.p3 = s.p3 ∧
    s.rejoin.rateCode = s.rateCode ∧ s.rejoin.irqEnable = s.irqEnable ∧ s.rejoin.phase = s.phase := by
  unfold rejoin
  repeat' split
  all_goals simp

@[simp] theorem configure_frame (s : State) :
    s.configure.pending = s.pending ∧ s.configure.choices = s.choices ∧ s.configure.inReset = s.inReset ∧
    s.configure.straps = s.straps ∧ s.configure.stationNumber = s.stationNumber ∧ s.configure.area = s.area ∧
    s.configure.regions = s.regions ∧ s.configure.staging = s.staging ∧ s.configure.chain = s.chain ∧
    s.configure.p0 = s.p0 ∧ s.configure.p1 = s.p1 ∧ s.configure.p2 = s.p2 ∧ s.configure.p3 = s.p3 ∧
    s.configure.flight = s.flight ∧ s.configure.laneSlots = s.laneSlots ∧ s.configure.placement = s.placement ∧
    s.configure.imageSlot = s.imageSlot ∧ s.configure.lost = s.lost ∧ s.configure.lanes = s.lanes ∧
    s.configure.queue = s.queue ∧ s.configure.events = s.events ∧ s.configure.watches = s.watches := by
  unfold configure
  repeat' split
  all_goals simp

@[simp] theorem withdrawalCheck_frame (s : State) (c : RegionNo → Bool) :
    (s.withdrawalCheck c).pending = s.pending ∧ (s.withdrawalCheck c).choices = s.choices ∧
    (s.withdrawalCheck c).inReset = s.inReset ∧ (s.withdrawalCheck c).straps = s.straps ∧
    (s.withdrawalCheck c).stationNumber = s.stationNumber ∧ (s.withdrawalCheck c).area = s.area ∧
    (s.withdrawalCheck c).regions = s.regions ∧ (s.withdrawalCheck c).staging = s.staging ∧
    (s.withdrawalCheck c).chain = s.chain ∧ (s.withdrawalCheck c).p0 = s.p0 ∧ (s.withdrawalCheck c).p1 = s.p1 ∧
    (s.withdrawalCheck c).p2 = s.p2 ∧ (s.withdrawalCheck c).p3 = s.p3 ∧ (s.withdrawalCheck c).result = s.result ∧
    (s.withdrawalCheck c).rateCode = s.rateCode ∧ (s.withdrawalCheck c).irqEnable = s.irqEnable ∧
    (s.withdrawalCheck c).phase = s.phase ∧ (s.withdrawalCheck c).flight = s.flight ∧
    (s.withdrawalCheck c).stationSlot = s.stationSlot ∧ (s.withdrawalCheck c).stationNext = s.stationNext ∧
    (s.withdrawalCheck c).imageSlot = s.imageSlot ∧ (s.withdrawalCheck c).spoilStreak = s.spoilStreak ∧
    (s.withdrawalCheck c).lost = s.lost ∧ (s.withdrawalCheck c).stationState = s.stationState ∧
    (s.withdrawalCheck c).passCount = s.passCount ∧ (s.withdrawalCheck c).window = s.window ∧
    (s.withdrawalCheck c).join = s.join ∧ (s.withdrawalCheck c).queue = s.queue ∧
    (s.withdrawalCheck c).events = s.events ∧ (s.withdrawalCheck c).watches = s.watches := by
  unfold withdrawalCheck
  simp

@[simp] theorem changeOwner_frame (s : State) (x : Station) (r : RegionNo) (o : Option Station) :
    (s.changeOwner x r o).pending = s.pending ∧ (s.changeOwner x r o).choices = s.choices ∧
    (s.changeOwner x r o).inReset = s.inReset ∧ (s.changeOwner x r o).straps = s.straps ∧
    (s.changeOwner x r o).stationNumber = s.stationNumber ∧ (s.changeOwner x r o).area = s.area ∧
    (s.changeOwner x r o).staging = s.staging ∧ (s.changeOwner x r o).chain = s.chain ∧
    (s.changeOwner x r o).p0 = s.p0 ∧ (s.changeOwner x r o).p1 = s.p1 ∧ (s.changeOwner x r o).p2 = s.p2 ∧
    (s.changeOwner x r o).p3 = s.p3 ∧ (s.changeOwner x r o).result = s.result ∧
    (s.changeOwner x r o).rateCode = s.rateCode ∧ (s.changeOwner x r o).irqEnable = s.irqEnable ∧
    (s.changeOwner x r o).phase = s.phase ∧ (s.changeOwner x r o).flight = s.flight ∧
    (s.changeOwner x r o).stationSlot = s.stationSlot ∧ (s.changeOwner x r o).stationNext = s.stationNext ∧
    (s.changeOwner x r o).imageSlot = s.imageSlot ∧ (s.changeOwner x r o).spoilStreak = s.spoilStreak ∧
    (s.changeOwner x r o).lost = s.lost ∧ (s.changeOwner x r o).stationState = s.stationState ∧
    (s.changeOwner x r o).passCount = s.passCount ∧ (s.changeOwner x r o).window = s.window ∧
    (s.changeOwner x r o).join = s.join ∧ (s.changeOwner x r o).queue = s.queue ∧
    (s.changeOwner x r o).events = s.events := by
  unfold changeOwner
  simp

@[simp] theorem loseOwnership_frame (s : State) (r : RegionNo) (x : Station) :
    (s.loseOwnership r x).pending = s.pending ∧ (s.loseOwnership r x).choices = s.choices ∧
    (s.loseOwnership r x).inReset = s.inReset ∧ (s.loseOwnership r x).straps = s.straps ∧
    (s.loseOwnership r x).stationNumber = s.stationNumber ∧ (s.loseOwnership r x).area = s.area ∧
    (s.loseOwnership r x).regions = s.regions ∧ (s.loseOwnership r x).staging = s.staging ∧
    (s.loseOwnership r x).chain = s.chain ∧ (s.loseOwnership r x).p0 = s.p0 ∧ (s.loseOwnership r x).p1 = s.p1 ∧
    (s.loseOwnership r x).p2 = s.p2 ∧ (s.loseOwnership r x).p3 = s.p3 ∧ (s.loseOwnership r x).result = s.result ∧
    (s.loseOwnership r x).rateCode = s.rateCode ∧ (s.loseOwnership r x).irqEnable = s.irqEnable ∧
    (s.loseOwnership r x).phase = s.phase ∧ (s.loseOwnership r x).flight = s.flight ∧
    (s.loseOwnership r x).laneSlots = s.laneSlots ∧ (s.loseOwnership r x).placement = s.placement ∧
    (s.loseOwnership r x).stationSlot = s.stationSlot ∧ (s.loseOwnership r x).stationNext = s.stationNext ∧
    (s.loseOwnership r x).imageSlot = s.imageSlot ∧ (s.loseOwnership r x).spoilStreak = s.spoilStreak ∧
    (s.loseOwnership r x).stationState = s.stationState ∧ (s.loseOwnership r x).passCount = s.passCount ∧
    (s.loseOwnership r x).window = s.window ∧ (s.loseOwnership r x).join = s.join ∧
    (s.loseOwnership r x).lanes = s.lanes ∧ (s.loseOwnership r x).events = s.events ∧
    (s.loseOwnership r x).watches = s.watches := by
  unfold loseOwnership offer serve
  repeat' split
  all_goals simp [clearProducer]

@[simp] theorem applyClaim_frame (s : State) (x : Station) (b : Bool) (r : RegionNo) :
    (s.applyClaim x b r).pending = s.pending ∧ (s.applyClaim x b r).choices = s.choices ∧
    (s.applyClaim x b r).inReset = s.inReset ∧ (s.applyClaim x b r).straps = s.straps ∧
    (s.applyClaim x b r).stationNumber = s.stationNumber ∧ (s.applyClaim x b r).area = s.area ∧
    (s.applyClaim x b r).staging = s.staging ∧ (s.applyClaim x b r).chain = s.chain ∧ (s.applyClaim x b r).p0 = s.p0 ∧
    (s.applyClaim x b r).p1 = s.p1 ∧ (s.applyClaim x b r).p2 = s.p2 ∧ (s.applyClaim x b r).p3 = s.p3 ∧
    (s.applyClaim x b r).result = s.result ∧ (s.applyClaim x b r).rateCode = s.rateCode ∧
    (s.applyClaim x b r).irqEnable = s.irqEnable ∧ (s.applyClaim x b r).phase = s.phase ∧
    (s.applyClaim x b r).flight = s.flight ∧ (s.applyClaim x b r).stationSlot = s.stationSlot ∧
    (s.applyClaim x b r).stationNext = s.stationNext ∧ (s.applyClaim x b r).imageSlot = s.imageSlot ∧
    (s.applyClaim x b r).spoilStreak = s.spoilStreak ∧ (s.applyClaim x b r).stationState = s.stationState ∧
    (s.applyClaim x b r).passCount = s.passCount ∧ (s.applyClaim x b r).window = s.window ∧
    (s.applyClaim x b r).join = s.join ∧ (s.applyClaim x b r).events = s.events := by
  unfold applyClaim
  repeat' split
  all_goals simp

@[simp] theorem applyRelease_frame (s : State) (x : Station) (r : RegionNo) :
    (s.applyRelease x r).pending = s.pending ∧ (s.applyRelease x r).choices = s.choices ∧
    (s.applyRelease x r).inReset = s.inReset ∧ (s.applyRelease x r).straps = s.straps ∧
    (s.applyRelease x r).stationNumber = s.stationNumber ∧ (s.applyRelease x r).area = s.area ∧
    (s.applyRelease x r).staging = s.staging ∧ (s.applyRelease x r).chain = s.chain ∧ (s.applyRelease x r).p0 = s.p0 ∧
    (s.applyRelease x r).p1 = s.p1 ∧ (s.applyRelease x r).p2 = s.p2 ∧ (s.applyRelease x r).p3 = s.p3 ∧
    (s.applyRelease x r).result = s.result ∧ (s.applyRelease x r).rateCode = s.rateCode ∧
    (s.applyRelease x r).irqEnable = s.irqEnable ∧ (s.applyRelease x r).phase = s.phase ∧
    (s.applyRelease x r).flight = s.flight ∧ (s.applyRelease x r).stationSlot = s.stationSlot ∧
    (s.applyRelease x r).stationNext = s.stationNext ∧ (s.applyRelease x r).imageSlot = s.imageSlot ∧
    (s.applyRelease x r).spoilStreak = s.spoilStreak ∧ (s.applyRelease x r).lost = s.lost ∧
    (s.applyRelease x r).stationState = s.stationState ∧ (s.applyRelease x r).passCount = s.passCount ∧
    (s.applyRelease x r).window = s.window ∧ (s.applyRelease x r).join = s.join ∧
    (s.applyRelease x r).queue = s.queue ∧ (s.applyRelease x r).events = s.events := by
  unfold applyRelease
  repeat' split
  all_goals simp

@[simp] theorem clearOwner_frame (s : State) (x : Station) :
    (s.clearOwner x).pending = s.pending ∧ (s.clearOwner x).choices = s.choices ∧
    (s.clearOwner x).inReset = s.inReset ∧ (s.clearOwner x).straps = s.straps ∧
    (s.clearOwner x).stationNumber = s.stationNumber ∧ (s.clearOwner x).area = s.area ∧
    (s.clearOwner x).staging = s.staging ∧ (s.clearOwner x).chain = s.chain ∧ (s.clearOwner x).p0 = s.p0 ∧
    (s.clearOwner x).p1 = s.p1 ∧ (s.clearOwner x).p2 = s.p2 ∧ (s.clearOwner x).p3 = s.p3 ∧
    (s.clearOwner x).result = s.result ∧ (s.clearOwner x).rateCode = s.rateCode ∧
    (s.clearOwner x).irqEnable = s.irqEnable ∧ (s.clearOwner x).phase = s.phase ∧ (s.clearOwner x).flight = s.flight ∧
    (s.clearOwner x).stationSlot = s.stationSlot ∧ (s.clearOwner x).stationNext = s.stationNext ∧
    (s.clearOwner x).imageSlot = s.imageSlot ∧ (s.clearOwner x).spoilStreak = s.spoilStreak ∧
    (s.clearOwner x).lost = s.lost ∧ (s.clearOwner x).stationState = s.stationState ∧
    (s.clearOwner x).passCount = s.passCount ∧ (s.clearOwner x).window = s.window ∧ (s.clearOwner x).join = s.join ∧
    (s.clearOwner x).queue = s.queue ∧ (s.clearOwner x).events = s.events := by
  unfold clearOwner
  refine ⟨?_, ?_, ?_, ?_, ?_, ?_, ?_, ?_, ?_, ?_, ?_, ?_, ?_, ?_, ?_, ?_, ?_, ?_, ?_, ?_, ?_, ?_, ?_, ?_, ?_, ?_, ?_, ?_⟩
  · simp only [withdrawalCheck_frame]
    rw [foldl_keeps State.pending _ (fun t r => by simp)]
    simp only [mapRegions_other]
  · simp only [withdrawalCheck_frame]
    rw [foldl_keeps State.choices _ (fun t r => by simp)]
    simp only [mapRegions_other]
  · simp only [withdrawalCheck_frame]
    rw [foldl_keeps State.inReset _ (fun t r => by simp)]
    simp only [mapRegions_other]
  · simp only [withdrawalCheck_frame]
    rw [foldl_keeps State.straps _ (fun t r => by simp)]
    simp only [mapRegions_other]
  · simp only [withdrawalCheck_frame]
    rw [foldl_keeps State.stationNumber _ (fun t r => by simp)]
    simp only [mapRegions_other]
  · simp only [withdrawalCheck_frame]
    rw [foldl_keeps State.area _ (fun t r => by simp)]
    simp only [mapRegions_other]
  · simp only [withdrawalCheck_frame]
    rw [foldl_keeps State.staging _ (fun t r => by simp)]
    simp only [mapRegions_other]
  · simp only [withdrawalCheck_frame]
    rw [foldl_keeps State.chain _ (fun t r => by simp)]
    simp only [mapRegions_other]
  · simp only [withdrawalCheck_frame]
    rw [foldl_keeps State.p0 _ (fun t r => by simp)]
    simp only [mapRegions_other]
  · simp only [withdrawalCheck_frame]
    rw [foldl_keeps State.p1 _ (fun t r => by simp)]
    simp only [mapRegions_other]
  · simp only [withdrawalCheck_frame]
    rw [foldl_keeps State.p2 _ (fun t r => by simp)]
    simp only [mapRegions_other]
  · simp only [withdrawalCheck_frame]
    rw [foldl_keeps State.p3 _ (fun t r => by simp)]
    simp only [mapRegions_other]
  · simp only [withdrawalCheck_frame]
    rw [foldl_keeps State.result _ (fun t r => by simp)]
    simp only [mapRegions_other]
  · simp only [withdrawalCheck_frame]
    rw [foldl_keeps State.rateCode _ (fun t r => by simp)]
    simp only [mapRegions_other]
  · simp only [withdrawalCheck_frame]
    rw [foldl_keeps State.irqEnable _ (fun t r => by simp)]
    simp only [mapRegions_other]
  · simp only [withdrawalCheck_frame]
    rw [foldl_keeps State.phase _ (fun t r => by simp)]
    simp only [mapRegions_other]
  · simp only [withdrawalCheck_frame]
    rw [foldl_keeps State.flight _ (fun t r => by simp)]
    simp only [mapRegions_other]
  · simp only [withdrawalCheck_frame]
    rw [foldl_keeps State.stationSlot _ (fun t r => by simp)]
    simp only [mapRegions_other]
  · simp only [withdrawalCheck_frame]
    rw [foldl_keeps State.stationNext _ (fun t r => by simp)]
    simp only [mapRegions_other]
  · simp only [withdrawalCheck_frame]
    rw [foldl_keeps State.imageSlot _ (fun t r => by simp)]
    simp only [mapRegions_other]
  · simp only [withdrawalCheck_frame]
    rw [foldl_keeps State.spoilStreak _ (fun t r => by simp)]
    simp only [mapRegions_other]
  · simp only [withdrawalCheck_frame]
    rw [foldl_keeps State.lost _ (fun t r => by simp)]
    simp only [mapRegions_other]
  · simp only [withdrawalCheck_frame]
    rw [foldl_keeps State.stationState _ (fun t r => by simp)]
    simp only [mapRegions_other]
  · simp only [withdrawalCheck_frame]
    rw [foldl_keeps State.passCount _ (fun t r => by simp)]
    simp only [mapRegions_other]
  · simp only [withdrawalCheck_frame]
    rw [foldl_keeps State.window _ (fun t r => by simp)]
    simp only [mapRegions_other]
  · simp only [withdrawalCheck_frame]
    rw [foldl_keeps State.join _ (fun t r => by simp)]
    simp only [mapRegions_other]
  · simp only [withdrawalCheck_frame]
    rw [foldl_keeps State.queue _ (fun t r => by simp)]
    simp only [mapRegions_other]
  · simp only [withdrawalCheck_frame]
    rw [foldl_keeps State.events _ (fun t r => by simp)]
    simp only [mapRegions_other]

@[simp] theorem markOnLine_frame (s : State) (i : SlotId) :
    (s.markOnLine i).pending = s.pending ∧ (s.markOnLine i).choices = s.choices ∧
    (s.markOnLine i).inReset = s.inReset ∧ (s.markOnLine i).straps = s.straps ∧
    (s.markOnLine i).stationNumber = s.stationNumber ∧ (s.markOnLine i).area = s.area ∧
    (s.markOnLine i).regions = s.regions ∧ (s.markOnLine i).staging = s.staging ∧ (s.markOnLine i).chain = s.chain ∧
    (s.markOnLine i).p0 = s.p0 ∧ (s.markOnLine i).p1 = s.p1 ∧ (s.markOnLine i).p2 = s.p2 ∧
    (s.markOnLine i).p3 = s.p3 ∧ (s.markOnLine i).result = s.result ∧ (s.markOnLine i).rateCode = s.rateCode ∧
    (s.markOnLine i).irqEnable = s.irqEnable ∧ (s.markOnLine i).phase = s.phase ∧ (s.markOnLine i).flight = s.flight ∧
    (s.markOnLine i).laneSlots = s.laneSlots ∧ (s.markOnLine i).placement = s.placement ∧
    (s.markOnLine i).stationSlot = s.stationSlot ∧ (s.markOnLine i).stationNext = s.stationNext ∧
    (s.markOnLine i).imageSlot = s.imageSlot ∧ (s.markOnLine i).spoilStreak = s.spoilStreak ∧
    (s.markOnLine i).lost = s.lost ∧ (s.markOnLine i).stationState = s.stationState ∧
    (s.markOnLine i).passCount = s.passCount ∧ (s.markOnLine i).window = s.window ∧ (s.markOnLine i).join = s.join ∧
    (s.markOnLine i).queue = s.queue ∧ (s.markOnLine i).events = s.events ∧ (s.markOnLine i).watches = s.watches := by
  unfold markOnLine
  split
  all_goals simp

@[simp] theorem joinIn_frame (s : State) :
    s.joinIn.pending = s.pending ∧ s.joinIn.choices = s.choices ∧ s.joinIn.inReset = s.inReset ∧
    s.joinIn.straps = s.straps ∧ s.joinIn.stationNumber = s.stationNumber ∧ s.joinIn.area = s.area ∧
    s.joinIn.regions = s.regions ∧ s.joinIn.staging = s.staging ∧ s.joinIn.chain = s.chain ∧ s.joinIn.p0 = s.p0 ∧
    s.joinIn.p1 = s.p1 ∧ s.joinIn.p2 = s.p2 ∧ s.joinIn.p3 = s.p3 ∧ s.joinIn.result = s.result ∧
    s.joinIn.rateCode = s.rateCode ∧ s.joinIn.irqEnable = s.irqEnable ∧ s.joinIn.phase = s.phase ∧
    s.joinIn.laneSlots = s.laneSlots ∧ s.joinIn.placement = s.placement ∧ s.joinIn.stationSlot = s.stationSlot ∧
    s.joinIn.stationNext = s.stationNext ∧ s.joinIn.imageSlot = s.imageSlot ∧ s.joinIn.spoilStreak = s.spoilStreak ∧
    s.joinIn.lost = s.lost ∧ s.joinIn.stationState = s.stationState ∧ s.joinIn.passCount = s.passCount ∧
    s.joinIn.window = s.window ∧ s.joinIn.join = s.join ∧ s.joinIn.queue = s.queue ∧ s.joinIn.events = s.events ∧
    s.joinIn.watches = s.watches := by
  unfold joinIn
  repeat' split
  all_goals simp

@[simp] theorem startEdge_frame (s : State) :
    s.startEdge.pending = s.pending ∧ s.startEdge.choices = s.choices ∧ s.startEdge.inReset = s.inReset ∧
    s.startEdge.straps = s.straps ∧ s.startEdge.stationNumber = s.stationNumber ∧ s.startEdge.area = s.area ∧
    s.startEdge.regions = s.regions ∧ s.startEdge.staging = s.staging ∧ s.startEdge.chain = s.chain ∧
    s.startEdge.p0 = s.p0 ∧ s.startEdge.p1 = s.p1 ∧ s.startEdge.p2 = s.p2 ∧ s.startEdge.p3 = s.p3 ∧
    s.startEdge.result = s.result ∧ s.startEdge.rateCode = s.rateCode ∧ s.startEdge.irqEnable = s.irqEnable ∧
    s.startEdge.laneSlots = s.laneSlots ∧ s.startEdge.placement = s.placement ∧
    s.startEdge.stationSlot = s.stationSlot ∧ s.startEdge.stationNext = s.stationNext ∧
    s.startEdge.imageSlot = s.imageSlot ∧ s.startEdge.spoilStreak = s.spoilStreak ∧ s.startEdge.lost = s.lost ∧
    s.startEdge.stationState = s.stationState ∧ s.startEdge.passCount = s.passCount ∧ s.startEdge.window = s.window ∧
    s.startEdge.join = s.join ∧ s.startEdge.queue = s.queue ∧ s.startEdge.events = s.events ∧
    s.startEdge.watches = s.watches := by
  unfold startEdge
  repeat' split
  all_goals simp

@[simp] theorem accessOpening_frame (s : State) :
    s.accessOpening.pending = s.pending ∧ s.accessOpening.choices = s.choices ∧ s.accessOpening.inReset = s.inReset ∧
    s.accessOpening.straps = s.straps ∧ s.accessOpening.stationNumber = s.stationNumber ∧
    s.accessOpening.area = s.area ∧ s.accessOpening.regions = s.regions ∧ s.accessOpening.staging = s.staging ∧
    s.accessOpening.chain = s.chain ∧ s.accessOpening.p0 = s.p0 ∧ s.accessOpening.p1 = s.p1 ∧
    s.accessOpening.p2 = s.p2 ∧ s.accessOpening.p3 = s.p3 ∧ s.accessOpening.result = s.result ∧
    s.accessOpening.rateCode = s.rateCode ∧ s.accessOpening.irqEnable = s.irqEnable ∧
    s.accessOpening.flight = s.flight ∧ s.accessOpening.laneSlots = s.laneSlots ∧
    s.accessOpening.placement = s.placement ∧ s.accessOpening.stationSlot = s.stationSlot ∧
    s.accessOpening.stationNext = s.stationNext ∧ s.accessOpening.imageSlot = s.imageSlot ∧
    s.accessOpening.spoilStreak = s.spoilStreak ∧ s.accessOpening.lost = s.lost ∧
    s.accessOpening.stationState = s.stationState ∧ s.accessOpening.passCount = s.passCount ∧
    s.accessOpening.window = s.window ∧ s.accessOpening.join = s.join ∧ s.accessOpening.lanes = s.lanes ∧
    s.accessOpening.queue = s.queue ∧ s.accessOpening.events = s.events ∧ s.accessOpening.watches = s.watches := by
  unfold accessOpening
  repeat' split
  all_goals simp

@[simp] theorem enterNext_frame (s : State) :
    s.enterNext.pending = s.pending ∧ s.enterNext.choices = s.choices ∧ s.enterNext.inReset = s.inReset ∧
    s.enterNext.straps = s.straps ∧ s.enterNext.stationNumber = s.stationNumber ∧ s.enterNext.area = s.area ∧
    s.enterNext.regions = s.regions ∧ s.enterNext.staging = s.staging ∧ s.enterNext.chain = s.chain ∧
    s.enterNext.p0 = s.p0 ∧ s.enterNext.p1 = s.p1 ∧ s.enterNext.p2 = s.p2 ∧ s.enterNext.p3 = s.p3 ∧
    s.enterNext.result = s.result ∧ s.enterNext.rateCode = s.rateCode ∧ s.enterNext.irqEnable = s.irqEnable ∧
    s.enterNext.phase = s.phase ∧ s.enterNext.flight = s.flight ∧ s.enterNext.laneSlots = s.laneSlots ∧
    s.enterNext.placement = s.placement ∧ s.enterNext.imageSlot = s.imageSlot ∧
    s.enterNext.spoilStreak = s.spoilStreak ∧ s.enterNext.lost = s.lost ∧ s.enterNext.stationState = s.stationState ∧
    s.enterNext.passCount = s.passCount ∧ s.enterNext.window = s.window ∧ s.enterNext.join = s.join ∧
    s.enterNext.lanes = s.lanes ∧ s.enterNext.queue = s.queue ∧ s.enterNext.events = s.events ∧
    s.enterNext.watches = s.watches := by
  unfold enterNext
  repeat' split
  all_goals simp

@[simp] theorem emptyStationSlot_frame (s : State) :
    s.emptyStationSlot.pending = s.pending ∧ s.emptyStationSlot.choices = s.choices ∧
    s.emptyStationSlot.inReset = s.inReset ∧ s.emptyStationSlot.straps = s.straps ∧
    s.emptyStationSlot.stationNumber = s.stationNumber ∧ s.emptyStationSlot.area = s.area ∧
    s.emptyStationSlot.regions = s.regions ∧ s.emptyStationSlot.staging = s.staging ∧
    s.emptyStationSlot.chain = s.chain ∧ s.emptyStationSlot.p0 = s.p0 ∧ s.emptyStationSlot.p1 = s.p1 ∧
    s.emptyStationSlot.p2 = s.p2 ∧ s.emptyStationSlot.p3 = s.p3 ∧ s.emptyStationSlot.result = s.result ∧
    s.emptyStationSlot.rateCode = s.rateCode ∧ s.emptyStationSlot.irqEnable = s.irqEnable ∧
    s.emptyStationSlot.phase = s.phase ∧ s.emptyStationSlot.flight = s.flight ∧
    s.emptyStationSlot.laneSlots = s.laneSlots ∧ s.emptyStationSlot.placement = s.placement ∧
    s.emptyStationSlot.imageSlot = s.imageSlot ∧ s.emptyStationSlot.spoilStreak = s.spoilStreak ∧
    s.emptyStationSlot.lost = s.lost ∧ s.emptyStationSlot.stationState = s.stationState ∧
    s.emptyStationSlot.passCount = s.passCount ∧ s.emptyStationSlot.window = s.window ∧
    s.emptyStationSlot.join = s.join ∧ s.emptyStationSlot.lanes = s.lanes ∧ s.emptyStationSlot.queue = s.queue ∧
    s.emptyStationSlot.events = s.events ∧ s.emptyStationSlot.watches = s.watches := by
  unfold emptyStationSlot
  simp

@[simp] theorem stopAtEnd_frame (s : State) (l : LaneNo) :
    (s.stopAtEnd l).pending = s.pending ∧ (s.stopAtEnd l).choices = s.choices ∧ (s.stopAtEnd l).inReset = s.inReset ∧
    (s.stopAtEnd l).straps = s.straps ∧ (s.stopAtEnd l).stationNumber = s.stationNumber ∧
    (s.stopAtEnd l).area = s.area ∧ (s.stopAtEnd l).regions = s.regions ∧ (s.stopAtEnd l).staging = s.staging ∧
    (s.stopAtEnd l).chain = s.chain ∧ (s.stopAtEnd l).p0 = s.p0 ∧ (s.stopAtEnd l).p1 = s.p1 ∧
    (s.stopAtEnd l).p2 = s.p2 ∧ (s.stopAtEnd l).p3 = s.p3 ∧ (s.stopAtEnd l).result = s.result ∧
    (s.stopAtEnd l).rateCode = s.rateCode ∧ (s.stopAtEnd l).irqEnable = s.irqEnable ∧
    (s.stopAtEnd l).phase = s.phase ∧ (s.stopAtEnd l).flight = s.flight ∧
    (s.stopAtEnd l).stationSlot = s.stationSlot ∧ (s.stopAtEnd l).stationNext = s.stationNext ∧
    (s.stopAtEnd l).imageSlot = s.imageSlot ∧ (s.stopAtEnd l).spoilStreak = s.spoilStreak ∧
    (s.stopAtEnd l).lost = s.lost ∧ (s.stopAtEnd l).stationState = s.stationState ∧
    (s.stopAtEnd l).passCount = s.passCount ∧ (s.stopAtEnd l).window = s.window ∧ (s.stopAtEnd l).join = s.join ∧
    (s.stopAtEnd l).queue = s.queue ∧ (s.stopAtEnd l).events = s.events ∧ (s.stopAtEnd l).watches = s.watches := by
  unfold stopAtEnd
  simp

@[simp] theorem backToOffered_frame (s : State) (l : LaneNo) :
    (s.backToOffered l).pending = s.pending ∧ (s.backToOffered l).choices = s.choices ∧
    (s.backToOffered l).inReset = s.inReset ∧ (s.backToOffered l).straps = s.straps ∧
    (s.backToOffered l).stationNumber = s.stationNumber ∧ (s.backToOffered l).area = s.area ∧
    (s.backToOffered l).regions = s.regions ∧ (s.backToOffered l).staging = s.staging ∧
    (s.backToOffered l).chain = s.chain ∧ (s.backToOffered l).p0 = s.p0 ∧ (s.backToOffered l).p1 = s.p1 ∧
    (s.backToOffered l).p2 = s.p2 ∧ (s.backToOffered l).p3 = s.p3 ∧ (s.backToOffered l).result = s.result ∧
    (s.backToOffered l).rateCode = s.rateCode ∧ (s.backToOffered l).irqEnable = s.irqEnable ∧
    (s.backToOffered l).phase = s.phase ∧ (s.backToOffered l).flight = s.flight ∧
    (s.backToOffered l).laneSlots = s.laneSlots ∧ (s.backToOffered l).placement = s.placement ∧
    (s.backToOffered l).stationSlot = s.stationSlot ∧ (s.backToOffered l).stationNext = s.stationNext ∧
    (s.backToOffered l).imageSlot = s.imageSlot ∧ (s.backToOffered l).spoilStreak = s.spoilStreak ∧
    (s.backToOffered l).lost = s.lost ∧ (s.backToOffered l).stationState = s.stationState ∧
    (s.backToOffered l).passCount = s.passCount ∧ (s.backToOffered l).window = s.window ∧
    (s.backToOffered l).join = s.join ∧ (s.backToOffered l).queue = s.queue ∧ (s.backToOffered l).events = s.events ∧
    (s.backToOffered l).watches = s.watches := by
  unfold backToOffered
  simp

@[simp] theorem loseAttempt_frame (s : State) :
    s.loseAttempt.pending = s.pending ∧ s.loseAttempt.choices = s.choices ∧ s.loseAttempt.inReset = s.inReset ∧
    s.loseAttempt.straps = s.straps ∧ s.loseAttempt.stationNumber = s.stationNumber ∧ s.loseAttempt.area = s.area ∧
    s.loseAttempt.regions = s.regions ∧ s.loseAttempt.staging = s.staging ∧ s.loseAttempt.chain = s.chain ∧
    s.loseAttempt.p0 = s.p0 ∧ s.loseAttempt.p1 = s.p1 ∧ s.loseAttempt.p2 = s.p2 ∧ s.loseAttempt.p3 = s.p3 ∧
    s.loseAttempt.result = s.result ∧ s.loseAttempt.rateCode = s.rateCode ∧ s.loseAttempt.irqEnable = s.irqEnable ∧
    s.loseAttempt.phase = s.phase ∧ s.loseAttempt.spoilStreak = s.spoilStreak ∧ s.loseAttempt.lost = s.lost ∧
    s.loseAttempt.stationState = s.stationState ∧ s.loseAttempt.passCount = s.passCount ∧
    s.loseAttempt.window = s.window ∧ s.loseAttempt.join = s.join ∧ s.loseAttempt.queue = s.queue ∧
    s.loseAttempt.events = s.events ∧ s.loseAttempt.watches = s.watches := by
  unfold loseAttempt
  dsimp only
  repeat' split
  all_goals simp

@[simp] theorem countLaneAttempt_frame (s : State) (l : LaneNo) :
    (s.countLaneAttempt l).pending = s.pending ∧ (s.countLaneAttempt l).choices = s.choices ∧
    (s.countLaneAttempt l).inReset = s.inReset ∧ (s.countLaneAttempt l).straps = s.straps ∧
    (s.countLaneAttempt l).stationNumber = s.stationNumber ∧ (s.countLaneAttempt l).area = s.area ∧
    (s.countLaneAttempt l).regions = s.regions ∧ (s.countLaneAttempt l).staging = s.staging ∧
    (s.countLaneAttempt l).chain = s.chain ∧ (s.countLaneAttempt l).p0 = s.p0 ∧ (s.countLaneAttempt l).p1 = s.p1 ∧
    (s.countLaneAttempt l).p2 = s.p2 ∧ (s.countLaneAttempt l).p3 = s.p3 ∧ (s.countLaneAttempt l).result = s.result ∧
    (s.countLaneAttempt l).rateCode = s.rateCode ∧ (s.countLaneAttempt l).irqEnable = s.irqEnable ∧
    (s.countLaneAttempt l).phase = s.phase ∧ (s.countLaneAttempt l).flight = s.flight ∧
    (s.countLaneAttempt l).stationSlot = s.stationSlot ∧ (s.countLaneAttempt l).stationNext = s.stationNext ∧
    (s.countLaneAttempt l).imageSlot = s.imageSlot ∧ (s.countLaneAttempt l).spoilStreak = s.spoilStreak ∧
    (s.countLaneAttempt l).lost = s.lost ∧ (s.countLaneAttempt l).stationState = s.stationState ∧
    (s.countLaneAttempt l).passCount = s.passCount ∧ (s.countLaneAttempt l).window = s.window ∧
    (s.countLaneAttempt l).join = s.join ∧ (s.countLaneAttempt l).queue = s.queue ∧
    (s.countLaneAttempt l).events = s.events ∧ (s.countLaneAttempt l).watches = s.watches := by
  unfold countLaneAttempt
  repeat' split
  all_goals simp

@[simp] theorem stationAbandoned_frame (s : State) (f : StationFrame) :
    (s.stationAbandoned f).pending = s.pending ∧ (s.stationAbandoned f).inReset = s.inReset ∧
    (s.stationAbandoned f).straps = s.straps ∧ (s.stationAbandoned f).stationNumber = s.stationNumber ∧
    (s.stationAbandoned f).staging = s.staging ∧ (s.stationAbandoned f).chain = s.chain ∧
    (s.stationAbandoned f).p0 = s.p0 ∧ (s.stationAbandoned f).p1 = s.p1 ∧ (s.stationAbandoned f).p2 = s.p2 ∧
    (s.stationAbandoned f).p3 = s.p3 ∧ (s.stationAbandoned f).result = s.result ∧
    (s.stationAbandoned f).rateCode = s.rateCode ∧ (s.stationAbandoned f).irqEnable = s.irqEnable ∧
    (s.stationAbandoned f).spoilStreak = s.spoilStreak := by
  cases f <;> simp [stationAbandoned]

@[simp] theorem countStationAttempt_frame (s : State) :
    s.countStationAttempt.pending = s.pending ∧ s.countStationAttempt.inReset = s.inReset ∧
    s.countStationAttempt.straps = s.straps ∧ s.countStationAttempt.stationNumber = s.stationNumber ∧
    s.countStationAttempt.staging = s.staging ∧ s.countStationAttempt.chain = s.chain ∧
    s.countStationAttempt.p0 = s.p0 ∧ s.countStationAttempt.p1 = s.p1 ∧ s.countStationAttempt.p2 = s.p2 ∧
    s.countStationAttempt.p3 = s.p3 ∧ s.countStationAttempt.result = s.result ∧
    s.countStationAttempt.rateCode = s.rateCode ∧ s.countStationAttempt.irqEnable = s.irqEnable ∧
    s.countStationAttempt.spoilStreak = s.spoilStreak := by
  unfold countStationAttempt
  repeat' split
  all_goals simp

@[simp] theorem countImageAttempt_frame (s : State) :
    s.countImageAttempt.pending = s.pending ∧ s.countImageAttempt.choices = s.choices ∧
    s.countImageAttempt.inReset = s.inReset ∧ s.countImageAttempt.straps = s.straps ∧
    s.countImageAttempt.stationNumber = s.stationNumber ∧ s.countImageAttempt.area = s.area ∧
    s.countImageAttempt.staging = s.staging ∧ s.countImageAttempt.chain = s.chain ∧ s.countImageAttempt.p0 = s.p0 ∧
    s.countImageAttempt.p1 = s.p1 ∧ s.countImageAttempt.p2 = s.p2 ∧ s.countImageAttempt.p3 = s.p3 ∧
    s.countImageAttempt.result = s.result ∧ s.countImageAttempt.rateCode = s.rateCode ∧
    s.countImageAttempt.irqEnable = s.irqEnable ∧ s.countImageAttempt.phase = s.phase ∧
    s.countImageAttempt.flight = s.flight ∧ s.countImageAttempt.laneSlots = s.laneSlots ∧
    s.countImageAttempt.placement = s.placement ∧ s.countImageAttempt.stationSlot = s.stationSlot ∧
    s.countImageAttempt.stationNext = s.stationNext ∧ s.countImageAttempt.spoilStreak = s.spoilStreak ∧
    s.countImageAttempt.lost = s.lost ∧ s.countImageAttempt.stationState = s.stationState ∧
    s.countImageAttempt.passCount = s.passCount ∧ s.countImageAttempt.window = s.window ∧
    s.countImageAttempt.join = s.join ∧ s.countImageAttempt.lanes = s.lanes ∧ s.countImageAttempt.queue = s.queue ∧
    s.countImageAttempt.events = s.events ∧ s.countImageAttempt.watches = s.watches := by
  unfold countImageAttempt
  repeat' split
  all_goals simp

@[simp] theorem spoilAttempt_frame (s : State) :
    s.spoilAttempt.pending = s.pending ∧ s.spoilAttempt.inReset = s.inReset ∧ s.spoilAttempt.straps = s.straps ∧
    s.spoilAttempt.stationNumber = s.stationNumber ∧ s.spoilAttempt.staging = s.staging ∧
    s.spoilAttempt.chain = s.chain ∧ s.spoilAttempt.p0 = s.p0 ∧ s.spoilAttempt.p1 = s.p1 ∧ s.spoilAttempt.p2 = s.p2 ∧
    s.spoilAttempt.p3 = s.p3 ∧ s.spoilAttempt.result = s.result ∧ s.spoilAttempt.rateCode = s.rateCode ∧
    s.spoilAttempt.irqEnable = s.irqEnable ∧ s.spoilAttempt.spoilStreak = s.spoilStreak := by
  unfold spoilAttempt
  dsimp only
  repeat' split
  all_goals simp

@[simp] theorem readbackDifference_frame (s : State) :
    s.readbackDifference.pending = s.pending ∧ s.readbackDifference.choices = s.choices ∧
    s.readbackDifference.inReset = s.inReset ∧ s.readbackDifference.straps = s.straps ∧
    s.readbackDifference.stationNumber = s.stationNumber ∧ s.readbackDifference.area = s.area ∧
    s.readbackDifference.regions = s.regions ∧ s.readbackDifference.staging = s.staging ∧
    s.readbackDifference.chain = s.chain ∧ s.readbackDifference.p0 = s.p0 ∧ s.readbackDifference.p1 = s.p1 ∧
    s.readbackDifference.p2 = s.p2 ∧ s.readbackDifference.p3 = s.p3 ∧ s.readbackDifference.result = s.result ∧
    s.readbackDifference.rateCode = s.rateCode ∧ s.readbackDifference.irqEnable = s.irqEnable ∧
    s.readbackDifference.phase = s.phase ∧ s.readbackDifference.laneSlots = s.laneSlots ∧
    s.readbackDifference.placement = s.placement ∧ s.readbackDifference.stationSlot = s.stationSlot ∧
    s.readbackDifference.stationNext = s.stationNext ∧ s.readbackDifference.imageSlot = s.imageSlot ∧
    s.readbackDifference.spoilStreak = s.spoilStreak ∧ s.readbackDifference.lost = s.lost ∧
    s.readbackDifference.stationState = s.stationState ∧ s.readbackDifference.passCount = s.passCount ∧
    s.readbackDifference.window = s.window ∧ s.readbackDifference.join = s.join ∧
    s.readbackDifference.lanes = s.lanes ∧ s.readbackDifference.queue = s.queue ∧
    s.readbackDifference.events = s.events ∧ s.readbackDifference.watches = s.watches := by
  unfold readbackDifference
  simp

@[simp] theorem resolveReadback_frame (s : State) (b : List Byte) :
    (s.resolveReadback b).pending = s.pending ∧ (s.resolveReadback b).inReset = s.inReset ∧
    (s.resolveReadback b).straps = s.straps ∧ (s.resolveReadback b).stationNumber = s.stationNumber ∧
    (s.resolveReadback b).area = s.area ∧ (s.resolveReadback b).regions = s.regions ∧
    (s.resolveReadback b).staging = s.staging ∧ (s.resolveReadback b).chain = s.chain ∧
    (s.resolveReadback b).p0 = s.p0 ∧ (s.resolveReadback b).p1 = s.p1 ∧ (s.resolveReadback b).p2 = s.p2 ∧
    (s.resolveReadback b).p3 = s.p3 ∧ (s.resolveReadback b).result = s.result ∧
    (s.resolveReadback b).rateCode = s.rateCode ∧ (s.resolveReadback b).irqEnable = s.irqEnable ∧
    (s.resolveReadback b).phase = s.phase ∧ (s.resolveReadback b).spoilStreak = s.spoilStreak ∧
    (s.resolveReadback b).stationState = s.stationState ∧ (s.resolveReadback b).passCount = s.passCount ∧
    (s.resolveReadback b).window = s.window ∧ (s.resolveReadback b).join = s.join := by
  unfold resolveReadback
  repeat' split
  all_goals simp

@[simp] theorem raiseStreak_frame (s : State) :
    s.raiseStreak.pending = s.pending ∧ s.raiseStreak.choices = s.choices ∧ s.raiseStreak.inReset = s.inReset ∧
    s.raiseStreak.straps = s.straps ∧ s.raiseStreak.stationNumber = s.stationNumber ∧ s.raiseStreak.area = s.area ∧
    s.raiseStreak.regions = s.regions ∧ s.raiseStreak.staging = s.staging ∧ s.raiseStreak.chain = s.chain ∧
    s.raiseStreak.p0 = s.p0 ∧ s.raiseStreak.p1 = s.p1 ∧ s.raiseStreak.p2 = s.p2 ∧ s.raiseStreak.p3 = s.p3 ∧
    s.raiseStreak.result = s.result ∧ s.raiseStreak.rateCode = s.rateCode ∧ s.raiseStreak.irqEnable = s.irqEnable ∧
    s.raiseStreak.phase = s.phase ∧ s.raiseStreak.flight = s.flight ∧ s.raiseStreak.laneSlots = s.laneSlots ∧
    s.raiseStreak.placement = s.placement ∧ s.raiseStreak.stationSlot = s.stationSlot ∧
    s.raiseStreak.stationNext = s.stationNext ∧ s.raiseStreak.imageSlot = s.imageSlot ∧ s.raiseStreak.lost = s.lost ∧
    s.raiseStreak.stationState = s.stationState ∧ s.raiseStreak.passCount = s.passCount ∧
    s.raiseStreak.window = s.window ∧ s.raiseStreak.join = s.join ∧ s.raiseStreak.lanes = s.lanes ∧
    s.raiseStreak.queue = s.queue ∧ s.raiseStreak.events = s.events ∧ s.raiseStreak.watches = s.watches := by
  unfold raiseStreak
  simp

@[simp] theorem spoil_frame (s : State) :
    s.spoil.pending = s.pending ∧ s.spoil.inReset = s.inReset ∧ s.spoil.straps = s.straps ∧
    s.spoil.stationNumber = s.stationNumber ∧ s.spoil.staging = s.staging ∧ s.spoil.chain = s.chain ∧
    s.spoil.p0 = s.p0 ∧ s.spoil.p1 = s.p1 ∧ s.spoil.p2 = s.p2 ∧ s.spoil.p3 = s.p3 ∧ s.spoil.result = s.result ∧
    s.spoil.rateCode = s.rateCode ∧ s.spoil.irqEnable = s.irqEnable := by
  unfold spoil
  repeat' split
  all_goals simp

@[simp] theorem countAgain_frame (s : State) :
    s.countAgain.pending = s.pending ∧ s.countAgain.choices = s.choices ∧ s.countAgain.inReset = s.inReset ∧
    s.countAgain.straps = s.straps ∧ s.countAgain.stationNumber = s.stationNumber ∧ s.countAgain.area = s.area ∧
    s.countAgain.regions = s.regions ∧ s.countAgain.staging = s.staging ∧ s.countAgain.chain = s.chain ∧
    s.countAgain.p0 = s.p0 ∧ s.countAgain.p1 = s.p1 ∧ s.countAgain.p2 = s.p2 ∧ s.countAgain.p3 = s.p3 ∧
    s.countAgain.result = s.result ∧ s.countAgain.rateCode = s.rateCode ∧ s.countAgain.irqEnable = s.irqEnable ∧
    s.countAgain.flight = s.flight ∧ s.countAgain.laneSlots = s.laneSlots ∧ s.countAgain.placement = s.placement ∧
    s.countAgain.stationSlot = s.stationSlot ∧ s.countAgain.stationNext = s.stationNext ∧
    s.countAgain.imageSlot = s.imageSlot ∧ s.countAgain.spoilStreak = s.spoilStreak ∧ s.countAgain.lost = s.lost ∧
    s.countAgain.stationState = s.stationState ∧ s.countAgain.passCount = s.passCount ∧
    s.countAgain.window = s.window ∧ s.countAgain.join = s.join ∧ s.countAgain.lanes = s.lanes ∧
    s.countAgain.queue = s.queue ∧ s.countAgain.events = s.events ∧ s.countAgain.watches = s.watches := by
  unfold countAgain
  simp

@[simp] theorem framingBreak_frame (s : State) :
    s.framingBreak.pending = s.pending ∧ s.framingBreak.inReset = s.inReset ∧ s.framingBreak.straps = s.straps ∧
    s.framingBreak.stationNumber = s.stationNumber ∧ s.framingBreak.staging = s.staging ∧
    s.framingBreak.chain = s.chain ∧ s.framingBreak.p0 = s.p0 ∧ s.framingBreak.p1 = s.p1 ∧ s.framingBreak.p2 = s.p2 ∧
    s.framingBreak.p3 = s.p3 ∧ s.framingBreak.result = s.result ∧ s.framingBreak.rateCode = s.rateCode ∧
    s.framingBreak.irqEnable = s.irqEnable := by
  unfold framingBreak
  repeat' split
  all_goals simp

@[simp] theorem spoiledHere_frame (s : State) (b : List Byte) :
    (s.spoiledHere b).pending = s.pending ∧ (s.spoiledHere b).inReset = s.inReset ∧
    (s.spoiledHere b).straps = s.straps ∧ (s.spoiledHere b).stationNumber = s.stationNumber ∧
    (s.spoiledHere b).staging = s.staging ∧ (s.spoiledHere b).chain = s.chain ∧ (s.spoiledHere b).p0 = s.p0 ∧
    (s.spoiledHere b).p1 = s.p1 ∧ (s.spoiledHere b).p2 = s.p2 ∧ (s.spoiledHere b).p3 = s.p3 ∧
    (s.spoiledHere b).result = s.result ∧ (s.spoiledHere b).rateCode = s.rateCode ∧
    (s.spoiledHere b).irqEnable = s.irqEnable := by
  unfold spoiledHere
  repeat' split
  all_goals simp

@[simp] theorem spoiledFrameEnd_frame (s : State) (b : List Byte) :
    (s.spoiledFrameEnd b).pending = s.pending ∧ (s.spoiledFrameEnd b).inReset = s.inReset ∧
    (s.spoiledFrameEnd b).straps = s.straps ∧ (s.spoiledFrameEnd b).stationNumber = s.stationNumber ∧
    (s.spoiledFrameEnd b).staging = s.staging ∧ (s.spoiledFrameEnd b).chain = s.chain ∧
    (s.spoiledFrameEnd b).p0 = s.p0 ∧ (s.spoiledFrameEnd b).p1 = s.p1 ∧ (s.spoiledFrameEnd b).p2 = s.p2 ∧
    (s.spoiledFrameEnd b).p3 = s.p3 ∧ (s.spoiledFrameEnd b).result = s.result ∧
    (s.spoiledFrameEnd b).rateCode = s.rateCode ∧ (s.spoiledFrameEnd b).irqEnable = s.irqEnable := by
  unfold spoiledFrameEnd
  repeat' split
  all_goals simp

@[simp] theorem applyPeer_frame (s : State) (f : Frame) :
    (s.applyPeer f).pending = s.pending ∧ (s.applyPeer f).choices = s.choices ∧ (s.applyPeer f).inReset = s.inReset ∧
    (s.applyPeer f).straps = s.straps ∧ (s.applyPeer f).stationNumber = s.stationNumber ∧
    (s.applyPeer f).staging = s.staging ∧ (s.applyPeer f).chain = s.chain ∧ (s.applyPeer f).p0 = s.p0 ∧
    (s.applyPeer f).p1 = s.p1 ∧ (s.applyPeer f).p2 = s.p2 ∧ (s.applyPeer f).p3 = s.p3 ∧
    (s.applyPeer f).result = s.result ∧ (s.applyPeer f).rateCode = s.rateCode ∧
    (s.applyPeer f).irqEnable = s.irqEnable ∧ (s.applyPeer f).phase = s.phase ∧ (s.applyPeer f).flight = s.flight ∧
    (s.applyPeer f).stationNext = s.stationNext ∧ (s.applyPeer f).spoilStreak = s.spoilStreak ∧
    (s.applyPeer f).passCount = s.passCount := by
  unfold applyPeer
  repeat' split
  all_goals simp

@[simp] theorem takeOut_frame (s : State) (f : Flight) :
    (s.takeOut f).pending = s.pending ∧ (s.takeOut f).choices = s.choices ∧ (s.takeOut f).inReset = s.inReset ∧
    (s.takeOut f).straps = s.straps ∧ (s.takeOut f).stationNumber = s.stationNumber ∧ (s.takeOut f).area = s.area ∧
    (s.takeOut f).regions = s.regions ∧ (s.takeOut f).staging = s.staging ∧ (s.takeOut f).chain = s.chain ∧
    (s.takeOut f).p0 = s.p0 ∧ (s.takeOut f).p1 = s.p1 ∧ (s.takeOut f).p2 = s.p2 ∧ (s.takeOut f).p3 = s.p3 ∧
    (s.takeOut f).result = s.result ∧ (s.takeOut f).rateCode = s.rateCode ∧ (s.takeOut f).irqEnable = s.irqEnable ∧
    (s.takeOut f).phase = s.phase ∧ (s.takeOut f).spoilStreak = s.spoilStreak ∧ (s.takeOut f).lost = s.lost ∧
    (s.takeOut f).stationState = s.stationState ∧ (s.takeOut f).passCount = s.passCount ∧
    (s.takeOut f).window = s.window ∧ (s.takeOut f).join = s.join ∧ (s.takeOut f).lanes = s.lanes ∧
    (s.takeOut f).queue = s.queue ∧ (s.takeOut f).events = s.events ∧ (s.takeOut f).watches = s.watches := by
  unfold takeOut
  dsimp only
  repeat' split
  all_goals simp

@[simp] theorem tellLane_frame (s : State) (f : Flight) (st : Status) :
    (s.tellLane f st).pending = s.pending ∧ (s.tellLane f st).choices = s.choices ∧
    (s.tellLane f st).inReset = s.inReset ∧ (s.tellLane f st).straps = s.straps ∧
    (s.tellLane f st).stationNumber = s.stationNumber ∧ (s.tellLane f st).area = s.area ∧
    (s.tellLane f st).regions = s.regions ∧ (s.tellLane f st).staging = s.staging ∧
    (s.tellLane f st).chain = s.chain ∧ (s.tellLane f st).p0 = s.p0 ∧ (s.tellLane f st).p1 = s.p1 ∧
    (s.tellLane f st).p2 = s.p2 ∧ (s.tellLane f st).p3 = s.p3 ∧ (s.tellLane f st).result = s.result ∧
    (s.tellLane f st).rateCode = s.rateCode ∧ (s.tellLane f st).irqEnable = s.irqEnable ∧
    (s.tellLane f st).phase = s.phase ∧ (s.tellLane f st).flight = s.flight ∧
    (s.tellLane f st).laneSlots = s.laneSlots ∧ (s.tellLane f st).placement = s.placement ∧
    (s.tellLane f st).stationSlot = s.stationSlot ∧ (s.tellLane f st).stationNext = s.stationNext ∧
    (s.tellLane f st).imageSlot = s.imageSlot ∧ (s.tellLane f st).spoilStreak = s.spoilStreak ∧
    (s.tellLane f st).lost = s.lost ∧ (s.tellLane f st).stationState = s.stationState ∧
    (s.tellLane f st).passCount = s.passCount ∧ (s.tellLane f st).window = s.window ∧
    (s.tellLane f st).join = s.join ∧ (s.tellLane f st).queue = s.queue ∧ (s.tellLane f st).events = s.events ∧
    (s.tellLane f st).watches = s.watches := by
  unfold tellLane
  repeat' split
  all_goals simp

@[simp] theorem applyOwn_frame (s : State) (f : Flight) :
    (s.applyOwn f).pending = s.pending ∧ (s.applyOwn f).choices = s.choices ∧ (s.applyOwn f).inReset = s.inReset ∧
    (s.applyOwn f).straps = s.straps ∧ (s.applyOwn f).stationNumber = s.stationNumber ∧
    (s.applyOwn f).staging = s.staging ∧ (s.applyOwn f).chain = s.chain ∧ (s.applyOwn f).p0 = s.p0 ∧
    (s.applyOwn f).p1 = s.p1 ∧ (s.applyOwn f).p2 = s.p2 ∧ (s.applyOwn f).p3 = s.p3 ∧
    (s.applyOwn f).result = s.result ∧ (s.applyOwn f).rateCode = s.rateCode ∧ (s.applyOwn f).irqEnable = s.irqEnable ∧
    (s.applyOwn f).flight = s.flight ∧ (s.applyOwn f).spoilStreak = s.spoilStreak ∧
    (s.applyOwn f).passCount = s.passCount := by
  unfold applyOwn
  repeat' split
  all_goals simp

@[simp] theorem carriedFromPeer_frame (s : State) (f : Frame) :
    (s.carriedFromPeer f).pending = s.pending ∧ (s.carriedFromPeer f).inReset = s.inReset ∧
    (s.carriedFromPeer f).straps = s.straps ∧ (s.carriedFromPeer f).stationNumber = s.stationNumber ∧
    (s.carriedFromPeer f).staging = s.staging ∧ (s.carriedFromPeer f).chain = s.chain ∧
    (s.carriedFromPeer f).p0 = s.p0 ∧ (s.carriedFromPeer f).p1 = s.p1 ∧ (s.carriedFromPeer f).p2 = s.p2 ∧
    (s.carriedFromPeer f).p3 = s.p3 ∧ (s.carriedFromPeer f).result = s.result ∧
    (s.carriedFromPeer f).rateCode = s.rateCode ∧ (s.carriedFromPeer f).irqEnable = s.irqEnable ∧
    (s.carriedFromPeer f).spoilStreak = s.spoilStreak := by
  unfold carriedFromPeer
  repeat' split
  all_goals simp

@[simp] theorem carriedHere_frame (s : State) (b : List Byte) :
    (s.carriedHere b).pending = s.pending ∧ (s.carriedHere b).inReset = s.inReset ∧
    (s.carriedHere b).straps = s.straps ∧ (s.carriedHere b).stationNumber = s.stationNumber ∧
    (s.carriedHere b).staging = s.staging ∧ (s.carriedHere b).chain = s.chain ∧ (s.carriedHere b).p0 = s.p0 ∧
    (s.carriedHere b).p1 = s.p1 ∧ (s.carriedHere b).p2 = s.p2 ∧ (s.carriedHere b).p3 = s.p3 ∧
    (s.carriedHere b).result = s.result ∧ (s.carriedHere b).rateCode = s.rateCode ∧
    (s.carriedHere b).irqEnable = s.irqEnable := by
  unfold carriedHere
  dsimp only
  repeat' split
  all_goals simp

@[simp] theorem carriedAdrift_frame (s : State) (b : List Byte) :
    (s.carriedAdrift b).pending = s.pending ∧ (s.carriedAdrift b).inReset = s.inReset ∧
    (s.carriedAdrift b).straps = s.straps ∧ (s.carriedAdrift b).stationNumber = s.stationNumber ∧
    (s.carriedAdrift b).area = s.area ∧ (s.carriedAdrift b).staging = s.staging ∧
    (s.carriedAdrift b).chain = s.chain ∧ (s.carriedAdrift b).p0 = s.p0 ∧ (s.carriedAdrift b).p1 = s.p1 ∧
    (s.carriedAdrift b).p2 = s.p2 ∧ (s.carriedAdrift b).p3 = s.p3 ∧ (s.carriedAdrift b).result = s.result ∧
    (s.carriedAdrift b).rateCode = s.rateCode ∧ (s.carriedAdrift b).irqEnable = s.irqEnable := by
  unfold carriedAdrift
  dsimp only
  repeat' split
  all_goals simp

@[simp] theorem carriedFrameEnd_frame (s : State) (b : List Byte) :
    (s.carriedFrameEnd b).pending = s.pending ∧ (s.carriedFrameEnd b).inReset = s.inReset ∧
    (s.carriedFrameEnd b).straps = s.straps ∧ (s.carriedFrameEnd b).stationNumber = s.stationNumber ∧
    (s.carriedFrameEnd b).staging = s.staging ∧ (s.carriedFrameEnd b).chain = s.chain ∧
    (s.carriedFrameEnd b).p0 = s.p0 ∧ (s.carriedFrameEnd b).p1 = s.p1 ∧ (s.carriedFrameEnd b).p2 = s.p2 ∧
    (s.carriedFrameEnd b).p3 = s.p3 ∧ (s.carriedFrameEnd b).result = s.result ∧
    (s.carriedFrameEnd b).rateCode = s.rateCode ∧ (s.carriedFrameEnd b).irqEnable = s.irqEnable := by
  unfold carriedFrameEnd
  repeat' split
  all_goals simp

@[simp] theorem arbitrationLost_frame (s : State) :
    s.arbitrationLost.pending = s.pending ∧ s.arbitrationLost.inReset = s.inReset ∧
    s.arbitrationLost.straps = s.straps ∧ s.arbitrationLost.stationNumber = s.stationNumber ∧
    s.arbitrationLost.area = s.area ∧ s.arbitrationLost.regions = s.regions ∧ s.arbitrationLost.staging = s.staging ∧
    s.arbitrationLost.chain = s.chain ∧ s.arbitrationLost.p0 = s.p0 ∧ s.arbitrationLost.p1 = s.p1 ∧
    s.arbitrationLost.p2 = s.p2 ∧ s.arbitrationLost.p3 = s.p3 ∧ s.arbitrationLost.result = s.result ∧
    s.arbitrationLost.rateCode = s.rateCode ∧ s.arbitrationLost.irqEnable = s.irqEnable ∧
    s.arbitrationLost.phase = s.phase ∧ s.arbitrationLost.spoilStreak = s.spoilStreak ∧
    s.arbitrationLost.stationState = s.stationState ∧ s.arbitrationLost.passCount = s.passCount ∧
    s.arbitrationLost.window = s.window ∧ s.arbitrationLost.join = s.join := by
  unfold arbitrationLost
  repeat' split
  all_goals simp

@[simp] theorem failTake_frame (s : State) (l : LaneNo) (st : Status) (i : Index) :
    (s.failTake l st i).pending = s.pending ∧ (s.failTake l st i).choices = s.choices ∧
    (s.failTake l st i).inReset = s.inReset ∧ (s.failTake l st i).straps = s.straps ∧
    (s.failTake l st i).stationNumber = s.stationNumber ∧ (s.failTake l st i).area = s.area ∧
    (s.failTake l st i).regions = s.regions ∧ (s.failTake l st i).staging = s.staging ∧
    (s.failTake l st i).chain = s.chain ∧ (s.failTake l st i).p0 = s.p0 ∧ (s.failTake l st i).p1 = s.p1 ∧
    (s.failTake l st i).p2 = s.p2 ∧ (s.failTake l st i).p3 = s.p3 ∧ (s.failTake l st i).result = s.result ∧
    (s.failTake l st i).rateCode = s.rateCode ∧ (s.failTake l st i).irqEnable = s.irqEnable ∧
    (s.failTake l st i).phase = s.phase ∧ (s.failTake l st i).flight = s.flight ∧
    (s.failTake l st i).laneSlots = s.laneSlots ∧ (s.failTake l st i).placement = s.placement ∧
    (s.failTake l st i).stationSlot = s.stationSlot ∧ (s.failTake l st i).stationNext = s.stationNext ∧
    (s.failTake l st i).imageSlot = s.imageSlot ∧ (s.failTake l st i).spoilStreak = s.spoilStreak ∧
    (s.failTake l st i).lost = s.lost ∧ (s.failTake l st i).stationState = s.stationState ∧
    (s.failTake l st i).passCount = s.passCount ∧ (s.failTake l st i).window = s.window ∧
    (s.failTake l st i).join = s.join ∧ (s.failTake l st i).queue = s.queue ∧ (s.failTake l st i).events = s.events ∧
    (s.failTake l st i).watches = s.watches := by
  unfold failTake
  simp

@[simp] theorem beginEntry_frame (s : State) (l : LaneNo) (i : Index) (e : EntryCtx) :
    (s.beginEntry l i e).pending = s.pending ∧ (s.beginEntry l i e).choices = s.choices ∧
    (s.beginEntry l i e).inReset = s.inReset ∧ (s.beginEntry l i e).straps = s.straps ∧
    (s.beginEntry l i e).stationNumber = s.stationNumber ∧ (s.beginEntry l i e).area = s.area ∧
    (s.beginEntry l i e).regions = s.regions ∧ (s.beginEntry l i e).staging = s.staging ∧
    (s.beginEntry l i e).chain = s.chain ∧ (s.beginEntry l i e).p0 = s.p0 ∧ (s.beginEntry l i e).p1 = s.p1 ∧
    (s.beginEntry l i e).p2 = s.p2 ∧ (s.beginEntry l i e).p3 = s.p3 ∧ (s.beginEntry l i e).result = s.result ∧
    (s.beginEntry l i e).rateCode = s.rateCode ∧ (s.beginEntry l i e).irqEnable = s.irqEnable ∧
    (s.beginEntry l i e).phase = s.phase ∧ (s.beginEntry l i e).flight = s.flight ∧
    (s.beginEntry l i e).laneSlots = s.laneSlots ∧ (s.beginEntry l i e).placement = s.placement ∧
    (s.beginEntry l i e).stationSlot = s.stationSlot ∧ (s.beginEntry l i e).stationNext = s.stationNext ∧
    (s.beginEntry l i e).imageSlot = s.imageSlot ∧ (s.beginEntry l i e).spoilStreak = s.spoilStreak ∧
    (s.beginEntry l i e).lost = s.lost ∧ (s.beginEntry l i e).stationState = s.stationState ∧
    (s.beginEntry l i e).passCount = s.passCount ∧ (s.beginEntry l i e).window = s.window ∧
    (s.beginEntry l i e).join = s.join ∧ (s.beginEntry l i e).queue = s.queue ∧
    (s.beginEntry l i e).events = s.events ∧ (s.beginEntry l i e).watches = s.watches := by
  unfold beginEntry
  simp

@[simp] theorem handNotes_frame (s : State) (l : LaneNo) (x : Option (Index × Word)) (n : Nat) :
    (s.handNotes l x n).pending = s.pending ∧ (s.handNotes l x n).choices = s.choices ∧
    (s.handNotes l x n).inReset = s.inReset ∧ (s.handNotes l x n).straps = s.straps ∧
    (s.handNotes l x n).stationNumber = s.stationNumber ∧ (s.handNotes l x n).area = s.area ∧
    (s.handNotes l x n).regions = s.regions ∧ (s.handNotes l x n).staging = s.staging ∧
    (s.handNotes l x n).chain = s.chain ∧ (s.handNotes l x n).p0 = s.p0 ∧ (s.handNotes l x n).p1 = s.p1 ∧
    (s.handNotes l x n).p2 = s.p2 ∧ (s.handNotes l x n).p3 = s.p3 ∧ (s.handNotes l x n).result = s.result ∧
    (s.handNotes l x n).rateCode = s.rateCode ∧ (s.handNotes l x n).irqEnable = s.irqEnable ∧
    (s.handNotes l x n).phase = s.phase ∧ (s.handNotes l x n).flight = s.flight ∧
    (s.handNotes l x n).laneSlots = s.laneSlots ∧ (s.handNotes l x n).placement = s.placement ∧
    (s.handNotes l x n).stationSlot = s.stationSlot ∧ (s.handNotes l x n).stationNext = s.stationNext ∧
    (s.handNotes l x n).imageSlot = s.imageSlot ∧ (s.handNotes l x n).spoilStreak = s.spoilStreak ∧
    (s.handNotes l x n).stationState = s.stationState ∧ (s.handNotes l x n).passCount = s.passCount ∧
    (s.handNotes l x n).window = s.window ∧ (s.handNotes l x n).join = s.join := by
  unfold handNotes
  repeat' split
  all_goals simp

@[simp] theorem placeFrame_frame (s : State) (l : LaneNo) (f : LaneFrame) :
    (s.placeFrame l f).pending = s.pending ∧ (s.placeFrame l f).choices = s.choices ∧
    (s.placeFrame l f).inReset = s.inReset ∧ (s.placeFrame l f).straps = s.straps ∧
    (s.placeFrame l f).stationNumber = s.stationNumber ∧ (s.placeFrame l f).area = s.area ∧
    (s.placeFrame l f).regions = s.regions ∧ (s.placeFrame l f).staging = s.staging ∧
    (s.placeFrame l f).chain = s.chain ∧ (s.placeFrame l f).p0 = s.p0 ∧ (s.placeFrame l f).p1 = s.p1 ∧
    (s.placeFrame l f).p2 = s.p2 ∧ (s.placeFrame l f).p3 = s.p3 ∧ (s.placeFrame l f).result = s.result ∧
    (s.placeFrame l f).rateCode = s.rateCode ∧ (s.placeFrame l f).irqEnable = s.irqEnable ∧
    (s.placeFrame l f).phase = s.phase ∧ (s.placeFrame l f).flight = s.flight ∧
    (s.placeFrame l f).stationSlot = s.stationSlot ∧ (s.placeFrame l f).stationNext = s.stationNext ∧
    (s.placeFrame l f).imageSlot = s.imageSlot ∧ (s.placeFrame l f).spoilStreak = s.spoilStreak ∧
    (s.placeFrame l f).lost = s.lost ∧ (s.placeFrame l f).stationState = s.stationState ∧
    (s.placeFrame l f).passCount = s.passCount ∧ (s.placeFrame l f).window = s.window ∧
    (s.placeFrame l f).join = s.join ∧ (s.placeFrame l f).queue = s.queue ∧ (s.placeFrame l f).events = s.events ∧
    (s.placeFrame l f).watches = s.watches := by
  unfold placeFrame
  simp

@[simp] theorem takeGoto_frame (s : State) (l : LaneNo) :
    (s.takeGoto l).pending = s.pending ∧ (s.takeGoto l).choices = s.choices ∧ (s.takeGoto l).inReset = s.inReset ∧
    (s.takeGoto l).straps = s.straps ∧ (s.takeGoto l).stationNumber = s.stationNumber ∧ (s.takeGoto l).area = s.area ∧
    (s.takeGoto l).regions = s.regions ∧ (s.takeGoto l).staging = s.staging ∧ (s.takeGoto l).chain = s.chain ∧
    (s.takeGoto l).p0 = s.p0 ∧ (s.takeGoto l).p1 = s.p1 ∧ (s.takeGoto l).p2 = s.p2 ∧ (s.takeGoto l).p3 = s.p3 ∧
    (s.takeGoto l).result = s.result ∧ (s.takeGoto l).rateCode = s.rateCode ∧ (s.takeGoto l).irqEnable = s.irqEnable ∧
    (s.takeGoto l).phase = s.phase ∧ (s.takeGoto l).flight = s.flight ∧ (s.takeGoto l).laneSlots = s.laneSlots ∧
    (s.takeGoto l).placement = s.placement ∧ (s.takeGoto l).stationSlot = s.stationSlot ∧
    (s.takeGoto l).stationNext = s.stationNext ∧ (s.takeGoto l).imageSlot = s.imageSlot ∧
    (s.takeGoto l).spoilStreak = s.spoilStreak ∧ (s.takeGoto l).lost = s.lost ∧
    (s.takeGoto l).stationState = s.stationState ∧ (s.takeGoto l).passCount = s.passCount ∧
    (s.takeGoto l).window = s.window ∧ (s.takeGoto l).join = s.join ∧ (s.takeGoto l).queue = s.queue ∧
    (s.takeGoto l).events = s.events ∧ (s.takeGoto l).watches = s.watches := by
  unfold takeGoto
  dsimp only
  repeat' split
  all_goals simp

@[simp] theorem putAction_frame (s : State) (l : LaneNo) (r : RegionNo) (k : Nat) (g : Group) :
    (s.putAction l r k g).pending = s.pending ∧ (s.putAction l r k g).choices = s.choices ∧
    (s.putAction l r k g).inReset = s.inReset ∧ (s.putAction l r k g).straps = s.straps ∧
    (s.putAction l r k g).stationNumber = s.stationNumber ∧ (s.putAction l r k g).area = s.area ∧
    (s.putAction l r k g).regions = s.regions ∧ (s.putAction l r k g).staging = s.staging ∧
    (s.putAction l r k g).chain = s.chain ∧ (s.putAction l r k g).p0 = s.p0 ∧ (s.putAction l r k g).p1 = s.p1 ∧
    (s.putAction l r k g).p2 = s.p2 ∧ (s.putAction l r k g).p3 = s.p3 ∧ (s.putAction l r k g).result = s.result ∧
    (s.putAction l r k g).rateCode = s.rateCode ∧ (s.putAction l r k g).irqEnable = s.irqEnable ∧
    (s.putAction l r k g).phase = s.phase ∧ (s.putAction l r k g).flight = s.flight ∧
    (s.putAction l r k g).stationSlot = s.stationSlot ∧ (s.putAction l r k g).stationNext = s.stationNext ∧
    (s.putAction l r k g).imageSlot = s.imageSlot ∧ (s.putAction l r k g).spoilStreak = s.spoilStreak ∧
    (s.putAction l r k g).lost = s.lost ∧ (s.putAction l r k g).stationState = s.stationState ∧
    (s.putAction l r k g).passCount = s.passCount ∧ (s.putAction l r k g).window = s.window ∧
    (s.putAction l r k g).join = s.join ∧ (s.putAction l r k g).queue = s.queue ∧
    (s.putAction l r k g).events = s.events ∧ (s.putAction l r k g).watches = s.watches := by
  unfold putAction
  repeat' split
  all_goals simp

@[simp] theorem getAction_frame (s : State) (l : LaneNo) (r : RegionNo) (k : Nat) (g : Group) :
    (s.getAction l r k g).pending = s.pending ∧ (s.getAction l r k g).choices = s.choices ∧
    (s.getAction l r k g).inReset = s.inReset ∧ (s.getAction l r k g).straps = s.straps ∧
    (s.getAction l r k g).stationNumber = s.stationNumber ∧ (s.getAction l r k g).area = s.area ∧
    (s.getAction l r k g).regions = s.regions ∧ (s.getAction l r k g).chain = s.chain ∧
    (s.getAction l r k g).p0 = s.p0 ∧ (s.getAction l r k g).p1 = s.p1 ∧ (s.getAction l r k g).p2 = s.p2 ∧
    (s.getAction l r k g).p3 = s.p3 ∧ (s.getAction l r k g).result = s.result ∧
    (s.getAction l r k g).rateCode = s.rateCode ∧ (s.getAction l r k g).irqEnable = s.irqEnable ∧
    (s.getAction l r k g).phase = s.phase ∧ (s.getAction l r k g).flight = s.flight ∧
    (s.getAction l r k g).laneSlots = s.laneSlots ∧ (s.getAction l r k g).placement = s.placement ∧
    (s.getAction l r k g).stationSlot = s.stationSlot ∧ (s.getAction l r k g).stationNext = s.stationNext ∧
    (s.getAction l r k g).imageSlot = s.imageSlot ∧ (s.getAction l r k g).spoilStreak = s.spoilStreak ∧
    (s.getAction l r k g).lost = s.lost ∧ (s.getAction l r k g).stationState = s.stationState ∧
    (s.getAction l r k g).passCount = s.passCount ∧ (s.getAction l r k g).window = s.window ∧
    (s.getAction l r k g).join = s.join ∧ (s.getAction l r k g).queue = s.queue ∧
    (s.getAction l r k g).events = s.events ∧ (s.getAction l r k g).watches = s.watches := by
  unfold getAction
  repeat' split
  all_goals simp

@[simp] theorem claimAction_frame (s : State) (l : LaneNo) (r : RegionNo) (b : Bool) :
    (s.claimAction l r b).pending = s.pending ∧ (s.claimAction l r b).choices = s.choices ∧
    (s.claimAction l r b).inReset = s.inReset ∧ (s.claimAction l r b).straps = s.straps ∧
    (s.claimAction l r b).stationNumber = s.stationNumber ∧ (s.claimAction l r b).area = s.area ∧
    (s.claimAction l r b).regions = s.regions ∧ (s.claimAction l r b).staging = s.staging ∧
    (s.claimAction l r b).chain = s.chain ∧ (s.claimAction l r b).p0 = s.p0 ∧ (s.claimAction l r b).p1 = s.p1 ∧
    (s.claimAction l r b).p2 = s.p2 ∧ (s.claimAction l r b).p3 = s.p3 ∧ (s.claimAction l r b).result = s.result ∧
    (s.claimAction l r b).rateCode = s.rateCode ∧ (s.claimAction l r b).irqEnable = s.irqEnable ∧
    (s.claimAction l r b).phase = s.phase ∧ (s.claimAction l r b).flight = s.flight ∧
    (s.claimAction l r b).stationSlot = s.stationSlot ∧ (s.claimAction l r b).stationNext = s.stationNext ∧
    (s.claimAction l r b).imageSlot = s.imageSlot ∧ (s.claimAction l r b).spoilStreak = s.spoilStreak ∧
    (s.claimAction l r b).lost = s.lost ∧ (s.claimAction l r b).stationState = s.stationState ∧
    (s.claimAction l r b).passCount = s.passCount ∧ (s.claimAction l r b).window = s.window ∧
    (s.claimAction l r b).join = s.join ∧ (s.claimAction l r b).queue = s.queue ∧
    (s.claimAction l r b).events = s.events ∧ (s.claimAction l r b).watches = s.watches := by
  unfold claimAction
  repeat' split
  all_goals simp

@[simp] theorem releaseAction_frame (s : State) (l : LaneNo) (r : RegionNo) :
    (s.releaseAction l r).pending = s.pending ∧ (s.releaseAction l r).choices = s.choices ∧
    (s.releaseAction l r).inReset = s.inReset ∧ (s.releaseAction l r).straps = s.straps ∧
    (s.releaseAction l r).stationNumber = s.stationNumber ∧ (s.releaseAction l r).area = s.area ∧
    (s.releaseAction l r).regions = s.regions ∧ (s.releaseAction l r).staging = s.staging ∧
    (s.releaseAction l r).chain = s.chain ∧ (s.releaseAction l r).p0 = s.p0 ∧ (s.releaseAction l r).p1 = s.p1 ∧
    (s.releaseAction l r).p2 = s.p2 ∧ (s.releaseAction l r).p3 = s.p3 ∧ (s.releaseAction l r).result = s.result ∧
    (s.releaseAction l r).rateCode = s.rateCode ∧ (s.releaseAction l r).irqEnable = s.irqEnable ∧
    (s.releaseAction l r).phase = s.phase ∧ (s.releaseAction l r).flight = s.flight ∧
    (s.releaseAction l r).stationSlot = s.stationSlot ∧ (s.releaseAction l r).stationNext = s.stationNext ∧
    (s.releaseAction l r).imageSlot = s.imageSlot ∧ (s.releaseAction l r).spoilStreak = s.spoilStreak ∧
    (s.releaseAction l r).lost = s.lost ∧ (s.releaseAction l r).stationState = s.stationState ∧
    (s.releaseAction l r).passCount = s.passCount ∧ (s.releaseAction l r).window = s.window ∧
    (s.releaseAction l r).join = s.join ∧ (s.releaseAction l r).queue = s.queue ∧
    (s.releaseAction l r).events = s.events ∧ (s.releaseAction l r).watches = s.watches := by
  unfold releaseAction
  repeat' split
  all_goals simp

@[simp] theorem waitAction_frame (s : State) (l : LaneNo) (c : WaitCond) (n : Nat) :
    (s.waitAction l c n).pending = s.pending ∧ (s.waitAction l c n).choices = s.choices ∧
    (s.waitAction l c n).inReset = s.inReset ∧ (s.waitAction l c n).straps = s.straps ∧
    (s.waitAction l c n).stationNumber = s.stationNumber ∧ (s.waitAction l c n).area = s.area ∧
    (s.waitAction l c n).regions = s.regions ∧ (s.waitAction l c n).staging = s.staging ∧
    (s.waitAction l c n).chain = s.chain ∧ (s.waitAction l c n).p0 = s.p0 ∧ (s.waitAction l c n).p1 = s.p1 ∧
    (s.waitAction l c n).p2 = s.p2 ∧ (s.waitAction l c n).p3 = s.p3 ∧ (s.waitAction l c n).result = s.result ∧
    (s.waitAction l c n).rateCode = s.rateCode ∧ (s.waitAction l c n).irqEnable = s.irqEnable ∧
    (s.waitAction l c n).phase = s.phase ∧ (s.waitAction l c n).flight = s.flight ∧
    (s.waitAction l c n).laneSlots = s.laneSlots ∧ (s.waitAction l c n).placement = s.placement ∧
    (s.waitAction l c n).stationSlot = s.stationSlot ∧ (s.waitAction l c n).stationNext = s.stationNext ∧
    (s.waitAction l c n).imageSlot = s.imageSlot ∧ (s.waitAction l c n).spoilStreak = s.spoilStreak ∧
    (s.waitAction l c n).lost = s.lost ∧ (s.waitAction l c n).stationState = s.stationState ∧
    (s.waitAction l c n).passCount = s.passCount ∧ (s.waitAction l c n).window = s.window ∧
    (s.waitAction l c n).join = s.join ∧ (s.waitAction l c n).queue = s.queue ∧
    (s.waitAction l c n).events = s.events ∧ (s.waitAction l c n).watches = s.watches := by
  unfold waitAction
  repeat' split
  all_goals simp

@[simp] theorem takeEntry_frame (s : State) (l : LaneNo) :
    (s.takeEntry l).pending = s.pending ∧ (s.takeEntry l).choices = s.choices ∧ (s.takeEntry l).inReset = s.inReset ∧
    (s.takeEntry l).straps = s.straps ∧ (s.takeEntry l).stationNumber = s.stationNumber ∧
    (s.takeEntry l).area = s.area ∧ (s.takeEntry l).regions = s.regions ∧ (s.takeEntry l).chain = s.chain ∧
    (s.takeEntry l).p0 = s.p0 ∧ (s.takeEntry l).p1 = s.p1 ∧ (s.takeEntry l).p2 = s.p2 ∧ (s.takeEntry l).p3 = s.p3 ∧
    (s.takeEntry l).result = s.result ∧ (s.takeEntry l).rateCode = s.rateCode ∧
    (s.takeEntry l).irqEnable = s.irqEnable ∧ (s.takeEntry l).phase = s.phase ∧ (s.takeEntry l).flight = s.flight ∧
    (s.takeEntry l).stationSlot = s.stationSlot ∧ (s.takeEntry l).stationNext = s.stationNext ∧
    (s.takeEntry l).imageSlot = s.imageSlot ∧ (s.takeEntry l).spoilStreak = s.spoilStreak ∧
    (s.takeEntry l).stationState = s.stationState ∧ (s.takeEntry l).passCount = s.passCount ∧
    (s.takeEntry l).window = s.window ∧ (s.takeEntry l).join = s.join := by
  unfold takeEntry takeTransfer takeSingle
  dsimp only
  repeat' split
  all_goals simp

@[simp] theorem entryTake_frame (s : State) (l : LaneNo) :
    (s.entryTake l).pending = s.pending ∧ (s.entryTake l).inReset = s.inReset ∧ (s.entryTake l).straps = s.straps ∧
    (s.entryTake l).stationNumber = s.stationNumber ∧ (s.entryTake l).area = s.area ∧
    (s.entryTake l).regions = s.regions ∧ (s.entryTake l).chain = s.chain ∧ (s.entryTake l).p0 = s.p0 ∧
    (s.entryTake l).p1 = s.p1 ∧ (s.entryTake l).p2 = s.p2 ∧ (s.entryTake l).p3 = s.p3 ∧
    (s.entryTake l).result = s.result ∧ (s.entryTake l).rateCode = s.rateCode ∧
    (s.entryTake l).irqEnable = s.irqEnable ∧ (s.entryTake l).phase = s.phase ∧ (s.entryTake l).flight = s.flight ∧
    (s.entryTake l).stationSlot = s.stationSlot ∧ (s.entryTake l).stationNext = s.stationNext ∧
    (s.entryTake l).imageSlot = s.imageSlot ∧ (s.entryTake l).spoilStreak = s.spoilStreak ∧
    (s.entryTake l).stationState = s.stationState ∧ (s.entryTake l).passCount = s.passCount ∧
    (s.entryTake l).window = s.window ∧ (s.entryTake l).join = s.join := by
  unfold entryTake
  repeat' split
  all_goals simp

end Sys2Proof.Machine.State
end

