-- ==== Sys2Proof/Laws/Memory.lean ====
section
/-! SUPPORT. The addressed stores: what a write changes, and that every store operation keeps the canonical form. -/

namespace Sys2Proof.Machine.Memory

/-! ## Reading after writing -/

theorem read_of_lt (m : Memory) (a : Nat) (h : ∀ c ∈ m, a < c.1) : read m a = 0 := by
  induction m with
  | nil => rfl
  | cons c m ih =>
    have h1 := h c (by simp)
    have h2 : a ≠ c.1 := by omega
    simp only [read, h2, if_false]
    exact ih fun d hd => h d (by simp [hd])

/-- Reading one byte after writing one byte. -/
theorem read_write (m : Memory) (hm : m.wf) (a b : Nat) (v : Byte) :
    (m.write a v).read b = if b = a then v else m.read b := by
  induction m with
  | nil =>
    simp only [write]
    split
    · next hv => by_cases hb : b = a <;> simp [read, hv]
    · by_cases hb : b = a <;> simp [read, hb]
  | cons c m ih =>
    have hp := hm.1
    rw [List.pairwise_cons] at hp
    have hm' : wf m := ⟨hp.2, fun d hd => hm.2 d (by simp [hd])⟩
    by_cases h1 : a < c.1
    · have hz : read (c :: m) a = 0 := by
        apply read_of_lt
        intro d hd
        rcases List.mem_cons.1 hd with rfl | hd
        · exact h1
        · exact lt_trans h1 (hp.1 d hd)
      by_cases hv : v = 0
      · simp only [write, h1, if_true, hv]
        split
        · next hb => rw [hb, hz]
        · rfl
      · simp only [write, h1, if_true, hv, if_false]
        by_cases hb : b = a <;> simp [read, hb]
    · by_cases h2 : a = c.1
      · subst h2
        simp only [write, lt_irrefl, if_false, if_true]
        by_cases hv : v = 0
        · simp only [hv, if_true]
          by_cases hb : b = c.1
          · rw [if_pos hb, hb]
            exact read_of_lt m _ fun d hd => hp.1 d hd
          · simp [read, hb]
        · simp only [hv, if_false]
          by_cases hb : b = c.1 <;> simp [read, hb]
      · simp only [write, h1, h2, if_false, read, ih hm']
        by_cases hb : b = c.1
        · have : b ≠ a := by omega
          simp [hb, Ne.symm h2]
        · simp [hb]

/-! ## The canonical form -/

theorem mem_write {m : Memory} {a : Nat} {v : Byte} {c : Host.Cell} (h : c ∈ m.write a v) : c = (a, v) ∨ c ∈ m := by
  induction m with
  | nil => by_cases hv : v = 0 <;> simp_all [write]
  | cons d m ih =>
    simp only [write] at h
    split at h
    · split at h
      · exact Or.inr h
      · simpa using h
    · split at h
      · split at h
        · exact Or.inr (List.mem_cons_of_mem _ h)
        · rcases List.mem_cons.1 h with h | h
          · exact Or.inl h
          · exact Or.inr (List.mem_cons_of_mem _ h)
      · rcases List.mem_cons.1 h with h | h
        · exact Or.inr (by simp [h])
        · rcases ih h with h | h
          · exact Or.inl h
          · exact Or.inr (List.mem_cons_of_mem _ h)

theorem ne_zero_of_mem_write {m : Memory} (hm : ∀ c ∈ m, c.2 ≠ 0) {a : Nat} {v : Byte} :
    ∀ c ∈ m.write a v, c.2 ≠ 0 := by
  induction m with
  | nil =>
    intro c hc
    by_cases hv : v = 0 <;> simp_all [write]
  | cons d m ih =>
    have h1 : ∀ c ∈ m, c.2 ≠ 0 := fun c hc => hm c (by simp [hc])
    have h2 := ih h1
    have h3 := hm d (by simp)
    intro c hc
    simp only [write] at hc
    split at hc
    · split at hc
      · exact hm c hc
      · next hv =>
        rcases List.mem_cons.1 hc with rfl | hc
        · exact hv
        · exact hm c hc
    · split at hc
      · split at hc
        · exact h1 c hc
        · next hv =>
          rcases List.mem_cons.1 hc with rfl | hc
          · exact hv
          · exact h1 c hc
      · rcases List.mem_cons.1 hc with rfl | hc
        · exact h3
        · exact h2 c hc

/-- Writing one byte keeps the canonical form. -/
theorem write_wf (m : Memory) (hm : m.wf) (a : Nat) (v : Byte) : (m.write a v).wf := by
  refine ⟨?_, ne_zero_of_mem_write hm.2⟩
  induction m with
  | nil =>
    simp only [write]
    split <;> simp
  | cons c m ih =>
    have hp := hm.1
    rw [List.pairwise_cons] at hp
    have hm' : wf m := ⟨hp.2, fun d hd => hm.2 d (by simp [hd])⟩
    simp only [write]
    split
    · next h =>
      split
      · exact hm.1
      · refine List.pairwise_cons.2 ⟨fun d hd => ?_, hm.1⟩
        rcases List.mem_cons.1 hd with rfl | hd
        · exact h
        · exact lt_trans h (hp.1 d hd)
    · next h =>
      split
      · next h2 =>
        split
        · exact hp.2
        · exact List.pairwise_cons.2 ⟨fun d hd => by simpa [h2] using hp.1 d hd, hp.2⟩
      · next h2 =>
        refine List.pairwise_cons.2 ⟨fun d hd => ?_, ih hm'⟩
        rcases mem_write hd with rfl | hd
        · exact lt_of_le_of_ne (not_lt.1 h) (Ne.symm h2)
        · exact hp.1 d hd

theorem write_below {n : Nat} {m : Memory} (hm : m.below n) {a : Nat} (ha : a < n) (v : Byte) :
    (m.write a v).below n := by
  intro c hc
  rcases mem_write hc with rfl | hc
  · exact ha
  · exact hm c hc

/-- Writing a run of bytes keeps the canonical form. -/
theorem writeBytes_wf (d : List Byte) : ∀ (m : Memory), m.wf → ∀ a, (m.writeBytes a d).wf := by
  induction d with
  | nil => exact fun m hm _ => hm
  | cons v d ih => exact fun m hm a => ih _ (write_wf m hm a v) _

theorem writeBytes_below {n : Nat} (d : List Byte) :
    ∀ (m : Memory), m.below n → ∀ a, a + d.length ≤ n → (m.writeBytes a d).below n := by
  induction d with
  | nil => exact fun m hm _ _ => hm
  | cons v d ih =>
    intro m hm a ha
    simp only [List.length_cons] at ha
    exact ih _ (write_below hm (by omega) v) _ (by omega)

/-- Reading one byte after writing a run of bytes: the byte of the run at that address, or the byte before. -/
theorem read_writeBytes (d : List Byte) : ∀ (m : Memory), m.wf → ∀ a b,
    (m.writeBytes a d).read b = if h : a ≤ b ∧ b < a + d.length then d[b - a]'(by omega) else m.read b := by
  induction d with
  | nil =>
    intro m hm a b
    simp [writeBytes]
  | cons v d ih =>
    intro m hm a b
    simp only [writeBytes, List.length_cons]
    rw [ih _ (write_wf m hm a v), read_write m hm]
    by_cases h1 : b = a
    · subst h1
      simp
    · by_cases h2 : a + 1 ≤ b ∧ b < a + 1 + d.length
      · rw [dif_pos h2, dif_pos (by omega)]
        have : b - a = (b - (a + 1)) + 1 := by omega
        simp only [this, List.getElem_cons_succ]
      · rw [dif_neg h2, if_neg h1, dif_neg (by omega)]

theorem writeWord_wf (m : Memory) (hm : m.wf) (w : Nat) (v : Word) : (m.writeWord w v).wf :=
  write_wf _ (write_wf m hm _ _) _ _

theorem writeWord_below {n : Nat} {m : Memory} (hm : m.below n) {w : Nat} (hw : 2 * w + 1 < n) (v : Word) :
    (m.writeWord w v).below n :=
  write_below (write_below hm (by omega) _) hw _

/-- Reading one byte after a word write. -/
theorem read_writeWord (m : Memory) (hm : m.wf) (w : Nat) (v : Word) (b : Nat) :
    (m.writeWord w v).read b = if b = 2 * w then loByte v else if b = 2 * w + 1 then hiByte v else m.read b := by
  rw [writeWord, read_write _ (write_wf m hm _ _), read_write m hm]
  by_cases h1 : b = 2 * w
  · have : b ≠ 2 * w + 1 := by omega
    simp [h1]
  · simp [h1]

/-- A word is its two bytes. -/
theorem wordOf_loByte_hiByte (w : Word) : wordOf (loByte w) (hiByte w) = w := by
  unfold wordOf loByte hiByte
  ext i hi
  simp only [BitVec.getElem_or, BitVec.getElem_shiftLeft, BitVec.getElem_setWidth, BitVec.getLsbD_setWidth,
    BitVec.getLsbD_ushiftRight]
  by_cases h : i < 8
  · simp [h, BitVec.getLsbD_eq_getElem hi]
  · have h2 : i - 8 < 8 := by omega
    have h3 : 8 + (i - 8) = i := by omega
    simp [h, h2, h3, BitVec.getLsbD_eq_getElem hi]

/-- Reading a word after writing it. -/
theorem readWord_writeWord (m : Memory) (hm : m.wf) (w : Nat) (v : Word) : (m.writeWord w v).readWord w = v := by
  rw [readWord, read_writeWord m hm, read_writeWord m hm]
  simp [wordOf_loByte_hiByte]

theorem readBytes_length (m : Memory) : ∀ (n a : Nat), (m.readBytes a n).length = n := by
  intro n
  induction n with
  | zero => exact fun _ => rfl
  | succ n ih => intro a; simp [readBytes, ih]

theorem readBytes_getElem (m : Memory) : ∀ (n a i : Nat) (h : i < (m.readBytes a n).length),
    (m.readBytes a n)[i] = m.read (a + i) := by
  intro n
  induction n with
  | zero => intro a i h; simp [readBytes] at h
  | succ n ih =>
    intro a i h
    cases i with
    | zero => rfl
    | succ i =>
      simp only [readBytes, List.getElem_cons_succ]
      rw [ih]
      congr 1
      omega

end Sys2Proof.Machine.Memory
end

