-- ==== Sys2Proof/Laws/Regions.lean ====
section
/-! SUPPORT. What the operations over the region table and the station slot do, said once: the record of each region
after them, the lowest and highest region with a property, and the ASK that spans them. -/

namespace Sys2Proof.Machine.State

/-- A report changes no region record. -/
theorem region_report (s : State) (rep r) : (s.report rep).region r = s.region r := by simp [region]

/-- R25, R26. -/
theorem region_loseRegions (s : State) (r : RegionNo) :
    s.loseRegions.region r = { s.region r with state := .stale, owner := none, responding := false } := by
  simp [loseRegions, region, mapRegions]

/-- R12. -/
theorem region_declareOrphans (s : State) (r : RegionNo) :
    s.declareOrphans.region r =
      if (s.region r).state = .refreshing then { s.region r with state := .current, owner := none, count := 0 }
      else s.region r := by
  have h1 : ∀ (z : List Byte), (s.refreshing.foldl (fun t r => t.writeRegionBytes r 0 z) s).regions = s.regions :=
    fun z => foldl_keeps State.regions _ (fun t r => by simp) _ _
  unfold declareOrphans region
  rw [foldl_keeps State.regions _ (fun t r => by simp)]
  simp only [mapRegions, Vector.getElem_ofFn, h1]

/-- R56. -/
theorem region_clearOwner (s : State) (x : Station) (r : RegionNo) :
    (s.clearOwner x).region r = if s.ownedBy x r then { s.region r with owner := none } else s.region r := by
  have h : (s.clearOwner x).regions =
      (s.mapRegions fun r y => if s.ownedBy x r then { y with owner := none } else y).regions :=
    foldl_keeps State.regions _ (fun t r => by simp) _ _
  rw [region, h]
  exact region_mapRegions s _ r

/-- R9. -/
theorem region_installImage (s : State) (r o c d q) : (s.installImage r o c d).region q =
    if q = r then { s.region r with state := .current, owner := o, count := c } else s.region q := by
  unfold State.installImage
  rw [region_report, region_setRegion]
  simp

/-- R75. -/
theorem region_refreshRange (s : State) (a b) (r) : (s.refreshRange a b).region r =
    if inRange a b r = true ∧ (s.region r).state = .stale then { s.region r with state := .refreshing }
    else s.region r := by
  unfold State.refreshRange; rw [region_mapRegions]

/-- R25, R89. -/
theorem region_driftFlush (s : State) (r) : s.driftFlush.region r =
    { s.region r with state := .stale, owner := none, responding := false } := by
  have : s.driftFlush.regions = s.detachLanes.loseRegions.regions := by unfold State.driftFlush; simp
  have h2 := region_loseRegions s.detachLanes r
  simpa [region, this] using h2

/-- R50, R89. -/
theorem driftFlush_fields (s : State) :
    s.driftFlush.stationSlot = none ∧ s.driftFlush.stationNext = none ∧ s.driftFlush.flight = s.flight.map Flight.detach ∧
   s.driftFlush.window = none ∧ s.driftFlush.passCount = 0 ∧ s.driftFlush.join = none ∧
    s.driftFlush.imageSlot = none ∧ s.driftFlush.laneSlots = Vector.replicate 4 none ∧ s.driftFlush.placement = [] := by
  unfold State.driftFlush
  simp [loseRegions]

/-- The lowest region has the property, and no lower one has it. -/
theorem lowest_some {p : RegionNo → Bool} {a} (h : lowest p = some a) : p a = true ∧ ∀ r, p r = true → a ≤ r := by
  unfold lowest at h
  refine ⟨List.find?_some h, ?_⟩
  intro r hr
  by_contra hlt
  rw [List.find?_eq_some_iff_append] at h
  obtain ⟨_, as, bs, h1, h2⟩ := h
  have hsort : (List.finRange 128).Pairwise (· < ·) := List.pairwise_lt_finRange 128
  have hm : r ∈ as ++ a :: bs := h1 ▸ List.mem_finRange r
  rw [h1] at hsort
  rw [List.pairwise_append] at hsort
  rcases List.mem_append.1 hm with hm | hm
  · have := h2 r hm; simp [hr] at this
  · rcases List.mem_cons.1 hm with rfl | hm
    · exact hlt le_rfl
    · have := (List.pairwise_cons.1 hsort.2.1).1 r hm
      exact hlt this.le

theorem lowest_none {p : RegionNo → Bool} (h : lowest p = none) : ∀ r, p r = false := by
  intro r
  unfold lowest at h
  rw [List.find?_eq_none] at h
  simpa using h r (List.mem_finRange r)

/-- The highest region has the property, and no higher one has it. -/
theorem highest_some {p : RegionNo → Bool} {a} (h : highest p = some a) : p a = true ∧ ∀ r, p r = true → r ≤ a := by
  unfold highest at h
  refine ⟨List.find?_some h, ?_⟩
  intro r hr
  by_contra hlt
  rw [List.find?_eq_some_iff_append] at h
  obtain ⟨_, as, bs, h1, h2⟩ := h
  have hsort : (List.finRange 128).reverse.Pairwise (· > ·) := by
    rw [List.pairwise_reverse]; exact List.pairwise_lt_finRange 128
  have hm : r ∈ as ++ a :: bs := h1 ▸ List.mem_reverse.2 (List.mem_finRange r)
  rw [h1] at hsort
  rw [List.pairwise_append] at hsort
  rcases List.mem_append.1 hm with hm | hm
  · have := h2 r hm; simp [hr] at this
  · rcases List.mem_cons.1 hm with rfl | hm
    · exact hlt le_rfl
    · have := (List.pairwise_cons.1 hsort.2.1).1 r hm
      exact hlt this.le

theorem highest_none {p : RegionNo → Bool} (h : highest p = none) : ∀ r, p r = false := by
  intro r
  unfold highest at h
  rw [List.find?_eq_none] at h
  simpa using h r (by simp)

/-- An ASK placed over a property covers every region that has it. -/
theorem askSpan_covers {p : RegionNo → Bool} {f} (h : askSpan p = some f) :
    ∃ a c, f = .ask a c ∧ ∀ r, p r = true → inRange a c r = true := by
  unfold askSpan at h
  split at h
  · next a b ha hb =>
    cases h
    refine ⟨_, _, rfl, ?_⟩
    intro r hr
    have h1 : a ≤ r := (lowest_some ha).2 r hr
    have h2 : r ≤ b := (highest_some hb).2 r hr
    simp only [inRange, Bool.and_eq_true, decide_eq_true_eq]
    have h1' : a.val ≤ r.val := h1
    have h2' : r.val ≤ b.val := h2
    omega
  · simp at h

/-- The ownership logic changes no region's state. -/
theorem state_changeOwner (s : State) (x r o q) : ((s.changeOwner x r o).region q).state = (s.region q).state := by
  unfold State.changeOwner
  have : ∀ (u : State) ch, (u.withdrawalCheck ch).region q = u.region q := by intro u ch; simp [region]
  rw [this, region_report, region_setRegion]; split
  · next e => rw [e]
  · rfl

theorem region_loseOwnership (s : State) (r x q) : (s.loseOwnership r x).region q = s.region q := by simp [region]

theorem state_applyClaim (s : State) (x b r q) : ((s.applyClaim x b r).region q).state = (s.region q).state := by
  unfold State.applyClaim
  repeat' split
  all_goals first | rfl | (rw [state_changeOwner]; done) | (rw [state_changeOwner, region_loseOwnership])

theorem state_applyRelease (s : State) (x r q) : ((s.applyRelease x r).region q).state = (s.region q).state := by
  unfold State.applyRelease
  split
  · rw [state_changeOwner]
  · rfl

/-- An UPDATE changes no region's state (R7). -/
theorem state_applyUpdate (s : State) (x r k d q) : ((s.applyUpdate x r k d).region q).state = (s.region q).state := by
  unfold State.applyUpdate
  split
  · rw [region_report, region_setRegion]; split
    · next e => rw [e]
    · simp [region]
  · rfl

theorem state_clearOwner (s : State) (x q) : ((s.clearOwner x).region q).state = (s.region q).state := by
  rw [region_clearOwner]; split <;> rfl

theorem state_addResponses (s : State) (a b q) : ((s.addResponses a b).region q).state = (s.region q).state := by
  unfold State.addResponses
  have : ∀ (u : State), (u.syncImageSlot).region q = u.region q := by intro u; simp [region]
  rw [this, region_mapRegions]; split <;> rfl

theorem state_dropResponse (s : State) (r q) : ((s.dropResponse r).region q).state = (s.region q).state := by
  have : (s.dropResponse r).region q = (s.setRegion r { s.region r with responding := false }).region q := by
    unfold State.dropResponse; simp [region]
  rw [this, region_setRegion]; split
  · next e => rw [e]
  · rfl

theorem stationFrameOnLine_eq (s : State) :
    s.stationFrameOnLine = decide (s.flight.map Flight.slot = some .station) := by
  unfold stationFrameOnLine
  split <;> simp [*]

/-- The drift flush hands over the records of a state that is the flush of this one. -/
theorem driftFlush_spec (s : State) : ∃ u : State, u.IsFlushOf s ∧ s.driftFlush = u.settle := by
  refine ⟨{ s.detachLanes.loseRegions with
            laneSlots := Vector.replicate 4 none, placement := [], stationSlot := none, stationNext := none
            flight := s.flight.map Flight.detach, window := none, passCount := 0, join := none },
    ⟨?_, ?_, ?_⟩, by unfold driftFlush; rfl⟩
  · intro r
    have h := region_loseRegions s.detachLanes r
    simpa [region, Region.lost] using h
  · intro l
    simp [lane, loseRegions, mapRegions, detachLanes, mapLanes, Lane.detached]
    rfl
  · ext1 <;> simp [loseRegions, mapRegions, detachLanes, mapLanes]
    rfl

end Sys2Proof.Machine.State
end

