-- ==== Sys2Proof/Laws/Effects.lean ====
section
/-! SUPPORT. What the operations of carried frames and of the join do, in the relations of Safety.lean: regions written,
owners moved, orphans declared, ASKs placed, lanes told. -/

namespace Sys2Proof.Machine.State

/-! ## Region bytes (R1, R7) -/

theorem writeRegionBytes_replaced (s : State) (r : RegionNo) (k : Nat) (d : List Byte) (h : s.area.wf) :
    (s.writeRegionBytes r k d).BytesReplaced s r k d := by
  constructor
  · intro j b hj
    rw [List.getElem?_eq_some_iff] at hj
    obtain ⟨hj, rfl⟩ := hj
    show (s.area.writeBytes (128 * r.val + k) d).read _ = _
    rw [Memory.read_writeBytes d _ h, dif_pos (by omega)]
    congr 1; omega
  · intro a ha
    show (s.area.writeBytes (128 * r.val + k) d).read _ = _
    rw [Memory.read_writeBytes d _ h, dif_neg (by omega)]

/-- An UPDATE that applies is written and reported (R7). -/
theorem applyUpdate_of_applies {s : State} {x : Station} {r k d} (h : s.area.wf)
    (ha : (s.region r).state = .current ∧ ((s.region r).owner = none ∨ (s.region r).owner = some x)) :
   ∃ u : State, u.UpdateWritten s r k d ∧ s.applyUpdate x r k d =
       u.report { region := r, content := true, owner := false, own := decide (x = s.stationNumber) } := by
  have : s.updateApplies r x = true := by simp [updateApplies, ha.1, ha.2]
  refine ⟨_, ⟨?_, ?_, ?_⟩, by unfold State.applyUpdate; rw [if_pos this]⟩
  · exact writeRegionBytes_replaced s r k d h
  · intro q; rw [region_setRegion]; rfl
  · rfl

/-- A refused UPDATE changes nothing (R8). -/
theorem applyUpdate_of_refused {s : State} {x : Station} {r k d} (ha : ¬ ((s.region r).state = .current ∧
    ((s.region r).owner = none ∨ (s.region r).owner = some x))) :
   s.applyUpdate x r k d = s := by
  have : s.updateApplies r x = false := by
    rw [Bool.eq_false_iff]; intro h; apply ha; simpa [updateApplies] using h
  unfold State.applyUpdate; rw [if_neg (by simp [this])]

theorem updateApplies_iff {s : State} {r x} : s.updateApplies r x = true ↔ (s.region r).state = .current ∧
    ((s.region r).owner = none ∨ (s.region r).owner = some x) := by
  simp [updateApplies]

theorem region_moveImageSlot (u : State) (q) : u.moveImageSlot.region q = u.region q := by simp [region]

/-! ## Owners (R53 to R57) -/

theorem changeOwner_given (s : State) (x r o) : (s.changeOwner x r o).OwnerGiven s x r o := by
  refine ⟨s.setRegion r { s.region r with owner := o }, fun q => region_setRegion s r q _, rfl, rfl⟩

/-- What the loss of a region to a seize does (R64). -/
theorem loseOwnership_lost (s : State) (r x) : (s.loseOwnership r x).OwnershipLost s r x := by
  have hrec : (s.setLost r (some x)).recordOf (.lost r) = some (.lost r x) := by simp [recordOf, lostOwner_setLost]
  unfold loseOwnership offer
  refine ⟨fun h => ?_, fun h => ?_, ?_⟩
  · rw [if_pos (by rw [hasRoom_iff]; exact h), serve_of_some hrec]
    refine ⟨fun q => ?_, rfl⟩
    have : ∀ (u : State) k, ({ u with queue := k } : State).lostOwner q = u.lostOwner q := fun _ _ => rfl
    rw [this, clearProducer, lostOwner_setLost, lostOwner_setLost]
    split <;> rfl
  · rw [if_neg (by rw [Bool.not_eq_true, hasRoom_false_iff]; exact h)]
    exact ⟨fun q => lostOwner_setLost .., rfl⟩
  · split
    · rw [serve_of_some hrec]; rfl
    · rfl

/-- What a carried CLAIM does (R54). -/
theorem applyClaim_taken (s : State) (x b r) : (s.applyClaim x b r).ClaimTaken s x b r := by
  unfold ClaimTaken
  dsimp only
  refine ⟨fun h => ?_, fun ⟨hc, h⟩ => ?_⟩
  · unfold applyClaim
    split
    · next hc =>
      split
      · next ho => exact absurd ⟨hc, Or.inl ho⟩ h
      · next t ho =>
        split
        · rfl
        · next ht =>
          split
          · next hb => exact absurd ⟨hc, Or.inr ⟨hb, t, ht, ho⟩⟩ h
          · rfl
    · rfl
    · rfl
  · unfold applyClaim; rw [hc]; dsimp only
    rcases h with ho | ⟨hb, y, hy, ho⟩
    · rw [ho]; dsimp only
      exact ⟨s, by simp, fun _ => rfl, changeOwner_given _ _ _ _⟩
    · rw [ho]; dsimp only; rw [if_neg hy, if_pos hb]
      split
      · next e =>
        exact ⟨_, fun _ => loseOwnership_lost s r x, fun h => absurd (by rw [e]) h, changeOwner_given _ _ _ _⟩
      · next e => exact ⟨s, fun h => absurd (by simpa using h) e, fun _ => rfl, changeOwner_given _ _ _ _⟩

/-- What a carried RELEASE does (R55). -/
theorem applyRelease_taken (s : State) (x r) : (s.applyRelease x r).ReleaseTaken s x r := by
  unfold applyRelease
  refine ⟨fun h => ?_, fun h => ?_⟩
  · rw [if_pos h]; exact changeOwner_given _ _ _ _
  · rw [if_neg h]

/-- What a carried JOIN or LEAVE does to owners (R56, R57). -/
theorem clearOwner_cleared (s : State) (x) : (s.clearOwner x).ClearedBy s x := by
  refine ⟨s.mapRegions fun r y => if s.ownedBy x r then { y with owner := none } else y,
      (List.finRange 128).filter (s.ownedBy x), ?_, ?_, ?_, rfl, ?_⟩
  · exact (List.pairwise_lt_finRange 128).filter _
  · intro r; simp [ownedBy]
  · intro r; rw [region_mapRegions]; simp
  · unfold clearOwner
    congr 1
    funext q; simp

/-! ## This station's own carried frames (R44, R50) -/

theorem takeOut_lane_attached {s : State} {f l} (hs : f.slot = .lane l) (ha : f.attached = true) :
    s.atFrameEnd.takeOut f = (s.withoutLaneFrame l).atFrameEnd := by
  unfold takeOut; dsimp only; rw [hs]; dsimp only; rw [if_pos ha]; rfl

theorem takeOut_lane_detached {s : State} {f l} (hs : f.slot = .lane l) (ha : f.attached = false) :
    s.atFrameEnd.takeOut f = { s.atFrameEnd with flight := none } := by
  unfold takeOut; dsimp only; rw [hs]; dsimp only; rw [if_neg (by simp [ha])]

theorem tellLane_attached {s : State} {f l st} (hs : f.slot = .lane l) (ha : f.attached = true) : s.tellLane f st =
    s.completeLane l st := by
  unfold tellLane; rw [if_pos ha, hs]

theorem tellLane_detached {s : State} {f st} (ha : f.attached = false) : s.tellLane f st = s := by
  unfold tellLane; rw [if_neg (by simp [ha])]

/-! ## The join (R74 to R88) -/

theorem endOfLeave_ended (s : State) : s.endOfLeave.LeaveEnded s := by
  refine ⟨{ s.loseRegions with stationState := .offline, phase := .off }, ?_, ?_, ?_⟩
  · intro r
    have : ∀ u : State, ({ u with stationState := .offline, phase := .off } : State).region r = u.region r :=
        fun _ => rfl
    rw [this, region_loseRegions]; rfl
  · ext1 <;> simp [loseRegions]
  · rfl

theorem stationFrameOnLine_iff {s : State} : s.stationFrameOnLine = true ↔ s.flight.map Flight.slot =
    some .station := by
  rw [stationFrameOnLine_eq]; simp

theorem lowest_eq {p : RegionNo → Bool} {a} (h : p a = true) (h2 : ∀ r, p r = true → a ≤ r) : lowest p = some a := by
  cases hx : lowest p with
  | none => have := lowest_none hx a; simp [h] at this
  | some c =>
    have h3 := lowest_some hx
    exact congrArg some (le_antisymm (h3.2 a h) (h2 c h3.1))

theorem highest_eq {p : RegionNo → Bool} {a} (h : p a = true) (h2 : ∀ r, p r = true → r ≤ a) : highest p =
    some a := by
  cases hx : highest p with
  | none => have := highest_none hx a; simp [h] at this
  | some c =>
    have h3 := highest_some hx
    exact congrArg some (le_antisymm (h2 c h3.1) (h3.2 a h))

/-- The ASK over the regions with a property is placed, or none (R74, R77, R79). -/
theorem placeAsk_placed (s : State) (p : RegionNo → Bool) (q : RegionNo → Prop) (hpq : ∀ r, p r = true ↔ q r) :
    (s.placeAsk p).AskPlaced s q := by
  refine ⟨fun h => ?_, fun a b ha hb hr => ?_⟩
  · have : lowest p = none := by
      cases hx : lowest p with
      | none => rfl
      | some c => exact absurd ((hpq c).1 (lowest_some hx).1) (h c)
    unfold placeAsk askSpan; rw [this]
  · have h1 : lowest p = some a := lowest_eq ((hpq a).2 ha) fun r h => (hr r ((hpq r).1 h)).1
    have h2 : highest p = some b := highest_eq ((hpq b).2 hb) fun r h => (hr r ((hpq r).1 h)).2
    have : s.placeAsk p = s.placeStation (.ask a.val (b.val - a.val + 1)) := by unfold placeAsk askSpan; rw [h1, h2]
    rw [this]; unfold placeStation
    refine ⟨fun h => ?_, fun h => ?_⟩
    · rw [if_neg (fun q => h (stationFrameOnLine_iff.1 q))]
    · rw [if_pos (stationFrameOnLine_iff.2 h)]

/-- The area after the orphans' bytes are set to 0. -/
theorem read_fold_orphans (z : List Byte) (hl : z.length = 128) (hz : ∀ i (h : i < z.length), z[i] = 0)
    (rs : List RegionNo) : ∀ u : State, u.area.wf →
    (rs.foldl (fun t r => t.writeRegionBytes r 0 z) u).area.wf ∧
    ∀ (r : RegionNo) (j : Nat), j < 128 →
        (rs.foldl (fun t r => t.writeRegionBytes r 0 z) u).area.read (128 * r.val + j) =
        if r ∈ rs then 0 else u.area.read (128 * r.val + j) := by
  induction rs with
  | nil => intro u hu; exact ⟨hu, by simp⟩
  | cons q rs ih =>
    intro u hu
    have hw : (u.writeRegionBytes q 0 z).area.wf := Memory.writeBytes_wf _ _ hu _
    obtain ⟨h1, h2⟩ := ih _ hw
    refine ⟨h1, fun r j hj => ?_⟩
    rw [List.foldl_cons, h2 r j hj]
    by_cases hr : r ∈ rs
    · simp [hr]
    · rw [if_neg hr]
      show (u.area.writeBytes (128 * q.val + 0) z).read _ = _
      rw [Memory.read_writeBytes _ _ hu]
      by_cases hq : r = q
      · subst hq
        rw [dif_pos (by omega), hz]; simp
      · have : r.val ≠ q.val := fun e => hq (Fin.ext e)
        rw [dif_neg (by omega)]; simp [hr, hq]

theorem fold_writeRegionBytes (z : List Byte) (rs : List RegionNo) : ∀ u : State,
    rs.foldl (fun t r => t.writeRegionBytes r 0 z) u =
    { u with area := (rs.foldl (fun t r => t.writeRegionBytes r 0 z) u).area } := by
  induction rs with
  | nil => intro u; rfl
  | cons q rs ih =>
    intro u
    rw [List.foldl_cons]
    have := ih (u.writeRegionBytes q 0 z)
    generalize rs.foldl (fun t r => t.writeRegionBytes r 0 z) (u.writeRegionBytes q 0 z) = w at *
    rw [this]; rfl

/-- What declaring orphans does (R12). -/
theorem declareOrphans_declared (s : State) (h : s.area.wf) :
    s.declareOrphans.OrphansDeclared s s.refreshing.length := by
  have hm : ∀ r, r ∈ s.refreshing ↔ (s.region r).state = .refreshing := fun r => by simp [refreshing]
  unfold declareOrphans
  have hl : (List.replicate 128 (0 : Byte)).length = 128 := List.length_replicate
  have hz : ∀ i (h : i < (List.replicate 128 (0 : Byte)).length), (List.replicate 128 (0 : Byte))[i] = 0 :=
      fun i h => List.getElem_replicate ..
  generalize List.replicate 128 (0 : Byte) = z at *
  refine ⟨(s.refreshing.foldl (fun t r => t.writeRegionBytes r 0 z) s).mapRegions fun _ x =>
      if x.state = .refreshing then { x with state := .current, owner := none, count := 0 } else x, s.refreshing, ?_,
          rfl, hm, ?_, ?_, ?_, rfl⟩
  · exact (List.pairwise_lt_finRange 128).filter _
  · intro r
    rw [region_mapRegions]
    have : (s.refreshing.foldl (fun t r => t.writeRegionBytes r 0 z) s).region r =
        s.region r := by rw [fold_writeRegionBytes]; rfl
    rw [this]; simp [hm]
  · intro r j hj
    have := (read_fold_orphans z hl hz s.refreshing s h).2 r j hj
    have ha : ∀ (u : State) g, (u.mapRegions g).area = u.area := fun _ _ => by simp
    rw [ha]; exact this
  · have := fold_writeRegionBytes z s.refreshing s
    generalize (s.refreshing.foldl (fun t r => t.writeRegionBytes r 0 z) s) = u at *
    rw [this]; rfl

/-- The end of a pass (R77 to R79). -/
theorem passEnded_of_count (s : State) (h : s.area.wf) (p : RegionNo → Bool) (q : RegionNo → Prop)
    (hpq : ∀ r, p r = true ↔ q r) (t : State)
    (ht : t =
      if ({ s with passCount := s.passCount + 1 } : State).passCount < Config.maxPasses then
        ({ s with passCount := s.passCount + 1 } : State).placeAsk p
      else ({ s with passCount := s.passCount + 1 } : State).thirdPassEnd) : t.PassEnded s q := by
  subst ht
  refine ⟨fun h3 => ?_, fun h3 => ⟨fun hj => ?_, fun hj => ?_⟩⟩
  · rw [if_pos (by unfold Config.maxPasses; exact h3)]; exact placeAsk_placed _ _ _ hpq
  · rw [if_neg (by unfold Config.maxPasses; simp; omega)]
    unfold thirdPassEnd; rw [if_pos hj]
    exact ⟨_, _, declareOrphans_declared { s with passCount := s.passCount + 1 } h, rfl⟩
  · rw [if_neg (by unfold Config.maxPasses; simp; omega)]
    unfold thirdPassEnd; rw [if_neg hj]
    obtain ⟨u, hu, he⟩ := driftFlush_spec ({ s with passCount := s.passCount + 1 } : State)
    refine ⟨u, hu, ?_⟩
    rw [← he]; rfl

end Sys2Proof.Machine.State
end

