-- ==== Sys2Proof/Laws/Exec.lean ====
section
/-! SUPPORT. What `exec` answers for each command outside a pin reset: the state the command's operation leaves. -/

namespace Sys2Proof.Machine

/-! ## The host port's pins (R165) -/

theorem hostAccess_unselected (rdn wrn : Bool) (addr : WordAddr) (data : Word) :
    hostAccess true rdn wrn addr data = none := rfl

/-- With RDn low an access is a read, whatever WRn is. -/
theorem hostAccess_read (wrn : Bool) (addr : WordAddr) (data : Word) :
    hostAccess false false wrn addr data = some (.read addr) := rfl

theorem hostAccess_write (addr : WordAddr) (data : Word) :
    hostAccess false true false addr data = some (.write addr data) := rfl

theorem hostAccess_no_strobe (addr : WordAddr) (data : Word) : hostAccess false true true addr data = none := rfl

/-! ## Commands -/

theorem unlessReset_eq (f : State → State) {s : State} (h : s.inReset = false) : unlessReset f s = .next (f s) := by
  simp [unlessReset, h]

theorem unlessReset_in_reset (f : State → State) {s : State} (h : s.inReset = true) : unlessReset f s = .next s := by
  simp [unlessReset, h]

theorem exec_configure {s : State} (h : s.inReset = false) :
    exec .configure s = .next (s.configure) :=
  unlessReset_eq (fun s => s.configure) h

@[simp] theorem State.stationNumber_softReset (s : State) (x : Station) : (s.softReset x).stationNumber = x := rfl

@[simp] theorem State.stationNumber_pinReset (s : State) : s.pinReset.stationNumber = s.stationNumber := rfl

/-- The number changes only where a pin reset ends (R178, R179). -/
theorem State.stationNumber_pinResetEnd (s : State) (x : Station) :
    (s.pinResetEnd x).stationNumber = if s.inReset then x else s.stationNumber := by
  unfold State.pinResetEnd
  split <;> rfl

theorem exec_softReset (x : Station) {s : State} (h : s.inReset = false) :
    exec (.softReset x) s = .next (s.softReset x) :=
  unlessReset_eq (fun s => s.softReset x) h

theorem exec_rejoin {s : State} (h : s.inReset = false) :
    exec .rejoin s = .next (s.rejoin) :=
  unlessReset_eq (fun s => s.rejoin) h

theorem exec_leave {s : State} (h : s.inReset = false) :
    exec .leave s = .next (s.leave) :=
  unlessReset_eq (fun s => s.leave) h

theorem exec_start {s : State} (h : s.inReset = false) :
    exec .start s = .next (s.start) :=
  unlessReset_eq (fun s => s.start) h

theorem exec_stop {s : State} (h : s.inReset = false) :
    exec .stop s = .next (s.stop) :=
  unlessReset_eq (fun s => s.stop) h

theorem exec_guardOpen {s : State} (h : s.inReset = false) :
    exec .guardOpen s = .next (s.setGuards true) :=
  unlessReset_eq (fun s => s.setGuards true) h

theorem exec_guardShut {s : State} (h : s.inReset = false) :
    exec .guardShut s = .next (s.setGuards false) :=
  unlessReset_eq (fun s => s.setGuards false) h

theorem exec_watchArm {s : State} (h : s.inReset = false) :
    exec .watchArm s = .next (s.watchArm) :=
  unlessReset_eq (fun s => s.watchArm) h

theorem exec_watchDisarm {s : State} (h : s.inReset = false) :
    exec .watchDisarm s = .next (s.watchDisarm) :=
  unlessReset_eq (fun s => s.watchDisarm) h

theorem exec_unknownRequest (x : Word) {s : State} (h : s.inReset = false) :
    exec (.unknownRequest x) s = .next (s.takeRequest x) :=
  unlessReset_eq (fun s => s.takeRequest x) h

theorem exec_pop (x : Word) {s : State} (h : s.inReset = false) :
    exec (.pop x) s = .next (s.popHead) :=
  unlessReset_eq (fun s => s.popHead) h

theorem exec_hostWordWrite (x : WordAddr) (v : Word) {s : State} (h : s.inReset = false) :
    exec (.hostWordWrite x v) s = .next (s.writeWord x v) :=
  unlessReset_eq (fun s => s.writeWord x v) h

theorem exec_accessOpening {s : State} (h : s.inReset = false) :
    exec .accessOpening s = .next (s.accessOpening) :=
  unlessReset_eq (fun s => s.accessOpening) h

theorem exec_startEdge {s : State} (h : s.inReset = false) :
    exec .startEdge s = .next (s.startEdge) :=
  unlessReset_eq (fun s => s.startEdge) h

theorem exec_arbitrationLost {s : State} (h : s.inReset = false) :
    exec .arbitrationLost s = .next (s.arbitrationLost) :=
  unlessReset_eq (fun s => s.arbitrationLost) h

/-- A frame's end at a line unit that has received the frame. -/
theorem whileReceiving_eq (f : State → State) {s : State} (h : s.inReset = false) (hp : s.phase = .inFrame) :
    unlessReset (State.whileReceiving f) s = .next (f s) := by
  rw [unlessReset_eq _ h, State.whileReceiving, if_pos hp]

/-- A frame's end at a line unit that has received no frame changes nothing (R30). -/
theorem whileReceiving_other (f : State → State) {s : State} (hp : s.phase ≠ .inFrame) :
    unlessReset (State.whileReceiving f) s = .next s := by
  simp [unlessReset, State.whileReceiving, hp]

theorem exec_framingBreak {s : State} (h : s.inReset = false) (hp : s.phase = .inFrame) :
    exec .framingBreak s = .next (s.framingBreak) :=
  whileReceiving_eq _ h hp

theorem exec_spoiledFrameEnd (x : List Byte) {s : State} (h : s.inReset = false) (hp : s.phase = .inFrame) :
    exec (.spoiledFrameEnd x) s = .next (s.spoiledFrameEnd x) :=
  whileReceiving_eq (fun s => s.spoiledFrameEnd x) h hp

theorem exec_carriedFrameEnd (x : List Byte) {s : State} (h : s.inReset = false) (hp : s.phase = .inFrame) :
    exec (.carriedFrameEnd x) s = .next (s.carriedFrameEnd x) :=
  whileReceiving_eq (fun s => s.carriedFrameEnd x) h hp

theorem exec_refreshWindowExpiry {s : State} (h : s.inReset = false) :
    exec .refreshWindowExpiry s = .next (s.windowExpiry.settle) :=
  unlessReset_eq (fun s => s.windowExpiry.settle) h

theorem exec_waitTimeout (x : LaneNo) {s : State} (h : s.inReset = false) :
    exec (.waitTimeout x) s = .next (s.waitTimeout x) :=
  unlessReset_eq (fun s => s.waitTimeout x) h

theorem exec_entryTake (x : LaneNo) {s : State} (h : s.inReset = false) :
    exec (.entryTake x) s = .next (s.entryTake x) :=
  unlessReset_eq (fun s => s.entryTake x) h

theorem exec_readbackDifference {s : State} (h : s.inReset = false) :
    exec .readbackDifference s = .next (s.readbackDifference) :=
  unlessReset_eq (fun s => s.readbackDifference) h

end Sys2Proof.Machine
end

