-- ==== Sys2Proof/Laws/Entries.lean ====
section
/-! SUPPORT. The take of a chain entry: the kind from its word, what every take does before its action, how a group is
read part by part, and which bytes a GET copies. -/

namespace Sys2Proof.Machine.State

/-! ## Fields of an entry (R99) -/

theorem toNat_entry_code (m : Memory) (i : Index) : (Entry.word m i 0 &&& 0x000F).toNat =
    (Entry.word m i 0).toNat % 16 := by
  rw [BitVec.toNat_and]; exact Nat.and_two_pow_sub_one_eq_mod _ 4

/-- The kind of an entry from its kind code. -/
theorem entry_kind_eq (m : Memory) (i : Index) : Entry.kind m i = match (Entry.word m i 0).toNat % 16 with
  | 1 => some .put
  | 2 => some .get
  | 3 => some .claim
  | 4 => some .release
  | 5 => some .wait
  | 6 => some .goto
  | _ => none := by unfold Entry.kind; rw [toNat_entry_code] <;> rfl

theorem entry_kind_none {m i} {n} (h : (Entry.word m i 0).toNat % 16 = n) (h1 : n = 0 ∨ 6 < n) : Entry.kind m i =
    none := by
  rw [entry_kind_eq, h]; split <;> first | omega | rfl

theorem entry_offset_eq (m : Memory) (i : Index) : Entry.offset m i = (Entry.word m i 1).toNat / 256 % 128 := by
  unfold Entry.offset; rw [BitVec.toNat_and, BitVec.toNat_ushiftRight,
      Nat.shiftRight_eq_div_pow]; exact Nat.and_two_pow_sub_one_eq_mod _ 7

theorem entry_region_eq (m : Memory) (i : Index) : Entry.region m i = regionOf (Entry.word m i 1).toNat := rfl

/-! ## What every take does before its action (R102) -/

theorem lane_with_queue (u : State) (q) (k) : ({ u with queue := q } : State).lane k = u.lane k := rfl

/-- The lane's context and note before the action. -/
theorem begin_and_note_takenWith (s : State) (l : LaneNo) (last : Index) (e : EntryCtx) (note) (c : Nat) :
    (((s.modifyLane l fun x => { x with prevGoto := false }).beginEntry l last e).handNotes l note c).TakenWith
      s l last e note c := by
  have hl : ∀ k, ((s.modifyLane l fun x => { x with prevGoto := false }).beginEntry l last e).lane k = if k =
      l then { s.lane l with prevGoto := false, cur := last, entry := some e } else s.lane k := by
    intro k; unfold beginEntry; rw [lane_modifyLane, lane_modifyLane_same, lane_modifyLane]; split <;> rfl
  have hq : ((s.modifyLane l fun x => { x with prevGoto := false }).beginEntry l last e).queue = s.queue := rfl
  have hs : ((s.modifyLane l fun x => { x with prevGoto := false }).beginEntry l last e) =
      { s with lanes := ((s.modifyLane l fun x => { x with prevGoto := false }).beginEntry l last e).lanes } := rfl
  generalize ((s.modifyLane l fun x => { x with prevGoto := false }).beginEntry l last e) = b at *
  unfold TakenWith
  dsimp only
  cases note with
  | none =>
    refine ⟨?_, fun k hk => ?_, fun _ => ⟨?_, hq⟩, by simp⟩
    · unfold handNotes; dsimp only; rw [hs]
    · unfold handNotes; dsimp only; rw [hl, if_neg hk]
    · unfold handNotes; dsimp only; rw [hl, if_pos rfl]
  | some p =>
    obtain ⟨i, label⟩ := p
    have hbn : (b.lane l).note = (s.lane l).note := by rw [hl, if_pos rfl]
    unfold handNotes; dsimp only
    unfold handNote
    cases hn : (s.lane l).note with
    | none =>
      rw [hbn, hn]; dsimp only
      by_cases hr : s.queue.length < 32
      · have e1 :
            (b.modifyLane l fun x => { x with note := some { index := i, label := label, merge := satAdd 255 c 0 } }).offer
              (.note l) =
          { (b.modifyLane l fun x => { x with note := some { index := i, label := label, merge := satAdd 255 c 0 } }).modifyLane l
                fun x => { x with note := none } with
              queue := s.queue ++ [.note l i label (min 255 c) (s.lane l).tag] } := by
          unfold offer
          rw [if_pos (by rw [hasRoom_iff]; simpa [hq] using hr)]
          rw [serve_of_some (rec := .note l i label (min 255 c) (s.lane l).tag)]
          · unfold clearProducer; simp [hq]
          · unfold recordOf; simp [hl, satAdd]
        rw [e1]
        refine ⟨?_, fun k hk => ?_, by simp, ?_⟩
        · rw [hs]; rfl
        · rw [lane_with_queue, lane_modifyLane, if_neg hk, lane_modifyLane, if_neg hk, hl, if_neg hk]
        · intro i' l' h; cases h
          refine ⟨fun _ _ => ⟨?_, rfl⟩, fun _ h => absurd hr (by omega), by simp⟩
          rw [lane_with_queue, lane_modifyLane_same, lane_modifyLane_same, hl, if_pos rfl]
      · have e1 :
            (b.modifyLane l fun x => { x with note := some { index := i, label := label, merge := satAdd 255 c 0 } }).offer
              (.note l) =
          (b.modifyLane l fun x => { x with note := some { index := i, label := label, merge := satAdd 255 c 0 } })
              := by
          apply offer_of_full
          rw [hasRoom_false_iff]; simp [hq]; omega
        rw [e1]
        refine ⟨?_, fun k hk => ?_, by simp, ?_⟩
        · rw [hs]; rfl
        · rw [lane_modifyLane, if_neg hk, hl, if_neg hk]
        · intro i' l' h; cases h
          refine ⟨fun _ h => absurd h hr, fun _ _ => ⟨?_, hq⟩, by simp⟩
          rw [lane_modifyLane_same, hl, if_pos rfl]; rfl
    | some n =>
      rw [hbn, hn]; dsimp only
      refine ⟨?_, fun k hk => ?_, by simp, ?_⟩
      · rw [hs]; rfl
      · rw [lane_modifyLane, if_neg hk, hl, if_neg hk]
      · intro i' l' h; cases h
        refine ⟨by simp, by simp, fun n' hn' => ?_⟩
        cases hn'
        refine ⟨?_, hq⟩
        rw [lane_modifyLane_same, hl, if_pos rfl]; rfl

theorem takenWith_keeps {v s : State} {l last e n c} (h : v.TakenWith s l last e n c) : v.regions = s.regions ∧
    v.stationNumber = s.stationNumber ∧ v.chain = s.chain ∧ v.area = s.area ∧ v.staging = s.staging := by
  have := h.1; rw [this]; exact ⟨rfl, rfl, rfl, rfl, rfl⟩

theorem exec_entryTake_running {s : State} {l} (h : s.inReset = false) (hr : (s.lane l).state = .running) :
    exec (.entryTake l) s = .next (s.takeEntry l).settle := by
  rw [exec_entryTake l h]; unfold State.entryTake; rw [if_pos hr]

/-- A valid entry that stands alone. -/
theorem takeSingle_of_valid {s : State} {l i} (act : State → Index → State) (hc : (s.lane l).cur = i)
    (hv : Entry.valid s.chain i = true) :
   ∃ v : State, v.TakenWith s l i { next := Entry.next s.chain i, alt := Entry.failIndex s.chain i, size := 1 }
        (Entry.lastNote s.chain [i]) 1 ∧
     (s.modifyLane l fun x => { x with prevGoto := false }).takeSingle l act = act v i := by
  refine ⟨_, begin_and_note_takenWith s l i _ _ 1, ?_⟩
  have h1 : ((s.modifyLane l fun x => { x with prevGoto := false }).lane l).cur = i := by simp [hc]
  have h2 : (s.modifyLane l fun x => { x with prevGoto := false }).chain = s.chain := by simp
  have h3 : (if Entry.note s.chain i then some (i, Entry.label s.chain i) else none) =
      Entry.lastNote s.chain [i] := by
    unfold Entry.lastNote; by_cases hn : Entry.note s.chain i = true <;> simp [hn]
  unfold takeSingle; dsimp only; rw [h1, h2, if_pos hv, h3]

/-- A group that has been read. -/
theorem takeTransfer_of_read {s : State} {l i k} (act) (hc : (s.lane l).cur = i)
    {g} (hg : Entry.readGroup s.chain k i = .ok g) :
   ∃ v : State, v.TakenWith s l g.last { next := g.next, alt := Entry.failIndex s.chain i, size := g.size } g.note
        g.notes ∧
     (s.modifyLane l fun x => { x with prevGoto := false }).takeTransfer l k act = act v (Entry.region s.chain i)
         (Entry.offset s.chain i) g := by
  refine ⟨_, begin_and_note_takenWith s l _ _ _ _, ?_⟩
  have h1 : ((s.modifyLane l fun x => { x with prevGoto := false }).lane l).cur = i := by simp [hc]
  have h2 : (s.modifyLane l fun x => { x with prevGoto := false }).chain = s.chain := by simp
  unfold takeTransfer; dsimp only; rw [h1, h2, hg]

theorem placeFrame_places (s : State) (l f) : (s.placeFrame l f).Places s l f := by
  refine ⟨fun k => ?_, fun k => ?_, ?_, ?_⟩
  · unfold placeFrame; rw [lane_modifyLane]; rfl
  · have : ∀ (u : State) g, (u.modifyLane l g).laneSlot k = u.laneSlot k := fun _ _ => rfl
    unfold placeFrame; rw [this, laneSlot_placeLaneFrame]
  · rfl
  · rfl

theorem waitHolds_iff (s : State) (c) : s.waitHolds c = true ↔ s.WaitTest c := by
  unfold waitHolds WaitTest; cases c.mode <;> simp

/-! ## Groups (R120 to R123) -/

/-- The bounds of a part that passes its checks (R101, R121). -/
theorem part_bounds (m : Memory) (k : EntryKind) (hk : k = .put ∨ k = .get) (off) (later total p)
    (h : Entry.partFailure m k later off total p = none) :
    1 ≤ Entry.length m p ∧ Entry.staging m p + Entry.length m p ≤ 4096 ∧ off + total + Entry.length m p ≤ 128 := by
  unfold Entry.partFailure at h
  by_cases h1 : Entry.kind m p ≠ some k
  · rw [if_pos h1] at h; simp at h
  rw [if_neg h1] at h
  by_cases h2 : Entry.link m p = true ∧ p.val = 255
  · rw [if_pos h2] at h; simp at h
  rw [if_neg h2] at h
  by_cases h3 : (if later = true then Entry.validPart m p else Entry.valid m p) = false
  · rw [if_pos h3] at h; simp at h
  rw [if_neg h3] at h
  by_cases h4 : off + total + Entry.length m p > 128
  · rw [if_pos h4] at h; simp at h
  have hseg : Entry.cleanSegment m p = true := by
    rw [Bool.not_eq_false] at h3
    cases later
    · simp only [Bool.false_eq_true, if_false, Entry.valid] at h3
      rw [not_not.1 h1] at h3
      rcases hk with rfl | rfl <;> (simp only [Bool.and_eq_true] at h3; exact h3.1.1.2)
    · simp only [if_true, Entry.validPart, Bool.and_eq_true] at h3
      exact h3.1.1.2
  simp only [Entry.cleanSegment, Bool.and_eq_true, decide_eq_true_eq] at hseg
  omega

/-- A group that is read has a total of at least 1 that fits its region. -/
theorem readParts_total (m : Memory) (k : EntryKind) (hk : k = .put ∨ k = .get) (off : Nat) : ∀ (fuel : Nat)
    (later : Bool) (p : Index) (passed : Nat) (g g' : Group),
    (g.segs.map Prod.snd).sum = g.total → Entry.readParts m k off fuel later p passed g = .ok g' →
    (g'.segs.map Prod.snd).sum = g'.total ∧ off + g'.total ≤ 128 ∧ 1 ≤ g'.total := by
  intro fuel
  induction fuel with
  | zero => intro later p passed g g' _ h; simp [Entry.readParts] at h
  | succ fuel ih =>
    intro later p passed g g' hg h
    unfold Entry.readParts at h
    have hadd : ((Entry.addPart m g p passed).segs.map Prod.snd).sum = (Entry.addPart m g p passed).total := by
      simp [Entry.addPart, hg]
    split at h
    · simp at h
    · next hp =>
      have hf := part_bounds _ _ hk _ _ _ _ hp
      split at h
      · split at h
        · simp at h
        · exact ih _ _ _ _ _ hadd h
      · simp only [GroupRead.ok.injEq] at h
        subst h
        refine ⟨hadd, by simp [Entry.addPart]; omega, ?_⟩
        simp only [Entry.addPart]
        omega

theorem lastNote_cons (m : Memory) (p : Index) (rest : List Index) : Entry.lastNote m (p :: rest) =
    (Entry.lastNote m rest).or (if Entry.note m p then some (p, Entry.label m p) else none) := by
  unfold Entry.lastNote
  by_cases h : Entry.note m p = true
  · rw [List.filter_cons_of_pos h, List.getLast?_cons, if_pos h]
    cases hx : (rest.filter (Entry.note m)).getLast? <;> simp
  · rw [List.filter_cons_of_neg h, if_neg h]
    simp

/-- Reading a group follows a walk through its parts. -/
theorem readParts_of_walks (m : Memory) (k : EntryKind) (hk : k = .put ∨ k = .get) (off : Nat) :
    ∀ (rest : List Index) (fuel : Nat) (later : Bool) (p : Index) (passed gotos : Nat) (g : Group),
   Entry.Walks m k off later g.total p rest gotos → 129 ≤ fuel + g.total →
   ((Entry.link m ((p :: rest).getLast (by simp)) = false →
      Entry.readParts m k off fuel later p passed g = .ok
        { segs := g.segs ++ (p :: rest).map fun p => (Entry.staging m p, Entry.length m p)
          total := g.total + ((p :: rest).map (Entry.length m)).sum
          last := (p :: rest).getLast (by simp)
          next := Entry.next m ((p :: rest).getLast (by simp)), size :=
              g.size + passed + ((p :: rest).length + gotos), note := (Entry.lastNote m (p :: rest)).or g.note
          notes := g.notes + ((p :: rest).filter (Entry.note m)).length }) ∧
    (Entry.link m ((p :: rest).getLast (by simp)) = true →
      (∀ st q, Entry.nextPart m ((p :: rest).getLast (by simp)) = .fail st q →
          Entry.readParts m k off fuel later p passed g = .fail st q) ∧
      ∀ q n st, Entry.nextPart m ((p :: rest).getLast (by simp)) = .ok q n →
        Entry.partFailure m k true off (g.total + ((p :: rest).map (Entry.length m)).sum) q = some st →
        Entry.readParts m k off fuel later p passed g = .fail st q)) := by
  intro rest
  induction rest with
  | nil =>
    intro fuel later p passed gotos g ⟨hw, hg⟩ hf
    have hp := part_bounds m k hk _ _ _ _ hw
    obtain ⟨fuel, rfl⟩ : ∃ f, fuel = f + 2 := ⟨fuel - 2, by omega⟩
    subst hg
    simp only [List.getLast_singleton]
    refine ⟨fun hl => ?_, fun hl => ⟨fun st q hq => ?_, fun q n st hq hst => ?_⟩⟩
    · rw [Entry.readParts, hw]; dsimp only; rw [if_neg (by simp [hl])]
      rw [lastNote_cons]
      unfold Entry.addPart
      congr 1
      by_cases hn : Entry.note m p = true <;> simp [hn, Entry.lastNote]
    · rw [Entry.readParts, hw]; dsimp only; rw [if_pos hl, hq]
    · rw [Entry.readParts, hw]; dsimp only; rw [if_pos hl, hq]; dsimp only
      rw [Entry.readParts]
      have : (Entry.addPart m g p passed).total = g.total + ([p].map (Entry.length m)).sum := by simp [Entry.addPart]
      rw [this, hst]
  | cons q rest ih =>
    intro fuel later p passed gotos g ⟨hw, hl, n1, n2, hnp, hg, hwalk⟩ hf
    have hp := part_bounds m k hk _ _ _ _ hw
    obtain ⟨fuel, rfl⟩ : ∃ f, fuel = f + 1 := ⟨fuel - 1, by omega⟩
    have ht : (Entry.addPart m g p passed).total = g.total + Entry.length m p := rfl
    have := ih fuel true q n1 n2 (Entry.addPart m g p passed) (by rw [ht]; exact hwalk) (by rw [ht]; omega)
    have e : Entry.readParts m k off (fuel + 1) later p passed g =
        Entry.readParts m k off fuel true q n1 (Entry.addPart m g p passed) := by
      rw [Entry.readParts, hw]; dsimp only; rw [if_pos hl, hnp]
    rw [e]
    have hlast : (p :: q :: rest).getLast (by simp) = (q :: rest).getLast (by simp) := List.getLast_cons (by simp)
    rw [hlast]
    have hsum : g.total + ((p :: q :: rest).map (Entry.length m)).sum =
        (Entry.addPart m g p passed).total + ((q :: rest).map (Entry.length m)).sum := by
      rw [ht]; simp; omega
    rw [hsum]
    refine ⟨fun h => ?_, this.2⟩
    rw [this.1 h, lastNote_cons m p]
    congr 1
    by_cases hn : Entry.note m p = true
    · simp [Entry.addPart, hn]; omega
    · simp [Entry.addPart, hn]; omega

theorem gather_length (s : State) : ∀ segs, (s.gather segs).length = (segs.map Prod.snd).sum := by
  intro segs
  induction segs with
  | nil => rfl
  | cons g gs ih => unfold gather at *; simp [Memory.readBytes_length, ih]

theorem readBytes_eq_map (m : Memory) : ∀ n a, m.readBytes a n = (List.range n).map fun j => m.read (a + j) := by
  intro n
  induction n with
  | zero => intro a; rfl
  | succ n ih =>
    intro a
    rw [Memory.readBytes, ih, List.range_succ_eq_map]
    simp [Function.comp_def]
    intro x _; congr 1; omega

/-- A staging byte after a GET: the last segment that holds it decides (R111, R123). -/
theorem read_scatter (area : Memory) : ∀ (segs : List (Nat × Nat)) (a : Nat) (m : Memory), m.wf →
   (∀ before c after b, segs = before ++ c :: after → (c.1 ≤ b ∧ b < c.1 + c.2) →
       (∀ d ∈ after, ¬ (d.1 ≤ b ∧ b < d.1 + d.2)) →
            (scatter area a segs m).read b = area.read (a + (before.map Prod.snd).sum + (b - c.1))) ∧
   ∀ b, (∀ c ∈ segs, ¬ (c.1 ≤ b ∧ b < c.1 + c.2)) → (scatter area a segs m).read b = m.read b := by
  intro segs
  induction segs with
  | nil => intro a m hm; exact ⟨fun before c after b h => by simp at h, fun b _ => rfl⟩
  | cons g gs ih =>
    intro a m hm
    have hw : (m.writeBytes g.1 (area.readBytes a g.2)).wf := Memory.writeBytes_wf _ _ hm _
    obtain ⟨h1, h2⟩ := ih (a + g.2) _ hw
    refine ⟨fun before c after b h hin hout => ?_, fun b hb => ?_⟩
    · rw [scatter]
      cases before with
      | nil =>
        simp at h; obtain ⟨rfl, rfl⟩ := h
        rw [h2 b hout, Memory.read_writeBytes _ _ hm, dif_pos (by rw [Memory.readBytes_length]; exact hin),
            Memory.readBytes_getElem]
        simp
      | cons d before =>
        simp at h; obtain ⟨rfl, rfl⟩ := h
        rw [h1 before c after b rfl hin hout]
        congr 1; simp; omega
    · rw [scatter, h2 b (fun c hc => hb c (List.mem_cons_of_mem _ hc)), Memory.read_writeBytes _ _ hm, dif_neg]
      rw [Memory.readBytes_length]; exact hb g (List.mem_cons_self ..)

end Sys2Proof.Machine.State
end

