-- ==== Sys2Proof/Laws/LineCode.lean ====
section
/-! SUPPORT. The coding read back: frame bodies from their bytes, bits from stuffed cells, bytes from bits. -/

namespace Sys2Proof.Machine

theorem frameBody_bytes_length (b : FrameBody) (h : b.wf) : b.bytes.length ≤ 132 := by
  cases b <;> simp [FrameBody.bytes] <;> simp [FrameBody.wf] at h <;> omega

theorem ownerOfByte_ownerByte (o : Option Station) : ownerOfByte (ownerByte o) = o := by
  cases o with
  | none => rfl
  | some t =>
    have := t.isLt
    unfold ownerByte ownerOfByte
    rw [if_pos (by simp; omega)]
    congr 1
    simp

theorem wordOf_loByte_hiByte (w : Word) : wordOf (loByte w) (hiByte w) = w := by
  unfold wordOf loByte hiByte
  ext i hi
  simp only [BitVec.getElem_or, BitVec.getElem_shiftLeft, BitVec.getElem_setWidth, BitVec.getLsbD_setWidth,
    BitVec.getLsbD_ushiftRight]
  by_cases h : i < 8
  · simp [h, BitVec.getLsbD_eq_getElem hi]
  · have h2 : i - 8 < 8 := by omega
    have h3 : 8 + (i - 8) = i := by omega
    simp [h, h2, h3, BitVec.getLsbD_eq_getElem hi]

/-- A well-formed body is read from its bytes (R39). -/
theorem parseBody_bytes (b : FrameBody) (h : b.wf) : parseBody b.kindCode b.bytes = some b := by
  cases b with
  | join => rfl
  | leave => rfl
  | claim z r =>
    have := r.isLt
    simp only [FrameBody.kindCode, FrameBody.bytes, parseBody]
    cases z
    · have h1 : (BitVec.ofNat 8 (0 + r.val)).msb = false := by
        rw [BitVec.msb_eq_false_iff_two_mul_lt]; simp; omega
      simp only [Bool.false_eq_true]
      congr 2
      unfold regionOf; apply Fin.ext; simp
    · have h1 : (BitVec.ofNat 8 (128 + r.val)).msb = true := by
        rw [BitVec.msb_eq_true_iff_two_mul_ge]; simp; omega
      simp only [if_true, h1]
      congr 2
      unfold regionOf; apply Fin.ext; simp
  | release r =>
    have := r.isLt
    simp only [FrameBody.kindCode, FrameBody.bytes, parseBody]
    congr 2
    unfold regionOf; apply Fin.ext; simp
  | ask a n =>
    obtain ⟨h1, h2⟩ := h
    simp only [FrameBody.kindCode, FrameBody.bytes, parseBody]
    rw [if_pos (by simp; omega)]
    simp; omega
  | image r o c d =>
    have := r.isLt
    simp only [FrameBody.kindCode, FrameBody.bytes, parseBody]
    rw [if_pos (by exact h), ownerOfByte_ownerByte, wordOf_loByte_hiByte]
    congr 2
    unfold regionOf; apply Fin.ext; simp
  | update r k d =>
    obtain ⟨h1, h2⟩ := h
    have := r.isLt
    simp only [FrameBody.kindCode, FrameBody.bytes, parseBody]
    rw [if_pos (by simp; omega)]
    congr 2
    · unfold regionOf; apply Fin.ext; simp
    · simp; omega

theorem toNat_wordOf (lo hi : Byte) : (wordOf lo hi).toNat = 256 * hi.toNat + lo.toNat := by
  have := lo.isLt
  have := hi.isLt
  unfold wordOf
  simp only [BitVec.toNat_or, BitVec.toNat_shiftLeft, BitVec.toNat_setWidth]
  rw [Nat.mod_eq_of_lt (a := hi.toNat) (by omega), Nat.mod_eq_of_lt (a := lo.toNat) (by omega), Nat.shiftLeft_eq,
    Nat.mod_eq_of_lt (by omega), Nat.mul_comm, ← Nat.two_pow_add_eq_or_of_lt (i := 8) (by omega)]

/-- The check of received bytes, part by part: length, check word, kind and body, class (R38). -/
theorem checkFrame_parts (key kind : Byte) (body : List Byte) (hi lo : Byte) :
    checkFrame (key :: kind :: (body ++ [hi, lo])) =
      if 132 < body.length then none
      else if [hi, lo] = [hiByte (checkWord (key :: kind :: body)), loByte (checkWord (key :: kind :: body))] then
        match parseBody kind.toNat body with
        | some b => if key.toNat / 32 = b.keyClass then some { sender := key.setWidth 5, body := b } else none
        | none => none
      else none := by
  have e : key :: kind :: (body ++ [hi, lo]) = (key :: kind :: body) ++ [hi, lo] := rfl
  unfold checkFrame
  by_cases h : 132 < body.length
  · rw [if_pos h, if_pos (by simp; omega)]
  · rw [if_neg h, if_neg (by simp; omega)]
    have h1 : (key :: kind :: (body ++ [hi, lo])).length - 2 = (key :: kind :: body).length := by simp
    dsimp only
    rw [h1, e, List.take_left, List.drop_left] <;> rfl

/-- A body that is read has at most the 132 bytes of an IMAGE's (R39). -/
theorem length_of_parseBody {kind : Byte} {body : List Byte} {b : FrameBody} (h : parseBody kind.toNat body = some b) :
    body.length ≤ 132 := by
  unfold parseBody at h
  split at h <;> simp_all
  all_goals (have := h.1; omega)

/-! ## Cells (R27) -/

namespace LineCode

/-- The recessive cells at the front. -/
def leadingRecessive : List Bool → Nat
  | true :: cs => leadingRecessive cs + 1
  | _ => 0

theorem splitBoundary_step (c : Bool) (held : List Bool) (cs) (h : leadingRecessive (c :: held) ≤ 5) :
    splitBoundary held (c :: cs) = splitBoundary (c :: held) cs := by
  rw [splitBoundary]
  split
  · next e => rw [e] at h; simp [leadingRecessive] at h
  · rfl

/-- No boundary is found inside stuffed cells. -/
theorem splitBoundary_stuff (tail : List Bool) : ∀ (bits : List Bool) (level : Bool) (run : Nat) (held : List Bool),
    run ≤ 4 →
    leadingRecessive held ≤ (if level then run else 0) →
    splitBoundary held (stuff level run bits ++ tail) = splitBoundary ((stuff level run bits).reverse ++ held)
        tail := by
  intro bits
  induction bits with
  | nil => intro level run held _ _; rfl
  | cons c cs ih =>
    intro level run held hr hl
    have hc : leadingRecessive (c :: held) ≤ if c then runAfter level run c else 0 := by
      cases c <;> cases level <;> simp_all [leadingRecessive, runAfter]
    have h5 : runAfter level run c ≤ 5 := by unfold runAfter; split <;> omega
    have hc5 : leadingRecessive (c :: held) ≤ 5 := by split at hc <;> omega
    rw [stuff]
    split
    · next he =>
      have hd : leadingRecessive ((!c) :: c :: held) ≤ if !c then 1 else 0 := by
        cases c <;> simp_all [leadingRecessive]
      have hd5 : leadingRecessive ((!c) :: c :: held) ≤ 5 := by split at hd <;> omega
      simp only [List.cons_append]
      rw [splitBoundary_step _ _ _ hc5, splitBoundary_step _ _ _ hd5, ih (!c) 1 _ (by omega) hd]
      simp
    · next he =>
      simp only [List.cons_append]
      rw [splitBoundary_step _ _ _ hc5, ih c _ _ (by omega) hc]
      simp

theorem destuff_stuff : ∀ (bits : List Bool) (level : Bool) (run : Nat), destuff level run (stuff level run bits) =
    some bits := by
  intro bits
  induction bits with
  | nil => intro level run; rfl
  | cons c cs ih =>
    intro level run
    rw [stuff]
    split
    · next he =>
      unfold destuff
      rw [if_pos he]
      show (if (!c) = c then none else _) = _
      rw [if_neg (by cases c <;> simp), ih]
      rfl
    · next he => rw [destuff.eq_def]; dsimp only; rw [if_neg he, ih]; rfl

theorem byteOfBits_bits (b : Byte) : byteOfBits (b.getLsbD 7) (b.getLsbD 6) (b.getLsbD 5) (b.getLsbD 4) (b.getLsbD 3)
    (b.getLsbD 2) (b.getLsbD 1) (b.getLsbD 0) = b := by
  revert b; decide +kernel

theorem bytesOf_bitsOf : ∀ bytes : List Byte, bytesOf (bitsOf bytes) = some bytes := by
  intro bytes
  induction bytes with
  | nil => rfl
  | cons b bs ih =>
    have : bitsOf (b :: bs) = bitsOfByte b ++ bitsOf bs := rfl
    rw [this]; unfold bitsOfByte
    simp only [List.cons_append, List.nil_append]
    rw [bytesOf, ih]
    rw [Option.map_some, byteOfBits_bits]

end LineCode

end Sys2Proof.Machine
end

