-- ==== Sys2Proof/Laws/LineUnit.lean ====
section
/-! SUPPORT. The line unit's operations: the arbiter's choice, joining in, the image slot, and what a frame end is at a
station that hears or has sent the frame. -/

namespace Sys2Proof.Machine.State

theorem listening_iff {s : State} : s.listening = true ↔ s.stationState = .joining ∨ s.stationState = .active ∨
    s.stationState = .leaving := by
  unfold State.listening; cases s.stationState <;> simp

theorem framingBreak_of_listening {s : State} (hl : s.listening = true) :
    s.framingBreak = s.countAgain.spoil.settle := by
  unfold State.framingBreak; rcases listening_iff.1 hl with e | e | e <;> rw [e]

theorem spoiledFrameEnd_of_listening {s : State} (b) (hl : s.listening = true) :
    s.spoiledFrameEnd b = ((s.resolveReadback b).spoiledHere b).settle := by
  unfold State.spoiledFrameEnd; rcases listening_iff.1 hl with e | e | e <;> rw [e]

theorem carriedFrameEnd_of_listening {s : State} (b) (hl : s.listening = true) :
    s.carriedFrameEnd b = s.carriedHere b := by
  unfold State.carriedFrameEnd; rcases listening_iff.1 hl with e | e | e <;> rw [e]

/-! ## What the station drives into a frame (R27, R29, R40) -/

theorem receivesHere_iff {s : State} : s.receivesHere = true ↔ s.listening = true ∧ s.phase = .inFrame := by
  simp [receivesHere]

theorem spoilMark_of_receives {s : State} (h : s.receivesHere = true) : s.spoilMark = LineCode.spoilCells := by
  simp [spoilMark, h]

theorem spoilMark_of_silent {s : State} (h : s.receivesHere = false) : s.spoilMark = [] := by
  simp [spoilMark, h]

theorem spoilSlot_of_silent {s : State} (bytes : List Byte) (h : s.receivesHere = false) :
    s.spoilSlot bytes = LineCode.quietSlot := by
  simp [spoilSlot, h]

theorem spoilSlot_of_receives {s : State} (bytes : List Byte) (h : s.receivesHere = true) :
    s.spoilSlot bytes =
      if (s.resolveReadback bytes).findsBad bytes then LineCode.spoilCells else LineCode.quietSlot := by
  simp [spoilSlot, h]

/-- The cells a station drives before and after a readback difference of its frame on the line. -/
theorem drivenCells_of_flight {s : State} {f : Flight} (h : s.flight = some f) :
    s.drivenCells = if f.differed then none else some (LineCode.frameCells f.frame.bytes) := by
  simp [drivenCells, h]

/-! ## The arbiter and joining in (R31, R35) -/

theorem joinIn_some {s : State} {x b} (h1 : s.arbiterChoice = some x) (h2 : s.slotBody x = some b) : s.joinIn =
    { s.markOnLine x with
        flight := some { slot := x, frame := { sender := s.stationNumber, body := b }, attached := true
                         differed := false } } := by
  unfold joinIn; rw [h1]; dsimp only; rw [h2]

theorem joinIn_none {s : State} (h1 : s.arbiterChoice = none) : s.joinIn = s := by
  unfold joinIn; rw [h1]

/-- The first placed lane with a property is the one before which no placed frame has it. -/
theorem firstPlaced_eq_some {s : State} {p l o pre post} (h : s.placement = pre ++ l :: post)
    (ho : s.laneSlot l = some o) (hp : p o.frame = true)
    (hn : ∀ k ∈ pre, ∀ q, s.laneSlot k = some q → p q.frame = false) : s.firstPlaced p = some l := by
  unfold firstPlaced
  rw [List.find?_eq_some_iff_append]
  refine ⟨by rw [ho]; exact hp, pre, post, h, fun k hk => ?_⟩
  split
  · next q hq => simpa using hn k hk q hq
  · rfl

theorem firstPlaced_eq_none {s : State} {p} (hn : ∀ k ∈ s.placement, ∀ q, s.laneSlot k = some q → p q.frame = false) :
    s.firstPlaced p = none := by
  unfold firstPlaced
  rw [List.find?_eq_none]
  intro k hk
  split
  · next q hq => simpa using hn k hk q hq
  · simp

theorem arbiterChoice_station {u : State} {o} (h : u.stationSlot = some o) : u.arbiterChoice = some .station := by
  unfold arbiterChoice; rw [h]; rfl

theorem arbiterChoice_lane {u : State} {l} (h : u.stationSlot = none)
    (h2 : u.firstPlaced (fun f => !f.isUpdate) = some l) : u.arbiterChoice = some (.lane l) := by
  unfold arbiterChoice; rw [h, h2]; rfl

theorem arbiterChoice_image {u : State} {o} (h : u.stationSlot = none)
    (h2 : u.firstPlaced (fun f => !f.isUpdate) = none) (h3 : u.imageSlot = some o) :
    u.arbiterChoice = some .image := by
  unfold arbiterChoice; rw [h, h2, h3]; rfl

theorem arbiterChoice_update {u : State} (h : u.stationSlot = none)
    (h2 : u.firstPlaced (fun f => !f.isUpdate) = none) (h3 : u.imageSlot = none) :
    u.arbiterChoice = (u.firstPlaced LaneFrame.isUpdate).map SlotId.lane := by
  unfold arbiterChoice; rw [h, h2, h3]; rfl

/-! ## The slots at the end of an attempt (R36, R37, R131) -/

/-- The image slot after it has followed the response set (R36). -/
theorem moveImageSlot_follows (s : State) : s.moveImageSlot.ImageSlotFollows s.imageSlot := by
  have hreg : s.moveImageSlot.regions = s.regions := by simp
  have hr : ∀ r, s.moveImageSlot.region r = s.region r := fun r => by simp [region]
  constructor
  · intro h
    have : s.lowestResponding = none := by
      cases hx : s.lowestResponding with
      | none => rfl
      | some a =>
        have := (lowest_some hx).1
        have h2 := h a; rw [hr] at h2; rw [h2] at this; simp at this
    unfold moveImageSlot; rw [this]
  · intro r h1 h2
    rw [hr] at h1
    have : s.lowestResponding = some r := by
      cases hx : s.lowestResponding with
      | none => have := lowest_none hx r; rw [h1] at this; simp at this
      | some a =>
        have ha := lowest_some hx
        have hle : a ≤ r := ha.2 r h1
        rcases hle.lt_or_eq with hlt | he
        · have h3 := h2 a hlt; rw [hr] at h3; rw [h3] at ha; simp at ha
        · rw [he]
    unfold moveImageSlot; rw [this]
    dsimp only
    cases hi : s.imageSlot with
    | none => exact ⟨0, rfl, Or.inr ⟨by simp, rfl⟩⟩
    | some o =>
      dsimp only
      by_cases he : o.region = r
      · rw [if_pos he]
        refine ⟨o.attempts, ?_, Or.inl ⟨o, rfl, he, rfl⟩⟩
        rw [hi, ← he]
      · rw [if_neg he]
        exact ⟨0, rfl, Or.inr ⟨fun o' ho' => by cases ho'; exact he, rfl⟩⟩

theorem moveImageSlot_eq (s : State) : s.moveImageSlot = { s with imageSlot := s.moveImageSlot.imageSlot } := by
  ext1 <;> simp

theorem syncImageSlot_of_no_flight (s : State) (h : s.flight = none) : s.syncImageSlot = s.moveImageSlot := by
  unfold syncImageSlot imageOnLine; rw [h]; simp

theorem lane_backToOffered (s : State) (l k) : (s.backToOffered l).lane k =
    if k = l then { s.lane l with state := .offered } else s.lane k := by
  unfold backToOffered; rw [lane_modifyLane]

theorem lane_stopAtEnd (s : State) (l k) : (s.stopAtEnd l).lane k =
    if k = l then (s.lane l).endChain l .stopped else s.lane k := by
  unfold stopAtEnd endLane; rw [lane_modifyLane]; rfl

theorem emptyStationSlot_eq (s : State) : s.emptyStationSlot =
    { s with stationSlot := State.entering s.stationNext, stationNext := none } := by
  unfold emptyStationSlot enterNext State.entering
  dsimp only
  cases hn : s.stationNext with
  | none => ext1 <;> simp
  | some g => rfl

theorem enterNext_eq (s : State) : s.enterNext = s.nextEntered := by
  unfold enterNext nextEntered entering
  cases hn : s.stationNext <;> simp

theorem loseAttempt_lane {s : State} {f l} (hf : s.flight = some f) (hs : f.slot = .lane l) (ha : f.attached = true) :
    s.loseAttempt =
      if (s.lane l).stopPending then ({ s with flight := none } : State).stopAtEnd l
      else ({ s with flight := none } : State).backToOffered l := by
  unfold loseAttempt; rw [hf]; dsimp only; rw [hs]; dsimp only; rw [if_pos ha]; rfl

/-- What the end of an attempt that is not counted does (R33, R37). -/
theorem loseAttempt_lost {s : State} {f} (hf : s.flight = some f) : s.loseAttempt.AttemptLost s f := by
  refine ⟨fun l hs ha hp => ?_, fun l hs ha hp => ?_, fun l hs ha => ?_, fun hs ha o ho => ?_, fun hs ha => ?_,
    fun hs => ?_⟩
  · rw [loseAttempt_lane hf hs ha, if_neg (by simp [hp])]
    exact ⟨lane_backToOffered _ l, rfl⟩
  · rw [loseAttempt_lane hf hs ha, if_pos hp]
    exact ⟨lane_stopAtEnd _ l, rfl⟩
  · unfold loseAttempt; rw [hf]; dsimp only; rw [hs]; dsimp only; rw [if_neg (by simp [ha])]
  · unfold loseAttempt; rw [hf]; dsimp only; rw [hs]; dsimp only; rw [if_pos ha, ho]; dsimp only
    refine ⟨fun h => by rw [if_neg (by simp [h])], fun h => ?_⟩
    rw [if_pos h, emptyStationSlot_eq]
  · unfold loseAttempt; rw [hf]; dsimp only; rw [hs]; dsimp only
    rw [if_neg (by simp [ha]), enterNext_eq]
    unfold nextEntered
    dsimp only
    split <;> rfl
  · unfold loseAttempt; rw [hf]; dsimp only; rw [hs]; dsimp only
    rw [syncImageSlot_of_no_flight _ rfl]
    exact ⟨moveImageSlot_follows _, moveImageSlot_eq _⟩

/-! ## Frame ends -/

@[simp] theorem flight_loseAttempt (s : State) : s.loseAttempt.flight = none := by
  unfold loseAttempt
  split
  · assumption
  · dsimp only
    repeat' split
    all_goals simp

/-! ## The readback resolved at a frame's end (log 2) -/

theorem resolveReadback_sent {s : State} {f bytes} (hf : s.flight = some f) (hb : f.frame.bytes = bytes) :
    s.resolveReadback bytes = s := by
  simp [resolveReadback, hf, hb]

/-- Other bytes under this station's key: a readback difference (R40). -/
theorem resolveReadback_differs {s : State} {f bytes} (hf : s.flight = some f) (hb : f.frame.bytes ≠ bytes)
    (hk : bytes.head? = some f.frame.key) :
    s.resolveReadback bytes = { s with flight := some { f with differed := true } } := by
  by_cases hd : f.differed = true
  · have hm : ({ f with differed := true } : Flight) = f := by cases f; simp_all
    have hs : ({ s with flight := some f } : State) = s := by cases s; simp_all
    rw [hm, hs]
    simp [resolveReadback, hf, hd]
  · simp [resolveReadback, hf, hd, hb, hk, State.readbackDifference]

/-- Another key: arbitration was lost (R33). -/
theorem resolveReadback_lost {s : State} {f bytes} (hf : s.flight = some f) (hd : f.differed = false)
    (hk : bytes.head? ≠ some f.frame.key) : s.resolveReadback bytes = s.loseAttempt.settle := by
  have hb : f.frame.bytes ≠ bytes := by rintro rfl; exact hk rfl
  simp [resolveReadback, hf, hd, hb, hk]

/-- Without a frame of its own on the line a station finds bad what fails the check of R38. -/
theorem findsBad_of_no_flight {s : State} (h : s.flight = none) (bytes : List Byte) :
    s.findsBad bytes = (checkFrame bytes).isNone := by
  simp [findsBad, State.sent, h]

/-- With no frame of this station left, a carried frame is a peer's. -/
theorem carriedHere_peer {s : State} {b f} (hb : checkFrame b = some f) (hn : (s.resolveReadback b).flight = none) :
    s.carriedHere b = (s.resolveReadback b).atFrameEnd.carriedFromPeer f := by
  unfold carriedHere; rw [hb]; dsimp only
  split
  · next fl hfl => have : (s.resolveReadback b).flight = some fl := hfl; rw [hn] at this; cases this
  · rfl

/-- A carried frame this station hears is applied as a peer's (R43). -/
theorem exec_of_hears {s : State} {b f} (h : s.Hears b f) :
    exec (.carriedFrameEnd b) s = .next (s.atFrameEnd.applyPeer f).settle := by
  obtain ⟨⟨h0, hl, hp⟩, hf, hb, hn⟩ := h
  rw [exec_carriedFrameEnd b h0 hp, carriedFrameEnd_of_listening b hl]
  have e1 : s.resolveReadback b = s := by unfold resolveReadback; rw [hf]
  rw [carriedHere_peer hb (by rw [e1]; exact hf), e1]
  unfold carriedFromPeer; rw [if_neg (by exact hn)]

/-- A carried frame this station has sent leaves its slot and is applied (R44). -/
theorem exec_of_sends {s : State} {b f} (h : s.Sends b f) :
    exec (.carriedFrameEnd b) s = .next ((s.atFrameEnd.takeOut f).applyOwn f).settle := by
  obtain ⟨⟨h0, hl, hp⟩, hf, hd, hb, hx, hc⟩ := h
  rw [exec_carriedFrameEnd b h0 hp, carriedFrameEnd_of_listening b hl]
  have e1 : s.resolveReadback b = s := by unfold resolveReadback; rw [hf]; dsimp only; rw [if_pos (Or.inr hb)]
  have e2 : s.atFrameEnd.sent b = true := by
    have : s.atFrameEnd.flight = some f := hf
    unfold State.sent; rw [this]; simp [hd, hb]
  unfold carriedHere; rw [hc, e1]; dsimp only
  split
  · next fl hfl =>
    have : s.flight = some fl := hfl
    rw [hf] at this; cases this
    rw [if_pos (by exact e2)]; rfl
  · next hn => have : s.flight = none := hn; rw [hf] at this; cases this

end Sys2Proof.Machine.State
end

