-- ==== Sys2Proof/Tests/Slice0.lean ====
section
/-! SUPPORT. Small tests: what the well-formedness check refuses, worked values of the spec, and for every statement
with hypotheses a state and operands that meet them together. -/

namespace Sys2Proof.Tests

set_option Elab.async false

open Sys2Proof Sys2Proof.Machine

/-! ## What the well-formedness check refuses -/

theorem test_known_code_is_no_unknown_request :
    (Instr.unknownRequest 1).wellFormed = false ∧ (Instr.unknownRequest 10).wellFormed = false ∧
      (Instr.unknownRequest 0).wellFormed = true ∧ (Instr.unknownRequest 11).wellFormed = true := by decide

theorem test_request_and_pop_words_are_no_plain_write :
    (Instr.hostWordWrite 0x3178 1).wellFormed = false ∧ (Instr.hostWordWrite 0x3173 0).wellFormed = false ∧
      (Instr.hostWordWrite 0x3177 1).wellFormed = true := by decide

theorem test_long_frames_are_ill_formed :
    (Instr.spoiledFrameEnd (List.replicate 137 0)).wellFormed = false ∧
      (Instr.carriedFrameEnd (List.replicate 137 0)).wellFormed = false ∧
      (Instr.carriedFrameEnd (List.replicate 136 0)).wellFormed = true := by decide +kernel

theorem test_no_word_spells_a_command : decodeTableWord 16 0x1234 = none := rfl

/-! ## States the tests start from -/

/-- Station 9, ACTIVE, every region CURRENT, unowned, its guard open, a frame in progress. -/
def act : State :=
  { State.reset with
    stationState := .active, stationNumber := 9, phase := .inFrame
    regions := Vector.replicate 128
      { state := .current, owner := none, count := 0, guardOpen := true, responding := false } }

/-- `act` before it has joined: every region STALE, its JOIN carried or not. -/
def joining (carried asked : Bool) : State :=
  { State.reset with
    stationState := .joining, stationNumber := 9, phase := .inFrame
    join := some { joinCarried := carried, askCarried := asked } }

/-- A region record with an owner. -/
def owned (s : State) (r : RegionNo) (t : Station) : State := s.setRegion r { s.region r with owner := some t }

/-- Host writes of a run of words. -/
def poke (s : State) (a : Nat) : List Word → State
  | [] => s
  | w :: ws => poke (s.writeWord (BitVec.ofNat 14 a) w) (a + 1) ws

/-- A lane RUNNING at an index. -/
def running (s : State) (l : LaneNo) (i : Index) : State := s.setLane l (State.startedLane i 7)

/-- A frame of this station on the line. -/
def sending (s : State) (slot : SlotId) (body : FrameBody) : State :=
  { s with flight := some { slot := slot, frame := { sender := s.stationNumber, body := body }, attached := true
                            differed := false } }

/-- A lane ON_LINE with its frame. -/
def laneSending (s : State) (l : LaneNo) (f : LaneFrame) : State :=
  sending ((s.placeLaneFrame l f).setLane l { State.startedLane 0 7 with state := .onLine }) (.lane l) f.body

/-- The state after a command. -/
def after (c : Instr) (s : State) : State :=
  match exec c s with
  | .next t => t
  | .fault _ => s
  | .refused _ => s

/-! ## Worked values of the spec -/

theorem test_check_word : checkWord [0x31, 0x32, 0x33, 0x34, 0x35, 0x36, 0x37, 0x38, 0x39] = 0x29B1 := by
  decide +kernel

/-- The UPDATE of 09 section 9.1: station 9 sends AA 55 to offset 4 of region 30. -/
theorem test_update_frame :
    ({ sender := 9, body := .update 30 4 [0xAA, 0x55] } : Frame).content =
      [0x69, 0x06, 0x1E, 0x04, 0x01, 0xAA, 0x55] := by decide

theorem test_frame_is_read_back :
    checkFrame ({ sender := 9, body := .ask 10 3 } : Frame).bytes = some { sender := 9, body := .ask 10 3 } ∧
      LineCode.receive (LineCode.frameCells ({ sender := 9, body := .ask 10 3 } : Frame).bytes) =
        some (({ sender := 9, body := .ask 10 3 } : Frame).bytes, true) := by decide +kernel

/-- Received bytes with their check word right. -/
def sealed (content : List Byte) : List Byte :=
  content ++ [hiByte (checkWord content), loByte (checkWord content)]

theorem checkFrame_sealed (key kind : Byte) (body : List Byte) :
    checkFrame (sealed (key :: kind :: body)) =
      if 132 < body.length then none
      else
        match parseBody kind.toNat body with
        | some b => if key.toNat / 32 = b.keyClass then some { sender := key.setWidth 5, body := b } else none
        | none => none :=
  (checkFrame_parts key kind body _ _).trans (by rw [if_pos rfl] <;> rfl)

/-- An IMAGE of too few or too many bytes is bad; its owner byte is none from 32 on (R10, R39). -/
theorem test_image_bytes :
    checkFrame (sealed (0x49 :: 5 :: ([0x9E, 31, 1, 2] ++ List.replicate 128 7))) =
        some { sender := 9, body := .image 30 (some 31) 0x0102 (List.replicate 128 7) } ∧
      checkFrame (sealed (0x49 :: 5 :: ([0x9E, 32, 1, 2] ++ List.replicate 128 7))) =
        some { sender := 9, body := .image 30 none 0x0102 (List.replicate 128 7) } ∧
      checkFrame (sealed (0x49 :: 5 :: ([30, 0, 0, 0] ++ List.replicate 127 7))) = none ∧
      checkFrame (sealed (0x49 :: 5 :: ([30, 0, 0, 0] ++ List.replicate 129 7))) = none := by
  simp only [checkFrame_sealed]
  decide +kernel

/-- Bytes that spell a frame: bit 7 of a region byte is read as R10 and R53 say. -/
theorem test_clean_bytes :
    checkFrame (sealed [0x29, 2, 0x9E]) = some { sender := 9, body := .claim true 30 } ∧
      checkFrame (sealed [0x29, 3, 0x9E]) = some { sender := 9, body := .release 30 } ∧
      checkFrame (sealed [0x3F, 4, 127, 0]) = some { sender := 31, body := .ask 127 1 } ∧
      checkFrame (sealed [0x69, 6, 30, 127, 0, 0x55]) = some { sender := 9, body := .update 30 127 [0x55] } := by
  decide +kernel

/-- Bytes that are bad though their check word is right, each for one condition of R38 or R39, and a wrong check word. -/
theorem test_bad_bytes :
    checkFrame (sealed [0x09, 7]) = none ∧ checkFrame (sealed [0x89, 0]) = none ∧ checkFrame (sealed [0x29, 0]) = none ∧
      checkFrame (sealed [0x09, 0, 0]) = none ∧ checkFrame (sealed [0x29, 4, 127, 1]) = none ∧
      checkFrame (sealed [0x69, 6, 30, 127, 1, 0x55, 0x55]) = none ∧ checkFrame (sealed [0x69, 6, 30, 0, 1, 0x55]) = none ∧
      checkFrame ([0x09, 0] ++ [0, 0]) = none ∧ checkFrame (sealed [0x09]) = none := by
  decide +kernel

/-- The scatter chain of 09 section 9.2. -/
def scatter : State :=
  poke (poke (poke act 0x2948 [0x0022, 0x000C, 0x0010, 0x0100]) 0x2950 [0x0006, 0, 0, 0, 0x003C])
    0x29E0 [0x0042, 0, 0x0008, 0x0200, 0, 0, 0, 0x0007]

theorem test_scatter_group :
    Entry.readGroup scatter.chain .get 41 =
      .ok { segs := [(256, 16), (512, 8)], total := 24, last := 60, next := false, size := 3
            note := some (60, 7), notes := 1 } := by decide +kernel

/-- A GET of one byte at an odd staging address writes half of a word (R111). -/
theorem test_get_writes_half_a_word :
    (after (.entryTake 0)
      (running (poke { act with area := [(5, 0x77)] } 0x2800 [0x0002, 0x0500, 0x0001, 0x0003]) 0 0)).hostRead 0x2001 =
      0x7700 := by decide +kernel

theorem test_empty_store_ends_bad_entry :
    (after (.entryTake 0) (running act 0 0)).hostRead 0x3161 = 0x0009 := by decide +kernel

theorem test_start_takes_lane_0 :
    (after .start { act with p0 := 40, p1 := 5 }).hostRead 0x3179 = 0x0001 ∧
      (after .start { act with p0 := 40, p1 := 5 }).hostRead 0x3102 = 0x2828 := by decide +kernel

theorem test_configure_offers_a_join :
    (after .configure { State.reset with p0 := 0x12 }).hostRead 0x3171 = 0x0012 ∧
      (after .configure { State.reset with p0 := 0x12 }).hostRead 0x3170 = 0x0001 ∧
      (after .configure { State.reset with p0 := 0x12 }).stationSlot =
        some { frame := .join, attempts := 0, held := false } := by decide +kernel

theorem test_guards_show_in_the_status_words :
    (after .guardShut { act with p0 := 127, p1 := 1 }).hostRead 0x307F = 0x0002 ∧
      (after .guardShut { act with p0 := 127, p1 := 1 }).hostRead 0x307E = 0x0006 := by decide +kernel

/-- A peer's UPDATE reaches the area and fires a watch (R7, R159). -/
theorem test_update_fires_a_watch :
    let s := after (.carriedFrameEnd ({ sender := 3, body := .update 30 4 [0xAA, 0x55] } : Frame).bytes)
      (after .watchArm { act with p0 := 2, p1 := 30, p2 := 1 })
    s.hostRead 0x0782 = 0x55AA ∧ s.hostRead 0x309E = 1 ∧ s.queue.length = 1 ∧
      (after (.pop 0) s).queue = [] := by decide +kernel

/-- A frame's end reaches only a line unit that has received the frame: not one released in its middle (R30). -/
theorem test_released_in_a_frame_receives_none_of_it :
    let s := after .configure { State.reset with p0 := 0 }
    s.phase = .counting ∧
      after (.carriedFrameEnd ({ sender := 3, body := .update 30 4 [0xAA] } : Frame).bytes) s = s ∧
      after .framingBreak s = s ∧ after (.spoiledFrameEnd []) s = s := by decide +kernel

/-- The seize's LOST record goes before the report of a watch on the region, and takes the last slot (R13, R64). -/
theorem test_loss_is_posted_before_the_report :
    let s := { owned (after .watchArm { act with p0 := 2, p1 := 30, p2 := 2 }) 30 9 with
               queue := List.replicate 31 (.lost 0 3) }
    let t := after (.carriedFrameEnd ({ sender := 3, body := .claim true 30 } : Frame).bytes) s
    t.queue = List.replicate 31 (.lost 0 3) ++ [.lost 30 3] ∧ t.waiting = [.watch 2] := by decide +kernel

/-- A peer's seize of this station's region posts a LOST record (R64). -/
theorem test_seize_posts_a_loss :
    (after (.carriedFrameEnd ({ sender := 3, body := .claim true 30 } : Frame).bytes) (owned act 30 9)).queue =
      [.lost 30 3] := by decide +kernel

/-! ## What the hypotheses of the statements admit -/

theorem witness_StepRunsFrontCommand :
    ({ State.reset with pending := [.rejoin, .leave] } : State).pending = .rejoin :: [.leave] := rfl

theorem witness_StepWithoutCommandIsOneMillisecond : State.reset.pending = [] := rfl

theorem witness_PinResetHoldsAndEnds :
    ({ act with inReset := true } : State).inReset = true ∧ Instr.rejoin ≠ .pinReset ∧
      ∀ x, Instr.rejoin ≠ .pinResetEnd x := ⟨rfl, by decide, by decide⟩

theorem witness_SoftReset : act.inReset = false := rfl

theorem witness_Configure :
    State.reset.inReset = false ∧ ({ State.reset with p0 := 0x4 } : State).p0 &&& 0xFFEC ≠ 0 ∧
      ({ act with p0 := 0x13 } : State).p0 &&& 0xFFEC = 0 ∧ act.stationState ≠ .offline ∧
      State.reset.stationState = .offline ∧ State.reset.PhaseFits :=
  ⟨rfl, by decide, by decide, by decide, rfl, by unfold State.PhaseFits; decide⟩

theorem witness_Rejoin :
    State.reset.stationState = .offline ∧ act.stationState = .active ∧ act.inReset = false ∧
      act.flight.map Flight.slot ≠ some .station ∧
      (sending act .station .leave).flight.map Flight.slot = some .station := by decide

theorem witness_Leave :
    act.stationState = .active ∧ (joining true false).stationState = .joining ∧
      State.reset.stationState ≠ .joining ∧ State.reset.stationState ≠ .active ∧ act.flight = none ∧
      (sending act .station .join).flight.map Flight.slot = some .station := by decide

theorem witness_UnknownRequests : act.inReset = false ∧ (Instr.unknownRequest 11).wellFormed = true := by decide

theorem witness_GuardRequests :
    let ok := fun p q : Word => p.toNat ≤ 127 ∧ 1 ≤ q.toNat ∧ q.toNat ≤ 128 ∧ p.toNat + q.toNat ≤ 128
    let bad := fun p q : Word => 127 < p.toNat ∨ q.toNat = 0 ∨ 128 < q.toNat ∨ 128 < p.toNat + q.toNat
    ok 0 128 ∧ ok 127 1 ∧ bad 128 1 ∧ bad 0 0 ∧ bad 0 129 ∧ bad 127 2 := by decide

theorem witness_HostWrites :
    act.inReset = false ∧ act.StoresOk ∧
      ([0x2000, 0x27FF, 0x2800, 0x2FFF, 0x3174, 0x3177, 0x1FFF, 0x3000, 0x3172, 0x3179, 0x3FFF].all
        fun a : WordAddr => (Instr.hostWordWrite a 1).wellFormed) = true :=
  ⟨rfl, by unfold State.StoresOk; decide +kernel, by decide +kernel⟩

theorem witness_HostReads :
    act.inReset = false ∧ (0x1FFF : WordAddr).toNat ≤ 0x1FFF ∧ 0x2000 ≤ (0x2000 : WordAddr).toNat ∧
      (0x27FF : WordAddr).toNat ≤ 0x27FF ∧ 0x2800 ≤ (0x2800 : WordAddr).toNat ∧
      (0x2FFF : WordAddr).toNat ≤ 0x2FFF ∧ (0x3172 : WordAddr).toNat = 0x3172 ∧
      (after .rejoin act).result = some { answer := .ok, value := 0 } ∧ act.result = none ∧
      (0x317A : WordAddr).toNat = 0x317A := by decide +kernel

/-- The pins' levels name an access: none deselected, a read with both strobes low, a request by its code (R165). -/
theorem test_pins_name_an_access :
    act.portAccess true false true 0x3170 0 9 = none ∧
      act.portAccess false false false 0x3170 7 9 = some (.inl (act.hostRead 0x3170)) ∧
      act.portAccess false true false 0x3178 4 9 = some (.inr .leave) ∧
      act.portAccess false true false 0x3178 11 9 = some (.inr (.unknownRequest 11)) ∧
      act.portAccess false true false 0x3173 5 9 = some (.inr (.pop 5)) ∧
      act.portAccess false true false 0x2FFF 5 9 = some (.inr (.hostWordWrite 0x2FFF 5)) := by decide +kernel

/-- A soft reset on the pins takes the number that SN0 to SN4 show at the access, moved since the last reset or not. -/
theorem test_pins_soft_reset_takes_the_moved_straps :
    act.stationNumber = 9 ∧ act.portAccess false true false 0x3178 2 13 = some (.inr (.softReset 13)) ∧
      (after (.softReset 13) act).stationNumber = 13 ∧
      (after (.softReset 13) act).stationNumber ≠ act.stationNumber := by decide +kernel

theorem witness_RegionWords :
    ((owned act 30 9).region 30).state = .current ∧ ((owned act 30 9).region 30).owner = some 9 ∧
      ((owned act 30 9).region 31).owner = none ∧ (State.reset.region 0).state ≠ .current := by decide

theorem witness_StationWords :
    act.inReset = false ∧ ({ act with spoilStreak := 16, passCount := 3 } : State).spoilStreak ≤ 16 ∧
      act.spoilStreak ≤ 16 ∧ act.passCount ≤ 3 := by decide

theorem witness_LaneWords :
    act.laneAttempts 3 ≤ 7 ∧ (act.lane 3).note = none ∧ (act.lane 3).deadline = none ∧
      ((act.setLane 0 { State.startedLane 0 7 with
          note := some { index := 9, label := 5, merge := 255 }, deadline := some 50 }).lane 0).note =
        some { index := 9, label := 5, merge := 255 } := by decide

/-- `n` records in the queue. -/
def queued (n : Nat) : State := { act with queue := List.replicate n (.lost 0 3) }

theorem witness_Pop :
    act.queue = [] ∧ (queued 1).queue = .lost 0 3 :: [] ∧ (queued 1).waiting = [] ∧
      (queued 32).queue = .lost 0 3 :: List.replicate 31 (.lost 0 3) ∧ (queued 32).QueueOk ∧
      ((queued 32).handEvent .adrift 1).waiting = .event .adrift :: [] ∧
      ((queued 32).handEvent .adrift 1).QueueOk :=
  ⟨rfl, rfl, by decide +kernel, rfl, by unfold State.QueueOk; decide +kernel, by decide +kernel,
    by unfold State.QueueOk; decide +kernel⟩

theorem witness_InterruptOutput :
    act.inReset = false ∧ 2 ≤ (queued 2).queue.length ∧ (queued 1).waiting = [] ∧
      ((queued 32).handEvent .adrift 1).waiting ≠ [] ∧ Instr.configure.wellFormed = true ∧
      (after .configure { State.reset with p0 := 0x10 }).irqEnable ≠ State.reset.irqEnable ∧
      (after (.softReset 3) { act with irqEnable := true }).irqEnable ≠ true := by decide +kernel

theorem witness_Arbiter :
    let s := ((queued 32).handEvent .halted 0).setLost 127 (some 3)
    s.queue = .lost 0 3 :: List.replicate 31 (.lost 0 3) ∧ s.isWaiting (.event .halted) = true ∧
      s.waiting = [.event .halted, .lost 127] := by decide +kernel

theorem witness_Arbiter_least (q : Producer)
    (_ : (((queued 32).handEvent .halted 0).setLost 127 (some 3)).isWaiting q = true) :
    producerRank (.event .joined) ≤ producerRank q := Nat.zero_le _

theorem witness_RecordsAreHandedOver :
    act.waiting = [] ∧ (act.handEvent .left 0).waiting = [.event .left] ∧
      (act.handEvent .left 0).recordOf (.event .left) = some (.station .left 0 1) ∧
      (act.handEvent .left 0).queue.length < 32 ∧ 32 ≤ (queued 32).queue.length := by decide +kernel

/-- What each kind of producer keeps (R143, R160). -/
theorem witness_RecordOf :
    let s := after (.entryTake 3) (running (queued 32) 3 0)
    (s.lane 3).state = .holding ∧ (s.lane 3).held.isSome = true ∧
      s.recordOf (.chainEnd 3) =
        some (.chainEnd { lane := 3, status := .badEntry, tag := 7, last := 0, completed := 0, folded := false }) ∧
      (act.lane 3).state ≠ .holding ∧ act.recordOf (.chainEnd 3) = none ∧
      ((act.setLane 2 { State.startedLane 0 7 with
          note := some { index := 9, label := 5, merge := 2 } }).recordOf (.note 2)) = some (.note 2 9 5 2 7) ∧
      ((queued 32).setLost 127 (some 3)).recordOf (.lost 127) = some (.lost 127 3) ∧
      (act.watch 0).state ≠ .pending ∧ act.recordOf (.watch 0) = none := by decide +kernel

/-- Two watches on region 30 with reports. -/
def twoWatches : State :=
  let w : Watch := { state := .pending, region := 30, mode := .content, changes := 1, own := false
                     ownerChanged := false }
  (act.setWatch 2 w).setWatch 5 w

theorem witness_WatchesPostInIndexOrder :
    (2 : WatchNo) < 5 ∧ (twoWatches.watch 2).region = (twoWatches.watch 5).region ∧
      twoWatches.waiting = [.watch 2, .watch 5] ∧
      twoWatches.recordOf (.watch 2) = some (.watch 2 30 0 1 false false none) ∧
      twoWatches.recordOf (.watch 5) = some (.watch 5 30 0 1 false false none) ∧
      twoWatches.queue.length + 2 ≤ 32 := by decide +kernel

theorem witness_StationEvents :
    act.events.get .left = none ∧
      (act.handEvent .left 0).events.get .left = some { value := 0, merge := 1 } ∧
      StationEvent.joined ≠ .left := by decide

/-- A content change of region 30 from a peer. -/
def change : ChangeReport := { region := 30, content := true, owner := false, own := false }

/-- A lane WAITING on region 30. -/
def waitingOn (mode : WaitMode) : State :=
  act.setLane 1
    { State.startedLane 0 7 with
      state := .waiting, wait := some { region := 30, mode := mode, value := 0 }, deadline := some 50
      entry := some { next := false, alt := none, size := 1 } }

theorem witness_ChangeReports :
    (twoWatches.watch 2).region = change.region ∧ (twoWatches.watch 2).mode.Matches change ∧
      (twoWatches.watch 2).state = .pending ∧ (act.watch 2).state = .off ∧
      ((after .watchArm { act with p0 := 2, p1 := 30 }).watch 2).state = .armed ∧
      ((waitingOn .unowned).lane 1).state = .waiting ∧
      ((waitingOn .unowned).lane 1).wait = some { region := 30, mode := .unowned, value := 0 } ∧
      (waitingOn .unowned).WaitTest { region := 30, mode := .unowned, value := 0 } ∧
      ¬ (waitingOn .mine).WaitTest { region := 30, mode := .mine, value := 0 } :=
  ⟨by decide +kernel, rfl, by decide +kernel, by decide +kernel, by decide +kernel, by decide +kernel,
    by decide +kernel, by unfold State.WaitTest; decide +kernel, by unfold State.WaitTest; decide +kernel⟩

theorem witness_WatchRequests :
    (15 : Word).toNat = (15 : WatchNo).val ∧ (127 : Word).toNat = (127 : RegionNo).val ∧
      (2 : Word).toNat = WatchMode.owner.code ∧ 15 < (16 : Word).toNat ∧ 127 < (128 : Word).toNat ∧
      2 < (3 : Word).toNat ∧ (0 : Word).toNat = WatchMode.content.code := by decide

theorem witness_HeadWindow :
    act.queue = [] ∧ act.inReset = false ∧ (queued 1).queue = .lost 0 3 :: [] ∧
      ({ act with queue := [.note 3 255 7 255 9] } : State).queue = .note 3 255 7 255 9 :: [] ∧
      ({ act with queue := [.watch 15 127 9 255 true true (some 31)] } : State).queue =
        .watch 15 127 9 255 true true (some 31) :: [] ∧
      ({ act with queue := [.station .halted 0 255] } : State).queue = .station .halted 0 255 :: [] := by decide

theorem witness_Start :
    (255 : Word).toNat ≤ 255 ∧ 255 < (256 : Word).toNat ∧ (255 : Word).toNat = (255 : Index).val ∧
      act.stationState = .active ∧ (act.lane 0).state = .free ∧ (∀ k : LaneNo, k < 0 → (act.lane k).state ≠ .free) ∧
      ((running act 0 0).lane 1).state = .free ∧
      (∀ k : LaneNo, k < 1 → ((running act 0 0).lane k).state ≠ .free) ∧
      (∀ l, ((running (running (running (running act 0 0) 1 0) 2 0) 3 0).lane l).state ≠ .free) ∧
      State.reset.stationState ≠ .joining ∧ State.reset.stationState ≠ .active := by decide +kernel

theorem witness_Stop :
    3 < (4 : Word).toNat ∧ (3 : Word).toNat = (3 : LaneNo).val ∧ (act.lane 3).state = .free ∧
      ((running act 3 0).lane 3).state = .running ∧ ((waitingOn .mine).lane 1).state = .waiting ∧
      ((laneSending act 3 (.release 30)).lane 3).state = .onLine ∧
      ((act.placeFrame 3 (.release 30)).lane 3).state = .offered ∧
      ((after (.entryTake 3) (running (queued 32) 3 0)).lane 3).state = .holding ∧
      ((running act 3 0).lane 3).state.busy = true := by decide +kernel

/-- A lane with an entry under way at an index. -/
def under (next : Bool) (alt : Option Index) (cur : Index) : Lane :=
  { State.startedLane cur 7 with entry := some { next := next, alt := alt, size := 1 } }

theorem witness_EntriesGoOnOrEnd :
    (under true none 254).entry = some { next := true, alt := none, size := 1 } ∧
      (255 : Index).val = (under true none 254).cur.val + 1 ∧ (under true none 255).cur.val = 255 ∧
      (under false (some 3) 9).stopPending = false ∧ Status.notCurrent ≠ .done ∧
      ({ under true none 9 with stopPending := true } : Lane).stopPending = true := by decide

theorem witness_WaitTimeout :
    ((waitingOn .mine).lane 1).state = .waiting ∧ ((waitingOn .mine).lane 1).deadline.isSome = true ∧
      (act.lane 1).state ≠ .waiting ∧ (act.lane 1).deadline = none := by decide +kernel

theorem witness_AccessOpens :
    ({ act with phase := .counting } : State).phase = .counting ∧ act.phase ≠ .counting ∧ act.listening = true ∧
      State.reset.listening = false := by decide

/-- An UPDATE in lane 3's slot, then a RELEASE in lane 1's, an IMAGE and a LEAVE. -/
def offering : State :=
  { (act.placeLaneFrame 3 (.update 30 4 [1])).placeLaneFrame 1 (.release 31) with
    phase := .counting, imageSlot := some { region := 5, attempts := 0 }
    stationSlot := some { frame := .leave, attempts := 7, held := false } }

theorem witness_StartEdge :
    offering.phase = .counting ∧ offering.listening = true ∧ offering.stationSlot.isSome = true ∧
      offering.placement = [3] ++ 1 :: [] ∧
      offering.laneSlot 1 = some { frame := .release 31, attempts := 0 } ∧
      offering.laneSlot 3 = some { frame := .update 30 4 [1], attempts := 0 } ∧
      (LaneFrame.release 31).isUpdate = false ∧ (LaneFrame.update 30 4 [1]).isUpdate = true ∧
      (act.placeLaneFrame 3 (.update 30 4 [1])).placement = [] ++ 3 :: [] ∧
      offering.imageSlot.isSome = true ∧ act.imageSlot = none ∧ act.stationSlot = none ∧
      act.placement = [] ∧ ({ offering with stationSlot := none } : State).stationSlot = none ∧
      ({ offering with stationSlot := none } : State).placement = [3] ++ 1 :: [] := by decide +kernel

theorem witness_ArbitrationLoss :
    let s := laneSending act 2 (.release 30)
    s.flight = some { slot := .lane 2, frame := { sender := 9, body := .release 30 }, attached := true
                      differed := false } ∧
      (s.lane 2).stopPending = false ∧
      ((after .stop { s with p0 := 2 }).lane 2).stopPending = true ∧
      (sending offering .station .leave).stationSlot = some { frame := .leave, attempts := 7, held := false } ∧
      s.listening = true ∧ s.inReset = false ∧
      checkFrame ({ sender := 3, body := .join } : Frame).bytes = some { sender := 3, body := .join } ∧
      ({ sender := 3, body := .join } : Frame).bytes.head? ≠ some ({ sender := 9, body := .release 30 } : Frame).key :=
  by decide +kernel

/-- Bytes under another key than this station's own, bad here and clean here, below and at the streak of 15. -/
theorem witness_SpoiledUnderAnotherKey :
    (laneSending act 2 (.release 30)).Receives ∧
      (laneSending act 2 (.release 30)).spoilStreak < 15 ∧
      (laneSending { act with spoilStreak := 15 } 2 (.release 30)).Receives ∧
      15 ≤ (laneSending { act with spoilStreak := 15 } 2 (.release 30)).spoilStreak ∧
      checkFrame [0x03] = none ∧
      ([0x03] : List Byte).head? ≠ some ({ sender := 9, body := .release 30 } : Frame).key :=
  ⟨⟨rfl, rfl, rfl⟩, by decide +kernel, ⟨rfl, rfl, rfl⟩, by decide +kernel, by decide +kernel, by decide +kernel⟩

theorem test_spoil_under_another_key_leaves_the_own_attempt_uncounted :
    let s := after (.spoiledFrameEnd [0x03]) (laneSending act 2 (.release 30))
    s.laneSlot 2 = some { frame := .release 30, attempts := 0 } ∧ s.spoilStreak = 1 ∧ s.flight = none := by
  decide +kernel

theorem test_spoil_with_other_bytes_counts_the_own_attempt :
    let s := after (.spoiledFrameEnd [0x29, 0x03]) (laneSending act 2 (.release 30))
    s.laneSlot 2 = some { frame := .release 30, attempts := 1 } ∧ s.spoilStreak = 1 ∧ s.flight = none := by
  decide +kernel

/-- A frame of this station that a flush took from its slot. -/
def leftover (slot : SlotId) (body : FrameBody) : State :=
  { joining false false with
    flight := some { slot := slot, frame := { sender := 9, body := body }, attached := false, differed := false } }

theorem witness_ArbitrationLossElsewhere :
    (leftover (.lane 2) (.release 30)).flight.map Flight.attached = some false ∧
      (leftover .station .join).flight.map Flight.slot = some .station ∧
      (after .rejoin (sending act .station .leave)).stationNext = some .join ∧
      (laneSending act 2 (.release 30)).Receives := ⟨rfl, rfl, rfl, rfl, rfl, rfl⟩

theorem test_arbitration_lost_by_a_leftover_frame_lets_the_waiting_one_enter :
    (after .arbitrationLost (after .rejoin (sending act .station .leave))).stationSlot =
      some { frame := .join, attempts := 0, held := false } := by decide +kernel

theorem witness_ReadbackDifferenceInTheBytes :
    ({ sender := 9, body := .release 30 } : Frame).bytes ≠ [0x29, 0x03] ∧
      ([0x29, 0x03] : List Byte).head? = some ({ sender := 9, body := .release 30 } : Frame).key := by decide +kernel

theorem witness_ReadbackDifference :
    (laneSending act 2 (.release 30)).flight.isSome = true ∧ act.flight = none ∧
      (laneSending act 2 (.release 30)).Receives ∧
      ({ leftover .station .join with stationState := .adrift } : State).listening = false :=
  ⟨by decide +kernel, rfl, ⟨rfl, rfl, rfl⟩, rfl⟩

theorem witness_SpoiledLaneFrames :
    (laneSending { act with spoilStreak := 15 } 2 (.release 30)).flight.isSome = true ∧
      (laneSending act 2 (.release 30)).SpoilEnds .framingBreak 1 ∧
      (laneSending act 2 (.release 30)).SpoilEnds
        (.spoiledFrameEnd ({ sender := 9, body := .release 30 } : Frame).bytes) 0 ∧
      (after .readbackDifference (laneSending act 2 (.release 30))).SpoilEnds (.spoiledFrameEnd []) 1 ∧
      (laneSending act 2 (.release 30)).SpoilEnds (.spoiledFrameEnd [0x29, 0x03]) 1 ∧
      (laneSending act 2 (.release 30)).laneSlot 2 = some { frame := .release 30, attempts := 0 } ∧
      ((laneSending act 2 (.release 30)).setLaneSlot 2 (some { frame := .release 30, attempts := 7 })).laneSlot 2 =
        some { frame := .release 30, attempts := 7 } :=
  ⟨by decide +kernel, ⟨⟨rfl, rfl, rfl⟩, by decide, Or.inl ⟨rfl, rfl⟩⟩,
    ⟨⟨rfl, rfl, rfl⟩, by decide, Or.inr ⟨_, _, rfl, rfl, Or.inl ⟨rfl, rfl, rfl⟩⟩⟩,
    ⟨⟨rfl, rfl, rfl⟩, by decide, Or.inr ⟨_, _, rfl, rfl, Or.inr ⟨Or.inl rfl, rfl⟩⟩⟩,
    ⟨⟨rfl, rfl, rfl⟩, by decide,
      Or.inr ⟨_, _, rfl, rfl, Or.inr ⟨Or.inr ⟨by decide +kernel, by decide +kernel⟩, rfl⟩⟩⟩,
    by decide +kernel, by decide +kernel⟩

theorem witness_SpoiledLeftovers :
    (leftover (.lane 2) (.release 30)).SpoilEnds .framingBreak 1 ∧
      (leftover .station .join).SpoilEnds (.spoiledFrameEnd ({ sender := 9, body := .join } : Frame).bytes) 0 ∧
      (leftover .image (.image 5 none 0 (List.replicate 128 0))).SpoilEnds .framingBreak 1 :=
  ⟨⟨⟨rfl, rfl, rfl⟩, by decide, Or.inl ⟨rfl, rfl⟩⟩,
    ⟨⟨rfl, rfl, rfl⟩, by decide, Or.inr ⟨_, _, rfl, rfl, Or.inl ⟨rfl, rfl, rfl⟩⟩⟩,
    ⟨⟨rfl, rfl, rfl⟩, by decide, Or.inl ⟨rfl, rfl⟩⟩⟩

/-- The ASK of a join on the line. -/
def asking (attempts : Nat) (held : Bool) : State :=
  sending { joining true false with stationSlot := some { frame := .ask 0 128, attempts := attempts, held := held } }
    .station (.ask 0 128)

theorem witness_SpoiledStationFrames :
    (asking 7 false).SpoilEnds .framingBreak 1 ∧ (asking 7 false).StoresOk ∧
      (asking 7 false).stationSlot = some { frame := .ask 0 128, attempts := 7, held := false } ∧
      (asking 6 false).stationSlot = some { frame := .ask 0 128, attempts := 6, held := false } ∧
      (asking 0 true).stationSlot = some { frame := .ask 0 128, attempts := 0, held := true } ∧
      (asking 7 false).stationState = .joining ∧ (asking 7 false).join.isSome = true ∧
      (asking 7 false).flight.map Flight.slot = some .station :=
  ⟨⟨⟨rfl, rfl, rfl⟩, by decide, Or.inl ⟨rfl, rfl⟩⟩, by unfold State.StoresOk; decide +kernel,
    rfl, rfl, rfl, rfl, rfl, rfl⟩

/-- The IMAGE of region 5 on the line. -/
def answering (attempts : Nat) : State :=
  sending { act.mapRegions (fun r x => if r = 5 then { x with responding := true } else x) with
            imageSlot := some { region := 5, attempts := attempts } }
    .image (.image 5 none 0 (List.replicate 128 0))

theorem witness_SpoiledImages :
    (answering 7).SpoilEnds .framingBreak 1 ∧ (answering 7).imageSlot = some { region := 5, attempts := 7 } ∧
      (answering 6).imageSlot = some { region := 5, attempts := 6 } ∧
      (answering 7).flight.map Flight.attached = some true :=
  ⟨⟨⟨rfl, rfl, rfl⟩, by decide, Or.inl ⟨rfl, rfl⟩⟩, rfl, rfl, rfl⟩

theorem witness_Spoils :
    act.Receives ∧ act.flight = none ∧ ({ act with spoilStreak := 14 } : State).spoilStreak < 15 ∧
      15 ≤ ({ act with spoilStreak := 15 } : State).spoilStreak ∧ checkFrame [] = none ∧
      (checkFrame ({ sender := 3, body := .join } : Frame).bytes).isSome = true ∧
      (after .readbackDifference (laneSending act 2 (.release 30))).flight.map Flight.differed = some true :=
  ⟨⟨rfl, rfl, rfl⟩, rfl, by decide, by decide, by decide +kernel, by decide +kernel, by decide +kernel⟩

/-- A station drives no cells after a difference, and then the spoil slot of its own frame dominant (R40). -/
theorem test_difference_stops_the_cells_and_spoils_the_frame :
    let s := after .readbackDifference (laneSending act 2 (.release 30))
    s.drivenCells = none ∧ s.spoilSlot ({ sender := 9, body := .release 30 } : Frame).bytes = [false, false] ∧
      (laneSending act 2 (.release 30)).spoilSlot ({ sender := 9, body := .release 30 } : Frame).bytes =
        [true, true] := by decide +kernel

/-- The station ADRIFT. -/
def adrift : State := { State.reset with stationState := .adrift, stationNumber := 9, phase := .inFrame }

/-- A frame of this station still on the line in ADRIFT, told of a difference or not. -/
def adriftSending (differed : Bool) : State :=
  { adrift with
    flight := some { slot := .station, frame := { sender := 9, body := .join }, attached := false
                     differed := differed } }

theorem witness_SilentStations :
    State.reset.phase ≠ .inFrame ∧ (after .configure { State.reset with p0 := 0 }).phase ≠ .inFrame ∧
      adrift.inReset = false ∧ adrift.phase = .inFrame ∧ adrift.stationState = .adrift ∧ checkFrame [] = none ∧
      checkFrame ({ sender := 9, body := .join } : Frame).bytes = some { sender := 9, body := .join } ∧
      (adriftSending false).sent ({ sender := 9, body := .join } : Frame).bytes = true ∧
      (adriftSending true).flight.map Flight.differed = some true ∧ adrift.flight = none ∧
      checkFrame ({ sender := 3, body := .join } : Frame).bytes = some { sender := 3, body := .join } ∧
      (3 : Station) ≠ adrift.stationNumber := by decide +kernel

theorem witness_Duplicates :
    act.Receives ∧ act.flight = none ∧ act.stationNumber = 9 ∧
      checkFrame ({ sender := 9, body := .join } : Frame).bytes = some { sender := 9, body := .join } ∧
      (sending act .station .join).Receives ∧
      (sending act .station .join).flight =
        some { slot := .station, frame := { sender := 9, body := .join }, attached := true, differed := false } ∧
      ({ sender := 9, body := .release 30 } : Frame).bytes.head? ≠ some ({ sender := 9, body := .join } : Frame).key ∧
      checkFrame ({ sender := 9, body := .release 30 } : Frame).bytes = some { sender := 9, body := .release 30 } ∧
      ({ sender := 9, body := .leave } : Frame).bytes.head? = some ({ sender := 9, body := .join } : Frame).key ∧
      ({ sender := 9, body := .join } : Frame).bytes ≠ ({ sender := 9, body := .leave } : Frame).bytes ∧
      checkFrame ({ sender := 9, body := .leave } : Frame).bytes = some { sender := 9, body := .leave } :=
  ⟨⟨rfl, rfl, rfl⟩, rfl, rfl, by decide +kernel, ⟨rfl, rfl, rfl⟩, rfl, by decide +kernel, by decide +kernel,
    by decide +kernel, by decide +kernel, by decide +kernel⟩

/-- A peer's frame that a station receiving it, with none of its own on the line, hears. -/
theorem hears_frame (s : State) (f : Frame) (h0 : s.Receives) (h2 : s.flight = none)
    (h3 : checkFrame f.bytes = some f) (h4 : f.sender ≠ s.stationNumber) : s.Hears f.bytes f := ⟨h0, h2, h3, h4⟩

theorem witness_CarriedUpdates :
    act.Hears ({ sender := 3, body := .update 30 4 [1] } : Frame).bytes { sender := 3, body := .update 30 4 [1] } ∧
      act.StoresOk ∧ (act.region 30).state = .current ∧ (act.region 30).owner = none ∧
      ((owned act 30 3).region 30).owner = some 3 ∧ ((owned act 30 9).region 30).owner = some 9 :=
  ⟨hears_frame _ _ ⟨rfl, rfl, rfl⟩ rfl (by decide +kernel) (by decide), by unfold State.StoresOk; decide +kernel,
    by decide +kernel, by decide +kernel, by decide +kernel, by decide +kernel⟩

set_option maxRecDepth 100000 in
theorem witness_CarriedImages :
    (∃ f, (joining true true).Hears f.bytes f ∧ f.body = .image 5 (some 3) 9 (List.replicate 128 1)) ∧
      ((joining true true).region 5).state ≠ .current ∧ (act.region 5).state = .current ∧
      (∃ f : Flight, (answering 0).Sends f.frame.bytes f ∧
        f.frame.body = .image 5 none 0 (List.replicate 128 0) ∧ f.slot = .image ∧ f.attached = true) ∧
      (joining true true).StoresOk :=
  ⟨⟨{ sender := 3, body := .image 5 (some 3) 9 (List.replicate 128 1) },
      hears_frame _ _ ⟨rfl, rfl, rfl⟩ rfl (by decide +kernel) (by decide), rfl⟩,
    by decide +kernel, by decide +kernel,
    ⟨_, ⟨⟨rfl, rfl, rfl⟩, rfl, rfl, rfl, rfl, by decide +kernel⟩, rfl, rfl, rfl⟩,
    by unfold State.StoresOk; decide +kernel⟩

set_option maxRecDepth 100000 in
theorem witness_ImagesLeftOver :
    ∃ f : Flight, (leftover .image (.image 5 none 0 (List.replicate 128 0))).Sends f.frame.bytes f ∧
      f.frame.body = .image 5 none 0 (List.replicate 128 0) ∧ f.slot = .image ∧ f.attached = false ∧
      ((leftover .image (.image 5 none 0 (List.replicate 128 0))).region 5).state ≠ .current :=
  ⟨_, ⟨⟨rfl, rfl, rfl⟩, rfl, rfl, rfl, rfl, by decide +kernel⟩, rfl, rfl, rfl, by decide⟩

theorem witness_CarriedOwnershipFrames :
    act.Hears ({ sender := 3, body := .claim true 30 } : Frame).bytes { sender := 3, body := .claim true 30 } ∧
      act.Hears ({ sender := 3, body := .release 30 } : Frame).bytes { sender := 3, body := .release 30 } ∧
      act.Hears ({ sender := 3, body := .leave } : Frame).bytes { sender := 3, body := .leave } ∧
      act.Hears ({ sender := 3, body := .ask 0 128 } : Frame).bytes { sender := 3, body := .ask 0 128 } :=
  ⟨hears_frame _ _ ⟨rfl, rfl, rfl⟩ rfl (by decide +kernel) (by decide),
    hears_frame _ _ ⟨rfl, rfl, rfl⟩ rfl (by decide +kernel) (by decide),
    hears_frame _ _ ⟨rfl, rfl, rfl⟩ rfl (by decide +kernel) (by decide),
    hears_frame _ _ ⟨rfl, rfl, rfl⟩ rfl (by decide +kernel) (by decide)⟩

theorem witness_WithdrawalCheck :
    (act.placeLaneFrame 1 (.update 30 4 [1])).laneSlot 1 = some { frame := .update 30 4 [1], attempts := 0 } ∧
      (act.placeLaneFrame 1 (.claim false 30)).laneSlot 1 = some { frame := .claim false 30, attempts := 0 } ∧
      (act.placeLaneFrame 1 (.claim true 30)).laneSlot 1 = some { frame := .claim true 30, attempts := 0 } ∧
      (act.placeLaneFrame 1 (.release 30)).laneSlot 1 = some { frame := .release 30, attempts := 0 } ∧
      act.laneSlot 1 = none ∧ ((owned act 30 3).region 30).owner = some 3 ∧ (3 : Station) ≠ act.stationNumber ∧
      ((owned act 30 9).region 30).owner = some act.stationNumber := by decide +kernel

theorem witness_OwnLaneFrames :
    (∃ f : Flight, (laneSending act 2 (.update 30 4 [1])).Sends f.frame.bytes f ∧ f.slot = .lane 2 ∧
      f.attached = true ∧ f.frame.body = .update 30 4 [1]) ∧
      (∃ f : Flight, (laneSending act 2 (.claim true 30)).Sends f.frame.bytes f ∧ f.slot = .lane 2 ∧
        f.attached = true ∧ f.frame.body = .claim true 30) ∧
      (∃ f : Flight, (laneSending act 2 (.release 30)).Sends f.frame.bytes f ∧ f.slot = .lane 2 ∧
        f.attached = true ∧ f.frame.body = .release 30) ∧
      (laneSending act 2 (.release 30)).StoresOk :=
  ⟨⟨_, ⟨⟨rfl, rfl, rfl⟩, rfl, rfl, rfl, rfl, by decide +kernel⟩, rfl, rfl, rfl⟩,
    ⟨_, ⟨⟨rfl, rfl, rfl⟩, rfl, rfl, rfl, rfl, by decide +kernel⟩, rfl, rfl, rfl⟩,
    ⟨_, ⟨⟨rfl, rfl, rfl⟩, rfl, rfl, rfl, rfl, by decide +kernel⟩, rfl, rfl, rfl⟩,
    by unfold State.StoresOk; decide +kernel⟩

theorem witness_OwnFramesLeftOver :
    (∃ f : Flight, (leftover (.lane 2) (.claim false 30)).Sends f.frame.bytes f ∧ f.slot = .lane 2 ∧
      f.attached = false) ∧
      (∃ f : Flight, (leftover .station .join).Sends f.frame.bytes f ∧ f.slot = .station ∧ f.attached = false ∧
        (leftover .station .join).stationSlot = none) :=
  ⟨⟨_, ⟨⟨rfl, rfl, rfl⟩, rfl, rfl, rfl, rfl, by decide +kernel⟩, rfl, rfl⟩,
    ⟨_, ⟨⟨rfl, rfl, rfl⟩, rfl, rfl, rfl, rfl, by decide +kernel⟩, rfl, rfl, rfl⟩⟩

theorem witness_OwnStationFrames :
    (∃ f : Flight, (sending (joining false false) .station .join).Sends f.frame.bytes f ∧ f.slot = .station ∧
      f.attached = true ∧ f.frame.body = .join) ∧
      (joining false false).stationState = .joining ∧ ((joining false false).region 0).state = .stale ∧
      (∃ f : Flight, (asking 0 false).Sends f.frame.bytes f ∧ f.slot = .station ∧ f.attached = true ∧
        f.frame.body = .ask 0 128) ∧
      (∃ f : Flight, (sending { act with stationState := .leaving } .station .leave).Sends f.frame.bytes f ∧
        f.slot = .station ∧ f.attached = true ∧ f.frame.body = .leave) :=
  ⟨⟨_, ⟨⟨rfl, rfl, rfl⟩, rfl, rfl, rfl, rfl, by decide +kernel⟩, rfl, rfl, rfl⟩, rfl, by decide,
    ⟨_, ⟨⟨rfl, rfl, rfl⟩, rfl, rfl, rfl, rfl, by decide +kernel⟩, rfl, rfl, rfl⟩,
    ⟨_, ⟨⟨rfl, rfl, rfl⟩, rfl, rfl, rfl, rfl, by decide +kernel⟩, rfl, rfl, rfl⟩⟩

theorem witness_JoinsComplete :
    let s : State := { joining true true with regions := act.regions }
    s.stationState = .joining ∧ s.join.map JoinProgress.joinCarried = some true ∧
      (∀ r, (s.region r).state = .current) ∧
      ({ s with stationSlot := some { frame := .ask 3 1, attempts := 0, held := false } } : State).stationSlot =
        some { frame := .ask 3 1, attempts := 0, held := false } := by decide +kernel

theorem witness_WindowExpiry :
    act.window = none ∧ ({ joining true true with window := some 0, passCount := 2 } : State).window.isSome = true ∧
      ({ joining true true with window := some 0, passCount := 2 } : State).StoresOk :=
  ⟨rfl, rfl, by unfold State.StoresOk; decide +kernel⟩

/-- A chain store with one entry, at index 0. -/
def entry (words : List Word) : State := poke act 0x2800 words

theorem witness_EntryWords :
    Entry.failIndex (entry [0x0101, 0, 1, 0, 0, 0x00FF]).chain 0 = some 255 ∧
      (Entry.word (entry [0x0101, 0, 1, 0, 0, 0x00FF]).chain 0 0).getLsbD 8 = true ∧
      Entry.failIndex act.chain 0 = none ∧ Entry.note (entry [0x0041]).chain 0 = true ∧
      Entry.note act.chain 0 = false ∧ (entry [0x0041]).hostRead 0x2800 = 0x0041 := by decide +kernel

theorem witness_EntryValidity :
    (Entry.word (entry [0x0001, 0, 1]).chain 0 0).toNat % 16 = 1 ∧
      (Entry.word (entry [0x0083]).chain 0 0).toNat % 16 = 3 ∧ (Entry.word (entry [0x0004]).chain 0 0).toNat % 16 = 4 ∧
      (Entry.word (entry [0x0605]).chain 0 0).toNat % 16 = 5 ∧ (Entry.word (entry [0x0006]).chain 0 0).toNat % 16 = 6 ∧
      (Entry.word (entry [0x0007]).chain 0 0).toNat % 16 = 7 ∧ (Entry.word act.chain 0 0).toNat % 16 = 0 := by
  decide +kernel

theorem witness_FailedTakes :
    (act.lane 0).state ≠ .running ∧ (running act 0 0).Takes 0 0 0 ∧ Entry.valid (running act 0 0).chain 0 = false ∧
      (running (entry [0x0023]) 0 0).Takes 0 0 3 ∧ Entry.valid (entry [0x0023]).chain 0 = false ∧
      (running (entry [0x0001, 0x7F00, 2]) 0 0).Takes 0 0 1 ∧
      Entry.readGroup (entry [0x0001, 0x7F00, 2]).chain .put 0 = .fail .length 0 :=
  ⟨by decide +kernel, by unfold State.Takes; decide +kernel, by decide +kernel, by unfold State.Takes; decide +kernel,
    by decide +kernel, by unfold State.Takes; decide +kernel, by decide +kernel⟩

theorem witness_Gotos :
    (running (entry [0x0006, 0, 0, 0, 255]) 0 0).Takes 0 0 6 ∧
      ((running (entry [0x0006, 0, 0, 0, 255]) 0 0).lane 0).completed = 0 ∧
      Entry.valid (entry [0x0006, 0, 0, 0, 255]).chain 0 = true ∧
      (Entry.word (entry [0x0006, 0, 0, 0, 255]).chain 0 4).toNat = (255 : Index).val ∧
      Entry.valid (entry [0x0016]).chain 0 = false ∧
      ({ under true none 0 with completed := 1 } : Lane).completed ≠ 0 :=
  ⟨by unfold State.Takes; decide +kernel, by decide +kernel, by decide +kernel, by decide +kernel, by decide +kernel,
    by decide⟩

theorem witness_Groups :
    Entry.Walks scatter.chain .get (Entry.offset scatter.chain 41) false 0 41 [60] 1 ∧
      Entry.link scatter.chain 60 = false ∧
      Entry.Walks scatter.chain .get (Entry.offset scatter.chain 41) false 0 41 [] 0 ∧
      Entry.link scatter.chain 41 = true ∧
      Entry.nextPart (entry [0x0022, 0, 1]).chain 0 = .ok 1 0 ∧
      Entry.partFailure (entry [0x0022, 0, 1]).chain .get true 0 1 1 = some .badSequence :=
  ⟨⟨by decide +kernel, by decide +kernel, 1, 0, by decide +kernel, rfl, by decide +kernel, rfl⟩, by decide +kernel,
    ⟨by decide +kernel, rfl⟩, by decide +kernel, by decide +kernel, by decide +kernel⟩

/-- A first or only entry that is of no kind read as PUT, invalid, too long, or has LINK at index 255. -/
theorem witness_FirstEntryFails :
    Entry.partFailure act.chain .put false (Entry.offset act.chain 0) 0 0 = some .badSequence ∧
      Entry.partFailure (entry [0x0001]).chain .put false 0 0 0 = some .badEntry ∧
      Entry.partFailure (entry [0x0001, 0x7F00, 2]).chain .put false
        (Entry.offset (entry [0x0001, 0x7F00, 2]).chain 0) 0 0 = some .length ∧
      Entry.partFailure (poke act 0x2FF8 [0x0022, 0, 1]).chain .get false 0 0 255 = some .badSequence := by
  decide +kernel

theorem witness_GroupChecks :
    (255 : Index).val = (254 : Index).val + 1 ∧ (Entry.word (poke act 0x2FF8 [6]).chain 255 0).toNat % 16 = 6 ∧
      (Entry.word scatter.chain 42 0).toNat % 16 = 6 ∧ (42 : Index).val ≠ 255 ∧
      Entry.valid scatter.chain 42 = true ∧ (Entry.word scatter.chain 42 4).toNat = (60 : Index).val ∧
      Entry.kind scatter.chain 41 = some .get ∧ 128 < 100 + 13 + Entry.length scatter.chain 41 ∧
      100 + 12 + Entry.length scatter.chain 41 ≤ 128 := by decide +kernel

theorem witness_Put :
    (running (entry [0x0001, 0x7F1E, 1, 0x0FFF]) 0 0).Takes 0 0 1 ∧
      (∃ g, Entry.readGroup (entry [0x0001, 0x7F1E, 1, 0x0FFF]).chain .put 0 = .ok g) ∧
      (act.region 30).guardOpen = true ∧
      ((after .guardShut { act with p0 := 30, p1 := 1 }).region 30).guardOpen = false :=
  ⟨by unfold State.Takes; decide +kernel,
    ⟨{ segs := [(4095, 1)], total := 1, last := 0, next := false, size := 1, note := none, notes := 0 },
      by decide +kernel⟩, by decide +kernel, by decide +kernel⟩

theorem witness_Get :
    (running scatter 0 41).Takes 0 41 2 ∧ (running scatter 0 41).StoresOk ∧
      [(256, 16), (512, 8)] = [(256, 16)] ++ ((512, 8) : Nat × Nat) :: [] ∧ 512 ≤ 519 ∧ 519 < 512 + 8 :=
  ⟨by unfold State.Takes; decide +kernel, by unfold State.StoresOk; decide +kernel, rfl, by decide, by decide⟩

theorem witness_ClaimAndReleaseEntries :
    (running (entry [0x0083, 0x001E]) 0 0).Takes 0 0 3 ∧ Entry.valid (entry [0x0083, 0x001E]).chain 0 = true ∧
      (Entry.word (entry [0x0083, 0x001E]).chain 0 0).getLsbD 7 = true ∧
      (running (entry [0x0004, 0x001E]) 0 0).Takes 0 0 4 ∧ Entry.valid (entry [0x0004, 0x001E]).chain 0 = true :=
  ⟨by unfold State.Takes; decide +kernel, by decide +kernel, by decide +kernel, by unfold State.Takes; decide +kernel,
    by decide +kernel⟩

theorem witness_WaitEntries :
    (running (entry [0x0205, 0x001E, 0, 0, 300, 0, 50]) 0 0).Takes 0 0 5 ∧
      Entry.valid (entry [0x0205, 0x001E, 0, 0, 300, 0, 50]).chain 0 = true ∧
      regionOf (Entry.word (entry [0x0205, 0x001E, 0, 0, 300, 0, 50]).chain 0 1).toNat = 30 ∧
      (Entry.word (entry [0x0205, 0x001E, 0, 0, 300, 0, 50]).chain 0 0).toNat / 512 % 4 = 1 ∧
      (300 : Word) = Entry.word (entry [0x0205, 0x001E, 0, 0, 300, 0, 50]).chain 0 4 ∧
      act.WaitTest { region := 30, mode := .changed, value := 300 } ∧
      ¬ act.WaitTest { region := 30, mode := .mine, value := 0 } :=
  ⟨by unfold State.Takes; decide +kernel, by decide +kernel, by decide +kernel, by decide +kernel, by decide +kernel,
    by unfold State.WaitTest; decide +kernel, by unfold State.WaitTest; decide +kernel⟩

theorem witness_Frames :
    (FrameBody.ask 127 1).wf ∧ (FrameBody.update 0 127 [1]).wf ∧ (FrameBody.update 0 0 (List.replicate 128 0)).wf ∧
      (FrameBody.image 127 none 0 (List.replicate 128 0)).wf ∧ (List.replicate 136 (0 : Byte)).length ≤ 136 := by
  decide +kernel

theorem witness_Steps :
    State.reset.StoresOk ∧ State.reset.FramesOk ∧ State.reset.QueueOk ∧ State.reset.CountersOk ∧
      ∃ t, step State.reset = .next t :=
  ⟨by unfold State.StoresOk; decide +kernel, by unfold State.FramesOk; simp [State.reset, State.laneSlot],
    by unfold State.QueueOk; decide +kernel, by unfold State.CountersOk; simp [State.reset, State.laneSlot], _, rfl⟩

/-- ACTIVE, a RELEASE of lane 2 on the line and an UPDATE waiting in lane 3's slot. -/
def underWay : State :=
  let entry : EntryCtx := { next := false, alt := none, size := 1 }
  { sending ((act.placeLaneFrame 2 (.release 30)).placeLaneFrame 3 (.update 30 4 [1])) (.lane 2) (.release 30) with
    lanes := #v[Lane.reset, Lane.reset, { State.startedLane 0 7 with state := .onLine, entry := some entry },
      { State.startedLane 8 7 with state := .offered, entry := some entry }] }

theorem witness_ControllerInOrder : underWay.RegionsOk ∧ underWay.ControllerOk := by
  have hr : ∀ r, (underWay.region r).state = .current := by decide +kernel
  refine ⟨fun r h => absurd (hr r) h, ⟨fun _ => hr, by decide⟩, ⟨by decide, by decide, ?_, by decide, ?_⟩,
    ⟨?_, ?_, ?_, ?_⟩, by decide, by decide⟩
  · intro t h; cases h
  · intro j h; cases h
  · intro o h; cases h
  · intro g h; cases h
  · intro f h _; cases h; exact ⟨fun e => (by cases e), fun a b e => (by cases e)⟩
  · intro h; cases h

theorem witness_LanesInOrder : underWay.LanesOk ∧ underWay.ImageFits := by
  have line : ∀ l, (∃ f, underWay.flight = some f ∧ f.attached = true ∧ f.slot = .lane l) ↔ l = 2 := by
    intro l
    constructor
    · rintro ⟨f, h, _, hs⟩; cases h; cases hs; rfl
    · rintro rfl; exact ⟨_, rfl, rfl, rfl⟩
  refine ⟨⟨fun l => ⟨?_, ?_, ?_⟩, by decide, ?_⟩, ?_, fun _ => ⟨fun _ => rfl, fun r h => ?_⟩⟩
  · unfold State.LaneFits; rw [line]; revert l; decide +kernel
  · revert l; decide +kernel
  · intro c h; exfalso; revert l c; decide +kernel
  · intro f h; cases h; exact Or.inr (Or.inr ⟨_, rfl⟩)
  · rintro ⟨f, h, _, hs⟩; cases h; cases hs
  · exfalso; revert r; decide +kernel

end Sys2Proof.Tests
end

section
/-! PROOFS. The guards of the region table (R20): what GUARD_OPEN and GUARD_SHUT do to each region, and the guard bit of
the region status word. -/

namespace Sys2Proof.Machine

/-! ## A flag among the fields of a word -/

theorem flagBit_eq (b : Bool) (n : Nat) : flagBit b n = 2 ^ n * b.toNat := by cases b <;> simp [flagBit]

/-- A flag reads back at its bit, whatever stands in the bits below and above it. -/
theorem testBit_flagBit {low n : Nat} (b : Bool) (high : Nat) (h : low < 2 ^ n) :
    (low + flagBit b n + 2 ^ (n + 1) * high).testBit n = b := by
  have hsplit : low + flagBit b n + 2 ^ (n + 1) * high = 2 ^ n * (b.toNat + 2 * high) + low := by
    rw [flagBit_eq]; ring
  rw [hsplit, Nat.testBit_two_pow_mul_add _ h, if_neg (lt_irrefl n), Nat.sub_self, Nat.testBit_zero]
  cases b <;> simp

theorem RegionState.code_lt (x : RegionState) : x.code < 4 := by cases x <;> decide

namespace State

/-- The guard is bit 2 of the region status word (R22). -/
theorem getLsbD_regionStatusWord_guard (s : State) (r : RegionNo) :
    (s.regionStatusWord r).getLsbD 2 = (s.region r).guardOpen := by
  have hlow : (s.region r).state.code < 2 ^ 2 := (s.region r).state.code_lt
  have hhigh : ∀ (p v : Bool) (o : Nat),
      flagBit p 3 + flagBit v 7 + 256 * o = 2 ^ (2 + 1) * (p.toNat + 16 * v.toNat + 32 * o) := by
    intro p v o; rw [flagBit_eq, flagBit_eq]; ring
  rw [regionStatusWord, BitVec.getLsbD_ofNat, add_assoc, add_assoc, ← add_assoc (flagBit _ 3), hhigh,
    testBit_flagBit _ _ hlow]
  simp

/-! ## The range of a guard request -/

theorem guardRangeOk_iff {s : State} : s.guardRangeOk = true ↔
    s.p0.toNat ≤ 127 ∧ 1 ≤ s.p1.toNat ∧ s.p1.toNat ≤ 128 ∧ s.p0.toNat + s.p1.toNat ≤ 128 := by
  simp [guardRangeOk, and_assoc]

/-- The two rows of R20's table exclude each other and leave no parameters out. -/
theorem guardRangeOk_eq_false_iff {s : State} : s.guardRangeOk = false ↔
    127 < s.p0.toNat ∨ s.p1.toNat = 0 ∨ 128 < s.p1.toNat ∨ 128 < s.p0.toNat + s.p1.toNat := by
  rw [← Bool.not_eq_true, guardRangeOk_iff]; omega

/-! ## Setting the guards -/

theorem setGuards_of_refused {s : State} (b : Bool) (h : s.guardRangeOk = false) :
    s.setGuards b = { s with result := Answer.badParameter.plain } := by
  simp [setGuards, h, answer, Answer.plain]

/-- Beside the region table an accepted request changes the request result alone. -/
theorem setGuards_of_accepted {s : State} (b : Bool) (h : s.guardRangeOk = true) :
    s.setGuards b = { s with regions := (s.setGuards b).regions, result := Answer.ok.plain } := by
  simp [setGuards, h, answer, Answer.plain, mapRegions]

theorem region_setGuards {s : State} (b : Bool) (h : s.guardRangeOk = true) (r : RegionNo) :
    (s.setGuards b).region r =
      if s.p0.toNat ≤ r.val ∧ r.val < s.p0.toNat + s.p1.toNat then { s.region r with guardOpen := b }
      else s.region r := by
  simp [setGuards, h, inRange]

end State

/-- Either guard request sets the guards its name says. -/
theorem exec_guardRequest (opened : Bool) {s : State} (h : s.inReset = false) :
    exec (if opened then .guardOpen else .guardShut) s = .next (s.setGuards opened) := by
  cases opened
  · exact exec_guardShut h
  · exact exec_guardOpen h

/-- Settles O11: the range check decides between the two rows of R20's table. -/
theorem guardRequestsSetARange : Obligations.GuardRequestsSetARange := by
  intro s hreset opened
  refine ⟨fun hrange => ?accepted, fun hrange => ?refused⟩
  case accepted =>
    have hok : s.guardRangeOk = true := State.guardRangeOk_iff.2 hrange
    exact ⟨s.setGuards opened, exec_guardRequest opened hreset, State.region_setGuards opened hok,
      State.getLsbD_regionStatusWord_guard _, State.setGuards_of_accepted opened hok⟩
  case refused =>
    have hbad : s.guardRangeOk = false := State.guardRangeOk_eq_false_iff.2 hrange
    rw [exec_guardRequest opened hreset, State.setGuards_of_refused opened hbad]

end Sys2Proof.Machine
end

section
/-! PROOFS. The withdrawal check of the ownership logic (R61, R62): R62's table row by row, and what the check does to a
lane, its slot and the order of placement. -/

namespace Sys2Proof.Machine

/-! ## The table of R62 -/

namespace LaneFrame

theorem withdrawal_update_of_owned_elsewhere {me t : Station} (h : t ≠ me) (r : RegionNo) (k : Nat)
    (data : List Byte) : (update r k data).withdrawal me (some t) = some .refusedOwner := if_neg h

theorem withdrawal_update_of_unowned_or_own {me : Station} {owner : Option Station}
    (h : owner = none ∨ owner = some me) (r : RegionNo) (k : Nat) (data : List Byte) :
    (update r k data).withdrawal me owner = none := by
  rcases h with rfl | rfl
  case inl => rfl
  case inr => exact if_pos rfl

theorem withdrawal_plainClaim_of_own (me : Station) (r : RegionNo) :
    (claim false r).withdrawal me (some me) = some .done := if_pos rfl

theorem withdrawal_plainClaim_of_owned_elsewhere {me t : Station} (h : t ≠ me) (r : RegionNo) :
    (claim false r).withdrawal me (some t) = some .claimLost := if_neg h

theorem withdrawal_plainClaim_of_unowned (me : Station) (r : RegionNo) :
    (claim false r).withdrawal me none = none := rfl

/-- A seizing CLAIM is never withdrawn (R63). -/
theorem withdrawal_seizingClaim (me : Station) (owner : Option Station) (r : RegionNo) :
    (claim true r).withdrawal me owner = none := rfl

theorem withdrawal_release_of_own (me : Station) (r : RegionNo) :
    (release r).withdrawal me (some me) = none := if_pos rfl

theorem withdrawal_release_of_not_own {me : Station} {owner : Option Station} (h : owner ≠ some me)
    (r : RegionNo) : (release r).withdrawal me owner = some .notOwner := if_neg h

end LaneFrame

namespace State

variable {s : State} {changed : RegionNo → Bool} {l : LaneNo}

/-! ## Which frames the check looks at (R61) -/

theorem withdrawalOf_of_empty (h : s.laneSlot l = none) : s.withdrawalOf changed l = none := by
  simp [withdrawalOf, h]

theorem withdrawalOf_of_unchanged {o : LaneSlot} (h : s.laneSlot l = some o)
    (hr : changed o.frame.region = false) : s.withdrawalOf changed l = none := by
  simp [withdrawalOf, h, hr]

theorem withdrawalOf_of_changed {o : LaneSlot} (h : s.laneSlot l = some o)
    (hr : changed o.frame.region = true) :
    s.withdrawalOf changed l = o.frame.withdrawal s.stationNumber (s.region o.frame.region).owner := by
  simp [withdrawalOf, h, hr]

/-- A seizing CLAIM stays whether or not the check looks at it. -/
theorem withdrawalOf_seizingClaim {r : RegionNo} {n : Nat}
    (h : s.laneSlot l = some { frame := .claim true r, attempts := n }) : s.withdrawalOf changed l = none := by
  cases hr : changed r with
  | false => exact withdrawalOf_of_unchanged h hr
  | true => exact (withdrawalOf_of_changed h hr).trans (LaneFrame.withdrawal_seizingClaim _ _ r)

/-! ## What the check does at a lane -/

theorem mem_placement_withdrawalCheck :
    l ∈ (s.withdrawalCheck changed).placement ↔ l ∈ s.placement ∧ s.withdrawalOf changed l = none := by
  simp [withdrawalCheck]

theorem placement_withdrawalCheck_sublist (s : State) (changed : RegionNo → Bool) :
    (s.withdrawalCheck changed).placement.Sublist s.placement := List.filter_sublist

/-- A frame withdrawn leaves its slot and its place, and the lane's entry completes with the status (R37, R62). -/
theorem withdrawalCheck_of_withdrawn {st : Status} (h : s.withdrawalOf changed l = some st) :
    (s.withdrawalCheck changed).lane l = (s.lane l).complete l st ∧
      (s.withdrawalCheck changed).laneSlot l = none ∧ ¬ l ∈ (s.withdrawalCheck changed).placement := by
  refine ⟨?lane, ?slot, ?place⟩
  case lane => simp [lane, withdrawalCheck, h]
  case slot => simp [laneSlot, withdrawalCheck, h]
  case place => simp [mem_placement_withdrawalCheck, h]

/-- A lane of which no frame is withdrawn keeps its context, its slot and its place. -/
theorem withdrawalCheck_of_not_withdrawn (h : s.withdrawalOf changed l = none) :
    (s.withdrawalCheck changed).lane l = s.lane l ∧ (s.withdrawalCheck changed).laneSlot l = s.laneSlot l ∧
      (l ∈ (s.withdrawalCheck changed).placement ↔ l ∈ s.placement) := by
  refine ⟨?lane, ?slot, ?place⟩
  case lane => simp [lane, withdrawalCheck, h]
  case slot => simp [laneSlot, withdrawalCheck, h]
  case place => simp [mem_placement_withdrawalCheck, h]

end State

/-- Settles O43: each row of R62's table says whether `withdrawalOf` takes the frame out, and with which status. -/
theorem withdrawalCheckTakesFramesOut : Obligations.WithdrawalCheckTakesFramesOut := by
  intro s changed l
  refine ⟨fun hempty => ?empty, fun o hslot hr => ?unchanged, fun r k data n hslot hr => ?update,
    fun r n hslot hr => ?plainClaim, fun r n hslot => ?seizingClaim, fun r n hslot hr => ?release,
    State.placement_withdrawalCheck_sublist s changed, rfl⟩
  case empty => exact State.withdrawalCheck_of_not_withdrawn (State.withdrawalOf_of_empty hempty)
  case unchanged => exact State.withdrawalCheck_of_not_withdrawn (State.withdrawalOf_of_unchanged hslot hr)
  case update =>
    have hrow := State.withdrawalOf_of_changed hslot hr
    refine ⟨fun t howner hother => ?elsewhere, fun howner => ?unownedOrOwn⟩
    case elsewhere =>
      exact State.withdrawalCheck_of_withdrawn
        (hrow.trans (howner ▸ LaneFrame.withdrawal_update_of_owned_elsewhere hother r k data))
    case unownedOrOwn =>
      exact State.withdrawalCheck_of_not_withdrawn
        (hrow.trans (LaneFrame.withdrawal_update_of_unowned_or_own howner r k data))
  case plainClaim =>
    have hrow := State.withdrawalOf_of_changed hslot hr
    refine ⟨fun howner => ?own, fun t howner hother => ?elsewhere, fun howner => ?unowned⟩
    case own =>
      exact State.withdrawalCheck_of_withdrawn
        (hrow.trans (howner ▸ LaneFrame.withdrawal_plainClaim_of_own s.stationNumber r))
    case elsewhere =>
      exact State.withdrawalCheck_of_withdrawn
        (hrow.trans (howner ▸ LaneFrame.withdrawal_plainClaim_of_owned_elsewhere hother r))
    case unowned =>
      exact State.withdrawalCheck_of_not_withdrawn
        (hrow.trans (howner ▸ LaneFrame.withdrawal_plainClaim_of_unowned s.stationNumber r))
  case seizingClaim => exact State.withdrawalCheck_of_not_withdrawn (State.withdrawalOf_seizingClaim hslot)
  case release =>
    have hrow := State.withdrawalOf_of_changed hslot hr
    refine ⟨fun howner => ?own, fun howner => ?notOwn⟩
    case own =>
      exact State.withdrawalCheck_of_not_withdrawn
        (hrow.trans (howner ▸ LaneFrame.withdrawal_release_of_own s.stationNumber r))
    case notOwn =>
      exact State.withdrawalCheck_of_withdrawn (hrow.trans (LaneFrame.withdrawal_release_of_not_own howner r))

end Sys2Proof.Machine
end

section
/-! PROOFS. The PUT take (R108): its checks in order, each deciding what the take does, and the bytes it gathers from
the staging buffer (R123). -/

namespace Sys2Proof.Machine

namespace State

/-! ## The gathered bytes (R123) -/

theorem gather_eq_reads (s : State) (segs : List (Nat × Nat)) :
    s.gather segs = segs.flatMap fun c => (List.range c.2).map fun j => s.staging.read (c.1 + j) := by
  simp [gather, readBytes_eq_map]

theorem gather_congr {s v : State} (h : v.staging = s.staging) (segs : List (Nat × Nat)) :
    v.gather segs = s.gather segs := by
  simp [gather, h]

/-! ## The checks of the PUT take, in order (R108) -/

section Checks

variable {v : State} {r : RegionNo} (l : LaneNo) (offset : Nat) (g : Group)

theorem putAction_of_not_current (hstate : (v.region r).state ≠ .current) :
    v.putAction l r offset g = v.completeLane l .notCurrent := if_pos hstate

theorem putAction_of_guard_shut (hstate : (v.region r).state = .current) (hguard : (v.region r).guardOpen = false) :
    v.putAction l r offset g = v.completeLane l .refusedGuard := by
  rw [putAction, if_neg (not_not.2 hstate), if_pos hguard]

theorem putAction_of_owned_elsewhere {t : Station} (hstate : (v.region r).state = .current)
    (hguard : (v.region r).guardOpen = true) (howner : (v.region r).owner = some t) (hother : t ≠ v.stationNumber) :
    v.putAction l r offset g = v.completeLane l .refusedOwner := by
  have hrefused : (v.region r).owner ≠ none ∧ (v.region r).owner ≠ some v.stationNumber := by
    simp [howner, hother]
  rw [putAction, if_neg (not_not.2 hstate), if_neg (by simp [hguard]), if_pos hrefused]

theorem putAction_of_writable (hstate : (v.region r).state = .current) (hguard : (v.region r).guardOpen = true)
    (howner : (v.region r).owner = none ∨ (v.region r).owner = some v.stationNumber) :
    v.putAction l r offset g = v.placeFrame l (.update r offset (v.gather g.segs)) := by
  have hallowed : ¬((v.region r).owner ≠ none ∧ (v.region r).owner ≠ some v.stationNumber) := by tauto
  rw [putAction, if_neg (not_not.2 hstate), if_neg (by simp [hguard]), if_neg hallowed]

end Checks

/-! ## The take of a PUT entry (R102) -/

theorem takeEntry_of_put {s : State} {l : LaneNo} (h : Entry.kind s.chain (s.lane l).cur = some .put) :
    s.takeEntry l =
      (s.modifyLane l fun x => { x with prevGoto := false }).takeTransfer l .put fun u r k g =>
        u.putAction l r k g := by
  simp only [takeEntry, h]

/-- A PUT whose group has been read performs the PUT take on the region and at the offset of its first entry. -/
theorem exec_entryTake_put {s : State} {l : LaneNo} {i : Index} {g : Group} (ht : s.Takes l i 1)
    (hg : Entry.readGroup s.chain .put i = .ok g) :
    ∃ v : State,
      v.TakenWith s l g.last { next := g.next, alt := Entry.failIndex s.chain i, size := g.size } g.note g.notes ∧
        exec (.entryTake l) s =
          .next (v.putAction l (Entry.region s.chain i) (Entry.offset s.chain i) g).settle := by
  obtain ⟨hreset, hrunning, hcur, hcode⟩ := ht
  have hkind : Entry.kind s.chain (s.lane l).cur = some .put := by simp only [hcur, entry_kind_eq, hcode]
  obtain ⟨v, htaken, hact⟩ := takeTransfer_of_read (fun u r k g => u.putAction l r k g) hcur hg
  exact ⟨v, htaken, by rw [exec_entryTake_running hreset hrunning, takeEntry_of_put hkind, hact]⟩

end State

/-- Settles O52: what a take does before its action keeps the region table, the station number and the staging buffer,
so the checks of the PUT take see the region as the statement gives it. -/
theorem putChecksAndPlacesAnUpdate : Obligations.PutChecksAndPlacesAnUpdate := by
  intro s l i g htakes hread
  obtain ⟨v, htaken, hexec⟩ := State.exec_entryTake_put htakes hread
  obtain ⟨hregions, hnumber, -, -, hstaging⟩ := State.takenWith_keeps htaken
  have hregion : ∀ r, s.region r = v.region r := fun r => by simp only [State.region, hregions]
  simp only [← State.entry_region_eq, ← State.entry_offset_eq, ← State.gather_eq_reads,
    ← State.gather_congr hstaging, hregion, ← hnumber]
  refine ⟨v, htaken, fun hstate => ?notCurrent, fun hstate hguard => ?guardShut, fun hstate hguard =>
    ⟨fun t howner hother => ?ownedElsewhere, fun howner => ?placed⟩⟩
  case notCurrent => rw [hexec, State.putAction_of_not_current l _ g hstate]
  case guardShut => rw [hexec, State.putAction_of_guard_shut l _ g hstate hguard]
  case ownedElsewhere => rw [hexec, State.putAction_of_owned_elsewhere l _ g hstate hguard howner hother]
  case placed =>
    exact ⟨_, by rw [hexec, State.putAction_of_writable l _ g hstate hguard howner],
      State.placeFrame_places v l _⟩

end Sys2Proof.Machine
end

section
/-! PROOFS. STOP (R134, R135): the lane that P0 names, what each lane state answers, and the chain that STOP ends at
once. -/

namespace Sys2Proof.Machine

namespace State

/-! ## The lane of a STOP (R134) -/

theorem stop_of_no_lane {s : State} (h : 3 < s.p0.toNat) : s.stop = s.answer .badParameter 0 :=
  dif_neg (not_le.2 h)

theorem stop_of_lane {s : State} {l : LaneNo} (h : s.p0.toNat = l.val) : s.stop = s.stopLane l := by
  have hlane : s.p0.toNat ≤ 3 := by omega
  have hl : (⟨s.p0.toNat, by omega⟩ : LaneNo) = l := Fin.ext h
  rw [stop, dif_pos hlane, hl]

theorem exec_stop_lane {s : State} {l : LaneNo} (hreset : s.inReset = false) (h : s.p0.toNat = l.val) :
    exec .stop s = .next (s.stopLane l) := by
  rw [exec_stop hreset, stop_of_lane h]

/-! ## STOP in each lane state (R134, R135) -/

section LaneStates

variable {s : State} {l : LaneNo}

theorem stopLane_of_free (h : (s.lane l).state = .free) : s.stopLane l = s.answer .notRunning 0 := by
  rw [stopLane, h]

theorem stopLane_of_holding (h : (s.lane l).state = .holding) : s.stopLane l = s.answer .alreadyEnded 0 := by
  rw [stopLane, h]

theorem stopLane_of_onLine (h : (s.lane l).state = .onLine) :
    s.stopLane l = (s.modifyLane l fun x => { x with stopPending := true }).answer .ok 0 := by
  rw [stopLane, h]

/-- A lane with no frame in its slot ends its chain where it stands. -/
theorem stopLane_of_running_or_waiting (h : (s.lane l).state = .running ∨ (s.lane l).state = .waiting) :
    s.stopLane l = (s.endLane l .stopped).settle.answer .ok 0 := by
  rcases h with h | h <;> rw [stopLane, h]

/-- On an OFFERED lane STOP does at once what a held withdrawal does at the end of an attempt (R136). -/
theorem stopLane_of_offered (h : (s.lane l).state = .offered) :
    s.stopLane l = (s.stopAtEnd l).settle.answer .ok 0 := by
  rw [stopLane, h, stopAtEnd]

theorem result_stopLane_of_busy (h : (s.lane l).state.busy = true) : (s.stopLane l).result = Answer.ok.plain := by
  cases hstate : (s.lane l).state with
  | running => rw [stopLane_of_running_or_waiting (.inl hstate)]; rfl
  | waiting => rw [stopLane_of_running_or_waiting (.inr hstate)]; rfl
  | offered => rw [stopLane_of_offered hstate]; rfl
  | onLine => rw [stopLane_of_onLine hstate]; rfl
  | free => simp [hstate, LaneState.busy] at h
  | holding => simp [hstate, LaneState.busy] at h

end LaneStates

/-! ## What the end of a chain changes (R135, R139) -/

theorem lane_endLane (s : State) (l : LaneNo) (st : Status) (k : LaneNo) :
    (s.endLane l st).lane k = if k = l then (s.lane l).endChain l st else s.lane k :=
  lane_modifyLane s l k _

theorem laneSlot_stopAtEnd (s : State) (l k : LaneNo) :
    (s.stopAtEnd l).laneSlot k = if k = l then none else s.laneSlot k :=
  laneSlot_clearLaneSlot s l k

/-- STOP on a lane RUNNING or WAITING ends the chain. -/
theorem exec_stop_of_running_or_waiting {s : State} {l : LaneNo} (hreset : s.inReset = false)
    (hl : s.p0.toNat = l.val) (h : (s.lane l).state = .running ∨ (s.lane l).state = .waiting) :
    exec .stop s = .next { (s.endLane l .stopped).settle with result := Answer.ok.plain } := by
  rw [exec_stop_lane hreset hl, stopLane_of_running_or_waiting h]; rfl

/-- STOP on a lane OFFERED ends the chain and takes its frame out of the slot. -/
theorem exec_stop_of_offered {s : State} {l : LaneNo} (hreset : s.inReset = false)
    (hl : s.p0.toNat = l.val) (h : (s.lane l).state = .offered) :
    exec .stop s = .next { (s.stopAtEnd l).settle with result := Answer.ok.plain } := by
  rw [exec_stop_lane hreset hl, stopLane_of_offered h]; rfl

end State

/-- Settles O25: the answers lane state by lane state; where the chain ends at once, the state before settling is that
of `endLane` (RUNNING, WAITING) or `stopAtEnd` (OFFERED, where the frame leaves too). -/
theorem stopIsAnsweredAndEndsTheChain : Obligations.StopIsAnsweredAndEndsTheChain := by
  refine ⟨fun s hreset => ⟨fun hp0 => ?noLane, fun l hl => ⟨fun hfree => ?free, fun hholding => ?holding,
    fun hbusy => ⟨s.stopLane l, State.exec_stop_lane hreset hl, State.result_stopLane_of_busy hbusy,
      fun honLine => ?onLine⟩⟩⟩, fun s l hreset hl hstate => ?ends⟩
  case noLane => rw [exec_stop hreset, State.stop_of_no_lane hp0]; rfl
  case free => rw [State.exec_stop_lane hreset hl, State.stopLane_of_free hfree]; rfl
  case holding => rw [State.exec_stop_lane hreset hl, State.stopLane_of_holding hholding]; rfl
  case onLine =>
    rw [State.stopLane_of_onLine honLine]
    exact ⟨fun k => State.lane_modifyLane s l k fun x => { x with stopPending := true }, rfl⟩
  case ends =>
    rcases or_assoc.2 hstate with hinSlot | hoffered
    · have hnotOffered : (s.lane l).state ≠ .offered := by rcases hinSlot with h | h <;> simp [h]
      simp only [hnotOffered, and_false, if_false]
      exact ⟨s.endLane l .stopped, State.exec_stop_of_running_or_waiting hreset hl hinSlot,
        State.lane_endLane s l .stopped, fun _ => rfl, rfl, rfl⟩
    · simp only [hoffered, and_true, if_true]
      exact ⟨s.stopAtEnd l, State.exec_stop_of_offered hreset hl hoffered, State.lane_stopAtEnd s l,
        State.laneSlot_stopAtEnd s l, rfl, rfl⟩

end Sys2Proof.Machine
end

section
/-! PROOFS. POP and the arbiter of the completion unit (R149, R153): what a POP leaves for an empty queue, with no
producer waiting and with one to serve, and that the arbiter's first is the waiting producer of least rank. -/

namespace Sys2Proof.Machine

/-! ## The arbiter's order (R153) -/

/-- The arbiter's list names the producers by increasing rank, each once. -/
theorem map_producerRank_allProducers : allProducers.map producerRank = List.range 156 := by decide +kernel

theorem allProducers_pairwise_rank_lt : allProducers.Pairwise fun p q => producerRank p < producerRank q := by
  rw [← List.pairwise_map, map_producerRank_allProducers]
  exact List.pairwise_lt_range

namespace State

theorem waiting_pairwise_rank_lt (s : State) : s.waiting.Pairwise fun p q => producerRank p < producerRank q :=
  allProducers_pairwise_rank_lt.filter _

theorem isWaiting_iff_exists_record {s : State} {p : Producer} :
    s.isWaiting p = true ↔ ∃ rec, s.recordOf p = some rec := Option.isSome_iff_exists

/-- The arbiter's first is the waiting producer of least rank. -/
theorem waiting_eq_cons_iff {s : State} {p : Producer} :
    (∃ others, s.waiting = p :: others) ↔
      s.isWaiting p = true ∧ ∀ q, s.isWaiting q = true → producerRank p ≤ producerRank q := by
  simp only [← mem_waiting]
  have hsorted := s.waiting_pairwise_rank_lt
  cases hwait : s.waiting with
  | nil => simp
  | cons first others =>
    rw [hwait, List.pairwise_cons] at hsorted
    obtain ⟨hfirst, -⟩ := hsorted
    constructor
    · rintro ⟨_, hcons⟩
      obtain ⟨rfl, -⟩ := List.cons.inj hcons
      refine ⟨List.mem_cons_self, fun q hq => ?_⟩
      rcases List.mem_cons.1 hq with rfl | hq
      · exact le_rfl
      · exact (hfirst q hq).le
    · rintro ⟨hmem, hleast⟩
      rcases List.mem_cons.1 hmem with rfl | hlater
      · exact ⟨others, rfl⟩
      · exact absurd (hleast first List.mem_cons_self) (not_le.2 (hfirst p hlater))

/-! ## What a POP leaves (R149) -/

theorem popHead_of_empty {s : State} (hqueue : s.queue = []) : s.popHead = s := by
  rw [popHead, hqueue]

section Popped

variable {s : State} {head : Record} {rest : List Record} (hqueue : s.queue = head :: rest)
include hqueue

theorem popHead_of_none_waiting (hwait : s.waiting = []) : s.popHead = { s with queue := rest } := by
  rw [popHead, hqueue, hwait]

/-- The first waiting producer's record takes the freed slot, at the tail. -/
theorem popHead_of_waiting {p : Producer} {others : List Producer} {rec : Record} (hwait : s.waiting = p :: others)
    (hrec : s.recordOf p = some rec) : s.popHead = { s.clearProducer p with queue := rest ++ [rec] } := by
  have hkept : ({ s with queue := rest } : State).recordOf p = some rec :=
    (recordOf_congr rfl rfl rfl rfl rfl p).trans hrec
  rw [popHead, hqueue, hwait]
  refine (serve_of_some hkept).trans ?_
  cases p <;> rfl

/-- While a producer waits the queue is full, so a POP that serves one leaves it full (R152). -/
theorem length_refilled_of_queueOk {p : Producer} {others : List Producer} (rec : Record)
    (hwait : s.waiting = p :: others) (hok : s.QueueOk) : (rest ++ [rec]).length = 32 := by
  obtain ⟨-, hfull⟩ := hok
  have hlen : s.queue.length = 32 := hfull (by simp [hwait])
  rw [hqueue, List.length_cons] at hlen
  rw [List.length_append, List.length_singleton, hlen]

end Popped

end State

/-- Settles O17: the three cases of a POP, by the queue and by who waits. -/
theorem popRemovesTheHead : Obligations.PopRemovesTheHead := by
  intro s v hreset
  rw [exec_pop v hreset]
  refine ⟨fun hqueue => ?empty, fun head rest hqueue hwait => ?noneWaiting,
    fun head rest p others hqueue hwait => ?served⟩
  case empty => rw [State.popHead_of_empty hqueue]
  case noneWaiting => rw [State.popHead_of_none_waiting hqueue hwait]
  case served =>
    obtain ⟨hp, -⟩ := State.waiting_eq_cons_iff.1 ⟨others, hwait⟩
    obtain ⟨rec, hrec⟩ := State.isWaiting_iff_exists_record.1 hp
    exact ⟨rec, hrec, by rw [State.popHead_of_waiting hqueue hwait hrec],
      State.length_refilled_of_queueOk hqueue rec hwait⟩

/-- Settles O18: the waiting producer of least rank is the arbiter's first, and the state before the refill is that of
`clearProducer`, kind by kind. -/
theorem arbiterServesInOrder : Obligations.ArbiterServesInOrder := by
  intro s v head rest p hreset hqueue hp hleast
  obtain ⟨others, hwait⟩ := State.waiting_eq_cons_iff.2 ⟨hp, hleast⟩
  obtain ⟨rec, hrec⟩ := State.isWaiting_iff_exists_record.1 hp
  refine ⟨rec, hrec, s.clearProducer p, by rw [exec_pop v hreset, State.popHead_of_waiting hqueue hwait hrec], ?_⟩
  cases p with
  | event k => rfl
  | lost r => exact ⟨rfl, fun q => State.lostOwner_setLost s r q none⟩
  | chainEnd l => exact ⟨rfl, fun k => State.lane_modifyLane s l k fun x => { x with state := .free, held := none }⟩
  | note l => exact ⟨rfl, fun k => State.lane_modifyLane s l k fun x => { x with note := none }⟩
  | watch w => exact ⟨rfl, fun k => State.watch_setWatch s w k _⟩

end Sys2Proof.Machine
end

section
/-! PROOFS. The watch requests (R161, R162): the watch and mode their parameters name, and what an accepted and a
refused request leave. -/

namespace Sys2Proof.Machine

/-! ## WATCH_ARM (R161) -/

theorem WatchMode.code_le (m : WatchMode) : m.code ≤ 2 := by cases m <;> decide

namespace State

theorem watchModeOf_of_code {p2 : Word} {m : WatchMode} (h : p2.toNat = m.code) : watchModeOf p2 = m := by
  rw [watchModeOf, h]
  cases m <;> rfl

theorem watchArm_of_accepted {s : State} {w : WatchNo} {r : RegionNo} {m : WatchMode} (hw : s.p0.toNat = w.val)
    (hr : s.p1.toNat = r.val) (hm : s.p2.toNat = m.code) :
    s.watchArm =
      (s.setWatch w
        { state := .armed, region := r, mode := m, changes := 0, own := false, ownerChanged := false }).answer
        .ok 0 := by
  have hmode : m.code ≤ 2 := m.code_le
  have hrange : s.p0.toNat ≤ 15 ∧ s.p1.toNat ≤ 127 ∧ s.p2.toNat ≤ 2 := by omega
  have hwatch : (⟨s.p0.toNat, by omega⟩ : WatchNo) = w := Fin.ext hw
  have hregion : (⟨s.p1.toNat, by omega⟩ : RegionNo) = r := Fin.ext hr
  rw [watchArm, dif_pos hrange, hwatch, hregion, watchModeOf_of_code hm]

theorem watchArm_of_refused {s : State} (h : 15 < s.p0.toNat ∨ 127 < s.p1.toNat ∨ 2 < s.p2.toNat) :
    s.watchArm = s.answer .badParameter 0 :=
  dif_neg (by omega)

/-! ## WATCH_DISARM (R162) -/

theorem watchDisarm_of_accepted {s : State} {w : WatchNo} (hw : s.p0.toNat = w.val) :
    s.watchDisarm =
      (s.setWatch w { s.watch w with state := .off, changes := 0, own := false, ownerChanged := false }).answer
        .ok 0 := by
  have hrange : s.p0.toNat ≤ 15 := by omega
  have hwatch : (⟨s.p0.toNat, by omega⟩ : WatchNo) = w := Fin.ext hw
  rw [watchDisarm, dif_pos hrange, hwatch]

theorem watchDisarm_of_refused {s : State} (h : 15 < s.p0.toNat) : s.watchDisarm = s.answer .badParameter 0 :=
  dif_neg (by omega)

/-! ## What an accepted request changes -/

theorem watch_setWatch_answer (s : State) (w k : WatchNo) (x : Watch) (a : Answer) (v : Byte) :
    ((s.setWatch w x).answer a v).watch k = if k = w then x else s.watch k :=
  watch_setWatch s w k x

/-- A watch that is not PENDING keeps no report. -/
theorem isWaiting_watch_eq_false {s : State} {w : WatchNo} (h : (s.watch w).state ≠ .pending) :
    s.isWaiting (.watch w) = false :=
  Bool.eq_false_iff.2 (mt (isWaiting_watch s w).1 h)

end State

/-- Settles O22: the range check decides between an accepted request, which writes one watch, and a refused one. -/
theorem watchRequestsSetAWatch : Obligations.WatchRequestsSetAWatch := by
  refine ⟨fun s hreset => ⟨fun w r m hw hr hm => ?armed, fun hrange => ?armRefused⟩,
    fun s hreset => ⟨fun w hw => ?disarmed, fun hrange => ?disarmRefused⟩⟩
  case armed =>
    exact ⟨_, by rw [exec_watchArm hreset, State.watchArm_of_accepted hw hr hm],
      fun k => State.watch_setWatch_answer s w k _ .ok 0, rfl⟩
  case armRefused => rw [exec_watchArm hreset, State.watchArm_of_refused hrange]; rfl
  case disarmed =>
    refine ⟨_, by rw [exec_watchDisarm hreset, State.watchDisarm_of_accepted hw],
      fun k => State.watch_setWatch_answer s w k _ .ok 0, State.isWaiting_watch_eq_false ?_, rfl⟩
    simp
  case disarmRefused => rw [exec_watchDisarm hreset, State.watchDisarm_of_refused hrange]; rfl

end Sys2Proof.Machine
end

section
/-! PROOFS. CONFIGURE (R173, R174): what each of its checks leaves, and the JOINING entry with no frame of the station
slot on the line. -/

namespace Sys2Proof.Machine

namespace State

/-! ## The line unit and the station slot (R29, R31, R37) -/

/-- In OFFLINE the line unit is off, and a frame on the line needs a frame in progress. -/
theorem flight_eq_none_of_offline {s : State} (hfits : s.PhaseFits) (h : s.stationState = .offline) :
    s.flight = none := by
  obtain ⟨hoff, hinFrame⟩ := hfits
  have hphase : s.phase = .off := hoff.2 (.inl h)
  cases hflight : s.flight with
  | none => rfl
  | some f => simp [hflight, hphase] at hinFrame

theorem placeStation_of_not_on_line {s : State} (f : StationFrame) (h : s.stationFrameOnLine = false) :
    s.placeStation f = { s with stationSlot := some { frame := f, attempts := 0, held := false } } := by
  rw [placeStation, h]; rfl

theorem joiningEntry_of_not_on_line {s : State} (h : s.stationFrameOnLine = false) :
    s.joiningEntry =
      { s with
        stationState := .joining, spoilStreak := 0, passCount := 0, window := none, join := some newJoin
        stationSlot := some { frame := .join, attempts := 0, held := false } } :=
  placeStation_of_not_on_line .join h

theorem stationFrameOnLine_of_no_flight {s : State} (h : s.flight = none) : s.stationFrameOnLine = false := by
  simp [stationFrameOnLine_eq, h]

/-! ## The checks of CONFIGURE, in order (R173) -/

section Checks

variable {s : State}

theorem configure_of_bad_parameter (hp0 : s.p0 &&& 0xFFEC ≠ 0) : s.configure = s.answer .badParameter 0 :=
  if_pos hp0

theorem configure_of_not_offline (hp0 : s.p0 &&& 0xFFEC = 0) (h : s.stationState ≠ .offline) :
    s.configure = s.answer .wrongState 0 := by
  rw [configure, if_neg (not_not.2 hp0)]
  cases hstate : s.stationState with
  | offline => exact absurd hstate h
  | joining | active | leaving | adrift | halted => rfl

theorem configure_of_offline (hp0 : s.p0 &&& 0xFFEC = 0) (h : s.stationState = .offline) :
    s.configure =
      ({ s with rateCode := s.p0.setWidth 2, irqEnable := s.p0.getLsbD 4, phase := .counting }.joiningEntry).answer
        .ok 0 := by
  rw [configure, if_neg (not_not.2 hp0), h]

end Checks

end State

/-- Settles O7: P0 and the station state decide between the two refusals and the JOINING entry; in OFFLINE no frame is
on the line, so the JOIN enters the station slot at once. -/
theorem configureIsCheckedAndStartsAJoin : Obligations.ConfigureIsCheckedAndStartsAJoin := by
  refine ⟨fun s hreset => ⟨fun hp0 => ?badParameter, fun hp0 hstate => ?wrongState, fun hp0 hstate => ?ok⟩,
    fun s hreset hfits hstate hp0 => ?joins⟩
  case badParameter => rw [exec_configure hreset, State.configure_of_bad_parameter hp0]; rfl
  case wrongState => rw [exec_configure hreset, State.configure_of_not_offline hp0 hstate]; rfl
  case ok => exact ⟨_, by rw [exec_configure hreset, State.configure_of_offline hp0 hstate], rfl⟩
  case joins =>
    have hflight : s.flight = none := State.flight_eq_none_of_offline hfits hstate
    rw [exec_configure hreset, State.configure_of_offline hp0 hstate, State.joiningEntry_of_not_on_line]
    · rfl
    · exact State.stationFrameOnLine_of_no_flight hflight

end Sys2Proof.Machine
end

section
/-! PROOFS. SOFT_RESET (R176): the state it leaves, and the interrupt output after it. -/

namespace Sys2Proof.Machine

namespace State

/-- What SOFT_RESET takes over from the state before it: the model's queue and counter, the staging buffer and the
chain store. -/
theorem softReset_eq (s : State) (x : Station) :
    s.softReset x =
      { State.reset with
        pending := s.pending, choices := s.choices, straps := x, stationNumber := x
        staging := s.staging, chain := s.chain, result := Answer.ok.plain } := rfl

theorem intN_of_irq_disabled {s : State} (h : s.irqEnable = false) : s.intN = true := by
  simp [intN, h]

theorem intN_softReset (s : State) (x : Station) : (s.softReset x).intN = true :=
  intN_of_irq_disabled (by rw [softReset_eq]; rfl)

end State

/-- Settles O5: whatever the station state, the state left is `State.reset` but for what `softReset_eq` names. -/
theorem softResetKeepsStagingAndChains : Obligations.SoftResetKeepsStagingAndChains := fun s x hreset =>
  ⟨s.softReset x, exec_softReset x hreset, s.intN_softReset x, by rw [State.softReset_eq]; rfl,
    by rw [State.softReset_eq]; rfl, s.softReset_eq x⟩

end Sys2Proof.Machine
end

section
/-! PROOFS. What a command can leave, said once: every state a step answers with is the state before, or the outcome of
one operation of the model. The invariants are proved over this relation and not over `exec`. -/

namespace Sys2Proof.Machine

set_option Elab.async false -- as in Tests/Slice0.lean: fewer threads, within the check's memory limit

/-- `t` is a state that some command can leave from `s`: one constructor per operation that `exec` calls, with what the
pin-reset gate and the frame-end gate let through. -/
inductive Leaves (s : State) : State → Prop
  | same : Leaves s s
  | configure : Leaves s s.configure
  | softReset (n : Nat) (x : Station) : Leaves s (({ s with choices := n } : State).softReset x)
  | rejoin : Leaves s s.rejoin
  | leave : Leaves s s.leave
  | start : Leaves s s.start
  | stop : Leaves s s.stop
  | setGuards (b : Bool) : Leaves s (s.setGuards b)
  | watchArm : Leaves s s.watchArm
  | watchDisarm : Leaves s s.watchDisarm
  | unknown : Leaves s (s.answer .unknown 0)
  | popHead : Leaves s s.popHead
  | staging (w : Nat) (v : Word) (h : w < 2048) : Leaves s { s with staging := s.staging.writeWord w v }
  | chain (w : Nat) (v : Word) (h : w < 2048) : Leaves s { s with chain := s.chain.writeWord w v }
  | params (a b c d : Word) : Leaves s { s with p0 := a, p1 := b, p2 := c, p3 := d }
  | pinReset : Leaves s s.pinReset
  | pinResetEnd (x : Station) : Leaves s (s.pinResetEnd x)
  | accessOpening : Leaves s s.accessOpening
  | startEdge : Leaves s s.startEdge
  | arbitrationLost : Leaves s s.arbitrationLost
  | framingBreak (h : s.phase = .inFrame) : Leaves s s.framingBreak
  | spoiledFrameEnd (b : List Byte) (h : s.phase = .inFrame) : Leaves s (s.spoiledFrameEnd b)
  | carriedFrameEnd (b : List Byte) (h : s.phase = .inFrame) : Leaves s (s.carriedFrameEnd b)
  | windowExpiry : Leaves s s.windowExpiry.settle
  | waitTimeout (l : LaneNo) : Leaves s (s.waitTimeout l)
  | entryTake (l : LaneNo) : Leaves s (s.entryTake l)
  | readbackDifference : Leaves s s.readbackDifference

namespace State

variable (s : State)

theorem leaves_takeRequest (code : Word) : Leaves s (s.takeRequest code) := by
  unfold takeRequest
  split
  case h_1 => exact .configure
  case h_2 => exact .softReset _ _
  case h_3 => exact .rejoin
  case h_4 => exact .leave
  case h_5 => exact .start
  case h_6 => exact .stop
  case h_7 => exact .setGuards true
  case h_8 => exact .setGuards false
  case h_9 => exact .watchArm
  case h_10 => exact .watchDisarm
  case h_11 => exact .unknown

theorem leaves_writeWord (addr : WordAddr) (v : Word) : Leaves s (s.writeWord addr v) := by
  unfold writeWord
  extract_lets a
  split_ifs with hstaging hchain
  · exact .staging _ v (by omega)
  · exact .chain _ v (by omega)
  · exact .popHead
  · exact .params v s.p1 s.p2 s.p3
  · exact .params s.p0 v s.p2 s.p3
  · exact .params s.p0 s.p1 v s.p3
  · exact .params s.p0 s.p1 s.p2 v
  · exact leaves_takeRequest s v
  · exact .same

variable {s}

/-- The pin-reset gate answers the state before, or the operation behind it. -/
theorem unlessReset_next {f : State → State} {t : State} (h : Leaves s (f s))
    (ht : unlessReset f s = .next t) : Leaves s t := by
  rw [unlessReset, Host.Outcome.next.injEq] at ht
  subst ht
  split
  · exact .same
  · exact h

theorem leaves_whileReceiving {f : State → State} (h : s.phase = .inFrame → Leaves s (f s)) :
    Leaves s (whileReceiving f s) := by
  unfold whileReceiving
  split
  next hphase => exact h hphase
  next => exact .same

end State

open State in
/-- Every command answers with a state that one of the operations leaves. -/
theorem exec_leaves {c : Instr} {s t : State} (h : exec c s = .next t) : Leaves s t := by
  cases c with
  | configure => exact unlessReset_next .configure h
  | softReset x => exact unlessReset_next (f := fun u => u.softReset x) (.softReset s.choices x) h
  | rejoin => exact unlessReset_next .rejoin h
  | leave => exact unlessReset_next .leave h
  | start => exact unlessReset_next .start h
  | stop => exact unlessReset_next .stop h
  | guardOpen => exact unlessReset_next (f := fun u => u.setGuards true) (.setGuards true) h
  | guardShut => exact unlessReset_next (f := fun u => u.setGuards false) (.setGuards false) h
  | watchArm => exact unlessReset_next .watchArm h
  | watchDisarm => exact unlessReset_next .watchDisarm h
  | unknownRequest code => exact unlessReset_next (f := fun u => u.takeRequest code) (leaves_takeRequest s code) h
  | pop v => exact unlessReset_next .popHead h
  | hostWordWrite a v => exact unlessReset_next (f := fun u => u.writeWord a v) (leaves_writeWord s a v) h
  | pinReset => cases h; exact .pinReset
  | pinResetEnd x => cases h; exact .pinResetEnd x
  | accessOpening => exact unlessReset_next .accessOpening h
  | startEdge => exact unlessReset_next .startEdge h
  | arbitrationLost => exact unlessReset_next .arbitrationLost h
  | framingBreak => exact unlessReset_next (leaves_whileReceiving .framingBreak) h
  | spoiledFrameEnd b => exact unlessReset_next (leaves_whileReceiving (.spoiledFrameEnd b)) h
  | carriedFrameEnd b => exact unlessReset_next (leaves_whileReceiving (.carriedFrameEnd b)) h
  | refreshWindowExpiry => exact unlessReset_next (f := fun u => u.windowExpiry.settle) .windowExpiry h
  | waitTimeout l => exact unlessReset_next (f := fun u => u.waitTimeout l) (.waitTimeout l) h
  | entryTake l => exact unlessReset_next (f := fun u => u.entryTake l) (.entryTake l) h
  | readbackDifference => exact unlessReset_next .readbackDifference h

/-- A step is one millisecond, or what a command leaves from the state with the queue's rest. -/
theorem step_leaves {s t : State} (h : step s = .next t) :
    t = s.tick ∨ ∃ rest, Leaves { s with pending := rest } t := by
  unfold step at h
  split at h
  next => cases h; exact .inl rfl
  next c rest hpending => exact .inr ⟨rest, exec_leaves h⟩

/-- What every command keeps, and the ticking of the clock and the taking of a command keep, every step keeps. -/
theorem step_keeps {P : State → Prop} (htick : ∀ s, P s → P s.tick)
    (htake : ∀ s rest, P s → P { s with pending := rest }) (hleaves : ∀ s t, P s → Leaves s t → P t) {s t : State}
    (hs : P s) (h : step s = .next t) : P t := by
  rcases step_leaves h with rfl | ⟨rest, hleft⟩
  · exact htick s hs
  · exact hleaves _ t (htake s rest hs) hleft

/-- No command stops the machine (log 25). -/
theorem exec_next (c : Instr) (s : State) : ∃ t, exec c s = .next t := by
  cases c <;> exact ⟨_, rfl⟩

theorem Leaves.pending {s t : State} (h : Leaves s t) : t.pending = s.pending := by
  cases h with
  | pinResetEnd x =>
    unfold State.pinResetEnd
    split
    · rfl
    · rfl
  | same | softReset n x | unknown | staging w v h | chain w v h | params a b c d | pinReset => rfl
  | configure | rejoin | leave | start | stop | setGuards b | watchArm | watchDisarm | popHead | accessOpening
  | startEdge | arbitrationLost | framingBreak h | spoiledFrameEnd b h | carriedFrameEnd b h | windowExpiry
  | waitTimeout l | entryTake l | readbackDifference => simp

/-- Settles O3: `exec` answers every command, and no operation touches the command queue. -/
theorem everyCommandCompletes : Obligations.EveryCommandCompletes := fun c s =>
  let ⟨t, ht⟩ := exec_next c s
  ⟨t, ht, (exec_leaves ht).pending⟩

end Sys2Proof.Machine
end

section
/-! PROOFS. The line unit's part of a command as a path of moves: what the end of a frame can do, one operation after
another, each under the guard it is taken under. -/

namespace Sys2Proof.Machine

set_option Elab.async false -- as in Tests/Slice0.lean: fewer threads, within the check's memory limit

/-- One operation of the line unit at the end of a frame or of an attempt, with its guard. -/
inductive LineMove (s : State) : State → Prop
  | count (hoffline : s.stationState ≠ .offline) (hhalted : s.stationState ≠ .halted) : LineMove s s.countAgain
  | streak (n : Nat) (h : n ≤ 16) : LineMove s { s with spoilStreak := n }
  | settle : LineMove s s.settle
  | lose : LineMove s s.loseAttempt
  | differ : LineMove s s.readbackDifference
  | spoilAttempt (h : s.listening = true) : LineMove s s.spoilAttempt
  | drift (h : s.listening = true) : LineMove s { s.adriftEntry .streak with flight := none }
  | silent (h : s.listening = false) : LineMove s { s with flight := none }
  | peer (f : Frame) (b : List Byte) (hb : checkFrame b = some f) (h : s.listening = true) (hf : s.flight = none) :
      LineMove s (s.applyPeer f)
  | own (f : Flight) (h : s.listening = true) (hf : s.flight = some f) : LineMove s ((s.takeOut f).applyOwn f)
  | halt (hf : s.flight = none) : LineMove s s.haltedEntry
  | join (h : s.stationState = .adrift) : LineMove s s.joiningEntry

/-- A path of moves of the line unit. -/
abbrev LineMoves : State → State → Prop := Relation.ReflTransGen LineMove

/-- What every move keeps, every path keeps. -/
theorem LineMoves.keeps {P : State → Prop} (h : ∀ s t, P s → LineMove s t → P t) {s t : State} (hs : P s)
    (hpath : LineMoves s t) : P t := by
  induction hpath with
  | refl => exact hs
  | tail _ hmove ih => exact h _ _ ih hmove

namespace State

open Relation (ReflTransGen)

/-! ## The listening station -/

theorem listening_congr {s t : State} (h : t.stationState = s.stationState) : t.listening = s.listening := by
  simp [listening, h]

theorem not_offline_of_listening {s : State} (h : s.listening = true) :
    s.stationState ≠ .offline ∧ s.stationState ≠ .halted := by
  rcases listening_iff.1 h with h | h | h <;> simp [h]

theorem countAgain_move {s : State} (h : s.listening = true) : LineMove s s.countAgain :=
  .count (not_offline_of_listening h).1 (not_offline_of_listening h).2

theorem raiseStreak_move (s : State) : LineMove s s.raiseStreak := .streak _ (min_le_left _ _)

/-! ## Paths -/

theorem spoil_moves {s : State} (h : s.listening = true) : LineMoves s s.spoil := by
  have hraised : s.raiseStreak.listening = true := (listening_congr rfl).trans h
  refine .head s.raiseStreak_move ?_
  unfold spoil
  split
  next => exact .single (.drift hraised)
  next => exact .single (.spoilAttempt hraised)

/-- In ADRIFT the end of any frame brings the line unit to count again (R29). -/
theorem silent_moves {s : State} (hstate : s.stationState = .adrift) :
    LineMoves s { s.countAgain with flight := none } :=
  .head (.count (by simp [hstate]) (by simp [hstate])) (.single (.silent (by simp [listening, hstate])))

theorem framingBreak_moves {s : State} : LineMoves s s.framingBreak := by
  unfold framingBreak
  split
  case h_1 | h_2 | h_3 =>
    have hl : s.listening = true := by simp_all [listening]
    exact (ReflTransGen.head (countAgain_move hl) (spoil_moves ((listening_congr rfl).trans hl))).tail .settle
  case h_4 hstate => exact silent_moves hstate
  case h_5 | h_6 => exact .single (.silent (by simp_all [listening]))

theorem resolveReadback_moves (s : State) (b : List Byte) : LineMoves s (s.resolveReadback b) := by
  unfold resolveReadback
  split
  next f hf =>
    split_ifs
    · exact .refl
    · exact .single .differ
    · exact .head .lose (.single .settle)
  next => exact .refl

theorem listening_resolveReadback (s : State) (b : List Byte) : (s.resolveReadback b).listening = s.listening :=
  listening_congr (by simp)

theorem spoiledHere_moves {s : State} (b : List Byte) (h : s.listening = true) : LineMoves s (s.spoiledHere b) := by
  have hcount : s.countAgain.listening = true := (listening_congr rfl).trans h
  unfold spoiledHere
  split
  next => exact .head (countAgain_move h) (spoil_moves hcount)
  next =>
    exact .head (countAgain_move h) (.head (.streak 0 (by omega)) (.single (.spoilAttempt hcount)))

theorem spoiledFrameEnd_moves (s : State) (b : List Byte) : LineMoves s (s.spoiledFrameEnd b) := by
  unfold spoiledFrameEnd
  split
  case h_1 | h_2 | h_3 =>
    have hl : s.listening = true := by simp_all [listening]
    exact ((s.resolveReadback_moves b).trans
      (spoiledHere_moves b ((listening_resolveReadback s b).trans hl))).tail .settle
  case h_4 hstate => exact silent_moves hstate
  case h_5 | h_6 => exact .single (.silent (by simp_all [listening]))

theorem carriedFromPeer_moves {s : State} {b : List Byte} {f : Frame} (hb : checkFrame b = some f)
    (hl : s.listening = true) (hf : s.flight = none) : LineMoves s (s.carriedFromPeer f) := by
  unfold carriedFromPeer
  split
  next => exact .single (.halt hf)
  next => exact .head (.peer f b hb hl hf) (.single .settle)

/-- A frame clean here: the readback is resolved, the line unit counts again and the streak is 0 (R46). -/
theorem resolved_moves {s : State} (b : List Byte) (hl : s.listening = true) :
    LineMoves s { (s.resolveReadback b).countAgain with spoilStreak := 0 } :=
  ((s.resolveReadback_moves b).tail (countAgain_move ((listening_resolveReadback s b).trans hl))).tail
    (LineMove.streak (s := (s.resolveReadback b).countAgain) 0 (by omega))

theorem carriedHere_moves {s : State} (b : List Byte) (hl : s.listening = true) :
    LineMoves s (s.carriedHere b) := by
  unfold carriedHere
  split
  next =>
    have hlost : s.loseAttempt.listening = true := (listening_congr (by simp)).trans hl
    exact .head .lose (.head (countAgain_move hlost) (.single .settle))
  next f hb =>
    have hresolved : (s.resolveReadback b).listening = true := (listening_resolveReadback s b).trans hl
    have hpath := resolved_moves b hl
    dsimp only
    split
    next fl hfl =>
      split_ifs
      · exact (hpath.tail (.own fl hresolved hfl)).tail .settle
      · exact ((hpath.tail .lose).tail .settle).trans
          (carriedFromPeer_moves hb ((listening_congr (by simp)).trans hresolved) (by simp))
    next hfl => exact hpath.trans (carriedFromPeer_moves hb hresolved hfl)

theorem carriedAdrift_moves {s : State} (b : List Byte) (hstate : s.stationState = .adrift) :
    LineMoves s (s.carriedAdrift b) := by
  unfold carriedAdrift
  dsimp only
  split
  next => exact silent_moves hstate
  next f hb =>
    split_ifs
    · exact silent_moves hstate
    · exact (silent_moves hstate).tail (.halt rfl)
    · exact (silent_moves hstate).tail (.join hstate)

theorem carriedFrameEnd_moves (s : State) (b : List Byte) : LineMoves s (s.carriedFrameEnd b) := by
  unfold carriedFrameEnd
  split
  case h_1 | h_2 | h_3 => exact carriedHere_moves b (by simp_all [listening])
  case h_4 hstate => exact carriedAdrift_moves b hstate
  case h_5 | h_6 => exact .single (.silent (by simp_all [listening]))

theorem arbitrationLost_moves (s : State) : LineMoves s s.arbitrationLost := by
  unfold arbitrationLost
  split
  next =>
    split_ifs
    · exact .refl
    · exact .head .lose (.single .settle)
  next => exact .refl

end State

end Sys2Proof.Machine
end

section
/-! PROOFS. The six offer slots and the frame on the line: what every command keeps of the frames they hold and of their
attempt counts (R34, R39, R41). -/

namespace Sys2Proof.Machine

set_option Elab.async false -- as in Tests/Slice0.lean: fewer threads, within the check's memory limit

/-! ## What the entries to ADRIFT and HALTED leave (R89, R90, R93) -/

namespace State

@[simp] theorem adriftEntry_fields (s : State) (c : DriftCause) :
    (s.adriftEntry c).stationSlot = none ∧ (s.adriftEntry c).stationNext = none ∧
    (s.adriftEntry c).flight = s.flight.map Flight.detach ∧ (s.adriftEntry c).window = none ∧
    (s.adriftEntry c).passCount = 0 ∧ (s.adriftEntry c).join = none ∧ (s.adriftEntry c).imageSlot = none ∧
    (s.adriftEntry c).laneSlots = Vector.replicate 4 none ∧ (s.adriftEntry c).placement = [] ∧
    (s.adriftEntry c).stationState = .adrift := by
  unfold adriftEntry
  simp [driftFlush_fields]

@[simp] theorem haltedEntry_fields (s : State) :
    s.haltedEntry.stationSlot = none ∧ s.haltedEntry.stationNext = none ∧
    s.haltedEntry.flight = s.flight.map Flight.detach ∧ s.haltedEntry.window = none ∧
    s.haltedEntry.passCount = 0 ∧ s.haltedEntry.join = none ∧ s.haltedEntry.imageSlot = none ∧
    s.haltedEntry.laneSlots = Vector.replicate 4 none ∧ s.haltedEntry.placement = [] ∧
    s.haltedEntry.stationState = .halted ∧ s.haltedEntry.phase = .off := by
  unfold haltedEntry
  simp [driftFlush_fields]

theorem laneSlot_of_laneSlots_empty {s : State} (h : s.laneSlots = Vector.replicate 4 none) (l : LaneNo) :
    s.laneSlot l = none := by
  simp [laneSlot, h]

theorem laneSlot_congr {s t : State} (h : t.laneSlots = s.laneSlots) (l : LaneNo) : t.laneSlot l = s.laneSlot l := by
  simp [laneSlot, h]

/-- While a frame of the station slot is on the line the new frame waits for the end of the attempt (R37). -/
theorem placeStation_of_on_line {s : State} (f : StationFrame) (h : s.stationFrameOnLine = true) :
    s.placeStation f =
      { s with stationNext := some f, stationSlot := s.stationSlot.map fun o => { o with held := true } } := by
  rw [placeStation, if_pos h]

/-- The span of an ASK lies in the 128 regions. -/
theorem askSpan_wf {p : RegionNo → Bool} {g : StationFrame} (h : askSpan p = some g) : g.body.wf := by
  unfold askSpan at h
  split at h
  next a b ha hb =>
    cases h
    obtain ⟨-, hleast⟩ := lowest_some ha
    obtain ⟨hpb, -⟩ := highest_some hb
    have hle : a.val ≤ b.val := hleast b hpb
    have hlt : b.val < 128 := b.isLt
    exact ⟨by omega, by omega⟩
  next => cases h

/-- A group that is read has at least one byte and ends within the region (R101, R121). -/
theorem readGroup_total {m : Memory} {k : EntryKind} {i : Index} {g : Group} (hk : k = .put ∨ k = .get)
    (h : Entry.readGroup m k i = .ok g) :
    (g.segs.map Prod.snd).sum = g.total ∧ Entry.offset m i + g.total ≤ 128 ∧ 1 ≤ g.total :=
  readParts_total m k hk _ 129 false i 0 _ g rfl h

end State

/-! ## The offers -/

/-- Every offered frame has a body in `body`, and every attempt count is in `bound`. -/
structure OffersMeet (body : FrameBody → Prop) (bound : Nat → Prop) (s : State) : Prop where
  lane : ∀ l o, s.laneSlot l = some o → body o.frame.body ∧ bound o.attempts
  station : ∀ o, s.stationSlot = some o → body o.frame.body ∧ bound o.attempts
  next : ∀ g, s.stationNext = some g → body g.body
  image : ∀ o, s.imageSlot = some o → bound o.attempts

/-- What the station builds itself is well-formed, and a count below the eighth attempt may be raised (R42). -/
structure OfferBounds (body : FrameBody → Prop) (bound : Nat → Prop) : Prop where
  wf : ∀ b : FrameBody, b.wf → body b
  zero : bound 0
  succ : ∀ n, bound n → n + 1 < Config.maxAttempts → bound (n + 1)

namespace OffersMeet

variable {body : FrameBody → Prop} {bound : Nat → Prop} {s t : State}

/-- A state whose slots hold nothing but what those of `s` hold. -/
theorem of_subset (h : OffersMeet body bound s)
    (hlane : ∀ l o, t.laneSlot l = some o → s.laneSlot l = some o)
    (hstation : ∀ o, t.stationSlot = some o → s.stationSlot = some o)
    (hnext : ∀ g, t.stationNext = some g → s.stationNext = some g)
    (himage : ∀ o, t.imageSlot = some o → s.imageSlot = some o) : OffersMeet body bound t where
  lane l o ho := h.lane l o (hlane l o ho)
  station o ho := h.station o (hstation o ho)
  next g hg := h.next g (hnext g hg)
  image o ho := h.image o (himage o ho)

theorem congr (h : OffersMeet body bound s) (hlane : t.laneSlots = s.laneSlots := by simp)
    (hstation : t.stationSlot = s.stationSlot := by simp) (hnext : t.stationNext = s.stationNext := by simp)
    (himage : t.imageSlot = s.imageSlot := by simp) : OffersMeet body bound t :=
  h.of_subset (fun l o => by rw [State.laneSlot_congr hlane]; exact id) (fun o => by rw [hstation]; exact id)
    (fun g => by rw [hnext]; exact id) (fun o => by rw [himage]; exact id)

/-- After a flush no slot holds a frame. -/
theorem of_empty (hlane : t.laneSlots = Vector.replicate 4 none) (hstation : t.stationSlot = none)
    (hnext : t.stationNext = none) (himage : t.imageSlot = none) : OffersMeet body bound t where
  lane l o ho := by simp [State.laneSlot_of_laneSlots_empty hlane] at ho
  station o ho := by simp [hstation] at ho
  next g hg := by simp [hnext] at hg
  image o ho := by simp [himage] at ho

/-! ## The lane slots -/

theorem clearLaneSlot (h : OffersMeet body bound s) (l : LaneNo) : OffersMeet body bound (s.clearLaneSlot l) := by
  refine h.of_subset (fun k o => ?_) (by simp) (by simp) (by simp)
  rw [State.laneSlot_clearLaneSlot]
  split
  · simp
  · exact id

theorem stopAtEnd (h : OffersMeet body bound s) (l : LaneNo) : OffersMeet body bound (s.stopAtEnd l) :=
  (h.clearLaneSlot l).congr (by simp [State.stopAtEnd]) (by simp [State.stopAtEnd]) (by simp [State.stopAtEnd])
    (by simp [State.stopAtEnd])

theorem setLaneSlot (h : OffersMeet body bound s) (l : LaneNo) {o : LaneSlot} (hbody : body o.frame.body)
    (hbound : bound o.attempts) : OffersMeet body bound (s.setLaneSlot l (some o)) where
  lane k p hp := by
    rw [State.laneSlot_setLaneSlot] at hp
    split at hp
    · cases hp; exact ⟨hbody, hbound⟩
    · exact h.lane k p hp
  station := by simpa using h.station
  next := by simpa using h.next
  image := by simpa using h.image

theorem placeFrame (h : OffersMeet body bound s) (l : LaneNo) {f : LaneFrame} (hbody : body f.body)
    (hzero : bound 0) : OffersMeet body bound (s.placeFrame l f) where
  lane k p hp := by
    have hp : (s.placeLaneFrame l f).laneSlot k = some p := by simpa [State.placeFrame] using hp
    rw [State.laneSlot_placeLaneFrame] at hp
    split at hp
    · cases hp; exact ⟨hbody, hzero⟩
    · exact h.lane k p hp
  station := by simpa using h.station
  next := by simpa using h.next
  image := by simpa using h.image

theorem countLaneAttempt (h : OffersMeet body bound s) (hb : OfferBounds body bound) (l : LaneNo) :
    OffersMeet body bound (s.countLaneAttempt l) := by
  unfold State.countLaneAttempt
  split
  next o ho =>
    obtain ⟨hbody, hbound⟩ := h.lane l o ho
    split
    next hlt => exact (h.setLaneSlot l (o := { o with attempts := o.attempts + 1 }) hbody
        (hb.succ _ hbound hlt)).congr
    next => exact (h.clearLaneSlot l).congr
  next => exact h

theorem withdrawalCheck (h : OffersMeet body bound s) (changed : RegionNo → Bool) :
    OffersMeet body bound (s.withdrawalCheck changed) := by
  refine h.of_subset (fun l o ho => ?_) (by simp) (by simp) (by simp)
  cases hw : s.withdrawalOf changed l with
  | none => rwa [(State.withdrawalCheck_of_not_withdrawn hw).2.1] at ho
  | some st => rw [(State.withdrawalCheck_of_withdrawn hw).2.1] at ho; cases ho

theorem dropLaneFrames (h : OffersMeet body bound s) : OffersMeet body bound s.dropLaneFrames :=
  h.of_subset (fun l o ho => by simp [State.laneSlot, State.dropLaneFrames] at ho) (by simp) (by simp) (by simp)

/-! ## The station slot -/

theorem placeStation (h : OffersMeet body bound s) {g : StationFrame} (hbody : body g.body) (hzero : bound 0) :
    OffersMeet body bound (s.placeStation g) := by
  cases honLine : s.stationFrameOnLine with
  | true =>
    rw [State.placeStation_of_on_line g honLine]
    refine ⟨h.lane, fun o ho => ?_, fun f hf => ?_, h.image⟩
    · obtain ⟨p, hp, rfl⟩ := Option.map_eq_some_iff.1 ho
      exact h.station p hp
    · cases hf; exact hbody
  | false =>
    rw [State.placeStation_of_not_on_line g honLine]
    refine ⟨h.lane, fun o ho => ?_, h.next, h.image⟩
    cases ho; exact ⟨hbody, hzero⟩

theorem placeAsk (h : OffersMeet body bound s) (hb : OfferBounds body bound) (p : RegionNo → Bool) :
    OffersMeet body bound (s.placeAsk p) := by
  unfold State.placeAsk
  split
  next g hg => exact h.placeStation (hb.wf _ (State.askSpan_wf hg)) hb.zero
  next => exact h

theorem joiningEntry (h : OffersMeet body bound s) (hb : OfferBounds body bound) :
    OffersMeet body bound s.joiningEntry :=
  OffersMeet.placeStation h.congr (hb.wf .join trivial) hb.zero

theorem enterNext (h : OffersMeet body bound s) (hzero : bound 0) : OffersMeet body bound s.enterNext := by
  unfold State.enterNext
  split
  next g hg =>
    refine ⟨h.lane, fun o ho => ?_, by simp, h.image⟩
    cases ho; exact ⟨h.next g hg, hzero⟩
  next => exact h

theorem emptyStationSlot (h : OffersMeet body bound s) (hzero : bound 0) : OffersMeet body bound s.emptyStationSlot :=
  OffersMeet.enterNext (h.of_subset (t := { s with stationSlot := none }) (fun _ _ => id) (by simp) (fun _ => id)
    (fun _ => id)) hzero

theorem tryComplete (h : OffersMeet body bound s) (n : Nat) : OffersMeet body bound (s.tryComplete n) := by
  unfold State.tryComplete
  split
  next =>
    refine h.of_subset (fun l o ho => by simpa [State.laneSlot] using ho) (fun o ho => ?_) (by simp) (by simp)
    have ho : State.withoutAsk s.stationSlot = some o := by simpa using ho
    unfold State.withoutAsk at ho
    split at ho
    next p hp =>
      split at ho
      · cases ho
      · rwa [hp]
      · rwa [hp]
    next => cases ho
  next => exact h

/-! ## The image slot -/

theorem syncImageSlot (h : OffersMeet body bound s) (hzero : bound 0) : OffersMeet body bound s.syncImageSlot := by
  have hnew : ∀ r, OffersMeet body bound { s with imageSlot := some { region := r, attempts := 0 } } := fun r =>
    ⟨h.lane, h.station, h.next, fun o ho => by cases ho; exact hzero⟩
  unfold State.syncImageSlot State.moveImageSlot
  split
  next => exact h
  next =>
    split
    next => exact h.of_subset (fun _ _ => id) (fun _ => id) (fun _ => id) (by simp)
    next r _ =>
      split
      next =>
        split
        · exact h
        · exact hnew r
      next => exact hnew r

theorem dropResponse (h : OffersMeet body bound s) (hzero : bound 0) (r : RegionNo) :
    OffersMeet body bound (s.dropResponse r) :=
  OffersMeet.syncImageSlot h.congr hzero

theorem addResponses (h : OffersMeet body bound s) (hzero : bound 0) (a b : Nat) :
    OffersMeet body bound (s.addResponses a b) :=
  OffersMeet.syncImageSlot h.congr hzero

theorem loseRegions (h : OffersMeet body bound s) : OffersMeet body bound s.loseRegions :=
  h.of_subset (fun l o ho => by simpa [State.laneSlot] using ho) (by simp) (by simp) (by simp [State.loseRegions])

/-! ## The passes of a join, and the end of an attempt -/

theorem thirdPassEnd (h : OffersMeet body bound s) : OffersMeet body bound s.thirdPassEnd := by
  unfold State.thirdPassEnd
  split
  · exact OffersMeet.tryComplete h.congr _
  · exact of_empty (by simp) (by simp) (by simp) (by simp)

theorem windowExpiry (h : OffersMeet body bound s) (hb : OfferBounds body bound) :
    OffersMeet body bound s.windowExpiry := by
  unfold State.windowExpiry
  split
  next => exact h
  next =>
    dsimp only
    split
    · exact OffersMeet.placeAsk h.congr hb _
    · exact OffersMeet.thirdPassEnd h.congr

theorem askAbandoned (h : OffersMeet body bound s) (hb : OfferBounds body bound) :
    OffersMeet body bound s.askAbandoned := by
  unfold State.askAbandoned
  split
  next =>
    dsimp only
    split
    · exact OffersMeet.placeAsk h.congr hb _
    · exact OffersMeet.thirdPassEnd h.congr
  next => exact h

theorem endOfLeave (h : OffersMeet body bound s) : OffersMeet body bound s.endOfLeave :=
  h.loseRegions.congr (by simp [State.endOfLeave]) (by simp [State.endOfLeave]) (by simp [State.endOfLeave])
    (by simp [State.endOfLeave])

theorem loseAttempt (h : OffersMeet body bound s) (hb : OfferBounds body bound) :
    OffersMeet body bound s.loseAttempt := by
  have hover : OffersMeet body bound { s with flight := none } := h.congr
  unfold State.loseAttempt
  split
  next => exact h
  next f _ =>
    dsimp only
    split
    next l _ =>
      split_ifs
      · exact hover.stopAtEnd l
      · exact hover.congr
      · exact hover
    next =>
      repeat' split
      · exact hover.emptyStationSlot hb.zero
      · exact hover
      · exact hover.enterNext hb.zero
      · exact hover.enterNext hb.zero
    next => exact hover.syncImageSlot hb.zero

theorem stationAbandoned (h : OffersMeet body bound s) (hb : OfferBounds body bound) (g : StationFrame) :
    OffersMeet body bound (s.stationAbandoned g) := by
  cases g with
  | join =>
    have hadrift : s.stationAbandoned .join = s.adriftEntry .joinAbandoned := rfl
    exact of_empty (by simp [hadrift]) (by simp [hadrift]) (by simp [hadrift]) (by simp [hadrift])
  | leave => exact h.endOfLeave
  | ask a b => exact h.askAbandoned hb

theorem countStationAttempt (h : OffersMeet body bound s) (hb : OfferBounds body bound) :
    OffersMeet body bound s.countStationAttempt := by
  unfold State.countStationAttempt
  split
  next o ho =>
    obtain ⟨hbody, hbound⟩ := h.station o ho
    split_ifs with hheld hlt
    · exact h.emptyStationSlot hb.zero
    · exact ⟨h.lane, fun p hp => by cases hp; exact ⟨hbody, hb.succ _ hbound hlt⟩, h.next, h.image⟩
    · exact OffersMeet.stationAbandoned
        (h.of_subset (t := { s with stationSlot := none }) (fun _ _ => id) (by simp) (fun _ => id) fun _ => id) hb _
  next => exact h.enterNext hb.zero

theorem countImageAttempt (h : OffersMeet body bound s) (hb : OfferBounds body bound) :
    OffersMeet body bound s.countImageAttempt := by
  unfold State.countImageAttempt
  split
  next o ho =>
    split
    next hlt =>
      have hraised : OffersMeet body bound { s with imageSlot := some { o with attempts := o.attempts + 1 } } :=
        ⟨h.lane, h.station, h.next, fun p hp => by cases hp; exact hb.succ _ (h.image o ho) hlt⟩
      exact hraised.syncImageSlot hb.zero
    next =>
      have hempty : OffersMeet body bound { s with imageSlot := none } := ⟨h.lane, h.station, h.next, by simp⟩
      exact hempty.dropResponse hb.zero _
  next => exact h.syncImageSlot hb.zero

theorem spoilAttempt (h : OffersMeet body bound s) (hb : OfferBounds body bound) :
    OffersMeet body bound s.spoilAttempt := by
  have hover : OffersMeet body bound { s with flight := none } := h.congr
  unfold State.spoilAttempt
  split
  next => exact h
  next f _ =>
    dsimp only
    split
    next l _ =>
      split_ifs
      · exact hover.stopAtEnd l
      · exact hover.countLaneAttempt hb l
      · exact hover
    next =>
      split
      · exact hover.countStationAttempt hb
      · exact hover.enterNext hb.zero
    next =>
      split
      · exact hover.countImageAttempt hb
      · exact hover.syncImageSlot hb.zero

/-! ## Carried frames -/

theorem changeOwner (h : OffersMeet body bound s) (x : Station) (r : RegionNo) (o : Option Station) :
    OffersMeet body bound (s.changeOwner x r o) :=
  OffersMeet.withdrawalCheck h.congr _

theorem applyClaim (h : OffersMeet body bound s) (x : Station) (b : Bool) (r : RegionNo) :
    OffersMeet body bound (s.applyClaim x b r) := by
  have hlost : OffersMeet body bound (s.loseOwnership r x) := h.congr
  unfold State.applyClaim
  repeat' split
  · exact h.changeOwner _ _ _
  · exact h
  · exact hlost.changeOwner _ _ _
  · exact h.changeOwner _ _ _
  · exact h
  · exact h
  · exact h

theorem applyRelease (h : OffersMeet body bound s) (x : Station) (r : RegionNo) :
    OffersMeet body bound (s.applyRelease x r) := by
  unfold State.applyRelease
  split
  · exact h.changeOwner _ _ _
  · exact h

theorem clearOwner (h : OffersMeet body bound s) (x : Station) : OffersMeet body bound (s.clearOwner x) := by
  refine OffersMeet.withdrawalCheck (h.congr ?_ ?_ ?_ ?_) _
  all_goals
    refine (State.foldl_keeps _ _ (fun t r => ?_) _ _).trans ?_
    · simp
    · simp

theorem takeImage (h : OffersMeet body bound s) (hzero : bound 0) (r : RegionNo) (o : Option Station) (c : Word)
    (d : List Byte) : OffersMeet body bound (s.takeImage r o c d) := by
  unfold State.takeImage
  split
  · have hinstalled : OffersMeet body bound (s.installImage r o c d) := h.congr
    exact OffersMeet.tryComplete (hinstalled.dropResponse hzero r).congr 0
  · exact h.dropResponse hzero r

theorem applyPeer (h : OffersMeet body bound s) (hzero : bound 0) (f : Frame) :
    OffersMeet body bound (s.applyPeer f) := by
  unfold State.applyPeer
  split
  · exact h.clearOwner _
  · exact h.clearOwner _
  · exact h.applyClaim _ _ _
  · exact h.applyRelease _ _
  · exact h.addResponses hzero _ _
  · exact h.takeImage hzero _ _ _ _
  · exact h.congr

theorem takeOut (h : OffersMeet body bound s) (hzero : bound 0) (f : Flight) : OffersMeet body bound (s.takeOut f) := by
  have hover : OffersMeet body bound { s with flight := none } := h.congr
  unfold State.takeOut
  dsimp only
  repeat' split
  · exact hover.clearLaneSlot _
  · exact hover
  · exact hover.emptyStationSlot hzero
  · exact hover.enterNext hzero
  · exact ⟨h.lane, h.station, h.next, by simp⟩
  · exact hover

theorem joinCarried (h : OffersMeet body bound s) (hb : OfferBounds body bound) :
    OffersMeet body bound s.joinCarried := by
  unfold State.joinCarried
  split
  next =>
    dsimp only
    split
    · exact OffersMeet.placeAsk h.congr hb _
    · exact OffersMeet.tryComplete h.congr _
  next => exact h

theorem askCarried (h : OffersMeet body bound s) (a b : Nat) : OffersMeet body bound (s.askCarried a b) := by
  unfold State.askCarried
  dsimp only
  split
  · exact OffersMeet.tryComplete h.congr _
  · exact h.congr

theorem applyOwn (h : OffersMeet body bound s) (hb : OfferBounds body bound) (f : Flight) :
    OffersMeet body bound (s.applyOwn f) := by
  unfold State.applyOwn
  split
  · split
    · exact (h.clearOwner _).joinCarried hb
    · exact h.clearOwner _
  · split
    · exact (h.clearOwner _).endOfLeave
    · exact h.clearOwner _
  · split
    · exact h.askCarried _ _
    · exact h
  · exact h.takeImage hb.zero _ _ _ _
  · next seize r _ => exact (h.applyClaim f.frame.sender seize r).congr
  · next r _ => exact (h.applyRelease f.frame.sender r).congr
  · exact h.congr

theorem of_move (hb : OfferBounds body bound) (h : OffersMeet body bound s) (hmove : LineMove s t) :
    OffersMeet body bound t := by
  cases hmove with
  | count _ _ | settle | differ => exact h.congr
  | streak n _ | silent _ => exact h.congr
  | lose => exact h.loseAttempt hb
  | spoilAttempt _ => exact h.spoilAttempt hb
  | drift _ => exact of_empty (by simp) (by simp) (by simp) (by simp)
  | peer f b _ _ _ => exact h.applyPeer hb.zero f
  | own f _ _ => exact (h.takeOut hb.zero f).applyOwn hb f
  | halt _ => exact of_empty (by simp) (by simp) (by simp) (by simp)
  | join _ => exact h.joiningEntry hb

/-! ## Requests, timers and takes -/

theorem stopLane (h : OffersMeet body bound s) (l : LaneNo) : OffersMeet body bound (s.stopLane l) := by
  unfold State.stopLane
  split
  case h_5 =>
    have hended : OffersMeet body bound (s.stopAtEnd l).settle := (h.stopAtEnd l).congr
    exact hended.congr rfl rfl rfl rfl
  case h_1 | h_2 | h_3 | h_4 | h_6 => exact h.congr

theorem stop (h : OffersMeet body bound s) : OffersMeet body bound s.stop := by
  unfold State.stop
  split
  · exact h.stopLane _
  · exact h.congr

theorem leave (h : OffersMeet body bound s) (hb : OfferBounds body bound) : OffersMeet body bound s.leave := by
  unfold State.leave
  split
  case h_1 | h_2 =>
    have hdropped : OffersMeet body bound s.detachLanes.dropLaneFrames := OffersMeet.dropLaneFrames h.congr
    have hplaced : OffersMeet body bound (({ s.detachLanes.dropLaneFrames with
        window := none, join := none, stationState := .leaving } : State).placeStation .leave) :=
      OffersMeet.placeStation hdropped.congr (hb.wf .leave trivial) hb.zero
    exact hplaced.congr
  case h_3 | h_4 | h_5 | h_6 => exact h.congr

theorem rejoin (h : OffersMeet body bound s) (hb : OfferBounds body bound) : OffersMeet body bound s.rejoin := by
  have hflushed : OffersMeet body bound s.driftFlush :=
    of_empty (by simp [State.driftFlush_fields]) (by simp [State.driftFlush_fields])
      (by simp [State.driftFlush_fields]) (by simp [State.driftFlush_fields])
  unfold State.rejoin
  split
  case h_1 | h_2 | h_3 => exact (hflushed.joiningEntry hb).congr
  case h_4 | h_5 | h_6 => exact h.congr

theorem configure (h : OffersMeet body bound s) (hb : OfferBounds body bound) : OffersMeet body bound s.configure := by
  unfold State.configure
  split
  · exact h.congr
  · split
    case h_1 =>
      have hjoins : OffersMeet body bound (({ s with
          rateCode := s.p0.setWidth 2, irqEnable := s.p0.getLsbD 4, phase := .counting } : State).joiningEntry) :=
        OffersMeet.joiningEntry h.congr hb
      exact hjoins.congr
    case h_2 | h_3 | h_4 | h_5 | h_6 => exact h.congr

theorem reset : OffersMeet body bound State.reset := of_empty rfl rfl rfl rfl

theorem putAction (h : OffersMeet body bound s) (hb : OfferBounds body bound) (l : LaneNo) (r : RegionNo) {k : Nat}
    {g : Group} (hg : (FrameBody.update r k (s.gather g.segs)).wf) : OffersMeet body bound (s.putAction l r k g) := by
  unfold State.putAction
  split_ifs
  · exact h.congr
  · exact h.congr
  · exact h.congr
  · exact h.placeFrame l (hb.wf _ hg) hb.zero

theorem claimAction (h : OffersMeet body bound s) (hb : OfferBounds body bound) (l : LaneNo) (r : RegionNo) (b : Bool) :
    OffersMeet body bound (s.claimAction l r b) := by
  unfold State.claimAction
  split_ifs
  · exact h.congr
  · exact h.congr
  · exact h.placeFrame l (hb.wf (.claim b r) trivial) hb.zero
  · exact h.congr

theorem releaseAction (h : OffersMeet body bound s) (hb : OfferBounds body bound) (l : LaneNo) (r : RegionNo) :
    OffersMeet body bound (s.releaseAction l r) := by
  unfold State.releaseAction
  split_ifs
  · exact h.congr
  · exact h.placeFrame l (hb.wf (.release r) trivial) hb.zero
  · exact h.congr

theorem takeSingle (h : OffersMeet body bound s) (l : LaneNo) {act : State → Index → State}
    (hact : ∀ u i, OffersMeet body bound u → OffersMeet body bound (act u i)) :
    OffersMeet body bound (s.takeSingle l act) := by
  unfold State.takeSingle
  dsimp only
  split
  · exact hact _ _ h.congr
  · exact h.congr

/-- A take that reads a group acts on a state with the offers, the staging buffer and the chain store as before. -/
theorem takeTransfer (h : OffersMeet body bound s) (l : LaneNo) (k : EntryKind)
    {act : State → RegionNo → Nat → Group → State}
    (hact : ∀ u r g, OffersMeet body bound u → Entry.readGroup s.chain k (s.lane l).cur = .ok g →
      OffersMeet body bound (act u r (Entry.offset s.chain (s.lane l).cur) g)) :
    OffersMeet body bound (s.takeTransfer l k act) := by
  unfold State.takeTransfer
  dsimp only
  split
  next => exact h.congr
  next g hg => exact hact _ _ g h.congr hg

theorem takeEntry (h : OffersMeet body bound s) (hb : OfferBounds body bound) (l : LaneNo) :
    OffersMeet body bound (s.takeEntry l) := by
  have htaken : OffersMeet body bound (s.modifyLane l fun x => { x with prevGoto := false }) := h.congr
  unfold State.takeEntry
  dsimp only
  split
  next => exact h.congr
  next =>
    refine htaken.takeTransfer l .put fun u r g hu hg => hu.putAction hb l r ?_
    obtain ⟨hsum, hend, hpos⟩ := State.readGroup_total (.inl rfl) hg
    have hlen : (u.gather g.segs).length = g.total := (State.gather_length u g.segs).trans hsum
    exact ⟨by omega, by omega⟩
  next => exact htaken.takeTransfer l .get fun u r g hu _ => hu.congr
  next => exact htaken.takeSingle l fun u i hu => hu.claimAction hb l _ _
  next => exact htaken.takeSingle l fun u i hu => hu.releaseAction hb l _
  next => exact htaken.takeSingle l fun u i hu => hu.congr
  next => exact h.congr

theorem entryTake (h : OffersMeet body bound s) (hb : OfferBounds body bound) (l : LaneNo) :
    OffersMeet body bound (s.entryTake l) := by
  unfold State.entryTake
  split
  · exact (h.takeEntry hb l).congr
  · exact h

theorem of_moves (hb : OfferBounds body bound) (h : OffersMeet body bound s) (hpath : LineMoves s t) :
    OffersMeet body bound t :=
  hpath.keeps (P := OffersMeet body bound) (fun _ _ hs hmove => of_move hb hs hmove) h

theorem of_leaves (hb : OfferBounds body bound) (h : OffersMeet body bound s) (hleft : Leaves s t) :
    OffersMeet body bound t := by
  cases hleft with
  | same => exact h
  | configure => exact h.configure hb
  | softReset n x => exact reset.congr rfl rfl rfl rfl
  | rejoin => exact h.rejoin hb
  | leave => exact h.leave hb
  | stop => exact h.stop
  | start | setGuards b | watchArm | watchDisarm | unknown | popHead | accessOpening | startEdge | waitTimeout l =>
    exact h.congr
  | staging w v hw | chain w v hw | params a b c d => exact h.congr rfl rfl rfl rfl
  | pinReset => exact reset.congr rfl rfl rfl rfl
  | pinResetEnd x =>
    unfold State.pinResetEnd
    split
    · exact reset.congr rfl rfl rfl rfl
    · exact h
  | arbitrationLost => exact of_moves hb h (State.arbitrationLost_moves s)
  | framingBreak _ => exact of_moves hb h State.framingBreak_moves
  | spoiledFrameEnd b _ => exact of_moves hb h (State.spoiledFrameEnd_moves s b)
  | carriedFrameEnd b _ => exact of_moves hb h (State.carriedFrameEnd_moves s b)
  | windowExpiry => exact (h.windowExpiry hb).congr
  | entryTake l => exact h.entryTake hb l
  | readbackDifference => exact h.congr

theorem of_step (hb : OfferBounds body bound) (h : OffersMeet body bound s) (hstep : step s = .next t) :
    OffersMeet body bound t :=
  step_keeps (fun _ hs => hs.congr) (fun _ _ hs => hs.congr rfl rfl rfl rfl) (fun _ _ hs => of_leaves hb hs) h hstep

end OffersMeet

end Sys2Proof.Machine
end

section
/-! PROOFS. The frame on the line and the three addressed stores: every step keeps the stores canonical within their
ends and every frame within its layout (R1, R31, R39, R96, R168). -/

namespace Sys2Proof.Machine

set_option Elab.async false -- as in Tests/Slice0.lean: fewer threads, within the check's memory limit

namespace State

/-! ## This station's frame on the line -/

/-- The frame on the line is as it was, or its slot has let it go (R50). -/
def FlightKept (s t : State) : Prop := t.flight = s.flight ∨ t.flight = s.flight.map Flight.detach

theorem FlightKept.none {s t : State} (h : s.FlightKept t) (hf : s.flight = none) : t.flight = none := by
  rcases h with h | h <;> simp [h, hf]

theorem thirdPassEnd_flightKept (s : State) : s.FlightKept s.thirdPassEnd := by
  unfold thirdPassEnd
  split
  · exact .inl (by simp)
  · exact .inr (by simp)

theorem askAbandoned_flightKept (s : State) : s.FlightKept s.askAbandoned := by
  unfold askAbandoned
  split
  next =>
    dsimp only
    split
    · exact .inl (by simp)
    · exact thirdPassEnd_flightKept _
  next => exact .inl rfl

theorem windowExpiry_flightKept (s : State) : s.FlightKept s.windowExpiry := by
  unfold windowExpiry
  split
  next => exact .inl rfl
  next =>
    dsimp only
    split
    · exact .inl (by simp)
    · exact thirdPassEnd_flightKept _

theorem stationAbandoned_flightKept (s : State) (g : StationFrame) : s.FlightKept (s.stationAbandoned g) := by
  cases g with
  | join => exact .inr (by simp [stationAbandoned])
  | leave => exact .inl (by simp [stationAbandoned])
  | ask a b => exact s.askAbandoned_flightKept

theorem countStationAttempt_flightKept (s : State) : s.FlightKept s.countStationAttempt := by
  unfold countStationAttempt
  split
  next o _ =>
    split_ifs
    · exact .inl (by simp)
    · exact .inl rfl
    · exact stationAbandoned_flightKept { s with stationSlot := Option.none } o.frame
  next => exact .inl (by simp)

/-- An attempt that ends spoiled leaves no frame of this station on the line (R41). -/
@[simp] theorem flight_spoilAttempt (s : State) : s.spoilAttempt.flight = none := by
  unfold spoilAttempt
  split
  next h => exact h
  next f _ =>
    dsimp only
    split
    next => split_ifs <;> simp
    next =>
      split
      · exact (countStationAttempt_flightKept _).none rfl
      · simp
    next => split_ifs <;> simp

@[simp] theorem flight_takeOut (s : State) (f : Flight) : (s.takeOut f).flight = none := by
  unfold takeOut
  dsimp only
  repeat' split
  all_goals simp

/-- Every frame on the line has a layout and bears this station's number (R32, R39). -/
def FlightOk (s : State) : Prop := ∀ f, s.flight = some f → f.frame.body.wf ∧ f.frame.sender = s.stationNumber

theorem flightOk_of_none {s : State} (h : s.flight = none) : s.FlightOk := fun f hf => by simp [h] at hf

theorem FlightOk.congr {s t : State} (h : s.FlightOk) (hflight : t.flight = s.flight := by simp)
    (hnumber : t.stationNumber = s.stationNumber := by simp) : t.FlightOk := by
  unfold FlightOk
  rw [hflight, hnumber]
  exact h

theorem FlightOk.of_kept {s t : State} (h : s.FlightOk) (hkept : s.FlightKept t)
    (hnumber : t.stationNumber = s.stationNumber := by simp) : t.FlightOk := by
  rcases hkept with hsame | hdetached
  · exact h.congr hsame hnumber
  · intro f hf
    rw [hdetached, Option.map_eq_some_iff] at hf
    obtain ⟨g, hg, rfl⟩ := hf
    rw [hnumber]
    exact h g hg

theorem FlightOk.of_move {s t : State} (h : s.FlightOk) (hmove : LineMove s t) : t.FlightOk := by
  cases hmove with
  | count _ _ | settle | peer f b _ _ _ | join _ => exact h.congr
  | streak n _ => exact h.congr rfl rfl
  | differ =>
    intro f hf
    obtain ⟨g, hg, rfl⟩ := Option.map_eq_some_iff.1 hf
    exact h g hg
  | lose | spoilAttempt _ | own f _ _ => exact flightOk_of_none (by simp)
  | drift _ | silent _ => exact flightOk_of_none rfl
  | halt hf => exact flightOk_of_none (by simp [hf])

/-! ## Joining in (R31) -/

theorem regionBytes_length (s : State) (r : RegionNo) (k n : Nat) : (s.regionBytes r k n).length = n :=
  Memory.readBytes_length s.area n _

/-- The body a slot offers is that of the frame it holds, or an IMAGE of a whole region. -/
theorem slotBody_wf {s : State} (h : OffersMeet FrameBody.wf (fun _ => True) s) {x : SlotId} {b : FrameBody}
    (hb : s.slotBody x = some b) : b.wf := by
  cases x with
  | lane l =>
    obtain ⟨o, ho, rfl⟩ := Option.map_eq_some_iff.1 hb
    exact (h.lane l o ho).1
  | station =>
    obtain ⟨o, ho, rfl⟩ := Option.map_eq_some_iff.1 hb
    exact (h.station o ho).1
  | image =>
    obtain ⟨o, ho, rfl⟩ := Option.map_eq_some_iff.1 hb
    exact s.regionBytes_length o.region 0 128

theorem joinIn_cases (s : State) :
    s.joinIn = s ∨ ∃ x b, s.arbiterChoice = some x ∧ s.slotBody x = some b ∧
      s.joinIn = { s.markOnLine x with
        flight := some { slot := x, frame := { sender := s.stationNumber, body := b }, attached := true
                         differed := false } } := by
  unfold joinIn
  split
  next x hx =>
    split
    next b hb => exact .inr ⟨x, b, hx, hb, rfl⟩
    next => exact .inl rfl
  next => exact .inl rfl

/-- A start edge brings no frame on the line but the one this station joins in with. -/
theorem startEdge_cases (s : State) :
    s.startEdge = s ∨ (s.phase = .counting ∨ s.phase = .accessOpen) ∧
      (s.startEdge = { s with phase := .inFrame } ∨
        s.listening = true ∧ s.startEdge = ({ s with phase := .inFrame } : State).joinIn) := by
  unfold startEdge
  split
  case h_1 hp | h_2 hp =>
    right
    refine ⟨by simp [hp], ?_⟩
    split
    next hl => exact .inr ⟨hl, rfl⟩
    next => exact .inl rfl
  case h_3 | h_4 => exact .inl rfl

theorem FlightOk.startEdge {s : State} (h : s.FlightOk) (ho : OffersMeet FrameBody.wf (fun _ => True) s) :
    s.startEdge.FlightOk := by
  rcases s.startEdge_cases with heq | ⟨-, heq | ⟨-, heq⟩⟩
  · rw [heq]; exact h
  · rw [heq]; exact h.congr rfl rfl
  · rw [heq]
    rcases joinIn_cases { s with phase := .inFrame } with heq | ⟨x, b, -, hb, heq⟩
    · rw [heq]; exact h.congr rfl rfl
    · rw [heq]
      intro f hf
      cases hf
      exact ⟨slotBody_wf (s := { s with phase := .inFrame }) (ho.congr rfl rfl rfl rfl) hb, by simp⟩

theorem rejoin_flightKept (s : State) : s.FlightKept s.rejoin := by
  unfold rejoin
  split
  case h_1 | h_2 | h_3 => exact .inr (by simp [driftFlush_fields])
  case h_4 | h_5 | h_6 => exact .inl (by simp)

/-- A frame of a lane on the line, once LEAVE has emptied the lane slots, belongs to no lane; another stays with its
slot (R50, R86). -/
theorem flight_dropLaneFrames (s : State) :
    s.dropLaneFrames.flight =
      s.flight.map fun f => { f with attached := f.attached && decide (∀ l, f.slot ≠ .lane l) } := by
  unfold dropLaneFrames
  refine Option.map_congr fun f _ => ?_
  obtain ⟨slot, frame, attached, differed⟩ := f
  cases slot <;> simp [Flight.detach]

theorem flight_leave (s : State) :
    s.leave.flight = s.flight ∨
      s.leave.flight = s.flight.map fun f => { f with attached := f.attached && decide (∀ l, f.slot ≠ .lane l) } := by
  unfold leave
  split
  case h_1 | h_2 => exact .inr (by simpa using s.detachLanes.flight_dropLaneFrames)
  case h_3 | h_4 | h_5 | h_6 => exact .inl (by simp)

theorem FlightOk.leave {s : State} (h : s.FlightOk) : s.leave.FlightOk := by
  rcases s.flight_leave with heq | heq
  · exact h.congr heq
  · intro f hf
    rw [heq, Option.map_eq_some_iff] at hf
    obtain ⟨g, hg, rfl⟩ := hf
    simpa using h g hg

theorem FlightOk.of_leaves {s t : State} (h : s.FlightOk) (ho : OffersMeet FrameBody.wf (fun _ => True) s)
    (hleft : Leaves s t) : t.FlightOk := by
  have hpath : ∀ {u}, LineMoves s u → u.FlightOk := fun hp => hp.keeps (P := FlightOk) (fun _ _ => FlightOk.of_move) h
  cases hleft with
  | same => exact h
  | rejoin => exact h.of_kept s.rejoin_flightKept
  | leave => exact h.leave
  | configure | stop | start | setGuards b | watchArm | watchDisarm | unknown | popHead | accessOpening
  | waitTimeout l | entryTake l => exact h.congr
  | staging w v hw | chain w v hw | params a b c d => exact h.congr rfl rfl
  | softReset n x | pinReset => exact flightOk_of_none rfl
  | pinResetEnd x =>
    unfold pinResetEnd
    split
    · exact flightOk_of_none rfl
    · exact h
  | startEdge => exact h.startEdge ho
  | arbitrationLost => exact hpath s.arbitrationLost_moves
  | framingBreak _ => exact hpath framingBreak_moves
  | spoiledFrameEnd b _ => exact hpath (s.spoiledFrameEnd_moves b)
  | carriedFrameEnd b _ => exact hpath (s.carriedFrameEnd_moves b)
  | windowExpiry => exact (h.of_kept s.windowExpiry_flightKept).congr
  | readbackDifference => exact h.of_move .differ

theorem framesOk_iff {s : State} : s.FramesOk ↔ OffersMeet FrameBody.wf (fun _ => True) s ∧ s.FlightOk := by
  refine ⟨fun ⟨hlane, hstation, hnext, hflight⟩ => ⟨⟨?_, ?_, hnext, fun _ _ => trivial⟩, hflight⟩,
    fun ⟨hoffers, hflight⟩ => ⟨?_, ?_, hoffers.next, hflight⟩⟩
  · exact fun l o ho => ⟨hlane l o ho, trivial⟩
  · exact fun o ho => ⟨hstation o ho, trivial⟩
  · exact fun l o ho => (hoffers.lane l o ho).1
  · exact fun o ho => (hoffers.station o ho).1

theorem wf_offerBounds : OfferBounds FrameBody.wf fun _ => True :=
  ⟨fun _ => id, trivial, fun _ _ _ => trivial⟩

theorem FramesOk.of_move {s t : State} (h : s.FramesOk) (hmove : LineMove s t) : t.FramesOk :=
  let ⟨ho, hf⟩ := framesOk_iff.1 h
  framesOk_iff.2 ⟨ho.of_move wf_offerBounds hmove, hf.of_move hmove⟩

theorem FramesOk.of_leaves {s t : State} (h : s.FramesOk) (hleft : Leaves s t) : t.FramesOk :=
  let ⟨ho, hf⟩ := framesOk_iff.1 h
  framesOk_iff.2 ⟨ho.of_leaves wf_offerBounds hleft, hf.of_leaves ho hleft⟩

/-! ## The shared area (R1) -/

/-- The shared area is canonical and ends with region 127. -/
def AreaOk (s : State) : Prop := s.area.wf ∧ s.area.below 16384

theorem AreaOk.congr {s t : State} (h : s.AreaOk) (harea : t.area = s.area := by simp) : t.AreaOk := by
  unfold AreaOk
  rw [harea]
  exact h

theorem AreaOk.writeRegionBytes {s : State} (h : s.AreaOk) (r : RegionNo) {k : Nat} {d : List Byte}
    (hd : k + d.length ≤ 128) : (s.writeRegionBytes r k d).AreaOk := by
  obtain ⟨hwf, hbelow⟩ := h
  have hr : r.val < 128 := r.isLt
  exact ⟨Memory.writeBytes_wf d _ hwf _, Memory.writeBytes_below d _ hbelow _ (by omega)⟩

theorem AreaOk.applyUpdate {s : State} (h : s.AreaOk) (x : Station) (r : RegionNo) {k : Nat} {d : List Byte}
    (hd : k + d.length ≤ 128) : (s.applyUpdate x r k d).AreaOk := by
  unfold State.applyUpdate
  split
  · exact (h.writeRegionBytes r hd).congr
  · exact h

theorem AreaOk.installImage {s : State} (h : s.AreaOk) (r : RegionNo) (o : Option Station) (c : Word)
    {d : List Byte} (hd : d.length = 128) : (s.installImage r o c d).AreaOk :=
  (h.writeRegionBytes r (k := 0) (d := d) (by omega)).congr (by simp [State.installImage])

theorem AreaOk.takeImage {s : State} (h : s.AreaOk) (r : RegionNo) (o : Option Station) (c : Word)
    {d : List Byte} (hd : d.length = 128) : (s.takeImage r o c d).AreaOk := by
  unfold State.takeImage
  split
  · exact (h.installImage r o c hd).congr
  · exact h.congr

theorem AreaOk.fillRegions {z : List Byte} (hz : z.length ≤ 128) (rs : List RegionNo) {s : State} (h : s.AreaOk) :
    (rs.foldl (fun t r => t.writeRegionBytes r 0 z) s).AreaOk := by
  induction rs generalizing s with
  | nil => exact h
  | cons r rs ih =>
    rw [List.foldl_cons]
    exact ih (h.writeRegionBytes r (by omega))

theorem AreaOk.declareOrphans {s : State} (h : s.AreaOk) : s.declareOrphans.AreaOk := by
  refine (AreaOk.fillRegions (z := List.replicate 128 0) (by rw [List.length_replicate]) s.refreshing h).congr ?_
  unfold State.declareOrphans
  rw [foldl_keeps State.area]
  · simp
  · simp

theorem AreaOk.thirdPassEnd {s : State} (h : s.AreaOk) : s.thirdPassEnd.AreaOk := by
  unfold State.thirdPassEnd
  split
  · exact h.declareOrphans.congr
  · exact h.congr

theorem AreaOk.askAbandoned {s : State} (h : s.AreaOk) : s.askAbandoned.AreaOk := by
  unfold State.askAbandoned
  split
  next =>
    dsimp only
    split
    · exact h.congr
    · exact AreaOk.thirdPassEnd h.congr
  next => exact h

theorem AreaOk.windowExpiry {s : State} (h : s.AreaOk) : s.windowExpiry.AreaOk := by
  unfold State.windowExpiry
  split
  next => exact h
  next =>
    dsimp only
    split
    · exact h.congr
    · exact AreaOk.thirdPassEnd h.congr

theorem AreaOk.countStationAttempt {s : State} (h : s.AreaOk) : s.countStationAttempt.AreaOk := by
  unfold State.countStationAttempt
  split
  next o _ =>
    split_ifs
    · exact h.congr
    · exact h.congr
    · cases o.frame with
      | join => exact h.congr (by simp [stationAbandoned])
      | leave => exact h.congr (by simp [stationAbandoned])
      | ask a b => exact AreaOk.askAbandoned (s := { s with stationSlot := none }) h.congr
  next => exact h.congr

theorem AreaOk.spoilAttempt {s : State} (h : s.AreaOk) : s.spoilAttempt.AreaOk := by
  unfold State.spoilAttempt
  split
  next => exact h
  next f _ =>
    dsimp only
    split
    next => split_ifs <;> exact h.congr
    next =>
      split
      · exact AreaOk.countStationAttempt h.congr
      · exact h.congr
    next => split_ifs <;> exact h.congr

theorem AreaOk.applyPeer {s : State} (h : s.AreaOk) {f : Frame} (hf : f.body.wf) : (s.applyPeer f).AreaOk := by
  unfold State.applyPeer
  split
  case h_6 r o c d hbody => rw [hbody] at hf; exact h.takeImage r o c hf
  case h_7 r k d hbody => rw [hbody] at hf; exact h.applyUpdate f.sender r hf.2
  case h_1 | h_2 | h_3 | h_4 | h_5 => exact h.congr

theorem AreaOk.applyOwn {s : State} (h : s.AreaOk) {f : Flight} (hf : f.frame.body.wf) : (s.applyOwn f).AreaOk := by
  unfold State.applyOwn
  split
  case h_4 r o c d hbody => rw [hbody] at hf; exact h.takeImage r o c hf
  case h_7 r k d hbody => rw [hbody] at hf; exact (h.applyUpdate f.frame.sender r hf.2).congr
  case h_5 | h_6 => exact h.congr
  case h_1 | h_2 | h_3 => split <;> exact h.congr

end State

/-- A frame that the receiver's check lets pass has fields its layout can hold (R38, R39). -/
theorem wf_of_parseBody {kind : Nat} {body : List Byte} {b : FrameBody} (h : parseBody kind body = some b) : b.wf := by
  unfold parseBody at h
  split at h
  case h_1 | h_2 | h_3 | h_4 => cases h; exact trivial
  case h_5 first count =>
    split at h
    next hle => cases h; exact ⟨by omega, hle⟩
    next => cases h
  case h_6 r o hi lo data =>
    split at h
    next hlen => cases h; exact hlen
    next => cases h
  case h_7 r k n data =>
    split at h
    next hle =>
      cases h
      obtain ⟨hlen, hend⟩ := hle
      exact ⟨by omega, by omega⟩
    next => cases h
  case h_8 => cases h

theorem wf_of_checkFrame {bytes : List Byte} {f : Frame} (h : checkFrame bytes = some f) : f.body.wf := by
  unfold checkFrame at h
  dsimp only at h
  split at h
  next => cases h
  next =>
    split at h
    next =>
      split at h
      next =>
        split at h
        next b hb =>
          split at h
          next => cases h; exact wf_of_parseBody hb
          next => cases h
        next => cases h
      next => cases h
    next => cases h

namespace State

theorem AreaOk.of_move {s t : State} (h : s.AreaOk) (hframes : s.FramesOk) (hmove : LineMove s t) : t.AreaOk := by
  cases hmove with
  | count _ _ | settle | lose | differ | halt _ | join _ => exact h.congr
  | streak n _ | silent _ => exact h.congr rfl
  | drift _ => exact h.congr
  | spoilAttempt _ => exact h.spoilAttempt
  | peer f b hb _ _ => exact h.applyPeer (wf_of_checkFrame hb)
  | own f _ hf =>
    obtain ⟨-, -, -, hflight⟩ := hframes
    exact AreaOk.applyOwn h.congr (hflight f hf).1

theorem area_and_frames_of_moves {s t : State} (h : s.AreaOk) (hframes : s.FramesOk) (hpath : LineMoves s t) :
    t.AreaOk :=
  (hpath.keeps (P := fun u => u.AreaOk ∧ u.FramesOk)
    (fun _ _ ⟨ha, hf⟩ hmove => ⟨ha.of_move hf hmove, hf.of_move hmove⟩) ⟨h, hframes⟩).1

theorem areaOk_reset : State.reset.AreaOk := by
  refine ⟨⟨List.Pairwise.nil, ?_⟩, ?_⟩ <;> exact fun _ hc => absurd hc List.not_mem_nil

theorem AreaOk.of_leaves {s t : State} (h : s.AreaOk) (hframes : s.FramesOk) (hleft : Leaves s t) : t.AreaOk := by
  cases hleft with
  | same => exact h
  | configure | rejoin | leave | start | stop | setGuards b | watchArm | watchDisarm | unknown | popHead
  | accessOpening | startEdge | waitTimeout l | entryTake l | readbackDifference => exact h.congr
  | staging w v hw | chain w v hw | params a b c d => exact h.congr rfl
  | softReset n x | pinReset => exact areaOk_reset.congr rfl
  | pinResetEnd x =>
    unfold pinResetEnd
    split
    · exact areaOk_reset.congr rfl
    · exact h
  | arbitrationLost => exact area_and_frames_of_moves h hframes s.arbitrationLost_moves
  | framingBreak _ => exact area_and_frames_of_moves h hframes framingBreak_moves
  | spoiledFrameEnd b _ => exact area_and_frames_of_moves h hframes (s.spoiledFrameEnd_moves b)
  | carriedFrameEnd b _ => exact area_and_frames_of_moves h hframes (s.carriedFrameEnd_moves b)
  | windowExpiry => exact h.windowExpiry.congr

end State

end Sys2Proof.Machine
end

section
/-! PROOFS. The staging buffer and the chain store, and O58: every step keeps the stores canonical and the frames within
their layouts. -/

namespace Sys2Proof.Machine

set_option Elab.async false -- as in Tests/Slice0.lean: fewer threads, within the check's memory limit

/-- Every segment of a group that is read lies in the staging buffer (R101). -/
theorem segs_of_readParts {m : Memory} {k : EntryKind} (hk : k = .put ∨ k = .get) (off : Nat) {fuel : Nat}
    {later : Bool} {p : Index} {passed : Nat} {g g' : Group} (hg : ∀ c ∈ g.segs, c.1 + c.2 ≤ 4096)
    (h : Entry.readParts m k off fuel later p passed g = .ok g') : ∀ c ∈ g'.segs, c.1 + c.2 ≤ 4096 := by
  induction fuel generalizing later p passed g with
  | zero => cases h
  | succ fuel ih =>
    unfold Entry.readParts at h
    split at h
    next => cases h
    next hpart =>
      have hadd : ∀ c ∈ (Entry.addPart m g p passed).segs, c.1 + c.2 ≤ 4096 := by
        intro c hc
        rcases List.mem_append.1 hc with hc | hc
        · exact hg c hc
        · rw [List.mem_singleton.1 hc]
          exact (State.part_bounds m k hk _ _ _ _ hpart).2.1
      split at h
      next =>
        split at h
        next => cases h
        next => exact ih hadd h
      next => cases h; exact hadd

/-- A store in canonical form that holds nothing from address `n` on. -/
def Memory.Fits (n : Nat) (m : Memory) : Prop := m.wf ∧ m.below n

theorem Memory.Fits.nil (n : Nat) : Memory.Fits n [] := by
  refine ⟨⟨List.Pairwise.nil, ?_⟩, ?_⟩ <;> exact fun _ hc => absurd hc List.not_mem_nil

theorem Memory.Fits.writeWord {n : Nat} {m : Memory} (h : m.Fits n) {w : Nat} (hw : 2 * w + 1 < n) (v : Word) :
    (m.writeWord w v).Fits n :=
  ⟨Memory.writeWord_wf m h.1 w v, Memory.writeWord_below h.2 hw v⟩

theorem Memory.Fits.writeBytes {n : Nat} {m : Memory} (h : m.Fits n) {a : Nat} {d : List Byte}
    (hd : a + d.length ≤ n) : (m.writeBytes a d).Fits n :=
  ⟨Memory.writeBytes_wf d m h.1 a, Memory.writeBytes_below d m h.2 a hd⟩

theorem Memory.Fits.scatter {n : Nat} (area : Memory) {segs : List (Nat × Nat)} (hsegs : ∀ c ∈ segs, c.1 + c.2 ≤ n)
    {a : Nat} {m : Memory} (h : m.Fits n) : (State.scatter area a segs m).Fits n := by
  induction segs generalizing a m with
  | nil => exact h
  | cons c segs ih =>
    have hwritten : (m.writeBytes c.1 (area.readBytes a c.2)).Fits n :=
      h.writeBytes (by rw [Memory.readBytes_length]; exact hsegs c List.mem_cons_self)
    exact ih (fun d hd => hsegs d (List.mem_cons_of_mem _ hd)) hwritten

namespace State

theorem staging_getAction {s : State} (h : s.staging.Fits 4096) (l : LaneNo) (r : RegionNo) (k : Nat) {g : Group}
    (hsegs : ∀ c ∈ g.segs, c.1 + c.2 ≤ 4096) : (s.getAction l r k g).staging.Fits 4096 := by
  unfold getAction
  split
  · simpa using h
  · simpa using h.scatter s.area hsegs

theorem staging_takeEntry {s : State} (h : s.staging.Fits 4096) (l : LaneNo) :
    (s.takeEntry l).staging.Fits 4096 := by
  unfold takeEntry takeTransfer takeSingle
  dsimp only
  split
  case h_3 =>
    split
    next => simpa using h
    next g hg =>
      refine staging_getAction ?_ l _ _ (segs_of_readParts (.inr rfl) _ (by simp) hg)
      simpa using h
  case h_1 | h_7 => simpa using h
  case h_2 | h_4 | h_5 | h_6 => split <;> simpa using h

/-- A move of the line unit touches neither the staging buffer nor the chain store. -/
theorem stores_of_moves {s t : State} (hpath : LineMoves s t) : t.staging = s.staging ∧ t.chain = s.chain := by
  induction hpath with
  | refl => exact ⟨rfl, rfl⟩
  | tail _ hmove ih =>
    obtain ⟨hstaging, hchain⟩ := ih
    rw [← hstaging, ← hchain]
    cases hmove with
    | count _ _ | settle | lose | differ | spoilAttempt _ | peer f b _ _ _ | own f _ _ | halt _ | join _ => simp
    | streak n _ | silent _ => exact ⟨rfl, rfl⟩
    | drift _ => exact ⟨by simp, by simp⟩

theorem staging_of_leaves {s t : State} (h : s.staging.Fits 4096) (hleft : Leaves s t) : t.staging.Fits 4096 := by
  cases hleft with
  | same | softReset n x | chain w v hw | params a b c d => exact h
  | staging w v hw => exact h.writeWord (by omega) v
  | configure | rejoin | leave | start | stop | setGuards b | watchArm | watchDisarm | unknown | popHead
  | accessOpening | startEdge | waitTimeout l | readbackDifference | arbitrationLost | framingBreak _
  | spoiledFrameEnd b _ | carriedFrameEnd b _ | windowExpiry => simpa using h
  | pinReset => exact .nil 4096
  | pinResetEnd x =>
    unfold pinResetEnd
    split
    · exact .nil 4096
    · exact h
  | entryTake l =>
    unfold entryTake
    split
    · simpa using staging_takeEntry h l
    · exact h

theorem chain_of_leaves {s t : State} (h : s.chain.Fits 4096) (hleft : Leaves s t) : t.chain.Fits 4096 := by
  cases hleft with
  | same | softReset n x | staging w v hw | params a b c d => exact h
  | chain w v hw => exact h.writeWord (by omega) v
  | configure | rejoin | leave | start | stop | setGuards b | watchArm | watchDisarm | unknown | popHead
  | accessOpening | startEdge | waitTimeout l | readbackDifference | arbitrationLost | framingBreak _
  | spoiledFrameEnd b _ | carriedFrameEnd b _ | windowExpiry | entryTake l => simpa using h
  | pinReset => exact .nil 4096
  | pinResetEnd x =>
    unfold pinResetEnd
    split
    · exact .nil 4096
    · exact h

theorem storesOk_iff {s : State} :
    s.StoresOk ↔ s.AreaOk ∧ s.staging.Fits 4096 ∧ s.chain.Fits 4096 := by
  simp only [StoresOk, AreaOk, Memory.Fits, and_assoc]

theorem storesAndFrames_of_leaves {s t : State} (h : s.StoresOk ∧ s.FramesOk) (hleft : Leaves s t) :
    t.StoresOk ∧ t.FramesOk := by
  obtain ⟨hstores, hframes⟩ := h
  obtain ⟨harea, hstaging, hchain⟩ := storesOk_iff.1 hstores
  exact ⟨storesOk_iff.2 ⟨harea.of_leaves hframes hleft, staging_of_leaves hstaging hleft,
    chain_of_leaves hchain hleft⟩, hframes.of_leaves hleft⟩

theorem storesAndFrames_tick {s : State} (h : s.StoresOk ∧ s.FramesOk) : s.tick.StoresOk ∧ s.tick.FramesOk := by
  obtain ⟨hstores, hframes⟩ := h
  obtain ⟨hoffers, hflight⟩ := framesOk_iff.1 hframes
  exact ⟨by simpa [StoresOk] using hstores, framesOk_iff.2 ⟨hoffers.congr, hflight.congr⟩⟩

end State

/-- Settles O58: the stores and the frames through every state a command can leave; the frames matter to the stores,
since a carried UPDATE or IMAGE is written into the area as long as its layout lets it be. -/
theorem stepsKeepStoresAndFramesInOrder : Obligations.StepsKeepStoresAndFramesInOrder :=
  fun _ _ hstores hframes hstep =>
  step_keeps (P := fun u => u.StoresOk ∧ u.FramesOk) (fun _ => State.storesAndFrames_tick) (fun _ _ h => h)
    (fun _ _ => State.storesAndFrames_of_leaves) ⟨hstores, hframes⟩ hstep

end Sys2Proof.Machine
end

section
/-! PROOFS. The completion queue, the spoil streak and the attempt counts: every step keeps them within their bounds,
and a producer waits only for a full queue (R46, R147, R152). -/

namespace Sys2Proof.Machine

set_option Elab.async false -- as in Tests/Slice0.lean: fewer threads, within the check's memory limit

namespace State

/-! ## What makes a producer wait -/

theorem isWaiting_congr {s t : State} (hevents : t.events = s.events := by simp) (hlost : t.lost = s.lost := by simp)
    (hlanes : t.lanes = s.lanes := by simp) (hwatches : t.watches = s.watches := by simp) (p : Producer) :
    t.isWaiting p = s.isWaiting p := by
  rw [Bool.eq_iff_iff]
  cases p with
  | event k => rw [isWaiting_event, isWaiting_event, hevents]
  | lost r => simp only [isWaiting_lost, lostOwner, hlost]
  | chainEnd l => simp only [isWaiting_chainEnd, lane, hlanes]
  | note l => simp only [isWaiting_note, lane, hlanes]
  | watch w => simp only [isWaiting_watch, watch, hwatches]

/-- No producer waits in `t` that did not wait in `s`, where the lanes alone differ. -/
theorem isWaiting_of_lanes {s t : State} (hevents : t.events = s.events := by simp) (hlost : t.lost = s.lost := by simp)
    (hwatches : t.watches = s.watches := by simp)
    (hend : ∀ l, (t.lane l).state = .holding → (t.lane l).held.isSome = true →
      (s.lane l).state = .holding ∧ (s.lane l).held.isSome = true)
    (hnote : ∀ l, (t.lane l).note.isSome = true → (s.lane l).note.isSome = true) (p : Producer)
    (h : t.isWaiting p = true) : s.isWaiting p = true := by
  cases p with
  | event k => rwa [isWaiting_event, ← hevents, ← isWaiting_event]
  | lost r => simpa only [isWaiting_lost, lostOwner, hlost] using h
  | chainEnd l =>
    rw [isWaiting_chainEnd] at h ⊢
    exact hend l h.1 h.2
  | note l =>
    rw [isWaiting_note] at h ⊢
    exact hnote l h
  | watch w => simpa only [isWaiting_watch, watch, hwatches] using h

theorem queueOk_iff {s : State} :
    s.QueueOk ↔ s.queue.length ≤ 32 ∧ ∀ p, s.isWaiting p = true → s.queue.length = 32 := by
  unfold QueueOk
  refine and_congr_right fun _ => ⟨fun h p hp => h (List.ne_nil_of_mem ((mem_waiting s p).2 hp)), fun h hw => ?_⟩
  obtain ⟨p, hp⟩ := List.exists_mem_of_ne_nil _ hw
  exact h p ((mem_waiting s p).1 hp)

/-- The queue as it was, and no new producer waiting. -/
theorem QueueOk.of_quiet {s t : State} (h : s.QueueOk) (hwaiting : ∀ p, t.isWaiting p = true → s.isWaiting p = true)
    (hqueue : t.queue = s.queue := by simp) : t.QueueOk := by
  rw [queueOk_iff, hqueue]
  obtain ⟨hlen, hfull⟩ := queueOk_iff.1 h
  exact ⟨hlen, fun p hp => hfull p (hwaiting p hp)⟩

theorem QueueOk.congr {s t : State} (h : s.QueueOk) (hqueue : t.queue = s.queue := by simp)
    (hevents : t.events = s.events := by simp) (hlost : t.lost = s.lost := by simp)
    (hlanes : t.lanes = s.lanes := by simp) (hwatches : t.watches = s.watches := by simp) : t.QueueOk :=
  h.of_quiet (fun p hp => isWaiting_congr hevents hlost hlanes hwatches p ▸ hp) hqueue

/-- After the records of an event are handed over a producer waits only for a full queue (R152). -/
theorem queueOk_settle {s : State} (h : s.queue.length ≤ 32) : s.settle.QueueOk := by
  have hlen := s.settle_length h
  refine ⟨hlen, fun hwait => ?_⟩
  by_contra hne
  exact hwait (s.settle_complete (by omega))

/-! ## The length of the queue -/

theorem length_handNotes {s : State} (h : s.queue.length ≤ 32) (l : LaneNo) (x : Option (Index × Word)) (n : Nat) :
    (s.handNotes l x n).queue.length ≤ 32 := by
  unfold handNotes handNote
  repeat' split
  · exact length_offer_le _ _ (by simpa using h)
  · simpa using h
  · exact h

theorem length_applyClaim {s : State} (h : s.queue.length ≤ 32) (x : Station) (b : Bool) (r : RegionNo) :
    (s.applyClaim x b r).queue.length ≤ 32 := by
  have hlost : (s.loseOwnership r x).queue.length ≤ 32 := length_offer_le _ _ (by simpa using h)
  unfold applyClaim
  repeat' split
  case h_2.isFalse.isTrue.isTrue => simpa using hlost
  all_goals simpa using h

theorem length_driftFlush {s : State} (h : s.queue.length ≤ 32) : s.driftFlush.queue.length ≤ 32 :=
  settle_length _ (by simpa using h)

theorem queueOk_adriftEntry {s : State} (h : s.queue.length ≤ 32) (c : DriftCause) : (s.adriftEntry c).QueueOk :=
  queueOk_settle (by simpa using length_driftFlush h)

theorem queueOk_haltedEntry {s : State} (h : s.queue.length ≤ 32) : s.haltedEntry.QueueOk :=
  queueOk_settle (by simpa using length_driftFlush h)

theorem length_thirdPassEnd {s : State} (h : s.queue.length ≤ 32) : s.thirdPassEnd.queue.length ≤ 32 := by
  unfold thirdPassEnd
  split
  · simpa using h
  · exact (queueOk_adriftEntry h _).1

theorem length_askAbandoned {s : State} (h : s.queue.length ≤ 32) : s.askAbandoned.queue.length ≤ 32 := by
  unfold askAbandoned
  split
  next =>
    dsimp only
    split
    · simpa using h
    · exact length_thirdPassEnd h
  next => exact h

theorem length_windowExpiry {s : State} (h : s.queue.length ≤ 32) : s.windowExpiry.queue.length ≤ 32 := by
  unfold windowExpiry
  split
  next => exact h
  next =>
    dsimp only
    split
    · simpa using h
    · exact length_thirdPassEnd h

theorem length_stationAbandoned {s : State} (h : s.queue.length ≤ 32) (g : StationFrame) :
    (s.stationAbandoned g).queue.length ≤ 32 := by
  cases g with
  | join => exact (queueOk_adriftEntry h _).1
  | leave => simpa [stationAbandoned] using h
  | ask a b => exact length_askAbandoned h

theorem length_countStationAttempt {s : State} (h : s.queue.length ≤ 32) : s.countStationAttempt.queue.length ≤ 32 := by
  unfold countStationAttempt
  split
  next o _ =>
    split_ifs
    · simpa using h
    · exact h
    · exact length_stationAbandoned (s := { s with stationSlot := none }) h _
  next => simpa using h

theorem length_spoilAttempt {s : State} (h : s.queue.length ≤ 32) : s.spoilAttempt.queue.length ≤ 32 := by
  unfold spoilAttempt
  split
  next => exact h
  next f _ =>
    dsimp only
    split
    next => split_ifs <;> simpa using h
    next =>
      split
      · exact length_countStationAttempt h
      · simpa using h
    next => split_ifs <;> simpa using h

theorem length_applyPeer {s : State} (h : s.queue.length ≤ 32) (f : Frame) : (s.applyPeer f).queue.length ≤ 32 := by
  unfold applyPeer
  split
  case h_3 => exact length_applyClaim h _ _ _
  case h_1 | h_2 | h_4 | h_5 | h_6 | h_7 => simpa using h

theorem length_applyOwn {s : State} (h : s.queue.length ≤ 32) (f : Flight) : (s.applyOwn f).queue.length ≤ 32 := by
  unfold applyOwn
  split
  case h_5 => simpa using length_applyClaim h _ _ _
  case h_1 | h_2 | h_3 => split <;> simpa using h
  case h_4 | h_6 | h_7 => simpa using h

theorem length_of_move {s t : State} (h : s.queue.length ≤ 32) (hmove : LineMove s t) : t.queue.length ≤ 32 := by
  cases hmove with
  | count _ _ | lose | differ | join _ => simpa using h
  | streak n _ | silent _ => exact h
  | settle => exact settle_length s h
  | spoilAttempt _ => exact length_spoilAttempt h
  | drift _ => exact (queueOk_adriftEntry h .streak).1
  | peer f b _ _ _ => exact length_applyPeer h f
  | own f _ _ => exact length_applyOwn (by simpa using h) f
  | halt _ => exact (queueOk_haltedEntry h).1

theorem length_of_moves {s t : State} (h : s.queue.length ≤ 32) (hpath : LineMoves s t) : t.queue.length ≤ 32 :=
  hpath.keeps (P := fun u => u.queue.length ≤ 32) (fun _ _ => length_of_move) h

theorem length_takeEntry {s : State} (h : s.queue.length ≤ 32) (l : LaneNo) : (s.takeEntry l).queue.length ≤ 32 := by
  have hnotes : ∀ (u : State) x n, u.queue = s.queue → (u.handNotes l x n).queue.length ≤ 32 :=
    fun u x n hu => length_handNotes (hu ▸ h) l x n
  unfold takeEntry takeTransfer takeSingle
  dsimp only
  split
  case h_1 | h_7 => simpa using h
  case h_2 | h_3 =>
    split
    next => simpa using h
    next => simpa using hnotes _ _ _ (by simp)
  case h_4 | h_5 | h_6 =>
    split
    next => simpa using hnotes _ _ _ (by simp)
    next => simpa using h

theorem queueOk_carriedFromPeer {s : State} (h : s.queue.length ≤ 32) (f : Frame) : (s.carriedFromPeer f).QueueOk := by
  unfold carriedFromPeer
  split
  · exact queueOk_haltedEntry h
  · exact queueOk_settle (length_applyPeer h f)

/-- One millisecond counts a running deadline down and leaves the rest of a lane (R133). -/
theorem lane_tick (s : State) (l : LaneNo) :
    s.tick.lane l = { s.lane l with deadline := (s.lane l).deadline.map fun n => n - 1 } :=
  lane_mapLanes s (fun _ x => { x with deadline := x.deadline.map fun n => n - 1 }) l

/-! ## The commands -/

theorem state_of_freeLane {s : State} {l : LaneNo} (h : s.freeLane = some l) : (s.lane l).state = .free := by
  unfold freeLane at h
  simpa using List.find?_some h

/-- START is refused, or takes a FREE lane (R128). -/
theorem start_cases (s : State) :
    (∃ a, s.start = s.answer a 0) ∨ ∃ (l : LaneNo) (i : Index) (v : Byte), (s.lane l).state = .free ∧
      s.start = (s.setLane l (startedLane i s.p1)).answer .ok v := by
  unfold start
  split
  next hp0 =>
    split
    case h_1 | h_2 =>
      split
      next l hl => exact .inr ⟨l, ⟨s.p0.toNat, by omega⟩, _, state_of_freeLane hl, rfl⟩
      next => exact .inl ⟨_, rfl⟩
    case h_3 | h_4 | h_5 | h_6 => exact .inl ⟨_, rfl⟩
  next => exact .inl ⟨_, rfl⟩

section Commands

variable {s : State} (h : s.QueueOk)
include h

theorem QueueOk.popHead : s.popHead.QueueOk := by
  cases hqueue : s.queue with
  | nil => rwa [popHead_of_empty hqueue]
  | cons head rest =>
    cases hwait : s.waiting with
    | nil =>
      rw [popHead_of_none_waiting hqueue hwait]
      refine queueOk_iff.2 ⟨?_, fun p hp => ?_⟩
      · obtain ⟨hlen, -⟩ := h
        rw [hqueue, List.length_cons] at hlen
        exact Nat.le_of_succ_le hlen
      · have hp : s.isWaiting p = true := (isWaiting_congr rfl rfl rfl rfl p).symm.trans hp
        rw [← mem_waiting, hwait] at hp
        cases hp
    | cons p others =>
      obtain ⟨hp, -⟩ := waiting_eq_cons_iff.1 ⟨others, hwait⟩
      obtain ⟨rec, hrec⟩ := isWaiting_iff_exists_record.1 hp
      rw [popHead_of_waiting hqueue hwait hrec]
      have hlen := length_refilled_of_queueOk hqueue rec hwait h
      exact ⟨hlen.le, fun _ => hlen⟩

theorem QueueOk.start : s.start.QueueOk := by
  rcases s.start_cases with ⟨a, heq⟩ | ⟨l, i, v, hfree, heq⟩
  · rw [heq]; exact h.congr
  · rw [heq]
    refine h.of_quiet (isWaiting_of_lanes (by simp) (by simp) (by simp) (fun k => ?_) fun k => ?_)
    all_goals
      simp only [answer_access, lane_setLane]
      split
      · simp [startedLane]
      · tauto

theorem QueueOk.settle_answer {u : State} (hu : u.queue = s.queue) (a : Answer) : (u.settle.answer a 0).QueueOk :=
  have hsettled : u.settle.QueueOk := queueOk_settle (by rw [hu]; exact h.1)
  hsettled.congr rfl rfl rfl rfl rfl

theorem QueueOk.stop : s.stop.QueueOk := by
  unfold State.stop
  split
  next =>
    unfold State.stopLane
    split
    case h_1 | h_2 => exact h.congr
    case h_3 | h_4 | h_5 => exact h.settle_answer (by simp) _
    case h_6 =>
      refine h.of_quiet (isWaiting_of_lanes (by simp) (by simp) (by simp) (fun k => ?_) fun k => ?_)
      all_goals
        simp only [answer_access, lane_modifyLane]
        split
        · next hk => subst hk; tauto
        · tauto
  next => exact h.congr

theorem QueueOk.setWatch (w : WatchNo) {x : Watch} (hx : x.state ≠ .pending) : (s.setWatch w x).QueueOk := by
  refine h.of_quiet fun p hp => ?_
  cases p with
  | event | lost | chainEnd | note =>
    simpa only [isWaiting_event, isWaiting_lost, isWaiting_chainEnd, isWaiting_note, setWatch_other,
      setWatch_access] using hp
  | watch v =>
    rw [isWaiting_watch, watch_setWatch] at hp
    split at hp
    · exact absurd hp hx
    · exact (isWaiting_watch s v).2 hp

theorem QueueOk.watchArm : s.watchArm.QueueOk := by
  unfold State.watchArm
  split
  · refine QueueOk.congr (s := s.setWatch _ _) (h.setWatch _ ?_) rfl rfl rfl rfl rfl
    simp
  · exact h.congr

theorem QueueOk.watchDisarm : s.watchDisarm.QueueOk := by
  unfold State.watchDisarm
  split
  · refine QueueOk.congr (s := s.setWatch _ _) (h.setWatch _ ?_) rfl rfl rfl rfl rfl
    simp
  · exact h.congr

theorem QueueOk.startEdge : s.startEdge.QueueOk := by
  have hjoined : ({ s with phase := .inFrame } : State).joinIn.QueueOk := by
    rcases joinIn_cases { s with phase := .inFrame } with heq | ⟨x, b, -, -, heq⟩
    · rw [heq]; exact h.congr
    · rw [heq]
      cases x with
      | station | image => exact h.congr rfl rfl rfl rfl rfl
      | lane l =>
        refine h.of_quiet (isWaiting_of_lanes (by simp) (by simp) (by simp) (fun k => ?_) fun k => ?_)
        all_goals
          simp only [markOnLine, lane, modifyLane, setLane, Vector.getElem_set]
          split
          · simp_all
          · tauto
  rcases s.startEdge_cases with heq | ⟨-, heq | ⟨-, heq⟩⟩
  · rwa [heq]
  · rw [heq]; exact h.congr
  · rwa [heq]

theorem QueueOk.rejoin : s.rejoin.QueueOk := by
  have hflushed : s.driftFlush.QueueOk := queueOk_settle (by simpa using h.1)
  unfold State.rejoin
  split
  case h_1 | h_2 | h_3 => exact hflushed.congr
  case h_4 | h_5 | h_6 => exact h.congr

theorem QueueOk.leave : s.leave.QueueOk := by
  unfold State.leave
  split
  case h_1 | h_2 => exact h.settle_answer (by simp) _
  case h_3 | h_4 | h_5 | h_6 => exact h.congr

theorem QueueOk.waitTimeout (l : LaneNo) : (s.waitTimeout l).QueueOk := by
  unfold State.waitTimeout
  split
  · exact queueOk_settle (by simpa using h.1)
  · exact h

theorem QueueOk.entryTake (l : LaneNo) : (s.entryTake l).QueueOk := by
  unfold State.entryTake
  split
  · exact queueOk_settle (length_takeEntry h.1 l)
  · exact h

theorem QueueOk.arbitrationLost : s.arbitrationLost.QueueOk := by
  unfold State.arbitrationLost
  repeat' split
  · exact h
  · exact queueOk_settle (by simpa using h.1)
  · exact h

theorem QueueOk.framingBreak : s.framingBreak.QueueOk := by
  unfold State.framingBreak
  split
  case h_1 hstate | h_2 hstate | h_3 hstate =>
    have hpath : LineMoves s.countAgain s.countAgain.spoil := spoil_moves (by simp [listening, hstate])
    exact queueOk_settle (length_of_moves (by simpa using h.1) hpath)
  case h_4 | h_5 | h_6 => exact h.congr

theorem QueueOk.spoiledFrameEnd (b : List Byte) : (s.spoiledFrameEnd b).QueueOk := by
  unfold State.spoiledFrameEnd
  split
  case h_1 hstate | h_2 hstate | h_3 hstate =>
    have hpath : LineMoves s ((s.resolveReadback b).spoiledHere b) :=
      (s.resolveReadback_moves b).trans (spoiledHere_moves b (by simp [listening, hstate]))
    exact queueOk_settle (length_of_moves h.1 hpath)
  case h_4 | h_5 | h_6 => exact h.congr

theorem QueueOk.carriedHere (b : List Byte) : (s.carriedHere b).QueueOk := by
  unfold State.carriedHere
  split
  next => exact queueOk_settle (by simpa using h.1)
  next f hb =>
    have hlen : (s.resolveReadback b).queue.length ≤ 32 := length_of_moves h.1 (s.resolveReadback_moves b)
    dsimp only
    split
    next fl _ =>
      split
      · exact queueOk_settle (length_applyOwn (by simpa using hlen) fl)
      · exact queueOk_carriedFromPeer (settle_length _ (by simpa using hlen)) f
    next =>
      refine queueOk_carriedFromPeer ?_ f
      exact hlen

theorem QueueOk.carriedAdrift (b : List Byte) : (s.carriedAdrift b).QueueOk := by
  unfold State.carriedAdrift
  dsimp only
  repeat' split
  · exact h.congr
  · exact h.congr
  · exact queueOk_haltedEntry h.1
  · exact h.congr

theorem QueueOk.carriedFrameEnd (b : List Byte) : (s.carriedFrameEnd b).QueueOk := by
  unfold State.carriedFrameEnd
  split
  case h_1 | h_2 | h_3 => exact h.carriedHere b
  case h_4 => exact h.carriedAdrift b
  case h_5 | h_6 => exact h.congr

theorem QueueOk.tick : s.tick.QueueOk := by
  refine h.of_quiet (isWaiting_of_lanes (by simp) (by simp) (by simp) (fun k => ?_) fun k => ?_)
  all_goals
    rw [State.lane_tick]
    tauto

end Commands

theorem queueOk_reset : State.reset.QueueOk :=
  queueOk_iff.2 ⟨Nat.zero_le _, fun p hp => by
    have hnone : State.reset.recordOf p = none := by
      cases p with
      | event k => cases k <;> rfl
      | lost r => simp [recordOf, lostOwner, State.reset]
      | chainEnd l | note l => simp [recordOf, lane, State.reset, Lane.reset]
      | watch w => simp [recordOf, watch, State.reset, Watch.reset]
    simp [isWaiting, hnone] at hp⟩

theorem QueueOk.of_leaves {s t : State} (h : s.QueueOk) (hleft : Leaves s t) : t.QueueOk := by
  cases hleft with
  | same => exact h
  | softReset n x | pinReset => exact queueOk_reset.congr rfl rfl rfl rfl rfl
  | pinResetEnd x =>
    unfold pinResetEnd
    split
    · exact queueOk_reset.congr rfl rfl rfl rfl rfl
    · exact h
  | configure | unknown | accessOpening | readbackDifference => exact h.congr
  | staging w v hw | chain w v hw | params a b c d => exact h.congr rfl rfl rfl rfl rfl
  | setGuards b => exact h.congr
  | rejoin => exact h.rejoin
  | leave => exact h.leave
  | start => exact h.start
  | stop => exact h.stop
  | watchArm => exact h.watchArm
  | watchDisarm => exact h.watchDisarm
  | popHead => exact h.popHead
  | startEdge => exact h.startEdge
  | arbitrationLost => exact h.arbitrationLost
  | framingBreak _ => exact h.framingBreak
  | spoiledFrameEnd b _ => exact h.spoiledFrameEnd b
  | carriedFrameEnd b _ => exact h.carriedFrameEnd b
  | windowExpiry => exact queueOk_settle (length_windowExpiry h.1)
  | waitTimeout l => exact h.waitTimeout l
  | entryTake l => exact h.entryTake l

/-! ## The spoil streak and the attempt counts (R34, R46) -/

theorem countersOk_iff {s : State} :
    s.CountersOk ↔ s.spoilStreak ≤ 16 ∧ OffersMeet (fun _ => True) (fun n => n ≤ 7) s := by
  refine ⟨fun ⟨hstreak, hlane, hstation, himage⟩ => ⟨hstreak, ⟨?_, ?_, fun _ _ => trivial, himage⟩⟩,
    fun ⟨hstreak, hoffers⟩ => ⟨hstreak, ?_, ?_, hoffers.image⟩⟩
  · exact fun l o ho => ⟨trivial, hlane l o ho⟩
  · exact fun o ho => ⟨trivial, hstation o ho⟩
  · exact fun l o ho => (hoffers.lane l o ho).2
  · exact fun o ho => (hoffers.station o ho).2

/-- A count below the eighth attempt stays below it when raised (R42). -/
theorem count_offerBounds : OfferBounds (fun _ => True) fun n => n ≤ 7 :=
  ⟨fun _ _ => trivial, Nat.zero_le 7, fun _ _ hlt => Nat.le_of_lt_succ hlt⟩

theorem streak_joiningEntry (s : State) : s.joiningEntry.spoilStreak = 0 := by simp [joiningEntry]

theorem streak_of_move {s t : State} (h : s.spoilStreak ≤ 16) (hmove : LineMove s t) : t.spoilStreak ≤ 16 := by
  cases hmove with
  | streak n hn => exact hn
  | join _ => simp [streak_joiningEntry]
  | count _ _ | settle | lose | differ | spoilAttempt _ | peer f b _ _ _ | own f _ _ | halt _ => simpa using h
  | silent _ => exact h
  | drift _ => simpa using h

theorem streak_of_leaves {s t : State} (h : s.spoilStreak ≤ 16) (hleft : Leaves s t) : t.spoilStreak ≤ 16 := by
  have hpath : ∀ {u}, LineMoves s u → u.spoilStreak ≤ 16 := fun hp =>
    hp.keeps (P := fun u => u.spoilStreak ≤ 16) (fun _ _ => streak_of_move) h
  cases hleft with
  | same | staging w v hw | chain w v hw | params a b c d => exact h
  | softReset n x | pinReset => exact Nat.zero_le 16
  | pinResetEnd x =>
    unfold pinResetEnd
    split
    · exact Nat.zero_le 16
    · exact h
  | leave | start | stop | setGuards b | watchArm | watchDisarm | unknown | popHead | accessOpening | startEdge
  | windowExpiry | waitTimeout l | entryTake l | readbackDifference => simpa using h
  | configure =>
    unfold configure
    split
    · simpa using h
    · split
      case h_1 => simp [streak_joiningEntry]
      case h_2 | h_3 | h_4 | h_5 | h_6 => simpa using h
  | rejoin =>
    unfold rejoin
    split
    case h_1 | h_2 | h_3 => simp [streak_joiningEntry]
    case h_4 | h_5 | h_6 => simpa using h
  | arbitrationLost => exact hpath s.arbitrationLost_moves
  | framingBreak _ => exact hpath framingBreak_moves
  | spoiledFrameEnd b _ => exact hpath (s.spoiledFrameEnd_moves b)
  | carriedFrameEnd b _ => exact hpath (s.carriedFrameEnd_moves b)

theorem CountersOk.of_leaves {s t : State} (h : s.CountersOk) (hleft : Leaves s t) : t.CountersOk :=
  let ⟨hstreak, hoffers⟩ := countersOk_iff.1 h
  countersOk_iff.2 ⟨streak_of_leaves hstreak hleft, hoffers.of_leaves count_offerBounds hleft⟩

theorem CountersOk.tick {s : State} (h : s.CountersOk) : s.tick.CountersOk :=
  let ⟨hstreak, hoffers⟩ := countersOk_iff.1 h
  countersOk_iff.2 ⟨by simpa using hstreak, hoffers.congr⟩

end State

/-- The queue and the counters through every state a command can leave. -/
theorem step_keeps_queue_and_counters {s t : State} (hqueue : s.QueueOk) (hcounters : s.CountersOk)
    (hstep : step s = .next t) : t.QueueOk ∧ t.CountersOk :=
  ⟨step_keeps (fun _ h => State.QueueOk.tick h) (fun _ _ h => h.congr rfl rfl rfl rfl rfl)
      (fun _ _ h => State.QueueOk.of_leaves h) hqueue hstep,
    step_keeps (fun _ h => State.CountersOk.tick h) (fun _ _ h => h) (fun _ _ h => State.CountersOk.of_leaves h)
      hcounters hstep⟩

end Sys2Proof.Machine
end

section
/-! PROOFS. The region records: a region that is not CURRENT stays unowned and out of the response set (R5, R82). -/

namespace Sys2Proof.Machine

set_option Elab.async false -- as in Tests/Slice0.lean: fewer threads, within the check's memory limit

/-- A CURRENT region's record is in order whatever its owner and mark. -/
theorem Region.inOrder_of_current {x : Region} (h : x.state = .current) : x.InOrder := fun hne => absurd h hne

namespace State

variable {s t : State}

theorem RegionsOk.congr (h : s.RegionsOk) (hregions : t.regions = s.regions := by simp) : t.RegionsOk := fun r => by
  simpa [region, hregions] using h r

theorem RegionsOk.setRegion (h : s.RegionsOk) (r : RegionNo) {x : Region} (hx : x.InOrder) :
    (s.setRegion r x).RegionsOk := fun q => by
  rw [region_setRegion]
  split
  · exact hx
  · exact h q

/-! ## The operations over the region table -/

theorem RegionsOk.applyUpdate (h : s.RegionsOk) (x : Station) (r : RegionNo) (k : Nat) (d : List Byte) :
    (s.applyUpdate x r k d).RegionsOk := by
  unfold State.applyUpdate
  split
  · have hwritten : (s.writeRegionBytes r k d).RegionsOk := h.congr
    exact (hwritten.setRegion r (x := { s.region r with count := (s.region r).count + 1 }) (h r)).congr
  · exact h

theorem RegionsOk.dropResponse (h : s.RegionsOk) (r : RegionNo) : (s.dropResponse r).RegionsOk := by
  have hdropped : (s.setRegion r { s.region r with responding := false }).RegionsOk :=
    h.setRegion r fun hne => ⟨(h r hne).1, rfl⟩
  exact hdropped.congr (by simp [State.dropResponse])

theorem RegionsOk.addResponses (h : s.RegionsOk) (a b : Nat) : (s.addResponses a b).RegionsOk := by
  have hmarked : (s.mapRegions fun r x =>
      if inRange a b r = true ∧ x.state = .current then { x with responding := true } else x).RegionsOk := fun r => by
    rw [region_mapRegions]
    split
    next hcurrent => exact Region.inOrder_of_current hcurrent.2
    next => exact h r
  exact hmarked.congr (by simp [State.addResponses])

theorem RegionsOk.installImage (h : s.RegionsOk) (r : RegionNo) (o : Option Station) (c : Word) (d : List Byte) :
    (s.installImage r o c d).RegionsOk := fun q => by
  rw [region_installImage]
  split
  · exact Region.inOrder_of_current rfl
  · exact h q

theorem RegionsOk.takeImage (h : s.RegionsOk) (r : RegionNo) (o : Option Station) (c : Word) (d : List Byte) :
    (s.takeImage r o c d).RegionsOk := by
  unfold State.takeImage
  split
  · exact ((h.installImage r o c d).dropResponse r).congr
  · exact h.dropResponse r

theorem RegionsOk.declareOrphans (h : s.RegionsOk) : s.declareOrphans.RegionsOk := fun r => by
  rw [region_declareOrphans]
  split
  · exact Region.inOrder_of_current rfl
  · exact h r

/-- Losing every region leaves each record in order, whatever it was. -/
theorem regionsOk_loseRegions (s : State) : s.loseRegions.RegionsOk := fun r => by
  rw [region_loseRegions]
  exact fun _ => ⟨rfl, rfl⟩

theorem regionsOk_driftFlush (s : State) : s.driftFlush.RegionsOk := fun r => by
  rw [region_driftFlush]
  exact fun _ => ⟨rfl, rfl⟩

theorem regionsOk_adriftEntry (s : State) (c : DriftCause) : (s.adriftEntry c).RegionsOk :=
  (regionsOk_driftFlush s).congr (by simp [adriftEntry])

theorem regionsOk_haltedEntry (s : State) : s.haltedEntry.RegionsOk :=
  (regionsOk_driftFlush s).congr (by simp [haltedEntry])

theorem regionsOk_endOfLeave (s : State) : s.endOfLeave.RegionsOk :=
  (regionsOk_loseRegions s).congr (by simp [endOfLeave])

theorem RegionsOk.refreshRange (h : s.RegionsOk) (a b : Nat) : (s.refreshRange a b).RegionsOk := fun r => by
  rw [region_refreshRange]
  split
  next hstale => exact fun _ => h r (by simp [hstale])
  next => exact h r

theorem RegionsOk.setGuards (h : s.RegionsOk) (b : Bool) : (s.setGuards b).RegionsOk := by
  cases hok : s.guardRangeOk with
  | false => rw [setGuards_of_refused b hok]; exact h.congr rfl
  | true =>
    intro r
    rw [region_setGuards b hok]
    split
    · exact h r
    · exact h r

/-- The owner of a CURRENT region may change. -/
theorem RegionsOk.changeOwner (h : s.RegionsOk) (x : Station) {r : RegionNo} (hr : (s.region r).state = .current)
    (o : Option Station) : (s.changeOwner x r o).RegionsOk := by
  have hgiven : (s.setRegion r { s.region r with owner := o }).RegionsOk :=
    h.setRegion r (Region.inOrder_of_current hr)
  exact hgiven.congr (by simp [State.changeOwner])

theorem RegionsOk.applyClaim (h : s.RegionsOk) (x : Station) (b : Bool) (r : RegionNo) :
    (s.applyClaim x b r).RegionsOk := by
  have hlost : (s.loseOwnership r x).RegionsOk := h.congr
  unfold State.applyClaim
  split
  next hr =>
    repeat' split
    · exact h.changeOwner x hr _
    · exact h
    · exact hlost.changeOwner x ((congrArg Region.state (region_loseOwnership s r x r)).trans hr) _
    · exact h.changeOwner x hr _
    · exact h
  next => exact h
  next => exact h

theorem RegionsOk.applyRelease (h : s.RegionsOk) (x : Station) (r : RegionNo) : (s.applyRelease x r).RegionsOk := by
  unfold State.applyRelease
  split
  next hr => exact h.changeOwner x hr.1 none
  next => exact h

theorem RegionsOk.clearOwner (h : s.RegionsOk) (x : Station) : (s.clearOwner x).RegionsOk := fun r => by
  rw [region_clearOwner]
  split
  · exact fun hne => ⟨rfl, (h r hne).2⟩
  · exact h r

/-! ## The join and the end of an attempt -/

theorem RegionsOk.thirdPassEnd (h : s.RegionsOk) : s.thirdPassEnd.RegionsOk := by
  unfold State.thirdPassEnd
  split
  · exact h.declareOrphans.congr
  · exact regionsOk_adriftEntry s _

theorem RegionsOk.askAbandoned (h : s.RegionsOk) : s.askAbandoned.RegionsOk := by
  unfold State.askAbandoned
  split
  next =>
    dsimp only
    split
    · exact h.congr
    · exact RegionsOk.thirdPassEnd h.congr
  next => exact h

theorem RegionsOk.windowExpiry (h : s.RegionsOk) : s.windowExpiry.RegionsOk := by
  unfold State.windowExpiry
  split
  next => exact h
  next =>
    dsimp only
    split
    · exact h.congr
    · exact RegionsOk.thirdPassEnd h.congr

theorem RegionsOk.countStationAttempt (h : s.RegionsOk) : s.countStationAttempt.RegionsOk := by
  unfold State.countStationAttempt
  split
  next o _ =>
    split_ifs
    · exact h.congr
    · exact h.congr
    · cases o.frame with
      | join => exact regionsOk_adriftEntry _ _
      | leave => exact regionsOk_endOfLeave _
      | ask a b => exact RegionsOk.askAbandoned (s := { s with stationSlot := none }) h.congr
  next => exact h.congr

theorem RegionsOk.countImageAttempt (h : s.RegionsOk) : s.countImageAttempt.RegionsOk := by
  unfold State.countImageAttempt
  split
  next o _ =>
    split
    · exact h.congr
    · exact RegionsOk.dropResponse (s := { s with imageSlot := none }) h.congr o.region
  next => exact h.congr

theorem RegionsOk.spoilAttempt (h : s.RegionsOk) : s.spoilAttempt.RegionsOk := by
  unfold State.spoilAttempt
  split
  next => exact h
  next f _ =>
    dsimp only
    split
    next => split_ifs <;> exact h.congr
    next =>
      split
      · exact RegionsOk.countStationAttempt h.congr
      · exact h.congr
    next =>
      split
      · exact RegionsOk.countImageAttempt h.congr
      · exact h.congr

theorem RegionsOk.joinCarried (h : s.RegionsOk) : s.joinCarried.RegionsOk := h.congr

theorem RegionsOk.askCarried (h : s.RegionsOk) (a b : Nat) : (s.askCarried a b).RegionsOk := by
  unfold State.askCarried
  dsimp only
  split
  · exact (h.refreshRange a b).congr
  · exact h.refreshRange a b

theorem RegionsOk.applyPeer (h : s.RegionsOk) (f : Frame) : (s.applyPeer f).RegionsOk := by
  unfold State.applyPeer
  split
  · exact h.clearOwner _
  · exact h.clearOwner _
  · exact h.applyClaim _ _ _
  · exact h.applyRelease _ _
  · exact h.addResponses _ _
  · exact h.takeImage _ _ _ _
  · exact h.applyUpdate _ _ _ _

theorem RegionsOk.applyOwn (h : s.RegionsOk) (f : Flight) : (s.applyOwn f).RegionsOk := by
  unfold State.applyOwn
  split
  next =>
    split
    · exact (h.clearOwner _).joinCarried
    · exact h.clearOwner _
  next =>
    split
    · exact regionsOk_endOfLeave _
    · exact h.clearOwner _
  next =>
    split
    · exact h.askCarried _ _
    · exact h
  next => exact h.takeImage _ _ _ _
  next b r _ => exact (h.applyClaim f.frame.sender b r).congr
  next r _ => exact (h.applyRelease f.frame.sender r).congr
  next r k d _ => exact (h.applyUpdate f.frame.sender r k d).congr

theorem RegionsOk.of_move (h : s.RegionsOk) (hmove : LineMove s t) : t.RegionsOk := by
  cases hmove with
  | count _ _ | settle | lose | differ | join _ => exact h.congr
  | streak n _ | silent _ => exact h.congr rfl
  | spoilAttempt _ => exact h.spoilAttempt
  | drift _ => exact (regionsOk_adriftEntry s .streak).congr rfl
  | peer f b _ _ _ => exact h.applyPeer f
  | own f _ _ => exact RegionsOk.applyOwn h.congr f
  | halt _ => exact regionsOk_haltedEntry s

theorem regionsOk_reset : State.reset.RegionsOk := fun r => by
  simp [region, State.reset, Region.reset, Region.InOrder]

theorem RegionsOk.of_leaves (h : s.RegionsOk) (hleft : Leaves s t) : t.RegionsOk := by
  have hpath : ∀ {u}, LineMoves s u → u.RegionsOk := fun hp =>
    hp.keeps (P := RegionsOk) (fun _ _ hs hmove => RegionsOk.of_move hs hmove) h
  cases hleft with
  | same => exact h
  | staging w v hw | chain w v hw | params a b c d => exact h.congr rfl
  | softReset n x | pinReset => exact regionsOk_reset.congr rfl
  | pinResetEnd x =>
    unfold pinResetEnd
    split
    · exact regionsOk_reset.congr rfl
    · exact h
  | configure | leave | start | stop | watchArm | watchDisarm | unknown | popHead | accessOpening | startEdge
  | waitTimeout l | entryTake l | readbackDifference => exact h.congr
  | setGuards b => exact h.setGuards b
  | rejoin =>
    unfold rejoin
    split
    case h_1 | h_2 | h_3 => exact (regionsOk_driftFlush s).congr
    case h_4 | h_5 | h_6 => exact h.congr
  | windowExpiry => exact h.windowExpiry.congr
  | arbitrationLost => exact hpath s.arbitrationLost_moves
  | framingBreak _ => exact hpath framingBreak_moves
  | spoiledFrameEnd b _ => exact hpath (s.spoiledFrameEnd_moves b)
  | carriedFrameEnd b _ => exact hpath (s.carriedFrameEnd_moves b)

end State

end Sys2Proof.Machine
end

section
/-! PROOFS. The controller, the refresh unit and the station slot (R70 to R95): what a state in order says of them, and
which changes of the station slot, the frame on the line and the region table keep it. -/

namespace Sys2Proof.Machine

set_option Elab.async false -- as in Tests/Slice0.lean: fewer threads, within the check's memory limit

namespace State

/-- `ControllerOk` but for the line unit and for `JoinGoesOn`: what holds even in the middle of a completion test. -/
structure ControllerBase (s : State) : Prop where
  active : s.stationState = .active → s.allCurrent
  join_iff : s.join.isSome = true ↔ s.stationState = .joining
  window_asked : s.window.isSome = true → s.join.map JoinProgress.askCarried = some true
  window_le : ∀ t, s.window = some t → t ≤ 20
  pass_le : s.passCount ≤ 3
  asked : ∀ j, s.join = some j → j.askCarried = true → j.joinCarried = true ∧ ∀ r, (s.region r).state ≠ .stale
  slot : ∀ o, s.stationSlot = some o → s.FrameFits o.frame ∧ (s.stationNext.isSome = true → o.held = true)
  next : ∀ g, s.stationNext = some g → s.FrameFits g ∧ s.flight.map Flight.slot = some .station
  flight : ∀ f, s.flight = some f → f.attached = true →
    (f.frame.body = .leave → f.slot = .station ∧ s.stationState = .leaving ∧ s.stationNext = none) ∧
      ∀ a b, f.frame.body = .ask a b → s.FrameFits (.ask a b)
  quiet : s.listening = false →
    (∀ r, (s.region r).state = .stale) ∧ s.stationSlot = none ∧ s.stationNext = none ∧ s.imageSlot = none ∧
      ∀ f, s.flight = some f → f.attached = false

/-- A join in progress has passes left and, its JOIN carried, still waits for some region (R78, R80). -/
def JoinGoesOn (s : State) : Prop :=
  ∀ j, s.join = some j → s.passCount ≤ 2 ∧ (j.joinCarried = true → ¬ s.allCurrent)

theorem controllerOk_iff {s : State} : s.ControllerOk ↔ s.ControllerBase ∧ s.JoinGoesOn ∧ s.PhaseFits := by
  constructor
  · rintro ⟨⟨hactive, hstale⟩, ⟨hjoin, hasked, hwindow, hpass, hjoins⟩, ⟨hslot, hnext, hflight, hquiet⟩, hphase⟩
    refine ⟨⟨hactive, hjoin, hasked, hwindow, hpass, fun j hj => ?_, hslot, hnext, hflight, fun hl => ?_⟩,
      fun j hj => ?_, hphase⟩
    · obtain ⟨-, hcovered, -⟩ := hjoins j hj
      exact hcovered
    · exact ⟨hstale hl, hquiet hl⟩
    · obtain ⟨hle, -, hopen⟩ := hjoins j hj
      exact ⟨hle, hopen⟩
  · rintro ⟨hbase, hgoes, hphase⟩
    refine ⟨⟨hbase.active, fun hl => (hbase.quiet hl).1⟩,
      ⟨hbase.join_iff, hbase.window_asked, hbase.window_le, hbase.pass_le, fun j hj => ?_⟩,
      ⟨hbase.slot, hbase.next, hbase.flight, fun hl => (hbase.quiet hl).2⟩, hphase⟩
    obtain ⟨hle, hopen⟩ := hgoes j hj
    exact ⟨hle, hbase.asked j hj, hopen⟩

variable {s t : State}

/-- A frame that fits goes on fitting while no region becomes STALE. -/
theorem FrameFits.mono {g : StationFrame} (h : s.FrameFits g) (hstate : t.stationState = s.stationState)
    (hjoin : s.join.map JoinProgress.joinCarried = some true → t.join.map JoinProgress.joinCarried = some true)
    (hstale : ∀ r, (t.region r).state = .stale → (s.region r).state = .stale) : t.FrameFits g := by
  cases g with
  | join => trivial
  | leave => exact hstate.trans h
  | ask a b =>
    intro hjoining
    obtain ⟨hcarried, hcover⟩ := h (hstate.symm.trans hjoining)
    exact ⟨hjoin hcarried, fun r hr => hcover r (hstale r hr)⟩

/-- In a state other than JOINING every ASK fits. -/
theorem frameFits_ask_of_not_joining (h : s.stationState ≠ .joining) (a b : Nat) : s.FrameFits (.ask a b) :=
  fun hjoining => absurd hjoining h

/-! ## What depends on the state before alone -/

theorem ControllerBase.next_none_of_no_flight (h : s.ControllerBase) (hf : s.flight = none) : s.stationNext = none := by
  cases hnext : s.stationNext with
  | none => rfl
  | some g =>
    obtain ⟨-, hslot⟩ := h.next g hnext
    simp [hf] at hslot

/-- A frame waits for the end of an attempt of the station slot alone (R37). -/
theorem ControllerBase.next_none_of_slot (h : s.ControllerBase) {f : Flight} (hf : s.flight = some f)
    (hslot : f.slot ≠ .station) : s.stationNext = none := by
  cases hnext : s.stationNext with
  | none => rfl
  | some g =>
    obtain ⟨-, honLine⟩ := h.next g hnext
    simp [hf, hslot] at honLine

/-- No withdrawal is held in the station slot, so no frame waits. -/
theorem ControllerBase.next_none_of_not_held (h : s.ControllerBase) {o : StationSlot} (ho : s.stationSlot = some o)
    (hheld : o.held = false) : s.stationNext = none := by
  cases hnext : s.stationNext with
  | none => rfl
  | some g => simp [(h.slot o ho).2 (by simp [hnext])] at hheld

theorem ControllerBase.joining_of_join (h : s.ControllerBase) {j : JoinProgress} (hj : s.join = some j) :
    s.stationState = .joining :=
  h.join_iff.1 (by simp [hj])

theorem ControllerBase.join_none (h : s.ControllerBase) (hstate : s.stationState ≠ .joining) : s.join = none := by
  cases hj : s.join with
  | none => rfl
  | some j => exact absurd (h.joining_of_join hj) hstate

theorem ControllerBase.window_none (h : s.ControllerBase) (hj : s.join = none) : s.window = none := by
  cases hw : s.window with
  | none => rfl
  | some n => simpa [hj] using h.window_asked (by simp [hw])

/-! ## Changes elsewhere -/

theorem allCurrent_congr (h : ∀ r, (t.region r).state = (s.region r).state) : t.allCurrent ↔ s.allCurrent := by
  simp only [allCurrent, h]

/-- The region states may advance, and the image slot change, at a station that listens. -/
theorem ControllerBase.advance (h : s.ControllerBase) (hl : s.listening = true)
    (hstale : ∀ r, (t.region r).state = .stale → (s.region r).state = .stale)
    (hcurrent : ∀ r, (s.region r).state = .current → (t.region r).state = .current)
    (hstate : t.stationState = s.stationState := by simp) (hjoin : t.join = s.join := by simp)
    (hwindow : t.window = s.window := by simp) (hpass : t.passCount = s.passCount := by simp)
    (hslot : t.stationSlot = s.stationSlot := by simp) (hnext : t.stationNext = s.stationNext := by simp)
    (hflight : t.flight = s.flight := by simp) : t.ControllerBase where
  active ha r := hcurrent r (h.active (hstate.symm.trans ha) r)
  join_iff := by rw [hjoin, hstate]; exact h.join_iff
  window_asked := by rw [hwindow, hjoin]; exact h.window_asked
  window_le := by rw [hwindow]; exact h.window_le
  pass_le := by rw [hpass]; exact h.pass_le
  asked j hj ha := by
    obtain ⟨hcarried, hnone⟩ := h.asked j (hjoin ▸ hj) ha
    exact ⟨hcarried, fun r hr => hnone r (hstale r hr)⟩
  slot o ho := by
    rw [hslot] at ho
    rw [hnext]
    obtain ⟨hfits, hheld⟩ := h.slot o ho
    exact ⟨hfits.mono hstate (hjoin ▸ id) hstale, hheld⟩
  next g hg := by
    rw [hnext] at hg
    rw [hflight]
    obtain ⟨hfits, honLine⟩ := h.next g hg
    exact ⟨hfits.mono hstate (hjoin ▸ id) hstale, honLine⟩
  flight f hf ha := by
    rw [hflight] at hf
    rw [hstate, hnext]
    obtain ⟨hleave, hask⟩ := h.flight f hf ha
    exact ⟨hleave, fun a b hb => (hask a b hb).mono hstate (hjoin ▸ id) hstale⟩
  quiet hq := by simp [listening_congr hstate, hl] at hq

/-- Nothing that the controller looks at has changed. -/
theorem ControllerBase.congr (h : s.ControllerBase)
    (hregion : ∀ r, (t.region r).state = (s.region r).state := by intro r; simp [State.region])
    (hstate : t.stationState = s.stationState := by simp) (hjoin : t.join = s.join := by simp)
    (hwindow : t.window = s.window := by simp) (hpass : t.passCount = s.passCount := by simp)
    (hslot : t.stationSlot = s.stationSlot := by simp) (hnext : t.stationNext = s.stationNext := by simp)
    (hflight : t.flight = s.flight := by simp)
    (himage : s.listening = false → s.imageSlot = none → t.imageSlot = none := by simp) : t.ControllerBase := by
  cases hl : s.listening with
  | true =>
    exact h.advance hl (fun r hr => (hregion r).symm.trans hr) (fun r hr => (hregion r).trans hr) hstate hjoin hwindow
      hpass hslot hnext hflight
  | false =>
    obtain ⟨hall, hslotNone, hnextNone, himageNone, hdetached⟩ := h.quiet hl
    have hstale : ∀ r, (t.region r).state = .stale := fun r => (hregion r).trans (hall r)
    exact {
      active := fun ha => absurd (hstate.symm.trans ha) fun ha => by simp [listening, ha] at hl
      join_iff := by rw [hjoin, hstate]; exact h.join_iff
      window_asked := by rw [hwindow, hjoin]; exact h.window_asked
      window_le := by rw [hwindow]; exact h.window_le
      pass_le := by rw [hpass]; exact h.pass_le
      asked := fun j hj => absurd (h.joining_of_join (hjoin ▸ hj)) fun hj => by simp [listening, hj] at hl
      slot := by simp [hslot, hslotNone]
      next := by simp [hnext, hnextNone]
      flight := fun f hf ha => by simp [hdetached f (hflight ▸ hf)] at ha
      quiet := fun _ => ⟨hstale, hslot.trans hslotNone, hnext.trans hnextNone, himage hl himageNone,
        fun f hf => hdetached f (hflight ▸ hf)⟩ }

theorem JoinGoesOn.congr (h : s.JoinGoesOn)
    (hregion : ∀ r, (t.region r).state = (s.region r).state := by intro r; simp [State.region])
    (hjoin : t.join = s.join := by simp) (hpass : t.passCount = s.passCount := by simp) : t.JoinGoesOn := by
  intro j hj
  obtain ⟨hle, hopen⟩ := h j (hjoin ▸ hj)
  rw [hpass, allCurrent_congr hregion]
  exact ⟨hle, hopen⟩

theorem joinGoesOn_of_none (h : s.join = none) : s.JoinGoesOn := fun j hj => by simp [h] at hj

/-- The controller in order: what a state in order keeps, but for the line unit. -/
structure ControllerSound (s : State) : Prop where
  base : s.ControllerBase
  goesOn : s.JoinGoesOn

theorem ControllerSound.congr (h : s.ControllerSound)
    (hregion : ∀ r, (t.region r).state = (s.region r).state := by intro r; simp [State.region])
    (hstate : t.stationState = s.stationState := by simp) (hjoin : t.join = s.join := by simp)
    (hwindow : t.window = s.window := by simp) (hpass : t.passCount = s.passCount := by simp)
    (hslot : t.stationSlot = s.stationSlot := by simp) (hnext : t.stationNext = s.stationNext := by simp)
    (hflight : t.flight = s.flight := by simp)
    (himage : s.listening = false → s.imageSlot = none → t.imageSlot = none := by simp) : t.ControllerSound :=
  ⟨h.base.congr hregion hstate hjoin hwindow hpass hslot hnext hflight himage, h.goesOn.congr hregion hjoin hpass⟩

/-! ## The frame on the line is over (R31, R37) -/

/-- With no frame waiting, the station slot may be emptied or keep its frame when the frame on the line is over. -/
theorem ControllerSound.landed (h : s.ControllerSound) (hnext : s.stationNext = none) {slot : Option StationSlot}
    (hslot : ∀ o, slot = some o → s.FrameFits o.frame ∧ ∃ p, s.stationSlot = some p) :
    ControllerSound { s with flight := none, stationSlot := slot } where
  base :=
    { h.base with
      slot := fun o ho => ⟨(hslot o ho).1, by simp [hnext]⟩
      next := by simp [hnext]
      flight := by simp
      quiet := fun hl => by
        obtain ⟨hall, hslotNone, hnextNone, himage, -⟩ := h.base.quiet hl
        refine ⟨hall, ?_, hnextNone, himage, by simp⟩
        cases hs : slot with
        | none => rfl
        | some o =>
          obtain ⟨-, p, hp⟩ := hslot o hs
          simp [hslotNone] at hp }
  goesOn := h.goesOn

theorem ControllerSound.landed_same (h : s.ControllerSound) (hnext : s.stationNext = none) :
    ControllerSound { s with flight := none } :=
  h.landed hnext fun o ho => ⟨(h.base.slot o ho).1, o, ho⟩

/-- The frame that waits enters the station slot at the end of the attempt. -/
theorem ControllerSound.entered (h : s.ControllerSound) :
    ControllerSound ({ s with flight := none } : State).emptyStationSlot := by
  rw [emptyStationSlot_eq]
  exact {
    base :=
      { h.base with
        slot := fun o ho => by
          obtain ⟨g, hg, rfl⟩ := Option.map_eq_some_iff.1 ho
          exact ⟨(h.base.next g hg).1, by simp⟩
        next := by simp
        flight := by simp
        quiet := fun hl => by
          obtain ⟨hall, -, hnextNone, himage, -⟩ := h.base.quiet hl
          exact ⟨hall, by simp [entering, hnextNone], rfl, himage, by simp⟩ }
    goesOn := h.goesOn }

theorem ControllerSound.enterNext (h : s.ControllerSound) :
    ControllerSound ({ s with flight := none } : State).enterNext := by
  rcases Option.eq_none_or_eq_some s.stationNext with hnext | ⟨g, hnext⟩
  · have hsame : ({ s with flight := none } : State).enterNext = { s with flight := none } := by
      simp [State.enterNext, hnext]
    rw [hsame]
    exact h.landed_same hnext
  · have hentered :
        ({ s with flight := none } : State).enterNext = ({ s with flight := none } : State).emptyStationSlot := by
      simp [State.enterNext, emptyStationSlot, hnext]
    rw [hentered]
    exact h.entered

/-! ## Placing a frame in the station slot (R34, R37) -/

/-- The controller places a frame that fits, at a listening station whose LEAVE is not on the line. -/
theorem ControllerSound.placeStation (h : s.ControllerSound) (hl : s.listening = true) {g : StationFrame}
    (hg : s.FrameFits g) (hleave : ∀ f, s.flight = some f → f.attached = true → f.frame.body ≠ .leave) :
    (s.placeStation g).ControllerSound := by
  cases honLine : s.stationFrameOnLine with
  | true =>
    rw [placeStation_of_on_line g honLine]
    exact {
      base :=
        { h.base with
          slot := fun o ho => by
            obtain ⟨p, hp, rfl⟩ := Option.map_eq_some_iff.1 ho
            exact ⟨(h.base.slot p hp).1, fun _ => rfl⟩
          next := fun f hf => by
            cases hf
            exact ⟨hg, stationFrameOnLine_iff.1 honLine⟩
          flight := fun f hf ha => ⟨fun hb => absurd hb (hleave f hf ha), (h.base.flight f hf ha).2⟩
          quiet := fun hq => Bool.noConfusion (hl.symm.trans hq) }
      goesOn := h.goesOn }
  | false =>
    rw [placeStation_of_not_on_line g honLine]
    have hnext : s.stationNext = none := by
      cases hn : s.stationNext with
      | none => rfl
      | some f =>
        have hon := stationFrameOnLine_iff.2 (h.base.next f hn).2
        simp [honLine] at hon
    exact {
      base :=
        { h.base with
          slot := fun o ho => by
            cases ho
            exact ⟨hg, by simp [hnext]⟩
          quiet := fun hq => Bool.noConfusion (hl.symm.trans hq) }
      goesOn := h.goesOn }

end State

end Sys2Proof.Machine
end

section
/-! PROOFS. The controller's operations (R72 to R95): each leaves the controller in order, from JOINING to the
completion of the join, through LEAVING, and into ADRIFT and HALTED. -/

namespace Sys2Proof.Machine

set_option Elab.async false -- as in Tests/Slice0.lean: fewer threads, within the check's memory limit

namespace State

variable {s t : State}

theorem ControllerSound.congr_listening (h : s.ControllerSound) (hl : s.listening = true)
    (hregion : ∀ r, (t.region r).state = (s.region r).state := by intro r; simp [State.region])
    (hstate : t.stationState = s.stationState := by simp) (hjoin : t.join = s.join := by simp)
    (hwindow : t.window = s.window := by simp) (hpass : t.passCount = s.passCount := by simp)
    (hslot : t.stationSlot = s.stationSlot := by simp) (hnext : t.stationNext = s.stationNext := by simp)
    (hflight : t.flight = s.flight := by simp) : t.ControllerSound :=
  h.congr hregion hstate hjoin hwindow hpass hslot hnext hflight fun hq => Bool.noConfusion (hl.symm.trans hq)

/-! ## States with nothing offered -/

/-- A station that does not listen, its slots empty and its regions lost, is in order. -/
theorem controllerSound_of_quiet (hl : t.listening = false) (hstale : ∀ r, (t.region r).state = .stale)
    (hjoin : t.join = none) (hwindow : t.window = none) (hpass : t.passCount ≤ 3) (hslot : t.stationSlot = none)
    (hnext : t.stationNext = none) (himage : t.imageSlot = none)
    (hflight : ∀ f, t.flight = some f → f.attached = false) :
    t.ControllerSound where
  base := {
    active := fun ha => by simp [listening, ha] at hl
    join_iff := by simp [hjoin]; intro hj; simp [listening, hj] at hl
    window_asked := by simp [hwindow]
    window_le := by simp [hwindow]
    pass_le := hpass
    asked := by simp [hjoin]
    slot := by simp [hslot]
    next := by simp [hnext]
    flight := fun f hf ha => by simp [hflight f hf] at ha
    quiet := fun _ => ⟨hstale, hslot, hnext, himage, hflight⟩ }
  goesOn := joinGoesOn_of_none hjoin

theorem attached_of_map_detach {x : Option Flight} {f : Flight} (h : x.map Flight.detach = some f) :
    f.attached = false := by
  obtain ⟨g, -, rfl⟩ := Option.map_eq_some_iff.1 h
  rfl

theorem controllerSound_adriftEntry (s : State) (c : DriftCause) : (s.adriftEntry c).ControllerSound := by
  refine controllerSound_of_quiet (by simp [listening]) (fun r => ?_) (by simp) (by simp) (by simp) (by simp) (by simp)
    (by simp) fun f hf => attached_of_map_detach (x := s.flight) (by simpa using hf)
  have hregions : (s.adriftEntry c).regions = s.driftFlush.regions := by simp [adriftEntry]
  simpa [region, hregions] using congrArg Region.state (region_driftFlush s r)

theorem controllerSound_haltedEntry (s : State) : s.haltedEntry.ControllerSound := by
  refine controllerSound_of_quiet (by simp [listening]) (fun r => ?_) (by simp) (by simp) (by simp) (by simp) (by simp)
    (by simp) fun f hf => attached_of_map_detach (x := s.flight) (by simpa using hf)
  have hregions : s.haltedEntry.regions = s.driftFlush.regions := by simp [haltedEntry]
  simpa [region, hregions] using congrArg Region.state (region_driftFlush s r)

/-- The end of LEAVE, with nothing offered or on the line (R88). -/
theorem ControllerSound.endOfLeave (h : s.ControllerSound) (hstate : s.stationState = .leaving)
    (hslot : s.stationSlot = none) (hnext : s.stationNext = none) (hflight : s.flight = none) :
    s.endOfLeave.ControllerSound := by
  have hjoin : s.join = none := h.base.join_none (by simp [hstate])
  refine controllerSound_of_quiet (by simp [State.endOfLeave, listening]) (fun r => ?_) (by simpa using hjoin)
    (by simpa using h.base.window_none hjoin) (by simpa using h.base.pass_le) (by simpa using hslot)
    (by simpa using hnext) (by simp [State.endOfLeave, loseRegions]) (by simp [hflight])
  have hregions : s.endOfLeave.regions = s.loseRegions.regions := by simp [State.endOfLeave]
  simpa [region, hregions] using congrArg Region.state (region_loseRegions s r)

/-- With a frame of the station slot still on the line the JOIN waits for its end (R37, R72). -/
theorem joiningEntry_of_on_line (h : s.stationFrameOnLine = true) :
    s.joiningEntry =
      { s with
        stationState := .joining, spoilStreak := 0, passCount := 0, window := none, join := some newJoin
        stationNext := some .join, stationSlot := s.stationSlot.map fun o => { o with held := true } } :=
  placeStation_of_on_line .join h

/-- The JOINING entry from a state that offers nothing (R72). -/
theorem controllerSound_joiningEntry (hslot : s.stationSlot = none) (hnext : s.stationNext = none)
    (hflight : ∀ f, s.flight = some f → f.attached = false) : s.joiningEntry.ControllerSound := by
  cases honLine : s.stationFrameOnLine with
  | true =>
    rw [joiningEntry_of_on_line honLine]
    exact {
      base := {
        active := by simp
        join_iff := by simp
        window_asked := by simp
        window_le := by simp
        pass_le := Nat.zero_le 3
        asked := by simp [newJoin]
        slot := by simp [hslot]
        next := fun g hg => by
          cases hg
          exact ⟨trivial, stationFrameOnLine_iff.1 honLine⟩
        flight := fun f hf ha => by simp [hflight f hf] at ha
        quiet := by simp [listening] }
      goesOn := by simp [JoinGoesOn, newJoin] }
  | false =>
    rw [joiningEntry_of_not_on_line honLine]
    exact {
      base := {
        active := by simp
        join_iff := by simp
        window_asked := by simp
        window_le := by simp
        pass_le := Nat.zero_le 3
        asked := by simp [newJoin]
        slot := fun o ho => by
          cases ho
          exact ⟨trivial, by simp [hnext]⟩
        next := by simp [hnext]
        flight := fun f hf ha => by simp [hflight f hf] at ha
        quiet := by simp [listening] }
      goesOn := by simp [JoinGoesOn, newJoin] }

/-! ## The completion test (R80) -/

/-- Once the join is complete no frame but a JOIN, or an ASK that no join waits for, is left to fit. -/
theorem FrameFits.of_complete {g : StationFrame} (h : s.FrameFits g) (hjoining : s.stationState = .joining)
    (hactive : t.stationState = .active) : t.FrameFits g := by
  cases g with
  | join => trivial
  | leave => exact absurd (hjoining.symm.trans h) (by simp)
  | ask a b => exact frameFits_ask_of_not_joining (by simp [hactive]) a b

theorem stationSlot_of_withoutAsk {x : Option StationSlot} {o : StationSlot} (h : withoutAsk x = some o) :
    x = some o := by
  unfold withoutAsk at h
  split at h
  next p =>
    split at h
    · cases h
    · exact h
    · exact h
  next => cases h

/-- The completion test leaves the controller in order, if the join has passes left or is complete. -/
theorem ControllerBase.tryComplete (h : s.ControllerBase)
    (hpass : ∀ j, s.join = some j → s.passCount ≤ 2 ∨ s.joinComplete) (n : Nat) :
    (s.tryComplete n).ControllerSound := by
  unfold State.tryComplete
  split
  next hcomplete =>
    obtain ⟨hjoining, -, hall⟩ := hcomplete
    have hdone : ControllerSound { s with
        window := none, stationSlot := withoutAsk s.stationSlot, stationState := .active, join := none } := {
      base := {
        active := fun _ => hall
        join_iff := by simp
        window_asked := by simp
        window_le := by simp
        pass_le := h.pass_le
        asked := by simp
        slot := fun o ho => by
          obtain ⟨hfits, hheld⟩ := h.slot o (stationSlot_of_withoutAsk ho)
          exact ⟨hfits.of_complete hjoining rfl, hheld⟩
        next := fun g hg => by
          obtain ⟨hfits, honLine⟩ := h.next g hg
          exact ⟨hfits.of_complete hjoining rfl, honLine⟩
        flight := fun f hf ha => by
          obtain ⟨hleave, hask⟩ := h.flight f hf ha
          refine ⟨fun hb => ?_, fun a b hb => (hask a b hb).of_complete hjoining rfl⟩
          obtain ⟨-, hleaving, -⟩ := hleave hb
          exact absurd (hjoining.symm.trans hleaving) (by simp)
        quiet := by simp [listening] }
      goesOn := joinGoesOn_of_none rfl }
    exact hdone.congr
  next hopen =>
    refine ⟨h, fun j hj => ⟨(hpass j hj).resolve_right hopen, fun hcarried hall => hopen ?_⟩⟩
    exact ⟨h.joining_of_join hj, by simp [hj, hcarried], hall⟩

theorem ControllerSound.passes (h : s.ControllerSound) (hpass : t.passCount = s.passCount) (hjoin : t.join = s.join) :
    ∀ j, t.join = some j → t.passCount ≤ 2 ∨ t.joinComplete := fun j hj =>
  .inl (hpass ▸ (h.goesOn j (hjoin ▸ hj)).1)

/-! ## Carried IMAGEs (R9, R76, R80, R84) -/

theorem ControllerSound.dropResponse (h : s.ControllerSound) (hl : s.listening = true) (r : RegionNo) :
    (s.dropResponse r).ControllerSound :=
  h.congr_listening hl (state_dropResponse s r)

theorem ControllerSound.takeImage (h : s.ControllerSound) (hl : s.listening = true) (r : RegionNo)
    (o : Option Station) (c : Word) (d : List Byte) : (s.takeImage r o c d).ControllerSound := by
  unfold State.takeImage
  split
  next =>
    have hregion : ∀ q, (((s.installImage r o c d).dropResponse r).region q).state =
        if q = r then .current else (s.region q).state := by
      intro q
      rw [state_dropResponse, region_installImage]
      split <;> rfl
    have hbase : ((s.installImage r o c d).dropResponse r).ControllerBase := by
      refine h.base.advance hl (fun q hq => ?_) fun q hq => ?_
      · rw [hregion] at hq
        split at hq
        · cases hq
        · exact hq
      · rw [hregion]
        split
        · rfl
        · exact hq
    have hrestarted : ControllerBase { (s.installImage r o c d).dropResponse r with
        window := ((s.installImage r o c d).dropResponse r).window.map fun _ => Config.windowMs } :=
      { hbase with
        window_asked := fun hw => hbase.window_asked (by simpa using hw)
        window_le := fun n hn => by
          obtain ⟨-, -, rfl⟩ := Option.map_eq_some_iff.1 hn
          exact le_refl 20
        quiet := hbase.quiet }
    exact hrestarted.tryComplete (h.passes (by simp) (by simp)) 0
  next => exact h.dropResponse hl r

/-! ## The join's own frames (R74, R75) -/

theorem ControllerSound.placeAsk (h : s.ControllerSound) (hl : s.listening = true) {p : RegionNo → Bool}
    (hcarried : s.stationState = .joining → s.join.map JoinProgress.joinCarried = some true)
    (hstale : ∀ r, (s.region r).state = .stale → p r = true)
    (hleave : ∀ f, s.flight = some f → f.attached = true → f.frame.body ≠ .leave) : (s.placeAsk p).ControllerSound := by
  unfold State.placeAsk
  split
  next f hf =>
    obtain ⟨a, b, rfl, hcover⟩ := askSpan_covers hf
    exact h.placeStation hl (fun hj => ⟨hcarried hj, fun r hr => hcover r (hstale r hr)⟩) hleave
  next => exact h

/-- In JOINING no LEAVE of this station is on the line (R86). -/
theorem ControllerBase.no_leave_of_joining (h : s.ControllerBase) (hj : s.stationState = .joining) :
    ∀ f, s.flight = some f → f.attached = true → f.frame.body ≠ .leave := fun f hf ha hb => by
  obtain ⟨-, hleaving, -⟩ := (h.flight f hf ha).1 hb
  exact absurd (hj.symm.trans hleaving) (by simp)

theorem listening_of_joining (h : s.stationState = .joining) : s.listening = true := by simp [listening, h]

theorem isStale_iff {r : RegionNo} : s.isStale r = true ↔ (s.region r).state = .stale := decide_eq_true_iff

theorem isRefreshing_iff {r : RegionNo} : s.isRefreshing r = true ↔ (s.region r).state = .refreshing :=
  decide_eq_true_iff

theorem ControllerSound.joinCarried (h : s.ControllerSound) (hl : s.listening = true) :
    s.joinCarried.ControllerSound := by
  unfold State.joinCarried
  split
  next j hstate hj =>
    dsimp only
    obtain ⟨hle, -⟩ := h.goesOn j hj
    have hbase : ControllerBase { s with join := some { j with joinCarried := true } } :=
      { h.base with
        join_iff := by simp [hstate]
        window_asked := fun hw => by simpa [hj] using h.base.window_asked hw
        asked := fun i hi ha => by
          cases hi
          exact ⟨rfl, (h.base.asked j hj ha).2⟩
        slot := fun o ho => by
          obtain ⟨hfits, hheld⟩ := h.base.slot o ho
          exact ⟨hfits.mono rfl (fun _ => rfl) fun _ => id, hheld⟩
        next := fun g hg => by
          obtain ⟨hfits, honLine⟩ := h.base.next g hg
          exact ⟨hfits.mono rfl (fun _ => rfl) fun _ => id, honLine⟩
        flight := fun f hf ha => by
          obtain ⟨hleave, hask⟩ := h.base.flight f hf ha
          exact ⟨hleave, fun a b hb => (hask a b hb).mono rfl (fun _ => rfl) fun _ => id⟩
        quiet := h.base.quiet }
    split
    next hsome =>
      obtain ⟨r, hr⟩ := Option.isSome_iff_exists.1 hsome
      have hstale : (s.region r).state = .stale := isStale_iff.1 (lowest_some hr).1
      have hsound : ControllerSound { s with join := some { j with joinCarried := true } } :=
        ⟨hbase, fun i hi => ⟨hle, fun _ hall => absurd (hstale.symm.trans (hall r)) (by simp)⟩⟩
      exact hsound.placeAsk hl (fun _ => rfl) (fun q hq => isStale_iff.2 hq) (hbase.no_leave_of_joining hstate)
    next => exact hbase.tryComplete (fun _ _ => .inl hle) 0
  next => exact h

/-- The ASK of the current join has been carried, and no region is STALE any more. -/
theorem ControllerBase.asks (h : s.ControllerBase) {j : JoinProgress} (hj : s.join = some j)
    (hcarried : j.joinCarried = true) (hstale : ∀ r, (s.region r).state ≠ .stale) :
    ControllerBase { s with join := some { j with askCarried := true }, window := some Config.windowMs } :=
  { h with
    join_iff := by simp [h.joining_of_join hj]
    window_asked := fun _ => rfl
    window_le := fun n hn => by cases hn; exact le_refl 20
    asked := fun i hi _ => by cases hi; exact ⟨hcarried, hstale⟩
    slot := fun o ho => by
      obtain ⟨hfits, hheld⟩ := h.slot o ho
      exact ⟨hfits.mono rfl (by simp [hcarried]) fun _ => id, hheld⟩
    next := fun g hg => by
      obtain ⟨hfits, honLine⟩ := h.next g hg
      exact ⟨hfits.mono rfl (by simp [hcarried]) fun _ => id, honLine⟩
    flight := fun f hf ha => by
      obtain ⟨hleave, hask⟩ := h.flight f hf ha
      exact ⟨hleave, fun a b hb => (hask a b hb).mono rfl (by simp [hcarried]) fun _ => id⟩
    quiet := h.quiet }

theorem ControllerSound.askCarried (h : s.ControllerSound) (hl : s.listening = true) {a b : Nat}
    (hfits : s.FrameFits (.ask a b)) : (s.askCarried a b).ControllerSound := by
  have hbase : (s.refreshRange a b).ControllerBase := by
    refine h.base.advance hl (fun r hr => ?_) fun r hr => ?_
    · rw [region_refreshRange] at hr
      split at hr
      · cases hr
      · exact hr
    · rw [region_refreshRange, if_neg (by simp [hr])]
      exact hr
  unfold State.askCarried
  dsimp only
  split
  next j hstate hj =>
    obtain ⟨hcarried, hcover⟩ := hfits hstate
    have hstale : ∀ r, ((s.refreshRange a b).region r).state ≠ .stale := by
      intro r hr
      rw [region_refreshRange] at hr
      split at hr
      · cases hr
      · next hout => exact hout ⟨hcover r hr, hr⟩
    refine ControllerBase.tryComplete (hbase.asks (by simpa using hj) (by simpa [hj] using hcarried) hstale) ?_ 0
    intro i _
    exact .inl (by simpa using (h.goesOn j hj).1)
  next hother =>
    have hnone : s.join = none := by
      cases hj : s.join with
      | none => rfl
      | some j => exact absurd hj (hother j (h.base.joining_of_join hj))
    exact ⟨hbase, joinGoesOn_of_none (by simpa using hnone)⟩

/-! ## The passes of a join (R77 to R79) -/

/-- The end of the third pass completes the join or abandons it (R78). -/
theorem ControllerBase.thirdPassEnd (h : s.ControllerBase) (hjoining : s.stationState = .joining) :
    s.thirdPassEnd.ControllerSound := by
  unfold State.thirdPassEnd
  split
  next hasked =>
    obtain ⟨j, hj, haskj⟩ := Option.map_eq_some_iff.1 hasked
    obtain ⟨hcarried, hstale⟩ := h.asked j hj haskj
    have hall : s.declareOrphans.allCurrent := fun r => by
      rw [region_declareOrphans]
      split
      · rfl
      · next hnot =>
        cases hr : (s.region r).state with
        | stale => exact absurd hr (hstale r)
        | refreshing => exact absurd hr hnot
        | current => rfl
    have hbase : s.declareOrphans.ControllerBase :=
      h.advance (listening_of_joining hjoining) (fun r hr => by simp [hall r] at hr) fun r _ => hall r
    refine hbase.tryComplete (fun i _ => .inr ⟨by simpa using hjoining, ?_, hall⟩) _
    simp [hj, hcarried]
  next => exact controllerSound_adriftEntry s _

/-- A pass ends with passes left: the pass count is raised, and the window may stop. -/
theorem ControllerSound.nextPass (h : s.ControllerSound) {j : JoinProgress} (hj : s.join = some j) {w : Option Nat}
    (hw : w = s.window ∨ w = none) : ControllerBase { s with window := w, passCount := s.passCount + 1 } := by
  have hle : s.passCount + 1 ≤ 3 := Nat.succ_le_succ (h.goesOn j hj).1
  rcases hw with rfl | rfl
  · exact { h.base with pass_le := hle, quiet := h.base.quiet }
  · exact { h.base with window_asked := by simp, window_le := by simp, pass_le := hle, quiet := h.base.quiet }

/-- The end of a pass asks again, or ends the join. -/
theorem ControllerSound.passEnd (h : s.ControllerSound) {j : JoinProgress} (hj : s.join = some j)
    (hcarried : j.joinCarried = true) {w : Option Nat} (hw : w = s.window ∨ w = none) {p : RegionNo → Bool}
    (hstale : ∀ r, (s.region r).state = .stale → p r = true) :
    (if s.passCount + 1 < Config.maxPasses then
        ({ s with window := w, passCount := s.passCount + 1 } : State).placeAsk p
      else ({ s with window := w, passCount := s.passCount + 1 } : State).thirdPassEnd).ControllerSound := by
  have hjoining : s.stationState = .joining := h.base.joining_of_join hj
  have hbase := h.nextPass hj hw
  obtain ⟨-, hopen⟩ := h.goesOn j hj
  split
  next hlt =>
    have hsound : ControllerSound { s with window := w, passCount := s.passCount + 1 } := by
      refine ⟨hbase, fun i hi => ⟨Nat.le_of_lt_succ hlt, fun _ => hopen hcarried⟩⟩
    exact hsound.placeAsk (listening_of_joining hjoining) (fun _ => by simp [hj, hcarried]) hstale
      (hbase.no_leave_of_joining hjoining)
  next => exact hbase.thirdPassEnd hjoining

theorem ControllerSound.windowExpiry (h : s.ControllerSound) : s.windowExpiry.ControllerSound := by
  unfold State.windowExpiry
  split
  next => exact h
  next n hwindow =>
    obtain ⟨j, hj, hasked⟩ := Option.map_eq_some_iff.1 (h.base.window_asked (by simp [hwindow]))
    obtain ⟨hcarried, hstale⟩ := h.base.asked j hj hasked
    exact h.passEnd hj hcarried (.inr rfl) fun r hr => absurd hr (hstale r)

theorem ControllerSound.askAbandoned (h : s.ControllerSound)
    (hcarried : s.stationState = .joining → s.join.map JoinProgress.joinCarried = some true) :
    s.askAbandoned.ControllerSound := by
  unfold State.askAbandoned
  split
  next j hstate hj =>
    refine h.passEnd hj (by simpa [hj] using hcarried hstate) (.inl rfl) fun r hr => ?_
    simp [isStale, hr]
  next => exact h

end State

end Sys2Proof.Machine
end

section
/-! PROOFS. The steps, the clock, the resets and the interrupt output: the front command, one millisecond, the reset
values, PIN_RESET, and which commands change the station number and the interrupt enable. -/

namespace Sys2Proof.Machine

set_option Elab.async false -- as in Tests/Slice0.lean: fewer threads, within the check's memory limit

/-! ## Steps -/

/-- Settles O1: a step matches on the command queue. -/
theorem stepRunsFrontCommand : Obligations.StepRunsFrontCommand := by
  intro c rest s hpending
  simp only [step, hpending]

theorem step_of_no_command {s : State} (h : s.pending = []) : step s = .next s.tick := by
  simp only [step, h]

/-- Settles O2: with no command the step is `State.tick`, which maps the lanes and the window. -/
theorem stepWithoutCommandIsOneMillisecond : Obligations.StepWithoutCommandIsOneMillisecond := fun s hpending =>
  ⟨s.tick, step_of_no_command hpending, s.lane_tick, rfl⟩

/-! ## Which commands change the station number and the interrupt enable (R173, R176 to R179) -/

namespace State

/-- A code outside 1 to 10 is no request's (R170). -/
theorem takeRequest_of_unknown (s : State) {code : Word} (h : code.toNat = 0 ∨ 10 < code.toNat) :
    s.takeRequest code = s.answer .unknown 0 := by
  unfold takeRequest
  split
  case h_11 => rfl
  all_goals omega

end State

theorem unknown_of_wellFormed {code : Word} (h : (Instr.unknownRequest code).wellFormed = true) :
    code.toNat = 0 ∨ 10 < code.toNat := by
  simp only [Instr.wellFormed, knownRequest, Bool.not_eq_true', Bool.and_eq_false_iff, decide_eq_false_iff_not] at h
  omega

/-- Settles O10: the request code word answers UNKNOWN for a code outside 1 to 10. -/
theorem unknownRequestsAreAnswered : Obligations.UnknownRequestsAreAnswered := by
  intro s code hreset hwf
  rw [exec_unknownRequest code hreset, s.takeRequest_of_unknown (unknown_of_wellFormed hwf)]
  rfl

namespace State

/-- The write of a word that is not the request code word is no request. -/
theorem number_and_enable_writeWord (s : State) {a : WordAddr} (v : Word) (h : a.toNat ≠ 0x3178) :
    (s.writeWord a v).stationNumber = s.stationNumber ∧ (s.writeWord a v).irqEnable = s.irqEnable := by
  unfold writeWord
  extract_lets addr
  split_ifs
  · exact ⟨rfl, rfl⟩
  · exact ⟨rfl, rfl⟩
  · exact ⟨by simp, by simp⟩
  · exact ⟨rfl, rfl⟩
  · exact ⟨rfl, rfl⟩
  · exact ⟨rfl, rfl⟩
  · exact ⟨rfl, rfl⟩
  · exact ⟨rfl, rfl⟩

/-- The pin-reset gate keeps what the operation behind it keeps. -/
theorem unlessReset_keeps {α : Type} (p : State → α) {f : State → State} {s t : State} (hf : p (f s) = p s)
    (h : unlessReset f s = .next t) : p t = p s := by
  rw [unlessReset, Host.Outcome.next.injEq] at h
  subst h
  split
  · rfl
  · exact hf

theorem whileReceiving_keeps {α : Type} (p : State → α) {f : State → State} {s : State} (hf : p (f s) = p s) :
    p (whileReceiving f s) = p s := by
  unfold whileReceiving
  split
  · exact hf
  · rfl

/-- The station number and the interrupt enable. -/
def numberAndEnable (s : State) : Station × Bool := (s.stationNumber, s.irqEnable)

end State

open State in
/-- Of the well-formed commands the resets and CONFIGURE alone change the station number or the interrupt enable. -/
theorem exec_number_and_enable {c : Instr} {s t : State} (hwf : c.wellFormed = true) (h : exec c s = .next t) :
    t.numberAndEnable = s.numberAndEnable ∨
      c = .configure ∧ unlessReset configure s = .next t ∨
      (∃ x, c = .softReset x ∧ unlessReset (fun u => u.softReset x) s = .next t) ∨
      c = .pinReset ∧ t = s.pinReset ∨ ∃ x, c = .pinResetEnd x ∧ t = s.pinResetEnd x := by
  cases c with
  | configure => exact .inr (.inl ⟨rfl, h⟩)
  | softReset x => exact .inr (.inr (.inl ⟨x, rfl, h⟩))
  | pinReset => cases h; exact .inr (.inr (.inr (.inl ⟨rfl, rfl⟩)))
  | pinResetEnd x => cases h; exact .inr (.inr (.inr (.inr ⟨x, rfl, rfl⟩)))
  | unknownRequest code =>
    refine .inl (unlessReset_keeps numberAndEnable (f := fun u => u.takeRequest code) ?_ h)
    rw [s.takeRequest_of_unknown (unknown_of_wellFormed hwf)]
    rfl
  | hostWordWrite a v =>
    refine .inl (unlessReset_keeps numberAndEnable (f := fun u => u.writeWord a v) ?_ h)
    have ha : a.toNat ≠ 0x3178 := fun hcode => by
      have : a = requestCodeAddr := BitVec.eq_of_toNat_eq hcode
      simp [Instr.wellFormed, this] at hwf
    obtain ⟨hnumber, henable⟩ := s.number_and_enable_writeWord v ha
    rw [numberAndEnable, numberAndEnable, hnumber, henable]
  | rejoin | leave | start | stop | watchArm | watchDisarm | accessOpening | startEdge | arbitrationLost
  | readbackDifference | pop v =>
    exact .inl (unlessReset_keeps numberAndEnable (by simp [numberAndEnable]) h)
  | guardOpen =>
    exact .inl (unlessReset_keeps numberAndEnable (f := fun u => u.setGuards true) (by simp [numberAndEnable]) h)
  | guardShut =>
    exact .inl (unlessReset_keeps numberAndEnable (f := fun u => u.setGuards false) (by simp [numberAndEnable]) h)
  | framingBreak | spoiledFrameEnd b | carriedFrameEnd b =>
    exact .inl (unlessReset_keeps numberAndEnable (whileReceiving_keeps numberAndEnable (by simp [numberAndEnable])) h)
  | refreshWindowExpiry =>
    exact .inl (unlessReset_keeps numberAndEnable (f := fun u => u.windowExpiry.settle) (by simp [numberAndEnable]) h)
  | waitTimeout l =>
    exact .inl (unlessReset_keeps numberAndEnable (f := fun u => u.waitTimeout l) (by simp [numberAndEnable]) h)
  | entryTake l =>
    exact .inl (unlessReset_keeps numberAndEnable (f := fun u => u.entryTake l) (by simp [numberAndEnable]) h)

/-! ## Pin reset (R177, R178) -/

theorem exec_in_reset {s : State} {c : Instr} (h : s.inReset = true) (hbegin : c ≠ .pinReset)
    (hend : ∀ x, c ≠ .pinResetEnd x) : exec c s = .next s := by
  cases c with
  | pinReset => exact absurd rfl hbegin
  | pinResetEnd x => exact absurd rfl (hend x)
  | configure | rejoin | leave | start | stop | watchArm | watchDisarm | pop v | accessOpening | startEdge
  | arbitrationLost | framingBreak | spoiledFrameEnd b | carriedFrameEnd b | readbackDifference =>
    exact unlessReset_in_reset _ h
  | softReset x => exact unlessReset_in_reset (fun u => u.softReset x) h
  | guardOpen => exact unlessReset_in_reset (fun u => u.setGuards true) h
  | guardShut => exact unlessReset_in_reset (fun u => u.setGuards false) h
  | unknownRequest code => exact unlessReset_in_reset (fun u => u.takeRequest code) h
  | hostWordWrite a v => exact unlessReset_in_reset (fun u => u.writeWord a v) h
  | refreshWindowExpiry => exact unlessReset_in_reset (fun u => u.windowExpiry.settle) h
  | waitTimeout l => exact unlessReset_in_reset (fun u => u.waitTimeout l) h
  | entryTake l => exact unlessReset_in_reset (fun u => u.entryTake l) h

theorem hostRead_in_reset {s : State} (a : WordAddr) (h : s.inReset = true) : s.hostRead a = 0 := by
  simp only [State.hostRead, h, if_true]

theorem pinResetEnd_in_reset {s : State} (x : Station) (h : s.inReset = true) :
    s.pinResetEnd x = s.blocksReset.sampleStraps x := if_pos h

/-- A change of the station number is the sampling of the straps by a reset. -/
theorem sampled_of_number_changed {c : Instr} {s t : State} (hwf : c.wellFormed = true) (h : exec c s = .next t)
    (hchanged : t.stationNumber ≠ s.stationNumber) :
    c = .softReset t.stationNumber ∨ c = .pinResetEnd t.stationNumber := by
  rcases exec_number_and_enable hwf h with hsame | ⟨rfl, hnext⟩ | ⟨x, rfl, hnext⟩ | ⟨rfl, rfl⟩ | ⟨x, rfl, rfl⟩
  · exact absurd (congrArg Prod.fst hsame) hchanged
  · exact absurd (State.unlessReset_keeps State.stationNumber (by simp) hnext) hchanged
  · by_cases hreset : s.inReset = true
    · rw [unlessReset_in_reset _ hreset, Host.Outcome.next.injEq] at hnext
      exact absurd (congrArg State.stationNumber hnext.symm) hchanged
    · rw [unlessReset_eq _ (Bool.eq_false_iff.2 hreset), Host.Outcome.next.injEq] at hnext
      subst hnext
      exact .inl rfl
  · exact absurd rfl hchanged
  · rw [State.stationNumber_pinResetEnd] at hchanged ⊢
    split at hchanged
    next hreset => rw [if_pos hreset]; exact .inr rfl
    next => exact absurd rfl hchanged

/-- Settles O4: the gate of `unlessReset`, the values of `State.blocksReset`, and the commands that sample straps. -/
theorem pinResetHoldsAndEnds : Obligations.PinResetHoldsAndEnds :=
  ⟨⟨fun _ _ => exec_in_reset, fun _ => ⟨rfl, fun a => hostRead_in_reset a⟩⟩,
    fun s x hreset => by
      change Host.Outcome.next (s.pinResetEnd x) = _
      rw [pinResetEnd_in_reset x hreset]
      rfl,
    fun _ _ _ => sampled_of_number_changed⟩

/-! ## The interrupt output (R150, R173, R175) -/

namespace State

theorem intN_eq_false_iff (s : State) : s.intN = false ↔ s.irqEnable = true ∧ s.queue ≠ [] := by
  simp [intN]

/-- A POP leaves the queue empty unless it held two records, or one and a producer waits. -/
theorem queue_popHead_ne_nil (s : State) :
    s.popHead.queue ≠ [] ↔ 2 ≤ s.queue.length ∨ s.queue ≠ [] ∧ s.waiting ≠ [] := by
  rcases hqueue : s.queue with _ | ⟨head, rest⟩
  · simp [popHead_of_empty hqueue, hqueue]
  · rcases hwait : s.waiting with _ | ⟨p, others⟩
    · rw [popHead_of_none_waiting hqueue hwait]
      cases rest with
      | nil => simp
      | cons => simp
    · have hp : s.isWaiting p = true := (mem_waiting s p).1 (by rw [hwait]; exact List.mem_cons_self)
      obtain ⟨rec, hrec⟩ := isWaiting_iff_exists_record.1 hp
      rw [popHead_of_waiting hqueue hwait hrec]
      simp

theorem irqEnable_pinResetEnd (s : State) (x : Station) :
    (s.pinResetEnd x).irqEnable = if s.inReset then false else s.irqEnable := by
  unfold pinResetEnd
  split
  · rfl
  · rfl

/-- CONFIGURE changes the enable in OFFLINE alone, to bit 4 of P0. -/
theorem irqEnable_configure (s : State) :
    s.configure.irqEnable = s.irqEnable ∨ s.stationState = .offline ∧ s.configure.irqEnable = s.p0.getLsbD 4 := by
  by_cases hp0 : s.p0 &&& 0xFFEC = 0
  · by_cases hoffline : s.stationState = .offline
    · rw [configure_of_offline hp0 hoffline]
      exact .inr ⟨hoffline, by simp⟩
    · rw [configure_of_not_offline hp0 hoffline]
      exact .inl rfl
  · rw [configure_of_bad_parameter hp0]
    exact .inl rfl

end State

theorem enable_changed {c : Instr} {s t : State} (hwf : c.wellFormed = true) (h : exec c s = .next t)
    (hchanged : t.irqEnable ≠ s.irqEnable) :
    c = .configure ∧ s.stationState = .offline ∧ t.irqEnable = s.p0.getLsbD 4 ∨
      t.irqEnable = false ∧ (c = .pinReset ∨ ∃ x, c = .softReset x ∨ c = .pinResetEnd x) := by
  rcases exec_number_and_enable hwf h with hsame | ⟨rfl, hnext⟩ | ⟨x, rfl, hnext⟩ | ⟨rfl, rfl⟩ | ⟨x, rfl, rfl⟩
  · exact absurd (congrArg Prod.snd hsame) hchanged
  · rw [unlessReset, Host.Outcome.next.injEq] at hnext
    subst hnext
    split at hchanged
    next => exact absurd rfl hchanged
    next hreset =>
      rw [if_neg hreset]
      rcases s.irqEnable_configure with hkept | ⟨hoffline, henable⟩
      · exact absurd hkept hchanged
      · exact .inl ⟨rfl, hoffline, henable⟩
  · refine .inr ⟨?_, .inr ⟨x, .inl rfl⟩⟩
    rw [unlessReset, Host.Outcome.next.injEq] at hnext
    subst hnext
    split at hchanged
    next => exact absurd rfl hchanged
    next hreset => rw [if_neg hreset]; rfl
  · exact .inr ⟨rfl, .inl rfl⟩
  · refine .inr ⟨?_, .inr ⟨x, .inr rfl⟩⟩
    rw [State.irqEnable_pinResetEnd] at hchanged ⊢
    split at hchanged
    next hreset => rw [if_pos hreset]
    next => exact absurd rfl hchanged

/-- Settles O16: INTn reads the enable and the queue, a POP moves the queue, and CONFIGURE and the resets alone move the
enable. -/
theorem interruptOutputFollowsTheQueue : Obligations.InterruptOutputFollowsTheQueue := by
  refine ⟨State.intN_eq_false_iff, by decide, fun s x hreset => ⟨_, exec_softReset x hreset, s.intN_softReset x⟩,
    fun s v hreset => ⟨_, exec_pop v hreset, ?_⟩, fun _ _ _ => enable_changed⟩
  rw [State.intN_eq_false_iff, State.queue_popHead_ne_nil]
  simp

/-! ## The reset values (R24, R51, R65, R126, R164, R178) -/

namespace State

@[simp] theorem region_reset (r : RegionNo) : State.reset.region r = Region.reset := by
  simp [region, State.reset]

@[simp] theorem lane_reset (l : LaneNo) : State.reset.lane l = Lane.reset := by
  simp [lane, State.reset]

@[simp] theorem laneSlot_reset (l : LaneNo) : State.reset.laneSlot l = none := by
  simp [laneSlot, State.reset]

@[simp] theorem watch_reset (w : WatchNo) : State.reset.watch w = Watch.reset := by
  simp [watch, State.reset]

@[simp] theorem lostOwner_reset (r : RegionNo) : State.reset.lostOwner r = none := by
  simp [lostOwner, State.reset]

theorem laneWord_reset (l : LaneNo) (j : Nat) : State.reset.laneWord l j = 0 := by
  unfold laneWord
  split
  case h_9 => rfl
  all_goals simp [Lane.reset, LaneState.code, flagBit, laneAttempts, endStatusCode]

theorem watchWord_reset (w : WatchNo) (j : Nat) : State.reset.watchWord w j = 0 := by
  unfold watchWord
  split
  case h_4 => rfl
  all_goals simp [Watch.reset, WatchState.code, WatchMode.code, flagBit]

@[simp] theorem reset_fields :
    State.reset.phase = .off ∧ State.reset.flight = none ∧ State.reset.placement = [] ∧
      State.reset.stationSlot = none ∧ State.reset.stationNext = none ∧ State.reset.imageSlot = none ∧
      State.reset.spoilStreak = 0 ∧ State.reset.stationState = .offline ∧ State.reset.passCount = 0 ∧
      State.reset.window = none ∧ State.reset.join = none := by
  simp only [State.reset, and_self]

theorem waiting_reset : State.reset.waiting = [] := by
  by_contra hwait
  exact absurd (queueOk_reset.2 hwait) (by decide)

end State

/-- Settles O6: the tables of `State.reset` entry by entry; every other value is a field of it. -/
theorem resetValues : Obligations.ResetValues := by
  refine ⟨fun a => ⟨rfl, rfl, rfl⟩, State.region_reset,
    fun l => ⟨by simp [Lane.reset], by simp [Lane.reset], State.laneSlot_reset l, State.laneWord_reset l⟩,
    fun w => ⟨by simp [Watch.reset], State.watchWord_reset w⟩, State.lostOwner_reset, ?_⟩
  refine ⟨rfl, State.waiting_reset, ?_⟩
  simp only [State.reset, and_self]

namespace State

theorem framesOk_reset : State.reset.FramesOk := by
  simp [FramesOk]

theorem countersOk_reset : State.reset.CountersOk := by
  simp [CountersOk]

theorem controllerOk_reset : State.reset.ControllerOk := by
  refine ⟨⟨?_, ?_⟩, ?_, ?_, ?_⟩
  · intro h; cases h
  · intro _ r; simp [Region.reset]
  · simp [JoinFits]
  · simp [OfferFits]
  · simp [PhaseFits]

theorem lanesOk_reset : State.reset.LanesOk := by
  refine ⟨fun l => ⟨?_, ?_⟩, List.nodup_nil, ?_⟩
  · simp [LaneFits, Lane.reset, LaneState.busy]
  · simp [Lane.HeldFits, Lane.reset]
  · intro f h; cases h

theorem imageFits_reset : State.reset.ImageFits := by
  simp [ImageFits, Region.reset]

end State

/-- Settles O60: each invariant at the empty tables of `State.reset`. -/
theorem resetIsInOrder : Obligations.ResetIsInOrder :=
  ⟨State.storesOk_iff.2 ⟨State.areaOk_reset, .nil _, .nil _⟩, State.framesOk_reset, State.queueOk_reset,
    State.countersOk_reset, State.regionsOk_reset, State.controllerOk_reset, State.lanesOk_reset,
    State.imageFits_reset⟩

end Sys2Proof.Machine
end

section
/-! PROOFS. The host port (R149, R165 to R171): the command a write on the pins is, the writes with no behaviour of
their own, and what a read of each word returns. -/

namespace Sys2Proof.Machine

set_option Elab.async false -- as in Tests/Slice0.lean: fewer threads, within the check's memory limit

/-! ## Writes on the pins (R149, R165, R170) -/

theorem portAccess_write (s : State) (a : WordAddr) (v : Word) (levels : Station) :
    s.portAccess false true false a v levels = some (.inr (writeCommand a v levels)) := rfl

theorem writeCommand_pop {a : WordAddr} (v : Word) (levels : Station) (h : a.toNat = 0x3173) :
    writeCommand a v levels = .pop v :=
  if_pos (BitVec.eq_of_toNat_eq h)

theorem writeCommand_request {a : WordAddr} (v : Word) (levels : Station) (h : a.toNat = 0x3178) :
    writeCommand a v levels = requestCommand v levels := by
  obtain rfl : a = requestCodeAddr := BitVec.eq_of_toNat_eq h
  rfl

theorem writeCommand_word {a : WordAddr} (v : Word) (levels : Station) (hpop : a.toNat ≠ 0x3173)
    (hrequest : a.toNat ≠ 0x3178) : writeCommand a v levels = .hostWordWrite a v := by
  have ha : a ≠ popAddr := fun h => hpop (by rw [h]; rfl)
  have hb : a ≠ requestCodeAddr := fun h => hrequest (by rw [h]; rfl)
  rw [writeCommand, if_neg ha, if_neg hb]

theorem requestCommand_unknown {v : Word} (levels : Station) (h : v = 0 ∨ 10 < v.toNat) :
    requestCommand v levels = .unknownRequest v := by
  have hv : v.toNat = 0 ∨ 10 < v.toNat := h.imp_left fun h0 => by rw [h0]; rfl
  unfold requestCommand
  split
  case h_11 => rfl
  all_goals omega

/-! ## The writes with no behaviour of their own (R167 to R169) -/

namespace State

section Writes

variable (s : State) {a : WordAddr} (v : Word)

theorem writeWord_staging (hlow : 0x2000 ≤ a.toNat) (hhigh : a.toNat ≤ 0x27FF) :
    s.writeWord a v = { s with staging := s.staging.writeWord (a.toNat - 0x2000) v } :=
  if_pos ⟨hlow, hhigh⟩

theorem writeWord_chain (hlow : 0x2800 ≤ a.toNat) (hhigh : a.toNat ≤ 0x2FFF) :
    s.writeWord a v = { s with chain := s.chain.writeWord (a.toNat - 0x2800) v } := by
  simp only [writeWord, show ¬(0x2000 ≤ a.toNat ∧ a.toNat ≤ 0x27FF) by omega, hlow, hhigh, and_self, if_false, if_true]

theorem writeWord_params :
    (a.toNat = 0x3174 → s.writeWord a v = { s with p0 := v }) ∧
      (a.toNat = 0x3175 → s.writeWord a v = { s with p1 := v }) ∧
      (a.toNat = 0x3176 → s.writeWord a v = { s with p2 := v }) ∧
      (a.toNat = 0x3177 → s.writeWord a v = { s with p3 := v }) := by
  refine ⟨fun h => ?_, fun h => ?_, fun h => ?_, fun h => ?_⟩
  all_goals simp [writeWord, h]

/-- A word of no store and no register ignores a write. -/
theorem writeWord_ignored (hpop : a.toNat ≠ 0x3173) (hrequest : a.toNat ≠ 0x3178)
    (h : a.toNat < 0x2000 ∨ 0x2FFF < a.toNat ∧ a.toNat < 0x3174 ∨ 0x3177 < a.toNat) : s.writeWord a v = s := by
  unfold writeWord
  extract_lets addr
  have haddr : addr = a.toNat := rfl
  split_ifs
  · omega
  · omega
  · omega
  · omega
  · omega
  · omega
  · rfl

end Writes

end State

theorem not_pop_or_request_of_wellFormed {a : WordAddr} {v : Word}
    (h : (Instr.hostWordWrite a v).wellFormed = true) : a.toNat ≠ 0x3173 ∧ a.toNat ≠ 0x3178 := by
  simp only [Instr.wellFormed, Bool.and_eq_true, decide_eq_true_eq] at h
  obtain ⟨hrequest, hpop⟩ := h
  exact ⟨fun ha => hpop (BitVec.eq_of_toNat_eq ha), fun ha => hrequest (BitVec.eq_of_toNat_eq ha)⟩

/-- Settles O12: the command of each word, and the branch of `State.writeWord` its address takes. -/
theorem hostWritesStoreOrAreIgnored : Obligations.HostWritesStoreOrAreIgnored := by
  refine ⟨fun s a v levels => ?_, fun s a v hreset hstores hwf => ?_⟩
  · simp only [portAccess_write, Option.some.injEq, Sum.inr.injEq]
    refine ⟨writeCommand_pop v levels, fun h => ?_, writeCommand_word v levels⟩
    rw [writeCommand_request v levels h]
    refine ⟨?_, ?_, ?_, ?_, ?_, ?_, ?_, ?_, ?_, ?_, requestCommand_unknown levels⟩
    all_goals intro hv; subst hv; rfl
  · obtain ⟨-, -, hstaging, -, hchain, -⟩ := hstores
    obtain ⟨hpop, hrequest⟩ := not_pop_or_request_of_wellFormed hwf
    obtain ⟨hp0, hp1, hp2, hp3⟩ := s.writeWord_params (a := a) v
    simp only [exec_hostWordWrite a v hreset, Host.Outcome.next.injEq]
    refine ⟨fun hlow hhigh => ⟨_, s.writeWord_staging v hlow hhigh, Memory.read_writeWord s.staging hstaging _ v⟩,
      fun hlow hhigh => ⟨_, s.writeWord_chain v hlow hhigh, Memory.read_writeWord s.chain hchain _ v⟩,
      hp0, hp1, hp2, hp3,
      s.writeWord_ignored v hpop hrequest⟩

/-! ## Reads (R165, R166) -/

namespace State

section Reads

variable {s : State} {a : WordAddr} (hreset : s.inReset = false)

include hreset

theorem hostRead_area (h : a.toNat ≤ 0x1FFF) : s.hostRead a = s.area.readWord a.toNat := by
  simp [hostRead, hreset, h]

theorem hostRead_staging (hlow : 0x2000 ≤ a.toNat) (hhigh : a.toNat ≤ 0x27FF) :
    s.hostRead a = s.staging.readWord (a.toNat - 0x2000) := by
  simp [hostRead, hreset, hhigh, show ¬ a.toNat ≤ 0x1FFF by omega]

theorem hostRead_chain (hlow : 0x2800 ≤ a.toNat) (hhigh : a.toNat ≤ 0x2FFF) :
    s.hostRead a = s.chain.readWord (a.toNat - 0x2800) := by
  simp [hostRead, hreset, hhigh, show ¬ a.toNat ≤ 0x1FFF by omega, show ¬ a.toNat ≤ 0x27FF by omega]

theorem hostRead_regionStatus (hlow : 0x3000 ≤ a.toNat) (hhigh : a.toNat ≤ 0x307F) :
    s.hostRead a = s.regionStatusWord (regionOf (a.toNat - 0x3000)) := by
  simp [hostRead, hreset, hhigh, show ¬ a.toNat ≤ 0x1FFF by omega, show ¬ a.toNat ≤ 0x27FF by omega,
    show ¬ a.toNat ≤ 0x2FFF by omega]

/-- Past the stores and the status words of the regions the rest of the map decides. -/
theorem hostRead_high (h : 0x3080 ≤ a.toNat) :
    s.hostRead a =
      if a.toNat ≤ 0x30FF then (s.region (regionOf (a.toNat - 0x3080))).count
      else if a.toNat ≤ 0x311F then s.laneWord ⟨(a.toNat - 0x3100) / 8 % 4, by omega⟩ ((a.toNat - 0x3100) % 8)
      else if a.toNat ≤ 0x315F then s.watchWord ⟨(a.toNat - 0x3120) / 4 % 16, by omega⟩ ((a.toNat - 0x3120) % 4)
      else if a.toNat ≤ 0x3163 then s.headWord (a.toNat - 0x3160)
      else if a.toNat = 0x3170 then s.stationStatusWord
      else if a.toNat = 0x3171 then s.configWord
      else if a.toNat = 0x3172 then BitVec.ofNat 16 s.queue.length
      else if a.toNat = 0x3174 then s.p0
      else if a.toNat = 0x3175 then s.p1
      else if a.toNat = 0x3176 then s.p2
      else if a.toNat = 0x3177 then s.p3
      else if a.toNat = 0x3179 then s.resultWord
      else 0 := by
  simp only [hostRead, hreset, Bool.false_eq_true, show ¬ a.toNat ≤ 0x1FFF by omega, show ¬ a.toNat ≤ 0x27FF by omega,
    show ¬ a.toNat ≤ 0x2FFF by omega, show ¬ a.toNat ≤ 0x307F by omega, if_false]

theorem hostRead_unmapped
    (h : 0x3164 ≤ a.toNat ∧ a.toNat ≤ 0x316F ∨ a.toNat = 0x3173 ∨ a.toNat = 0x3178 ∨ 0x317A ≤ a.toNat) :
    s.hostRead a = 0 := by
  rw [hostRead_high hreset (by omega)]
  simp only [show ¬ a.toNat ≤ 0x30FF by omega, show ¬ a.toNat ≤ 0x311F by omega, show ¬ a.toNat ≤ 0x315F by omega,
    show ¬ a.toNat ≤ 0x3163 by omega, show a.toNat ≠ 0x3170 by omega, show a.toNat ≠ 0x3171 by omega,
    show a.toNat ≠ 0x3172 by omega, show a.toNat ≠ 0x3174 by omega, show a.toNat ≠ 0x3175 by omega,
    show a.toNat ≠ 0x3176 by omega, show a.toNat ≠ 0x3177 by omega, show a.toNat ≠ 0x3179 by omega, if_false]

theorem hostRead_result (h : a.toNat = 0x3179) : s.hostRead a = s.resultWord := by
  simp [hostRead_high hreset (a := a) (by omega), h]

end Reads

end State

/-- Settles O13: each word's branch of `State.hostRead`. -/
theorem hostReadsFollowTheAddressMap : Obligations.HostReadsFollowTheAddressMap := by
  refine ⟨fun s a v rdn wrn levels => ⟨rfl, rfl, rfl⟩, by decide, fun s a hreset => ?_⟩
  refine ⟨State.hostRead_area hreset, State.hostRead_staging hreset, State.hostRead_chain hreset,
    fun h => ?_, fun h => ?_,
    fun h => ?_, fun h => ?_, fun h => ?_, fun h x hresult => ?_, fun h hresult => ?_, State.hostRead_unmapped hreset⟩
  case refine_6 | refine_7 => rw [State.hostRead_result hreset h, State.resultWord, hresult]
  all_goals simp [State.hostRead_high hreset (a := a) (by omega), h]

/-! ## The region and watch words (R22, R157) -/

namespace State

/-- A flag of a word from its division. -/
theorem getLsbD_ofNat_eq {n k : Nat} {b : Bool} (h : n < 2 ^ 16) (hb : n / 2 ^ k % 2 = b.toNat) :
    (BitVec.ofNat 16 n).getLsbD k = b := by
  rw [BitVec.getLsbD, BitVec.toNat_ofNat, Nat.mod_eq_of_lt h, Nat.testBit_eq_decide_div_mod_eq, hb]
  cases b <;> rfl

/-- The owner field of a region's status word, 0 while owner-valid is clear (R22). -/
def ownerField (s : State) (r : RegionNo) : Nat :=
  if s.ownerValid r then (s.region r).owner.elim 0 BitVec.toNat else 0

theorem ownerField_lt (s : State) (r : RegionNo) : s.ownerField r < 32 := by
  unfold ownerField
  split
  · rcases (s.region r).owner with _ | t
    · decide
    · exact t.isLt
  · decide

theorem regionStatusWord_eq (s : State) (r : RegionNo) :
    s.regionStatusWord r = BitVec.ofNat 16
      ((s.region r).state.code + 4 * (s.region r).guardOpen.toNat + 8 * (s.region r).responding.toNat +
        128 * (s.ownerValid r).toNat + 256 * s.ownerField r) := by
  rcases howner : (s.region r).owner with _ | t
  · simp [regionStatusWord, flagBit_eq, ownerField, howner]
  · simp [regionStatusWord, flagBit_eq, ownerField, howner]

theorem regionStatusWord_fields (s : State) (r : RegionNo) :
    (s.regionStatusWord r).toNat % 4 = (s.region r).state.code ∧
      (s.regionStatusWord r).getLsbD 2 = (s.region r).guardOpen ∧
      (s.regionStatusWord r).getLsbD 3 = (s.region r).responding ∧
      (s.regionStatusWord r).getLsbD 4 = false ∧ (s.regionStatusWord r).getLsbD 5 = false ∧
      (s.regionStatusWord r).getLsbD 6 = false ∧ (s.regionStatusWord r).getLsbD 7 = s.ownerValid r ∧
      (s.regionStatusWord r).toNat / 256 = s.ownerField r := by
  have hcode := (s.region r).state.code_lt
  have howner := s.ownerField_lt r
  have hguard := (s.region r).guardOpen.toNat_le
  have hresp := (s.region r).responding.toNat_le
  have hvalid := (s.ownerValid r).toNat_le
  rw [regionStatusWord_eq]
  refine ⟨?_, getLsbD_ofNat_eq ?_ ?_, getLsbD_ofNat_eq ?_ ?_, getLsbD_ofNat_eq ?_ ?_, getLsbD_ofNat_eq ?_ ?_,
    getLsbD_ofNat_eq ?_ ?_, getLsbD_ofNat_eq ?_ ?_, ?_⟩
  all_goals simp only [BitVec.toNat_ofNat, Bool.toNat_false, Nat.reducePow]
  all_goals omega

theorem ownerField_of_valid {s : State} {r : RegionNo} {t : Station} (hcurrent : (s.region r).state = .current)
    (howner : (s.region r).owner = some t) : s.ownerValid r = true ∧ s.ownerField r = t.toNat := by
  simp [ownerField, ownerValid, hcurrent, howner]

theorem ownerField_of_invalid {s : State} {r : RegionNo}
    (h : (s.region r).state ≠ .current ∨ (s.region r).owner = none) :
    s.ownerValid r = false ∧ s.ownerField r = 0 := by
  have hvalid : s.ownerValid r = false := by
    rcases h with h | h
    · simp [ownerValid, h]
    · simp [ownerValid, h]
  exact ⟨hvalid, by simp [ownerField, hvalid]⟩

theorem hostRead_regionWords {s : State} (r : RegionNo) (hreset : s.inReset = false) :
    s.hostRead (BitVec.ofNat 14 (0x3080 + r.val)) = (s.region r).count ∧
      s.hostRead (BitVec.ofNat 14 (0x3000 + r.val)) = s.regionStatusWord r := by
  have hr := r.isLt
  have hcount : (BitVec.ofNat 14 (0x3080 + r.val)).toNat = 0x3080 + r.val := by
    rw [BitVec.toNat_ofNat]; omega
  have hstatus : (BitVec.ofNat 14 (0x3000 + r.val)).toNat = 0x3000 + r.val := by
    rw [BitVec.toNat_ofNat]; omega
  have hregion : regionOf r.val = r := Fin.ext (Nat.mod_eq_of_lt hr)
  constructor
  · rw [hostRead_high hreset (by omega), if_pos (by omega), hcount, Nat.add_sub_cancel_left, hregion]
  · rw [hostRead_regionStatus hreset (by omega) (by omega), hstatus, Nat.add_sub_cancel_left, hregion]

theorem hostRead_watchWord {s : State} (w : WatchNo) {j : Nat} (hreset : s.inReset = false) (hj : j < 4) :
    s.hostRead (BitVec.ofNat 14 (0x3120 + 4 * w.val + j)) = s.watchWord w j := by
  have hw := w.isLt
  have ha : (BitVec.ofNat 14 (0x3120 + 4 * w.val + j)).toNat = 0x3120 + 4 * w.val + j := by
    rw [BitVec.toNat_ofNat]; omega
  have hwatch : (⟨(0x3120 + 4 * w.val + j - 0x3120) / 4 % 16, by omega⟩ : WatchNo) = w := Fin.ext (by simp only; omega)
  have hword : (0x3120 + 4 * w.val + j - 0x3120) % 4 = j := by omega
  rw [hostRead_high hreset (by omega)]
  simp only [ha, hwatch, hword, show ¬ 0x3120 + 4 * w.val + j ≤ 0x30FF by omega,
    show ¬ 0x3120 + 4 * w.val + j ≤ 0x311F by omega, show 0x3120 + 4 * w.val + j ≤ 0x315F by omega, if_true, if_false]

/-- Bits 2, 3 and 8 to 15 of a watch's word 0 are unassigned. -/
theorem unassigned_of_watchWord {n : Nat} (h : n < 256) (hlow : n % 16 < 4) : BitVec.ofNat 16 n &&& 0xFF0C = 0 := by
  have hall : ∀ (a : Fin 4) (b : Fin 16), BitVec.ofNat 16 (a.val + 16 * b.val) &&& 0xFF0C = 0 := by decide
  have hn := hall ⟨n % 16, hlow⟩ ⟨n / 16, by omega⟩
  simp only [Nat.mod_add_div] at hn
  exact hn

theorem watchWord_fields (s : State) (w : WatchNo) :
    (s.watchWord w 0).toNat % 4 = (s.watch w).state.code ∧ (s.watchWord w 0).toNat / 16 % 4 = (s.watch w).mode.code ∧
      (s.watchWord w 0).getLsbD 6 = (s.watch w).own ∧ (s.watchWord w 0).getLsbD 7 = (s.watch w).ownerChanged ∧
      s.watchWord w 0 &&& 0xFF0C = 0 ∧ (s.watchWord w 1).toNat = (s.watch w).region.val := by
  have hstate : (s.watch w).state.code < 3 := by cases (s.watch w).state <;> decide
  have hmode := (s.watch w).mode.code_le
  have hown := (s.watch w).own.toNat_le
  have hchanged := (s.watch w).ownerChanged.toNat_le
  have hword : s.watchWord w 0 = BitVec.ofNat 16 ((s.watch w).state.code + 16 * (s.watch w).mode.code +
      64 * (s.watch w).own.toNat + 128 * (s.watch w).ownerChanged.toNat) := by
    simp only [watchWord, flagBit_eq, Nat.reducePow]
  rw [hword]
  refine ⟨?_, ?_, getLsbD_ofNat_eq ?_ ?_, getLsbD_ofNat_eq ?_ ?_, unassigned_of_watchWord ?_ ?_, ?_⟩
  case refine_9 =>
    have hr := (s.watch w).region.isLt
    rw [watchWord, BitVec.toNat_ofNat, Nat.mod_eq_of_lt (by omega)]
  case refine_1 | refine_2 =>
    rw [BitVec.toNat_ofNat]
    omega
  all_goals omega

end State

/-- Settles O14: the word of each address, and its fields by arithmetic on the sum that `State.regionStatusWord` and
`State.watchWord` form. -/
theorem regionAndWatchWordsShowTheirRecords : Obligations.RegionAndWatchWordsShowTheirRecords := by
  refine ⟨by decide, fun s r hreset => ?_, fun s w hreset => ?_⟩
  · obtain ⟨hcount, hstatus⟩ := State.hostRead_regionWords r hreset
    obtain ⟨hstate, hguard, hresponding, h4, h5, h6, hvalid, howner⟩ := s.regionStatusWord_fields r
    refine ⟨hcount, _, hstatus, hstate, hguard, hresponding, h4, h5, h6, fun hcurrent t ht => ?_, fun hnone => ?_⟩
    · rw [hvalid, howner]
      exact State.ownerField_of_valid hcurrent ht
    · rw [hvalid, howner]
      exact State.ownerField_of_invalid hnone
  · obtain ⟨hstate, hmode, hown, hchanged, hrest, hregion⟩ := s.watchWord_fields w
    simp only [State.hostRead_watchWord w hreset (show 0 < 4 by decide),
      State.hostRead_watchWord w hreset (show 1 < 4 by decide),
      State.hostRead_watchWord w hreset (show 2 < 4 by decide),
      State.hostRead_watchWord w hreset (show 3 < 4 by decide)]
    exact ⟨hstate, hmode, hown, hchanged, hrest, hregion, rfl, rfl⟩

namespace State
/-! ## The station and lane words (R145, R180) -/

theorem stationStatusWord_fields {s : State} (hstreak : s.spoilStreak ≤ 16) (hpass : s.passCount ≤ 3) :
    s.stationStatusWord.toNat % 8 = s.stationState.code ∧
      s.stationStatusWord.toNat / 8 % 32 = s.stationNumber.toNat ∧
      s.stationStatusWord.toNat / 256 % 32 = s.spoilStreak ∧ s.stationStatusWord.toNat / 8192 = s.passCount := by
  have hstate : s.stationState.code < 6 := by cases s.stationState <;> decide
  have hnumber : s.stationNumber.toNat < 32 := s.stationNumber.isLt
  rw [stationStatusWord, BitVec.toNat_ofNat]
  omega

/-- Bits 2, 3 and 5 to 15 of the configuration readback are unassigned. -/
theorem unassigned_of_configWord {a b : Nat} (ha : a < 4) (hb : b < 2) :
    BitVec.ofNat 16 (a + 16 * b) &&& 0xFFEC = 0 := by
  have hall : ∀ (a : Fin 4) (b : Fin 2), BitVec.ofNat 16 (a.val + 16 * b.val) &&& 0xFFEC = 0 := by decide
  exact hall ⟨a, ha⟩ ⟨b, hb⟩

theorem configWord_fields (s : State) :
    s.configWord.setWidth 2 = s.rateCode ∧ s.configWord.getLsbD 4 = s.irqEnable ∧ s.configWord &&& 0xFFEC = 0 := by
  have hrate : s.rateCode.toNat < 4 := s.rateCode.isLt
  have henable := s.irqEnable.toNat_le
  have hword : s.configWord = BitVec.ofNat 16 (s.rateCode.toNat + 16 * s.irqEnable.toNat) := by
    simp only [configWord, flagBit_eq, Nat.reducePow]
  rw [hword]
  refine ⟨BitVec.eq_of_toNat_eq ?_, getLsbD_ofNat_eq (by omega) (by omega), unassigned_of_configWord hrate (by omega)⟩
  rw [BitVec.toNat_setWidth, BitVec.toNat_ofNat]
  omega

theorem hostRead_stationWords {s : State} (hreset : s.inReset = false) :
    s.hostRead 0x3170 = s.stationStatusWord ∧ s.hostRead 0x3171 = s.configWord := by
  constructor
  · rw [hostRead_high hreset (by decide)]
    simp
  · rw [hostRead_high hreset (by decide)]
    simp

theorem hostRead_laneWord {s : State} (l : LaneNo) {j : Nat} (hreset : s.inReset = false) (hj : j < 8) :
    s.hostRead (BitVec.ofNat 14 (0x3100 + 8 * l.val + j)) = s.laneWord l j := by
  have hl := l.isLt
  have ha : (BitVec.ofNat 14 (0x3100 + 8 * l.val + j)).toNat = 0x3100 + 8 * l.val + j := by
    rw [BitVec.toNat_ofNat]; omega
  have hlane : (⟨(0x3100 + 8 * l.val + j - 0x3100) / 8 % 4, by omega⟩ : LaneNo) = l := Fin.ext (by simp only; omega)
  have hword : (0x3100 + 8 * l.val + j - 0x3100) % 8 = j := by omega
  rw [hostRead_high hreset (by omega)]
  simp only [ha, hlane, hword, show ¬ 0x3100 + 8 * l.val + j ≤ 0x30FF by omega,
    show 0x3100 + 8 * l.val + j ≤ 0x311F by omega, if_true, if_false]

/-- Bits 3, 7 and 8 to 15 of a lane's word 0 are unassigned. -/
theorem unassigned_of_laneWord {a b : Nat} (ha : a < 8) (hb : b < 8) : BitVec.ofNat 16 (a + 16 * b) &&& 0xFF88 = 0 := by
  have hall : ∀ (a : Fin 8) (b : Fin 8), BitVec.ofNat 16 (a.val + 16 * b.val) &&& 0xFF88 = 0 := by decide
  exact hall ⟨a, ha⟩ ⟨b, hb⟩

theorem laneWord_state (s : State) (l : LaneNo) :
    (s.laneWord l 0).toNat % 8 = (s.lane l).state.code ∧ (s.laneWord l 0).getLsbD 4 = (s.lane l).stopPending ∧
      (s.laneWord l 0).getLsbD 5 = (s.lane l).note.isSome ∧ (s.laneWord l 0).getLsbD 6 = (s.lane l).prevGoto ∧
      s.laneWord l 0 &&& 0xFF88 = 0 := by
  have hstate : (s.lane l).state.code < 6 := by cases (s.lane l).state <;> decide
  have hstop := (s.lane l).stopPending.toNat_le
  have hnote := (s.lane l).note.isSome.toNat_le
  have hgoto := (s.lane l).prevGoto.toNat_le
  have hword : s.laneWord l 0 = BitVec.ofNat 16 ((s.lane l).state.code +
      16 * ((s.lane l).stopPending.toNat + 2 * (s.lane l).note.isSome.toNat + 4 * (s.lane l).prevGoto.toNat)) := by
    simp only [laneWord, flagBit_eq]
    congr 1
    ring
  rw [hword]
  refine ⟨?_, getLsbD_ofNat_eq (by omega) (by omega), getLsbD_ofNat_eq (by omega) (by omega),
    getLsbD_ofNat_eq (by omega) (by omega), unassigned_of_laneWord (by omega) (by omega)⟩
  rw [BitVec.toNat_ofNat]
  omega

theorem endStatusCode_le (st : Option Status) : endStatusCode st ≤ 13 := by
  rcases st with _ | st
  · decide
  · cases st <;> decide

/-- The words of the index, the attempt count and the note, whose fields lie within their bytes. -/
theorem laneWord_bytes (s : State) (l : LaneNo) :
    (s.laneWord l 2).toNat = (s.lane l).first.val + 256 * (s.lane l).cur.val ∧
      (s.laneAttempts l ≤ 7 →
        (s.laneWord l 4).toNat = s.laneAttempts l + 256 * endStatusCode (s.lane l).endStatus) ∧
      ∀ n, (s.lane l).note = some n → n.merge ≤ 255 →
        (s.laneWord l 5).toNat = n.index.val + 256 * n.merge ∧ s.laneWord l 6 = n.label := by
  have hfirst := (s.lane l).first.isLt
  have hcur := (s.lane l).cur.isLt
  have hend := endStatusCode_le (s.lane l).endStatus
  refine ⟨?_, fun hattempts => ?_, fun n hnote hmerge => ⟨?_, ?_⟩⟩
  · rw [laneWord, BitVec.toNat_ofNat]
    omega
  · rw [laneWord, BitVec.toNat_ofNat]
    omega
  · have hindex := n.index.isLt
    simp only [laneWord, hnote, BitVec.toNat_ofNat]
    omega
  · simp only [laneWord, hnote]

end State

/-- Settles O15: the word of each address, and its fields by arithmetic on the sums they are formed as. -/
theorem stationAndLaneWordsShowTheirFields : Obligations.StationAndLaneWordsShowTheirFields := by
  refine ⟨by simp [StationState.code, LaneState.code, endStatusCode], fun s hreset hstreak hpass => ?_,
    fun s l hreset => ?_⟩
  · obtain ⟨hstatus, hconfig⟩ := State.hostRead_stationWords hreset
    exact ⟨⟨_, hstatus, State.stationStatusWord_fields hstreak hpass⟩, _, hconfig, s.configWord_fields⟩
  · have hread : ∀ j, j < 8 → s.hostRead (BitVec.ofNat 14 (0x3100 + 8 * l.val + j)) = s.laneWord l j :=
      fun j hj => State.hostRead_laneWord l hreset hj
    obtain ⟨hstate, hstop, hnote, hgoto, hrest⟩ := s.laneWord_state l
    obtain ⟨hindex, hattempts, hmerge⟩ := s.laneWord_bytes l
    simp only [hread, Nat.reduceLT]
    refine ⟨hstate, hstop, hnote, hgoto, hrest, rfl, hindex, rfl, hattempts, fun hnone => ?_, hmerge, fun hnone => ?_,
      fun t ht => ?_⟩
    · simp only [State.laneWord, hnone, and_self]
    · simp only [State.laneWord, hnone]
    · simp only [State.laneWord, ht]

/-! ## The head window (R148) -/

namespace State

theorem hostRead_headWord {s : State} (hreset : s.inReset = false) :
    s.hostRead 0x3160 = s.headWord 0 ∧ s.hostRead 0x3161 = s.headWord 1 ∧ s.hostRead 0x3162 = s.headWord 2 ∧
      s.hostRead 0x3163 = s.headWord 3 := by
  refine ⟨?_, ?_, ?_, ?_⟩
  all_goals
    rw [hostRead_high hreset (by decide)]
    simp

theorem headWord_of_empty {s : State} (h : s.queue = []) (j : Nat) : s.headWord j = 0 := by
  simp only [headWord, h]

theorem headWord_of_cons {s : State} {rec : Record} {rest : List Record} (h : s.queue = rec :: rest) (j : Nat) :
    s.headWord j = rec.word j := by
  simp only [headWord, h]

end State

theorem toNat_wordOf_bytes {lo hi : Nat} (hlo : lo < 256) (hhi : hi < 256) :
    (wordOf (BitVec.ofNat 8 lo) (BitVec.ofNat 8 hi)).toNat = lo + 256 * hi := by
  rw [toNat_wordOf, BitVec.toNat_ofNat, BitVec.toNat_ofNat, Nat.mod_eq_of_lt hlo, Nat.mod_eq_of_lt hhi, Nat.add_comm]

theorem toNat_wordOf_station (t : Station) : (wordOf (t.setWidth 8) 0).toNat = t.toNat := by
  have ht : t.toNat < 32 := t.isLt
  rw [toNat_wordOf, BitVec.toNat_setWidth]
  simp
  omega

theorem Status.code_lt (st : Status) : st.code < 14 := by cases st <;> decide

theorem eventCode_lt (k : StationEvent) : eventCode k < 5 := by cases k <;> decide

namespace Record

theorem word_chainEnd (c : ChainEnd) :
    ((chainEnd c).word 0).toNat = 1 + 256 * (c.lane.val + if c.folded then 128 else 0) ∧
      ((chainEnd c).word 1).toNat = c.status.code + 256 * c.last.val := by
  have hlane := c.lane.isLt
  have hcode := c.status.code_lt
  have hfolded : flagBit c.folded 7 ≤ 128 := by cases c.folded <;> decide
  exact ⟨toNat_wordOf_bytes (lo := 1) (by decide) (by omega), toNat_wordOf_bytes (by omega) c.last.isLt⟩

theorem word_note (l : LaneNo) (i : Index) (label tag : Word) {n : Nat} (h : n ≤ 255) :
    ((note l i label n tag).word 0).toNat = 2 + 256 * l.val ∧
      ((note l i label n tag).word 1).toNat = i.val + 256 * n := by
  have hlane := l.isLt
  exact ⟨toNat_wordOf_bytes (lo := 2) (by decide) (by omega), toNat_wordOf_bytes i.isLt (by omega)⟩

theorem word_watch (w : WatchNo) (r : RegionNo) (count : Word) {n : Nat} (own oc : Bool) (owner : Option Station)
    (h : n ≤ 255) :
    ((watch w r count n own oc owner).word 0).toNat =
        3 + 256 * (w.val + (if own then 64 else 0) + if oc then 128 else 0) ∧
      ((watch w r count n own oc owner).word 1).toNat = r.val + 256 * n ∧
      ((watch w r count n own oc owner).word 3).toNat = owner.elim 0xFF BitVec.toNat := by
  have hwatch := w.isLt
  have hregion := r.isLt
  have hown : flagBit own 6 ≤ 64 := by cases own <;> decide
  have hoc : flagBit oc 7 ≤ 128 := by cases oc <;> decide
  refine ⟨toNat_wordOf_bytes (lo := 3) (by decide) (by omega), toNat_wordOf_bytes (by omega) (by omega), ?_⟩
  rcases owner with _ | t
  · rfl
  · exact toNat_wordOf_station t

theorem word_station (k : StationEvent) {v n : Nat} (hv : v ≤ 255) (hn : n ≤ 255) :
    ((station k v n).word 0).toNat = 4 + 256 * eventCode k ∧ ((station k v n).word 1).toNat = v + 256 * n := by
  have hk := eventCode_lt k
  exact ⟨toNat_wordOf_bytes (lo := 4) (by decide) (by omega), toNat_wordOf_bytes (by omega) (by omega)⟩

theorem word_lost (r : RegionNo) (t : Station) :
    ((lost r t).word 0).toNat = 5 + 256 * r.val ∧ ((lost r t).word 1).toNat = t.toNat := by
  have hregion := r.isLt
  exact ⟨toNat_wordOf_bytes (lo := 5) (by decide) (by omega), toNat_wordOf_station t⟩

end Record

/-- Settles O23: the head window is the head record's words, each record's by the bytes it is made of. -/
theorem headWindowShowsTheHead : Obligations.HeadWindowShowsTheHead := by
  refine ⟨by decide, fun s hreset => ?_⟩
  obtain ⟨h0, h1, h2, h3⟩ := State.hostRead_headWord hreset
  rw [h0, h1, h2, h3]
  refine ⟨fun hqueue => ?_, fun c rest hqueue => ?_, fun l i label n tag rest hqueue hn => ?_,
    fun w r count n own oc owner rest hqueue hn => ?_, fun k v n rest hqueue hv hn => ?_, fun r t rest hqueue => ?_⟩
  · simp only [State.headWord_of_empty hqueue, and_self]
  all_goals simp only [State.headWord_of_cons hqueue]
  · obtain ⟨hkind, hstatus⟩ := Record.word_chainEnd c
    exact ⟨hkind, hstatus, rfl, rfl⟩
  · obtain ⟨hkind, hindex⟩ := Record.word_note l i label tag hn
    exact ⟨hkind, hindex, rfl, rfl⟩
  · obtain ⟨hkind, hregion, howner⟩ := Record.word_watch w r count own oc owner hn
    refine ⟨hkind, hregion, rfl, fun t => ⟨fun h => ?_, fun h => ?_⟩⟩
    · rw [howner, h]; rfl
    · rw [howner, h]; rfl
  · obtain ⟨hkind, hvalue⟩ := Record.word_station k hv hn
    exact ⟨hkind, hvalue, rfl, rfl⟩
  · obtain ⟨hkind, howner⟩ := Record.word_lost r t
    exact ⟨hkind, howner, rfl, rfl⟩

end Sys2Proof.Machine
end

section
/-! PROOFS. The lanes and the station events: how an entry completes and a chain ends, START, the expiry of a WAIT, and
what a change report and a station event do, and how the records of an event are handed over. -/

namespace Sys2Proof.Machine

set_option Elab.async false -- as in Tests/Slice0.lean: fewer threads, within the check's memory limit

/-! ## Completing an entry (R104 to R107, R124, R136) -/

namespace Lane

section Complete

variable (l : LaneNo) {st : Status} {x : Lane} {e : EntryCtx}

/-- The lane with the entry under way counted (R107, R124). -/
def counted (x : Lane) (e : EntryCtx) : Lane := { x with completed := min 65535 (x.completed + e.size) }

theorem ctx_of_entry (h : x.entry = some e) : x.ctx = e := by
  simp only [ctx, h]

variable (h : x.entry = some e)

include h

theorem complete_of_stop (hstop : x.stopPending = true) : x.complete l st = (x.counted e).endChain l .stopped := by
  simp only [complete, ctx_of_entry h, hstop, if_true]
  rfl

theorem complete_done_next (hstop : x.stopPending = false) (hnext : e.next = true) {i : Index}
    (hi : i.val = x.cur.val + 1) : x.complete l .done = (x.counted e).goOn i := by
  have hcur : x.cur.val < 255 := by have := i.isLt; omega
  have hindex : (⟨x.cur.val + 1, by omega⟩ : Index) = i := Fin.ext hi.symm
  simp only [complete, ctx_of_entry h, hstop, hnext, hcur, hindex, Bool.false_eq_true, if_false, if_true, dite_true]
  simp only [Lane.goOn, counted, satAdd, hstop]

theorem complete_done_last (hstop : x.stopPending = false) (hnext : e.next = true) (hcur : x.cur.val = 255) :
    x.complete l .done = (x.counted e).endChain l .badSequence := by
  simp only [complete, ctx_of_entry h, hstop, hnext, hcur, Bool.false_eq_true, if_false, if_true, lt_irrefl, dite_false]
  rfl

theorem complete_done_end (hstop : x.stopPending = false) (hnext : e.next = false) :
    x.complete l .done = (x.counted e).endChain l .done := by
  simp only [complete, ctx_of_entry h, hstop, hnext, Bool.false_eq_true, if_false, if_true]
  rfl

theorem complete_alt (hstop : x.stopPending = false) (hst : st ≠ .done) {i : Index} (halt : e.alt = some i) :
    x.complete l st = (x.counted e).goOn i := by
  simp only [complete, ctx_of_entry h, hstop, hst, halt, Bool.false_eq_true, if_false]
  simp only [Lane.goOn, counted, satAdd, hstop]

theorem complete_fail (hstop : x.stopPending = false) (hst : st ≠ .done) (halt : e.alt = none) :
    x.complete l st = (x.counted e).endChain l st := by
  simp only [complete, ctx_of_entry h, hstop, hst, halt, Bool.false_eq_true, if_false]
  rfl

end Complete

end Lane

/-- Settles O26: the branches of `Lane.complete`, and `Lane.endChain` field by field. -/
theorem entriesGoOnOrEnd : Obligations.EntriesGoOnOrEnd := by
  refine ⟨fun l st x e hentry => ⟨Lane.complete_of_stop l hentry, fun hstop => ⟨?_, fun hst => ?_⟩⟩, fun _ _ _ => rfl⟩
  · rintro rfl
    exact ⟨fun hnext i => Lane.complete_done_next l hentry hstop hnext, Lane.complete_done_last l hentry hstop,
      Lane.complete_done_end l hentry hstop⟩
  · exact ⟨fun i => Lane.complete_alt l hentry hstop hst, Lane.complete_fail l hentry hstop hst⟩

/-! ## START and the expiry of a WAIT (R119, R128) -/

namespace State

theorem lane_completeLane (s : State) (l : LaneNo) (st : Status) (k : LaneNo) :
    (s.completeLane l st).lane k = if k = l then (s.lane l).complete l st else s.lane k :=
  lane_modifyLane s l k _

theorem start_of_bad_parameter {s : State} (h : 255 < s.p0.toNat) : s.start = s.answer .badParameter 0 :=
  dif_neg (by omega)

theorem start_of_wrong_state {s : State} (h : s.p0.toNat ≤ 255) (hjoining : s.stationState ≠ .joining)
    (hactive : s.stationState ≠ .active) : s.start = s.answer .wrongState 0 := by
  rw [start, dif_pos h]
  split
  next hstate => exact absurd hstate hjoining
  next hstate => exact absurd hstate hactive
  all_goals rfl

theorem freeLane_eq_none {s : State} (h : ∀ l, (s.lane l).state ≠ .free) : s.freeLane = none :=
  List.find?_eq_none.2 fun l _ => by simpa using h l

/-- The lowest-numbered FREE lane is the one with no FREE lane below it (R128). -/
theorem freeLane_eq_some {s : State} {l : LaneNo} (h : (s.lane l).state = .free)
    (hlow : ∀ k, k < l → (s.lane k).state ≠ .free) : s.freeLane = some l := by
  rw [freeLane, ← Fin.find?_eq_find?_finRange, Fin.find?_eq_some_iff]
  exact ⟨decide_eq_true h, fun k hk => decide_eq_false (hlow k hk)⟩

theorem start_of_joining_or_active {s : State} {i : Index} (hi : s.p0.toNat = i.val)
    (hstate : s.stationState = .joining ∨ s.stationState = .active) :
    (s.freeLane = none → s.start = s.answer .noLane 0) ∧
      ∀ l, s.freeLane = some l → s.start = (s.setLane l (startedLane i s.p1)).answer .ok (BitVec.ofNat 8 l.val) := by
  have hp0 : s.p0.toNat ≤ 255 := by have := i.isLt; omega
  have hindex : (⟨s.p0.toNat, by omega⟩ : Index) = i := Fin.ext hi
  rw [start, dif_pos hp0]
  rcases hstate with hstate | hstate
  · simp only [hstate]
    exact ⟨fun hfree => by simp only [hfree], fun l hfree => by simp only [hfree, hindex]⟩
  · simp only [hstate]
    exact ⟨fun hfree => by simp only [hfree], fun l hfree => by simp only [hfree, hindex]⟩

theorem waitTimeout_of_waiting {s : State} {l : LaneNo} (hstate : (s.lane l).state = .waiting)
    (hdeadline : (s.lane l).deadline.isSome = true) : s.waitTimeout l = (s.completeLane l .waitTimeout).settle :=
  if_pos ⟨hstate, hdeadline⟩

theorem waitTimeout_of_other {s : State} {l : LaneNo} (h : (s.lane l).state ≠ .waiting ∨ (s.lane l).deadline = none) :
    s.waitTimeout l = s := by
  refine if_neg fun ⟨hstate, hdeadline⟩ => ?_
  rcases h with h | h
  · exact h hstate
  · rw [h] at hdeadline
    cases hdeadline

end State

/-- Settles O24: the checks of `State.start` in their order. -/
theorem startTakesAFreeLane : Obligations.StartTakesAFreeLane := by
  intro s hreset
  simp only [exec_start hreset, Host.Outcome.next.injEq]
  refine ⟨State.start_of_bad_parameter, State.start_of_wrong_state, fun hp0 hstate hnone => ?_,
    fun l i hi hstate hfree hlow => ?_⟩
  · obtain ⟨hno, -⟩ := State.start_of_joining_or_active (i := ⟨s.p0.toNat, by omega⟩) rfl hstate
    exact hno (State.freeLane_eq_none hnone)
  · obtain ⟨-, hsome⟩ := State.start_of_joining_or_active hi hstate
    refine ⟨_, rfl, ?_⟩
    rw [hsome l (State.freeLane_eq_some hfree hlow)]
    exact ⟨fun k => State.lane_setLane s l k _, rfl⟩

/-- Settles O27: the expiry completes the lane's entry, or the lane hears nothing. -/
theorem waitTimeoutCompletesTheWait : Obligations.WaitTimeoutCompletesTheWait := by
  intro s l hreset
  simp only [exec_waitTimeout l hreset, Host.Outcome.next.injEq]
  refine ⟨fun hstate hdeadline => ⟨s.completeLane l .waitTimeout, State.waitTimeout_of_waiting hstate hdeadline,
    s.lane_completeLane l .waitTimeout, rfl⟩, State.waitTimeout_of_other⟩

/-! ## Station events (R155) -/

/-- Settles O20: the set keeps one event of each kind. -/
theorem stationEventsMerge : Obligations.StationEventsMerge := by
  intro s k v
  refine ⟨fun hnone => ?_, fun e hsome => ?_, fun j hj => ?_, rfl⟩
  · simp only [State.handEvent, State.get_put, hnone, if_true]
  · simp only [State.handEvent, State.get_put, hsome, if_true, satAdd]
  · simp only [State.handEvent, State.get_put, hj, if_false]

/-! ## Change reports (R13, R118, R158 to R160) -/

theorem WatchMode.hears_iff (m : WatchMode) (rep : ChangeReport) : m.hears rep = true ↔ m.Matches rep := by
  cases m with
  | content => exact Iff.rfl
  | peer => simp [hears, Matches]
  | owner => exact Iff.rfl

namespace State

theorem watch_report (s : State) (rep : ChangeReport) (w : WatchNo) :
    (s.report rep).watch w = (s.watch w).take rep := by
  rw [report, reportWatches, watch_mapWatches]
  simp [watch]

theorem lane_report (s : State) (rep : ChangeReport) (l : LaneNo) :
    (s.report rep).lane l = (s.reportLanes rep.region).lane l := by
  simp [report, lane]

theorem lane_reportLanes_of_wait {s : State} {r : RegionNo} {l : LaneNo} {c : WaitCond}
    (hwait : (s.lane l).wait = some c) :
    (s.reportLanes r).lane l =
      if (s.lane l).state = .waiting ∧ c.region = r ∧ s.waitHolds c = true then (s.lane l).complete l .done
      else s.lane l := by
  simp only [reportLanes, lane_mapLanes, hwait]

theorem lane_reportLanes_of_no_wait {s : State} {r : RegionNo} {l : LaneNo} (hwait : (s.lane l).wait = none) :
    (s.reportLanes r).lane l = s.lane l := by
  simp only [reportLanes, lane_mapLanes, hwait]

theorem lane_report_other {s : State} {rep : ChangeReport} {l : LaneNo}
    (h : (s.lane l).state ≠ .waiting ∨
      ∀ c, (s.lane l).wait = some c → c.region ≠ rep.region ∨ ¬ s.WaitTest c) :
    (s.report rep).lane l = s.lane l := by
  rw [lane_report]
  rcases hwait : (s.lane l).wait with _ | c
  · exact lane_reportLanes_of_no_wait hwait
  · rw [lane_reportLanes_of_wait hwait, if_neg]
    rintro ⟨hstate, hregion, hholds⟩
    rcases h with h | h
    · exact h hstate
    · rcases h c hwait with h | h
      · exact h hregion
      · exact h ((waitHolds_iff s c).1 hholds)

end State

namespace Watch

variable {w : Watch} {rep : ChangeReport}

theorem take_other (h : w.region ≠ rep.region ∨ w.state = .off ∨ ¬ w.mode.Matches rep) : w.take rep = w := by
  unfold take
  split
  next hmatch =>
    obtain ⟨hregion, hhears⟩ := hmatch
    rcases h with h | h | h
    · exact absurd hregion h
    · simp only [h]
    · exact absurd ((w.mode.hears_iff rep).1 hhears) h
  next => rfl

theorem take_armed (hregion : w.region = rep.region) (hmode : w.mode.Matches rep) (hstate : w.state = .armed) :
    w.take rep = { w with state := .pending, changes := 1, own := rep.own, ownerChanged := rep.owner } := by
  rw [take, if_pos ⟨hregion, (w.mode.hears_iff rep).2 hmode⟩]
  simp only [hstate]

theorem take_pending (hregion : w.region = rep.region) (hmode : w.mode.Matches rep) (hstate : w.state = .pending) :
    w.take rep =
      { w with changes := min 255 (w.changes + 1), own := w.own || rep.own
               ownerChanged := w.ownerChanged || rep.owner } := by
  rw [take, if_pos ⟨hregion, (w.mode.hears_iff rep).2 hmode⟩]
  simp only [hstate, satAdd]

end Watch

/-- Settles O21: `Watch.take` for each watch, and the WAIT conditions for each lane. -/
theorem changeReportsReachWatchesAndLanes : Obligations.ChangeReportsReachWatchesAndLanes := by
  refine ⟨fun s rep w => ?_,
    fun s rep => ⟨fun l c hstate hwait hregion htest => ?_, fun l => State.lane_report_other, rfl⟩⟩
  · simp only [State.watch_report]
    exact ⟨Watch.take_other, fun hregion hmode => ⟨Watch.take_armed hregion hmode, Watch.take_pending hregion hmode⟩⟩
  · rw [State.lane_report, State.lane_reportLanes_of_wait hwait,
      if_pos ⟨hstate, hregion, (State.waitHolds_iff s c).2 htest⟩]

namespace State

/-! ## Handing records over (R152, R153) -/

/-- `t` is `s` after some records are posted: the queue grew at its tail, and a producer keeps its record or has it
among them. -/
def Posted (t s : State) : Prop :=
  ∃ posted, t.queue = s.queue ++ posted ∧
    ∀ p, t.recordOf p = s.recordOf p ∨
      t.recordOf p = none ∧ ∃ rec, s.recordOf p = some rec ∧ rec ∈ posted

theorem Posted.refl (s : State) : s.Posted s := ⟨[], by simp, fun _ => .inl rfl⟩

theorem Posted.trans {s t u : State} (h : t.Posted s) (h' : u.Posted t) : u.Posted s := by
  obtain ⟨xs, hxs, hx⟩ := h
  obtain ⟨ys, hys, hy⟩ := h'
  refine ⟨xs ++ ys, by rw [hys, hxs, List.append_assoc], fun p => ?_⟩
  rcases hx p with hkept | ⟨hnone, rec, hrec, hmem⟩
  · rcases hy p with hkept' | ⟨hnone', rec, hrec, hmem⟩
    · exact .inl (hkept'.trans hkept)
    · exact .inr ⟨hnone', rec, hkept ▸ hrec, List.mem_append_right xs hmem⟩
  · refine .inr ⟨?_, rec, hrec, List.mem_append_left ys hmem⟩
    rcases hy p with hkept' | ⟨hnone', -⟩
    · rw [hkept', hnone]
    · exact hnone'

theorem posted_serve (s : State) (p : Producer) : (s.serve p).Posted s := by
  refine ⟨(s.recordOf p).toList, queue_serve s p, fun q => ?_⟩
  rw [recordOf_serve]
  split
  next h =>
    subst h
    rcases hrec : s.recordOf q with _ | rec
    · exact .inl rfl
    · exact .inr ⟨rfl, rec, rfl, by simp⟩
  next => exact .inl rfl

theorem posted_offer (s : State) (p : Producer) : (s.offer p).Posted s := by
  unfold offer
  split
  · exact posted_serve s p
  · exact .refl s

theorem posted_foldl_offer (ps : List Producer) : ∀ s : State, (ps.foldl offer s).Posted s := by
  induction ps with
  | nil => exact .refl
  | cons p ps ih => exact fun s => (posted_offer s p).trans (ih (s.offer p))

theorem posted_settle (s : State) : s.settle.Posted s := by
  obtain ⟨posted, hqueue, hrecords⟩ :=
    posted_foldl_offer (s.schedule.flatMap s.turns) { s with choices := s.choices + 1 }
  exact ⟨posted, hqueue, hrecords⟩

theorem settle_of_one_record {s : State} {p : Producer} {rec : Record} (hroom : s.queue.length < 32)
    (hwait : s.waiting = [p]) (hrec : s.recordOf p = some rec) :
    s.settle = { s.clearProducer p with queue := s.queue ++ [rec], choices := s.choices + 1 } := by
  rw [settle_of_one s p ((hasRoom_iff s).2 hroom) hwait,
    serve_of_some (rec := rec) ((recordOf_choices s _ p).trans hrec)]
  cases p <;> rfl

/-! ### Two watches that fire on one report (log 3) -/

/-- Every `q` of the list comes after a `p`. -/
def Precedes (p q : Producer) (ps : List Producer) : Prop := ∀ pre post, ps = pre ++ q :: post → p ∈ pre

theorem Precedes.append {p q : Producer} {xs ys : List Producer} (hx : Precedes p q xs) (hy : Precedes p q ys) :
    Precedes p q (xs ++ ys) := by
  intro pre post h
  rcases List.append_eq_append_iff.1 h with ⟨zs, hpre, hrest⟩ | ⟨zs, hxs, hrest⟩
  · rw [hpre]
    exact List.mem_append_right xs (hy zs post hrest)
  · rcases zs with _ | ⟨z, zs⟩
    · exact absurd (hy [] post hrest.symm) List.not_mem_nil
    · simp only [List.cons_append, List.cons.injEq] at hrest
      obtain ⟨rfl, -⟩ := hrest
      exact hx pre zs hxs

theorem Precedes.flatMap {p q : Producer} {f : Producer → List Producer} (h : ∀ x, Precedes p q (f x)) :
    ∀ xs : List Producer, Precedes p q (xs.flatMap f)
  | [] => fun pre post hnil => by simp at hnil
  | x :: xs => by
    rw [List.flatMap_cons]
    exact (h x).append (Precedes.flatMap h xs)

/-- In the turns of a producer a lower watch on the same region comes first (R159). -/
theorem precedes_turns {s : State} {v w : WatchNo} (hlt : v < w) (hregion : (s.watch v).region = (s.watch w).region)
    (x : Producer) : Precedes (.watch v) (.watch w) (s.turns x) := by
  intro pre post h
  have hw : Producer.watch w ∈ s.turns x := by rw [h]; simp
  cases x with
  | watch y =>
    simp only [turns, List.mem_map, List.mem_filter, List.mem_finRange, true_and, Bool.and_eq_true, decide_eq_true_eq,
      Producer.watch.injEq, exists_eq_right] at hw
    obtain ⟨hwy, hregionw⟩ := hw
    have hv : Producer.watch v ∈ s.turns (.watch y) := by
      simp only [turns, List.mem_map, List.mem_filter, List.mem_finRange, true_and, Bool.and_eq_true,
        decide_eq_true_eq, Producer.watch.injEq, exists_eq_right]
      exact ⟨(le_of_lt hlt).trans hwy, hregion.trans hregionw⟩
    have hsorted : (s.turns (.watch y)).Pairwise fun p q => producerRank p < producerRank q := by
      rw [turns, List.pairwise_map]
      exact ((List.pairwise_lt_finRange 16).filter _).imp fun hab => by
        simp only [producerRank]
        omega
    rw [h] at hv hsorted
    rcases List.mem_append.1 hv with hpre | hpost
    · exact hpre
    · rcases List.mem_cons.1 hpost with heq | hpost
      · exact absurd (Producer.watch.inj heq) (ne_of_lt hlt)
      · have hrank := List.rel_of_pairwise_cons (List.Pairwise.sublist (List.sublist_append_right pre _) hsorted) hpost
        have hval : v.val < w.val := hlt
        simp only [producerRank] at hrank
        omega
  | event k | lost r | chainEnd l | note l => simp [turns] at hw

/-- Two records alone wait, with room for both: offering producers of which the one has its turn before the other posts
them in this order. -/
theorem queue_foldl_offer_of_two {s : State} {p q : Producer} {a b : Record} {ps : List Producer}
    (hrest : ∀ x, x ≠ p → x ≠ q → s.recordOf x = none) (hne : p ≠ q) (ha : s.recordOf p = some a)
    (hb : s.recordOf q = some b) (hroom : s.queue.length + 2 ≤ 32) (hmem : q ∈ ps) (hfirst : Precedes p q ps) :
    (ps.foldl offer s).queue = s.queue ++ [a, b] := by
  obtain ⟨before, post, rfl, hq⟩ := List.eq_append_cons_of_mem hmem
  obtain ⟨pre, mid, rfl, hp⟩ := List.eq_append_cons_of_mem (hfirst before post rfl)
  have hpre : pre.foldl offer s = s := foldl_offer_of_none pre s fun x hx =>
    hrest x (fun heq => hp (heq ▸ hx)) fun heq => hq (heq ▸ List.mem_append_left _ hx)
  have hoffer : s.offer p = s.serve p := if_pos ((hasRoom_iff s).2 (by omega))
  have hqueue : (s.serve p).queue = s.queue ++ [a] := by rw [queue_serve, ha]; rfl
  have hmid : mid.foldl offer (s.serve p) = s.serve p := foldl_offer_of_none mid _ fun x hx => by
    have hxq : x ≠ q := fun heq => hq (heq ▸ by simp [hx])
    rw [recordOf_serve]
    split
    next => rfl
    next hxp => exact hrest x hxp hxq
  have hoffer' : (s.serve p).offer q = (s.serve p).serve q :=
    if_pos ((hasRoom_iff _).2 (by rw [hqueue, List.length_append, List.length_singleton]; omega))
  have hqueue' : ((s.serve p).serve q).queue = s.queue ++ [a, b] := by
    rw [queue_serve, hqueue, recordOf_serve, if_neg hne.symm, hb]
    simp
  have hpost : post.foldl offer ((s.serve p).serve q) = (s.serve p).serve q := foldl_offer_of_none post _ fun x _ => by
    rw [recordOf_serve, recordOf_serve]
    split
    next => rfl
    next hxq =>
      split
      next => rfl
      next hxp => exact hrest x hxp hxq
  simp only [List.foldl_append, List.foldl_cons, hpre, hoffer, hmid, hoffer', hpost, hqueue']

theorem recordOf_eq_none_of_not_waiting {s : State} {p : Producer} (h : p ∉ s.waiting) : s.recordOf p = none := by
  by_contra hne
  exact h ((mem_waiting s p).2 (Option.isSome_iff_ne_none.2 hne))

theorem queue_settle_of_two_watches {s : State} {v w : WatchNo} {a b : Record} (hlt : v < w)
    (hregion : (s.watch v).region = (s.watch w).region) (hwait : s.waiting = [.watch v, .watch w])
    (ha : s.recordOf (.watch v) = some a) (hb : s.recordOf (.watch w) = some b) (hroom : s.queue.length + 2 ≤ 32) :
    s.settle.queue = s.queue ++ [a, b] := by
  have hturn : Producer.watch w ∈ s.schedule :=
    s.mem_schedule ((hasRoom_iff s).2 (by omega)) _ (by rw [hwait]; simp)
  exact queue_foldl_offer_of_two (s := { s with choices := s.choices + 1 })
    (fun x hxv hxw => show s.recordOf x = none from
      recordOf_eq_none_of_not_waiting (by rw [hwait]; simp [hxv, hxw]))
    (fun heq => absurd (Producer.watch.inj heq) (ne_of_lt hlt)) ha hb hroom
    (List.mem_flatMap.2 ⟨_, hturn, s.mem_turns _⟩) (Precedes.flatMap (precedes_turns hlt hregion) _)

end State

/-- Settles O19: the record each producer keeps, the posting of one record after another, and the turns of two watches
on one region. -/
theorem recordsAreHandedOver : Obligations.RecordsAreHandedOver := by
  refine ⟨fun s => ⟨fun _ => rfl, fun _ => rfl, fun l c hstate hheld => ?_, fun l h => ?_, fun _ => rfl, fun w h => ?_,
    fun w h => ?_, fun p => ⟨rfl, State.mem_waiting s p⟩, s.waiting_pairwise_rank_lt⟩, fun s => ⟨fun h => ?_,
    fun p rec => State.settle_of_one_record, State.queueOk_settle, s.posted_settle⟩,
    fun s v w a b => State.queue_settle_of_two_watches⟩
  · simp only [State.recordOf, hstate, hheld, if_true, Option.map_some]
  · rcases h with h | h
    · simp only [State.recordOf, h, if_false]
    · simp only [State.recordOf, h, Option.map_none, ite_self]
  · simp only [State.recordOf, h, if_false]
  · simp only [State.recordOf, h, if_true]
  · rcases h with h | h
    · exact State.settle_of_full s ((State.hasRoom_false_iff s).2 h)
    · exact State.settle_of_none s h

end Sys2Proof.Machine
end

section
/-! PROOFS. Frames and the line code (R27, R32, R38, R39): access keys, the check word bit by bit, the check of received
bytes, and the cells of a frame. -/

namespace Sys2Proof.Machine

set_option Elab.async false -- as in Tests/Slice0.lean: fewer threads, within the check's memory limit

/-! ## Access keys (R32) -/

theorem FrameBody.keyClass_le (b : FrameBody) : b.keyClass ≤ 3 := by
  cases b with
  | join | leave | claim | release | ask | image | update => simp [FrameBody.keyClass]

theorem Frame.toNat_key (f : Frame) : f.key.toNat = 32 * f.body.keyClass + f.sender.toNat := by
  have hsender : f.sender.toNat < 32 := f.sender.isLt
  have hclass := f.body.keyClass_le
  rw [Frame.key, BitVec.toNat_ofNat]
  omega

/-- Settles O28: the key leaves five bits for the number. -/
theorem accessKeysAreClassAndNumber : Obligations.AccessKeysAreClassAndNumber := by
  refine ⟨fun f => ⟨f.toNat_key, rfl⟩, fun _ _ _ _ _ _ _ => ⟨rfl, rfl, rfl, rfl, rfl, rfl, rfl⟩, fun f g hclass => ?_⟩
  have hsender : f.sender.toNat < 32 := f.sender.isLt
  rw [f.toNat_key, g.toNat_key]
  omega

/-! ## The cells of a frame (R27) -/

namespace LineCode

theorem take_startSymbol (cells : List Bool) : (startSymbol ++ cells).take 7 = startSymbol := rfl

theorem drop_startSymbol (cells : List Bool) : (startSymbol ++ cells).drop 7 = cells := rfl

theorem splitBoundary_boundary (coded tail : List Bool) :
    splitBoundary coded.reverse (boundary ++ tail) = some (coded, tail) := by
  simp [boundary, splitBoundary]

theorem splitBoundary_codedPart (bytes : List Byte) (tail : List Bool) :
    splitBoundary [] (codedPart bytes ++ (boundary ++ tail)) = some (codedPart bytes, tail) := by
  rw [codedPart, splitBoundary_stuff _ _ true 0 [] (by omega) (by simp [leadingRecessive]), List.append_nil,
    splitBoundary_boundary]

end LineCode

open LineCode in
/-- Settles O57: the receiver finds the boundary behind the stuffed cells, and unstuffs them to the bytes. -/
theorem framesArriveThroughTheLineCode : Obligations.FramesArriveThroughTheLineCode := by
  intro bytes a b hlength
  have hcells : startSymbol ++ codedPart bytes ++ boundary ++ [a, b] ++ [false] =
      startSymbol ++ (codedPart bytes ++ (boundary ++ [a, b, false])) := by
    simp only [List.append_assoc, List.cons_append, List.nil_append]
  rw [hcells, receive, take_startSymbol, drop_startSymbol, if_pos rfl, splitBoundary_codedPart]
  simp only [codedPart, destuff_stuff, bytesOf_bitsOf, hlength, if_true]

/-! ## The check word (R38) -/

/-- One bit of the check word, the bits still to come folded in above it: they go on unchanged. -/
theorem crcShift_xor (c x : Word) :
    crcShift (c ^^^ x) = (if c.msb = x.msb then c <<< 1 else (c <<< 1) ^^^ 0x1021) ^^^ (x <<< 1) := by
  rw [crcShift, BitVec.msb_xor, BitVec.shiftLeft_xor_distrib]
  rcases hc : c.msb <;> rcases hx : x.msb
  · simp
  · simp only [Bool.false_xor, if_true, Bool.false_eq_true, if_false]
    ac_rfl
  · simp only [Bool.true_xor, Bool.not_false, if_true, Bool.true_eq_false, if_false]
    ac_rfl
  · simp

/-- The bit that is next after k shifts of the byte in the high half of the word. -/
theorem msb_shifted_byte (b : Byte) {k : Nat} (hk : k ≤ 7) :
    (b.setWidth 16 <<< (8 + k) : Word).msb = b.getLsbD (7 - k) := by
  have hindex : 15 - (8 + k) = 7 - k := by omega
  have hlow : ¬ 15 < 8 + k := by omega
  simp [BitVec.msb_eq_getLsbD_last, hindex, hlow]

/-- The check word after bit j of a byte (R38). -/
def crcBit (b : Byte) (c : Word) (j : Nat) : Word :=
  if c.msb = b.getLsbD j then c <<< 1 else (c <<< 1) ^^^ 0x1021

theorem crcShift_xor_byte (b : Byte) (c : Word) {k : Nat} (hk : k ≤ 7) :
    crcShift (c ^^^ (b.setWidth 16 <<< (8 + k))) = crcBit b c (7 - k) ^^^ (b.setWidth 16 <<< (8 + (k + 1))) := by
  rw [crcShift_xor, msb_shifted_byte b hk, ← BitVec.shiftLeft_add]
  rfl

theorem crcByte_eq_foldl (c : Word) (b : Byte) : crcByte c b = [7, 6, 5, 4, 3, 2, 1, 0].foldl (crcBit b) c := by
  have hend : (b.setWidth 16 <<< (8 + (7 + 1)) : Word) = 0#16 := BitVec.shiftLeft_eq_zero (by decide)
  have hstart : crcByte c b = crcShift (crcShift (crcShift (crcShift (crcShift (crcShift (crcShift (crcShift
      (c ^^^ (b.setWidth 16 <<< (8 + 0)))))))))) := rfl
  rw [hstart, crcShift_xor_byte b c (k := 0) (by decide), crcShift_xor_byte b _ (k := 1) (by decide),
    crcShift_xor_byte b _ (k := 2) (by decide), crcShift_xor_byte b _ (k := 3) (by decide),
    crcShift_xor_byte b _ (k := 4) (by decide), crcShift_xor_byte b _ (k := 5) (by decide),
    crcShift_xor_byte b _ (k := 6) (by decide), crcShift_xor_byte b _ (k := 7) (by decide), hend, BitVec.xor_zero]
  rfl

theorem toNat_hiByte (w : Word) : (hiByte w).toNat = w.toNat / 256 := by
  have hw := w.isLt
  rw [hiByte, BitVec.toNat_setWidth, BitVec.toNat_ushiftRight, Nat.shiftRight_eq_div_pow]
  omega

theorem toNat_loByte (w : Word) : (loByte w).toNat = w.toNat % 256 := by
  rw [loByte, BitVec.toNat_setWidth]

/-- A received check word is right: its bytes most significant first (R38). -/
theorem checkBytes_eq_iff (hi lo : Byte) (w : Word) : [hi, lo] = [hiByte w, loByte w] ↔ wordOf lo hi = w := by
  refine ⟨fun h => ?_, fun h => ?_⟩
  · simp only [List.cons.injEq, and_true] at h
    obtain ⟨rfl, rfl⟩ := h
    exact wordOf_loByte_hiByte w
  · subst h
    have hlo := lo.isLt
    have hhi : hi = hiByte (wordOf lo hi) := BitVec.eq_of_toNat_eq (by rw [toNat_hiByte, toNat_wordOf]; omega)
    have hlo' : lo = loByte (wordOf lo hi) := BitVec.eq_of_toNat_eq (by rw [toNat_loByte, toNat_wordOf]; omega)
    rw [← hhi, ← hlo']

/-! ## The check of received bytes (R38, R39) -/

/-- A built frame's bytes, part by part. -/
theorem checkFrame_bytes (f : Frame) (h : f.body.wf) : checkFrame f.bytes = some f ∧ f.bytes.length ≤ 136 := by
  have hlength := frameBody_bytes_length f.body h
  have hkind : (BitVec.ofNat 8 f.body.kindCode : Byte).toNat = f.body.kindCode := by
    rw [BitVec.toNat_ofNat]
    cases f.body with
    | join | leave | claim | release | ask | image | update => rfl
  have hsender : f.sender.toNat < 32 := f.sender.isLt
  constructor
  · have hclass : f.key.toNat / 32 = f.body.keyClass := by rw [f.toNat_key]; omega
    have hnumber : f.key.setWidth 5 = f.sender :=
      BitVec.eq_of_toNat_eq (by rw [BitVec.toNat_setWidth, f.toNat_key]; omega)
    have hparts := checkFrame_parts f.key (BitVec.ofNat 8 f.body.kindCode) f.body.bytes
      (hiByte (checkWord f.content)) (loByte (checkWord f.content))
    have hcontent : f.key :: BitVec.ofNat 8 f.body.kindCode :: f.body.bytes = f.content := rfl
    rw [if_neg (by omega), hcontent, if_pos rfl, hkind, parseBody_bytes f.body h] at hparts
    simp only [hclass, if_true, hnumber] at hparts
    exact hparts
  · simp only [Frame.bytes, Frame.content, List.length_append, List.length_cons, List.length_nil]
    omega

/-- Fewer than the four bytes of key, kind and check word, or more than the longest frame's. -/
theorem checkFrame_of_length {bytes : List Byte} (h : bytes.length < 4 ∨ 136 < bytes.length) :
    checkFrame bytes = none := by
  unfold checkFrame
  split
  next => rfl
  next hlong =>
    extract_lets content
    have hcontent : content.length < 2 := by
      rw [List.length_take]
      omega
    clear_value content
    rcases content with _ | ⟨key, _ | ⟨kind, body⟩⟩
    · simp only [ite_self]
    · simp only [ite_self]
    · simp at hcontent

/-- A received frame is clean exactly if its check word is right and its body reads, with a key of the body's class. -/
theorem checkFrame_eq_some_iff (key kind : Byte) (body : List Byte) (hi lo : Byte) (f : Frame) :
    checkFrame (key :: kind :: (body ++ [hi, lo])) = some f ↔
      wordOf lo hi = checkWord (key :: kind :: body) ∧ parseBody kind.toNat body = some f.body ∧
        key.toNat / 32 = f.body.keyClass ∧ f.sender = key.setWidth 5 := by
  rw [checkFrame_parts, ← checkBytes_eq_iff]
  constructor
  · intro h
    split at h
    next => cases h
    next =>
      split at h
      next hcheck =>
        split at h
        next b hparse =>
          split at h
          next hclass =>
            cases h
            exact ⟨hcheck, hparse, hclass, rfl⟩
          next => cases h
        next => cases h
      next => cases h
  · rintro ⟨hcheck, hparse, hclass, hsender⟩
    have hlength := length_of_parseBody hparse
    rw [if_neg (by omega), if_pos hcheck, hparse]
    simp only [hclass, if_true, ← hsender]

section ParseBody

variable {body : List Byte} {b : FrameBody}

theorem parseBody_join_iff : parseBody 0 body = some b ↔ body = [] ∧ b = .join := by
  rcases body with _ | ⟨x, body⟩
  · simp [parseBody, eq_comm]
  · simp [parseBody]

theorem parseBody_leave_iff : parseBody 1 body = some b ↔ body = [] ∧ b = .leave := by
  rcases body with _ | ⟨x, body⟩
  · simp [parseBody, eq_comm]
  · simp [parseBody]

theorem parseBody_claim_iff :
    parseBody 2 body = some b ↔ ∃ x, body = [x] ∧ b = .claim x.msb (regionOf x.toNat) := by
  rcases body with _ | ⟨x, _ | ⟨y, body⟩⟩
  · simp [parseBody]
  · simp [parseBody, eq_comm]
  · simp [parseBody]

theorem parseBody_release_iff :
    parseBody 3 body = some b ↔ ∃ x, body = [x] ∧ b = .release (regionOf x.toNat) := by
  rcases body with _ | ⟨x, _ | ⟨y, body⟩⟩
  · simp [parseBody]
  · simp [parseBody, eq_comm]
  · simp [parseBody]

theorem parseBody_ask_iff :
    parseBody 4 body = some b ↔
      ∃ x y, body = [x, y] ∧ x.toNat + (y.toNat + 1) ≤ 128 ∧ b = .ask x.toNat (y.toNat + 1) := by
  rcases body with _ | ⟨x, _ | ⟨y, _ | ⟨z, body⟩⟩⟩
  · simp [parseBody]
  · simp [parseBody]
  · simp [parseBody, eq_comm]
  · simp [parseBody]

theorem parseBody_image_iff :
    parseBody 5 body = some b ↔
      ∃ r o hi lo data, body = r :: o :: hi :: lo :: data ∧ data.length = 128 ∧
        b = .image (regionOf r.toNat) (ownerOfByte o) (wordOf lo hi) data := by
  rcases body with _ | ⟨r, _ | ⟨o, _ | ⟨hi, _ | ⟨lo, data⟩⟩⟩⟩
  · simp [parseBody]
  · simp [parseBody]
  · simp [parseBody]
  · simp [parseBody]
  · simp [parseBody, eq_comm]

theorem parseBody_update_iff :
    parseBody 6 body = some b ↔
      ∃ r k n data, body = r :: k :: n :: data ∧ data.length = n.toNat + 1 ∧ k.toNat + (n.toNat + 1) ≤ 128 ∧
        b = .update (regionOf r.toNat) k.toNat data := by
  rcases body with _ | ⟨r, _ | ⟨k, _ | ⟨n, data⟩⟩⟩
  · simp [parseBody]
  · simp [parseBody]
  · simp [parseBody]
  · simp [parseBody, eq_comm, and_assoc]

theorem parseBody_of_no_kind {kind : Nat} (h : 6 < kind) : parseBody kind body = none := by
  unfold parseBody
  split
  case h_8 => rfl
  all_goals omega

/-! What a body of each kind must be to be read, with the class its key must have (R39). -/

theorem reads_join_or_leave_iff {kind c : Nat} (h : kind = 0 ∨ kind = 1) :
    (∃ b, parseBody kind body = some b ∧ c = b.keyClass) ↔ c = 0 ∧ body.length = 0 := by
  rcases h with rfl | rfl
  · simp [parseBody_join_iff, FrameBody.keyClass, and_comm]
  · simp [parseBody_leave_iff, FrameBody.keyClass, and_comm]

theorem reads_claim_or_release_iff {kind c : Nat} (h : kind = 2 ∨ kind = 3) :
    (∃ b, parseBody kind body = some b ∧ c = b.keyClass) ↔ c = 1 ∧ body.length = 1 := by
  rw [List.length_eq_one_iff]
  rcases h with rfl | rfl
  · simp only [parseBody_claim_iff]
    constructor
    · rintro ⟨_, ⟨x, hx, rfl⟩, hc⟩
      exact ⟨hc, x, hx⟩
    · rintro ⟨hc, x, hx⟩
      exact ⟨_, ⟨x, hx, rfl⟩, hc⟩
  · simp only [parseBody_release_iff]
    constructor
    · rintro ⟨_, ⟨x, hx, rfl⟩, hc⟩
      exact ⟨hc, x, hx⟩
    · rintro ⟨hc, x, hx⟩
      exact ⟨_, ⟨x, hx, rfl⟩, hc⟩

theorem reads_ask_iff {c : Nat} :
    (∃ b, parseBody 4 body = some b ∧ c = b.keyClass) ↔
      c = 1 ∧ body.length = 2 ∧ (body.getD 0 0).toNat + ((body.getD 1 0).toNat + 1) ≤ 128 := by
  simp only [parseBody_ask_iff]
  constructor
  · rintro ⟨_, ⟨x, y, rfl, hrange, rfl⟩, hc⟩
    exact ⟨hc, rfl, hrange⟩
  · rintro ⟨hc, hlength, hrange⟩
    obtain ⟨x, y, rfl⟩ := List.length_eq_two.1 hlength
    exact ⟨_, ⟨x, y, rfl, hrange, rfl⟩, hc⟩

theorem reads_image_iff {c : Nat} :
    (∃ b, parseBody 5 body = some b ∧ c = b.keyClass) ↔ c = 2 ∧ body.length = 132 := by
  simp only [parseBody_image_iff]
  constructor
  · rintro ⟨_, ⟨r, o, hi, lo, data, rfl, hdata, rfl⟩, hc⟩
    exact ⟨hc, by simp [hdata]⟩
  · rintro ⟨hc, hlength⟩
    rcases body with _ | ⟨r, _ | ⟨o, _ | ⟨hi, _ | ⟨lo, data⟩⟩⟩⟩
    case cons.cons.cons.cons =>
      exact ⟨_, ⟨r, o, hi, lo, data, rfl, by simpa using hlength, rfl⟩, hc⟩
    all_goals simp at hlength

theorem reads_update_iff {c : Nat} :
    (∃ b, parseBody 6 body = some b ∧ c = b.keyClass) ↔
      c = 3 ∧ body.length = 3 + ((body.getD 2 0).toNat + 1) ∧
        (body.getD 1 0).toNat + ((body.getD 2 0).toNat + 1) ≤ 128 := by
  simp only [parseBody_update_iff]
  constructor
  · rintro ⟨_, ⟨r, k, n, data, rfl, hdata, hrange, rfl⟩, hc⟩
    refine ⟨hc, ?_, hrange⟩
    simp only [List.length_cons, List.getD_cons_succ, List.getD_cons_zero, hdata]
    omega
  · rintro ⟨hc, hlength, hrange⟩
    rcases body with _ | ⟨r, _ | ⟨k, _ | ⟨n, data⟩⟩⟩
    case cons.cons.cons =>
      simp only [List.length_cons, List.getD_cons_succ, List.getD_cons_zero] at hlength
      exact ⟨_, ⟨r, k, n, data, rfl, by omega, hrange, rfl⟩, hc⟩
    all_goals simp at hlength

end ParseBody

theorem isSome_checkFrame_iff (key kind : Byte) (body : List Byte) (hi lo : Byte) :
    (checkFrame (key :: kind :: (body ++ [hi, lo]))).isSome = true ↔
      wordOf lo hi = checkWord (key :: kind :: body) ∧
        ∃ b, parseBody kind.toNat body = some b ∧ key.toNat / 32 = b.keyClass := by
  simp only [Option.isSome_iff_exists, checkFrame_eq_some_iff]
  constructor
  · rintro ⟨f, hcheck, hparse, hclass, -⟩
    exact ⟨hcheck, f.body, hparse, hclass⟩
  · rintro ⟨hcheck, b, hparse, hclass⟩
    exact ⟨⟨key.setWidth 5, b⟩, hcheck, hparse, hclass, rfl⟩

/-- The owner byte of an IMAGE (R10). -/
theorem ownerOfByte_of_station {b : Byte} {x : Station} (h : b.toNat = x.toNat) : ownerOfByte b = some x := by
  have hx : x.toNat < 32 := x.isLt
  rw [ownerOfByte, if_pos (by omega)]
  refine congrArg some (BitVec.eq_of_toNat_eq ?_)
  rw [BitVec.toNat_setWidth]
  omega

theorem ownerOfByte_of_none {b : Byte} (h : 32 ≤ b.toNat) : ownerOfByte b = none :=
  if_neg (by omega)

theorem regionOf_eq {n : Nat} {r : RegionNo} (h : n % 128 = r.val) : regionOf n = r := Fin.ext h

theorem checkWord_append (bytes : List Byte) (b : Byte) :
    checkWord (bytes ++ [b]) = [7, 6, 5, 4, 3, 2, 1, 0].foldl (crcBit b) (checkWord bytes) := by
  rw [checkWord, List.foldl_append, List.foldl_cons, List.foldl_nil, crcByte_eq_foldl]
  rfl

/-- Settles O56: the bytes of a built frame are those `checkFrame` asks for, and a received frame is read part by part,
each kind by its own row of R39. -/
theorem framesAreReadAsBuilt : Obligations.FramesAreReadAsBuilt := by
  refine ⟨checkFrame_bytes, ⟨rfl, checkWord_append⟩, fun bytes => checkFrame_of_length, fun key kind body hi lo => ?_⟩
  extract_lets received at_ fits
  constructor
  · rw [isSome_checkFrame_iff]
    refine and_congr_right fun _ => ?_
    rcases lt_or_ge 6 kind.toNat with hlarge | hkind
    · have hnone : ¬ fits := by
        simp only [fits]
        split
        case h_8 => exact id
        all_goals omega
      simp [parseBody_of_no_kind hlarge, hnone]
    · simp only [fits]
      split
      case h_1 h => rw [h]; exact reads_join_or_leave_iff (.inl rfl)
      case h_2 h => rw [h]; exact reads_join_or_leave_iff (.inr rfl)
      case h_3 h => rw [h]; exact reads_claim_or_release_iff (.inl rfl)
      case h_4 h => rw [h]; exact reads_claim_or_release_iff (.inr rfl)
      case h_5 h => rw [h]; exact reads_ask_iff
      case h_6 h => rw [h]; exact reads_image_iff
      case h_7 h => rw [h]; exact reads_update_iff
      case h_8 => simp only [imp_false] at *; omega
  · intro f hf
    obtain ⟨-, hparse, -, hsender⟩ := (checkFrame_eq_some_iff key kind body hi lo f).1 hf
    refine ⟨by rw [hsender, BitVec.toNat_setWidth], ?_, ?_, ?_, fun r hr => ⟨?_, ?_, ?_, fun count hcount => ⟨?_, ?_⟩⟩⟩
    · rintro rfl
      exact (parseBody_join_iff.1 hparse).2
    · rintro rfl
      exact (parseBody_leave_iff.1 hparse).2
    · rintro rfl
      obtain ⟨x, y, rfl, -, hbody⟩ := parseBody_ask_iff.1 hparse
      exact hbody
    · rintro rfl
      obtain ⟨x, rfl, hbody⟩ := parseBody_claim_iff.1 hparse
      rw [hbody, regionOf_eq (n := x.toNat) hr, BitVec.msb_eq_decide]
      rfl
    · rintro rfl
      obtain ⟨x, rfl, hbody⟩ := parseBody_release_iff.1 hparse
      rw [hbody, regionOf_eq (n := x.toNat) hr]
    · rintro rfl
      obtain ⟨x, k, n, data, rfl, -, -, hbody⟩ := parseBody_update_iff.1 hparse
      rw [hbody, regionOf_eq (n := x.toNat) hr]
      rfl
    · rintro x rfl hx
      obtain ⟨y, o, h, l, data, rfl, -, hbody⟩ := parseBody_image_iff.1 hparse
      have hword : wordOf l h = count := BitVec.eq_of_toNat_eq ((toNat_wordOf l h).trans hcount.symm)
      rw [hbody, regionOf_eq (n := y.toNat) hr, ownerOfByte_of_station (b := o) hx, hword]
      rfl
    · rintro rfl hx
      obtain ⟨y, o, h, l, data, rfl, -, hbody⟩ := parseBody_image_iff.1 hparse
      have hword : wordOf l h = count := BitVec.eq_of_toNat_eq ((toNat_wordOf l h).trans hcount.symm)
      rw [hbody, regionOf_eq (n := y.toNat) hr, ownerOfByte_of_none (b := o) hx, hword]
      rfl

end Sys2Proof.Machine
end

section
/-! PROOFS. Chain entries (R96, R99 to R101, R105, R120 to R122): the fields of an entry in its words, its validity bit
by bit, and how a group is read part by part. -/

namespace Sys2Proof.Machine

set_option Elab.async false -- as in Tests/Slice0.lean: fewer threads, within the check's memory limit

/-! ## Bits under a mask -/

theorem and_or_eq_zero (w a b : Word) : w &&& (a ||| b) = 0 ↔ w &&& a = 0 ∧ w &&& b = 0 := by
  rw [BitVec.and_or_distrib_left]
  exact BitVec.or_eq_zero_iff

theorem and_twoPow_eq_zero (w : Word) {k : Nat} (hk : k < 16) :
    w &&& BitVec.twoPow 16 k = 0 ↔ w.getLsbD k = false := by
  rw [BitVec.and_twoPow]
  split
  next h =>
    have hne : BitVec.twoPow 16 k ≠ 0#16 := fun h0 => by
      have hbit := congrArg (fun x : Word => x.getLsbD k) h0
      simp [hk] at hbit
    simp [h, hne]
  next h => simpa using h

theorem getLsbD_eq_decide (w : Word) (k : Nat) : w.getLsbD k = decide (w.toNat / 2 ^ k % 2 = 1) :=
  Nat.testBit_eq_decide_div_mod_eq

/-- A word with no bit in its high byte is its low byte, one with none in bits 12 to 15 its low twelve bits. -/
theorem and_low_of_high_clear {w low high : Word} (hall : low ||| high = BitVec.allOnes 16) (h : w &&& high = 0#16) :
    w &&& low = w := by
  have hw : w &&& (low ||| high) = w := by rw [hall, BitVec.and_allOnes]
  rwa [BitVec.and_or_distrib_left, h, BitVec.or_zero] at hw

namespace Entry

section Fields

variable (m : Memory) (i : Index)

theorem length_eq : length m i = (word m i 2).toNat % 256 := by
  rw [length, BitVec.toNat_and]
  exact Nat.and_two_pow_sub_one_eq_mod _ 8

theorem staging_eq : staging m i = (word m i 3).toNat % 4096 := by
  rw [staging, BitVec.toNat_and]
  exact Nat.and_two_pow_sub_one_eq_mod _ 12

theorem mode_code : ((word m i 0 >>> 9) &&& 3).toNat = (word m i 0).toNat / 512 % 4 := by
  rw [BitVec.toNat_and, BitVec.toNat_ushiftRight, Nat.shiftRight_eq_div_pow]
  exact Nat.and_two_pow_sub_one_eq_mod _ 2

theorem mode_ready_iff : mode m i = .ready ↔ (word m i 0).getLsbD 9 = false ∧ (word m i 0).getLsbD 10 = false := by
  rw [mode, mode_code, getLsbD_eq_decide, getLsbD_eq_decide, decide_eq_false_iff_not, decide_eq_false_iff_not]
  split
  case h_1 h => exact ⟨fun _ => ⟨by omega, by omega⟩, fun _ => rfl⟩
  case h_2 h => exact ⟨fun hm => (by cases hm), fun ⟨h9, h10⟩ => absurd h9 (by omega)⟩
  case h_3 h => exact ⟨fun hm => (by cases hm), fun ⟨h9, h10⟩ => absurd h10 (by omega)⟩
  case h_4 h0 h1 h2 =>
    refine ⟨fun hm => (by cases hm), fun ⟨h9, h10⟩ => absurd ?_ h0⟩
    omega

/-- The flags outside the mode: a mask of flag bits is clear when each flag is. -/
theorem flags_clear_iff :
    (word m i 0 &&& 0x0680 = 0 ↔ seize m i = false ∧ mode m i = .ready) ∧
      (word m i 0 &&& 0x0620 = 0 ↔ link m i = false ∧ mode m i = .ready) ∧
      (word m i 0 &&& 0x06A0 = 0 ↔ link m i = false ∧ seize m i = false ∧ mode m i = .ready) ∧
      (word m i 0 &&& 0x00A0 = 0 ↔ link m i = false ∧ seize m i = false) := by
  have h0680 : (0x0680 : Word) = BitVec.twoPow 16 7 ||| (BitVec.twoPow 16 9 ||| BitVec.twoPow 16 10) := by decide
  have h0620 : (0x0620 : Word) = BitVec.twoPow 16 5 ||| (BitVec.twoPow 16 9 ||| BitVec.twoPow 16 10) := by decide
  have h06A0 : (0x06A0 : Word) =
      BitVec.twoPow 16 5 ||| (BitVec.twoPow 16 7 ||| (BitVec.twoPow 16 9 ||| BitVec.twoPow 16 10)) := by decide
  have h00A0 : (0x00A0 : Word) = BitVec.twoPow 16 5 ||| BitVec.twoPow 16 7 := by decide
  rw [h0680, h0620, h06A0, h00A0]
  simp only [and_or_eq_zero, and_twoPow_eq_zero _ (show 5 < 16 by decide), and_twoPow_eq_zero _ (show 7 < 16 by decide),
    and_twoPow_eq_zero _ (show 9 < 16 by decide), and_twoPow_eq_zero _ (show 10 < 16 by decide), mode_ready_iff, link,
    seize, and_self]

theorem clean_iff {j : Nat} {mask : Word} : clean m i j mask = true ↔ word m i j &&& mask = 0 := beq_iff_eq

/-- The words that every kind but GOTO has, as the statement of validity reads them (R99, R101). -/
theorem cleanHead_iff :
    (cleanHead m i && clean m i 1 0x8080) = true ↔
      word m i 0 &&& 0xF800 = 0 ∧ ((word m i 0).getLsbD 8 = true → word m i 5 &&& 0xFF00 = 0) ∧
        word m i 1 &&& 0x8080 = 0 := by
  simp only [cleanHead, Bool.and_eq_true, clean_iff, Bool.or_eq_true, Bool.not_eq_true', alt, and_assoc]
  cases (word m i 0).getLsbD 8 with
  | true => simp
  | false => simp

/-- The segment of a transfer: its words hold no other bits, so that they are the length and the address. -/
theorem cleanSegment_iff :
    cleanSegment m i = true ↔
      word m i 2 &&& 0xFF00 = 0 ∧ word m i 3 &&& 0xF000 = 0 ∧ 1 ≤ (word m i 2).toNat ∧ (word m i 2).toNat ≤ 128 ∧
        (word m i 3).toNat + (word m i 2).toNat ≤ 4096 := by
  simp only [cleanSegment, Bool.and_eq_true, clean_iff, decide_eq_true_eq, and_assoc]
  refine and_congr_right fun h2 => and_congr_right fun h3 => ?_
  have hlength : length m i = (word m i 2).toNat := by
    rw [length, and_low_of_high_clear (high := 0xFF00) (by decide) h2]
  have hstaging : staging m i = (word m i 3).toNat := by
    rw [staging, and_low_of_high_clear (high := 0xF000) (by decide) h3]
  rw [hlength, hstaging]

/-! ## Validity (R101) -/

theorem kind_of_code :
    ((word m i 0).toNat % 16 = 1 → kind m i = some .put) ∧ ((word m i 0).toNat % 16 = 2 → kind m i = some .get) ∧
      ((word m i 0).toNat % 16 = 3 → kind m i = some .claim) ∧
      ((word m i 0).toNat % 16 = 4 → kind m i = some .release) ∧
      ((word m i 0).toNat % 16 = 5 → kind m i = some .wait) ∧
      ((word m i 0).toNat % 16 = 6 → kind m i = some .goto) ∧
      ((word m i 0).toNat % 16 = 0 ∨ 6 < (word m i 0).toNat % 16 → kind m i = none) := by
  refine ⟨fun h => ?_, fun h => ?_, fun h => ?_, fun h => ?_, fun h => ?_, fun h => ?_,
    fun h => State.entry_kind_none rfl h⟩
  all_goals simp only [State.entry_kind_eq, h]

theorem valid_transfer_iff (h : kind m i = some .put ∨ kind m i = some .get) :
    valid m i = true ↔
      (cleanHead m i && clean m i 1 0x8080) = true ∧ cleanSegment m i = true ∧ word m i 0 &&& 0x0680 = 0 := by
  obtain ⟨hflags, -⟩ := flags_clear_iff m i
  rcases h with h | h
  · simp only [valid, h, hflags, Bool.and_eq_true, Bool.not_eq_true', beq_iff_eq, and_assoc]
  · simp only [valid, h, hflags, Bool.and_eq_true, Bool.not_eq_true', beq_iff_eq, and_assoc]

theorem validPart_iff :
    validPart m i = true ↔
      word m i 0 &&& 0xF800 = 0 ∧ cleanSegment m i = true ∧ word m i 0 &&& 0x0680 = 0 := by
  obtain ⟨hflags, -⟩ := flags_clear_iff m i
  simp only [validPart, hflags, Bool.and_eq_true, Bool.not_eq_true', beq_iff_eq, and_assoc, clean_iff]

theorem valid_claim_iff (h : kind m i = some .claim) :
    valid m i = true ↔ (cleanHead m i && clean m i 1 0x8080) = true ∧ word m i 0 &&& 0x0620 = 0 := by
  obtain ⟨-, hflags, -⟩ := flags_clear_iff m i
  simp only [valid, h, hflags, Bool.and_eq_true, Bool.not_eq_true', beq_iff_eq, and_assoc]

theorem valid_release_iff (h : kind m i = some .release) :
    valid m i = true ↔ (cleanHead m i && clean m i 1 0x8080) = true ∧ word m i 0 &&& 0x06A0 = 0 := by
  obtain ⟨-, -, hflags, -⟩ := flags_clear_iff m i
  simp only [valid, h, hflags, Bool.and_eq_true, Bool.not_eq_true', beq_iff_eq, and_assoc]

theorem valid_wait_iff (h : kind m i = some .wait) :
    valid m i = true ↔ (cleanHead m i && clean m i 1 0x8080) = true ∧ word m i 0 &&& 0x00A0 = 0 := by
  obtain ⟨-, -, -, hflags⟩ := flags_clear_iff m i
  simp only [valid, h, hflags, Bool.and_eq_true, Bool.not_eq_true', and_assoc]

theorem valid_goto_iff (h : kind m i = some .goto) :
    valid m i = true ↔ word m i 0 &&& 0xFFF0 = 0 ∧ word m i 4 &&& 0xFF00 = 0 := by
  simp only [valid, h, Bool.and_eq_true, clean_iff]

theorem valid_of_no_kind (h : kind m i = none) : valid m i = false := by
  simp only [valid, h]

theorem lastNote_singleton :
    (note m i = false → lastNote m [i] = none) ∧ (note m i = true → lastNote m [i] = some (i, word m i 7)) := by
  refine ⟨fun h => ?_, fun h => ?_⟩
  · simp [lastNote, h]
  · simp [lastNote, h, label]

theorem failIndex_eq :
    ((word m i 0).getLsbD 8 = false → failIndex m i = none) ∧
      ∀ k : Index, (word m i 0).getLsbD 8 = true → (word m i 5).toNat % 256 = k.val → failIndex m i = some k := by
  refine ⟨fun h => ?_, fun k h hk => ?_⟩
  · simp only [failIndex, alt, h, Bool.false_eq_true, if_false]
  · have hindex : onFail m i = k := Fin.ext hk
    simp only [failIndex, alt, h, hindex, if_true]

end Fields

end Entry

theorem State.hostRead_entryWord {s : State} (i : Index) {j : Nat} (hreset : s.inReset = false) (hj : j < 8) :
    s.hostRead (BitVec.ofNat 14 (0x2800 + 8 * i.val + j)) = Entry.word s.chain i j := by
  have hi := i.isLt
  have ha : (BitVec.ofNat 14 (0x2800 + 8 * i.val + j)).toNat = 0x2800 + 8 * i.val + j := by
    rw [BitVec.toNat_ofNat]; omega
  have hword : 0x2800 + 8 * i.val + j - 0x2800 = 8 * i.val + j := by omega
  rw [State.hostRead_chain hreset (by omega) (by omega), ha, hword, Entry.word]

/-- Settles O48: the fields as masks of their words, and each kind's checks as the masks it must find clear. -/
theorem entryValidityFollowsTheFields : Obligations.EntryValidityFollowsTheFields := by
  refine ⟨fun s i j hreset => State.hostRead_entryWord i hreset, fun m i => ?_, Entry.lastNote_singleton, fun m i => ?_⟩
  · intro w
    obtain ⟨hnone, hsome⟩ := Entry.failIndex_eq m i
    refine ⟨fun j => ?_, rfl, rfl, rfl, rfl, State.entry_offset_eq m i, Entry.length_eq m i, Entry.staging_eq m i, rfl,
      hnone, hsome⟩
    simp only [w, Entry.word, Memory.readWord, Nat.mul_add, ← Nat.mul_assoc, Nat.reduceMul]
  · intro w head segment
    obtain ⟨hput, hget, hclaim, hrelease, hwait, hgoto, hnone⟩ := Entry.kind_of_code m i
    have hhead := Entry.cleanHead_iff m i
    have hsegment := Entry.cleanSegment_iff m i
    refine ⟨fun h => ⟨?_, ?_⟩, fun h => ?_, fun h => ?_, fun h => ?_, fun h => ?_, fun h => ?_⟩
    · exact (Entry.valid_transfer_iff m i (h.imp hput hget)).trans (and_congr hhead (and_congr hsegment Iff.rfl))
    · exact (Entry.validPart_iff m i).trans (and_congr Iff.rfl (and_congr hsegment Iff.rfl))
    · exact (Entry.valid_claim_iff m i (hclaim h)).trans (and_congr hhead Iff.rfl)
    · exact (Entry.valid_release_iff m i (hrelease h)).trans (and_congr hhead Iff.rfl)
    · exact (Entry.valid_wait_iff m i (hwait h)).trans (and_congr hhead Iff.rfl)
    · exact Entry.valid_goto_iff m i (hgoto h)
    · exact Entry.valid_of_no_kind m i (hnone h)

/-! ## Groups (R120, R121) -/

namespace Entry

theorem readGroup_of_first_failure {m : Memory} {k : EntryKind} {i : Index} {st : Status}
    (h : partFailure m k false (offset m i) 0 i = some st) : readGroup m k i = .fail st i := by
  rw [readGroup, readParts, h]

section PartFailure

variable {m : Memory} {k : EntryKind} {later : Bool} {off total : Nat} {p : Index}

theorem partFailure_of_sequence (h : kind m p ≠ some k ∨ link m p = true ∧ p.val = 255) :
    partFailure m k later off total p = some .badSequence := by
  unfold partFailure
  split
  next => rfl
  next hkind => rw [if_pos (h.resolve_left (not_not.2 (not_not.1 hkind)))]

/-- A part whose place in the sequence is right fails by its validity, and then by its length. -/
theorem partFailure_of_in_sequence (h : ¬(kind m p ≠ some k ∨ link m p = true ∧ p.val = 255)) :
    partFailure m k later off total p =
      if (if later then validPart m p else valid m p) = false then some .badEntry
      else if off + total + length m p > 128 then some .length else none := by
  obtain ⟨hkind, hlink⟩ := not_or.1 h
  rw [partFailure, if_neg hkind, if_neg hlink]

end PartFailure

section NextPart

variable {m : Memory} {i j : Index}

theorem nextPart_eq (h : j.val = i.val + 1) :
    nextPart m i =
      if kind m j = some .goto then
        if j.val = 255 then .fail .badSequence j
        else if valid m j then .ok (target m j) 1 else .fail .badEntry j
      else .ok j 0 := by
  have hj := j.isLt
  have hindex : indexOf (i.val + 1) = j := Fin.ext (by simp only [indexOf]; omega)
  simp only [nextPart, hindex]

theorem kind_eq_goto_iff : kind m j = some .goto ↔ (word m j 0).toNat % 16 = 6 := by
  rw [State.entry_kind_eq]
  constructor
  · intro h
    split at h
    case h_6 hcode => exact hcode
    all_goals cases h
  · intro h
    simp only [h]

theorem target_eq {t : Index} (h : (word m j 4).toNat = t.val) : target m j = t :=
  Fin.ext (by have := t.isLt; simp only [target, indexOf]; omega)

end NextPart

end Entry

/-- Settles O51: `Entry.readParts` over the parts of `Entry.Walks`, and the checks of a part in their order. -/
theorem groupsAreReadPartByPart : Obligations.GroupsAreReadPartByPart := by
  refine ⟨fun m k i parts gotos hk hwalks => ?_, fun m k i st => Entry.readGroup_of_first_failure,
    fun m k later off total p => ?_, fun m i j hj => ?_⟩
  · have hread := State.readParts_of_walks m k hk (Entry.offset m i) parts 129 false i 0 gotos
      { segs := [], total := 0, last := i, next := false, size := 0, note := none, notes := 0 } hwalks (by simp)
    simpa [Entry.readGroup] using hread
  · intro sequence good
    have hgood : (if later then Entry.validPart m p else Entry.valid m p) = false ↔ ¬ good := by
      simp only [good]
      cases later with
      | true => simp
      | false => simp
    refine ⟨Entry.partFailure_of_sequence, fun hseq hbad => ?_, fun hseq hok hlen => ?_, fun hseq hok hlen => ?_⟩
    · rw [Entry.partFailure_of_in_sequence hseq, if_pos (hgood.2 hbad)]
    · rw [Entry.partFailure_of_in_sequence hseq, if_neg fun h => hgood.1 h hok, if_pos hlen]
    · rw [Entry.partFailure_of_in_sequence hseq, if_neg fun h => hgood.1 h hok, if_neg (not_lt.2 hlen)]
  · simp only [Entry.nextPart_eq hj]
    refine ⟨fun h => if_neg fun hgoto => h (Entry.kind_eq_goto_iff.1 hgoto), fun h => ?_⟩
    rw [if_pos (Entry.kind_eq_goto_iff.2 h)]
    refine ⟨fun hlast => if_pos hlast, fun hlast hbad => ?_, fun target hlast hvalid htarget => ?_⟩
    · rw [if_neg hlast, hbad, if_neg Bool.false_ne_true]
    · rw [if_neg hlast, if_pos hvalid, Entry.target_eq htarget]

end Sys2Proof.Machine
end

section
/-! PROOFS. The takes of the other kinds (R102 to R117): a failed take, GOTO, GET, CLAIM, RELEASE and WAIT. -/

namespace Sys2Proof.Machine

set_option Elab.async false -- as in Tests/Slice0.lean: fewer threads, within the check's memory limit

namespace State

/-! ## The take of each kind (R102) -/

section TakeEntry

variable {s : State} {l : LaneNo}

/-- The state a take other than a GOTO's begins in (R103). -/
def unmarked (s : State) (l : LaneNo) : State := s.modifyLane l fun x => { x with prevGoto := false }

theorem lane_unmarked (s : State) (l k : LaneNo) :
    (s.unmarked l).lane k = if k = l then { s.lane l with prevGoto := false } else s.lane k :=
  lane_modifyLane s l k _

theorem takeEntry_of_goto (h : Entry.kind s.chain (s.lane l).cur = some .goto) : s.takeEntry l = s.takeGoto l := by
  simp only [takeEntry, h]

theorem takeEntry_of_get (h : Entry.kind s.chain (s.lane l).cur = some .get) :
    s.takeEntry l = (s.unmarked l).takeTransfer l .get fun u r k g => u.getAction l r k g := by
  simp only [takeEntry, h, unmarked]

theorem takeEntry_of_claim (h : Entry.kind s.chain (s.lane l).cur = some .claim) :
    s.takeEntry l = (s.unmarked l).takeSingle l fun u i =>
      u.claimAction l (Entry.region s.chain i) (Entry.seize s.chain i) := by
  simp only [takeEntry, h, unmarked]

theorem takeEntry_of_release (h : Entry.kind s.chain (s.lane l).cur = some .release) :
    s.takeEntry l = (s.unmarked l).takeSingle l fun u i => u.releaseAction l (Entry.region s.chain i) := by
  simp only [takeEntry, h, unmarked]

theorem takeEntry_of_wait (h : Entry.kind s.chain (s.lane l).cur = some .wait) :
    s.takeEntry l = (s.unmarked l).takeSingle l fun u i =>
      u.waitAction l (waitCondOf s.chain i) (Entry.timeout s.chain i) := by
  simp only [takeEntry, h, unmarked]

theorem takeEntry_of_no_kind (h : Entry.kind s.chain (s.lane l).cur = none) :
    s.takeEntry l = (s.unmarked l).endLane l .badEntry := by
  simp only [takeEntry, h, unmarked]

end TakeEntry

/-- A valid CLAIM, RELEASE or WAIT performs its action on the state `TakenWith` describes. -/
theorem exec_take_single {s : State} {l : LaneNo} {i : Index} {n : Nat} {act : State → Index → State}
    (htakes : s.Takes l i n) (hvalid : Entry.valid s.chain i = true)
    (htake : s.takeEntry l = (s.unmarked l).takeSingle l act) :
    ∃ v : State,
      v.TakenWith s l i { next := Entry.next s.chain i, alt := Entry.failIndex s.chain i, size := 1 }
        (Entry.lastNote s.chain [i]) 1 ∧
      exec (.entryTake l) s = .next (act v i).settle := by
  obtain ⟨hreset, hrunning, hcur, -⟩ := htakes
  obtain ⟨v, htaken, hact⟩ := takeSingle_of_valid act hcur hvalid
  exact ⟨v, htaken, by rw [State.exec_entryTake_running hreset hrunning, htake, unmarked, hact]⟩

theorem takes_kind {s : State} {l : LaneNo} {i : Index} {n : Nat} (h : s.Takes l i n) :
    (s.lane l).cur = i ∧ (Entry.word s.chain (s.lane l).cur 0).toNat % 16 = n := by
  obtain ⟨-, -, rfl, hcode⟩ := h
  exact ⟨rfl, hcode⟩

/-! ## CLAIM and RELEASE (R58, R113, R115) -/

section Claim

variable {v : State} {r : RegionNo} (l : LaneNo)

theorem claimAction_of_not_current {seize : Bool} (h : (v.region r).state ≠ .current) :
    v.claimAction l r seize = v.completeLane l .notCurrent := if_pos h

theorem claimAction_of_own {seize : Bool} (h : (v.region r).state = .current)
    (howner : (v.region r).owner = some v.stationNumber) : v.claimAction l r seize = v.completeLane l .done := by
  rw [claimAction, if_neg (not_not.2 h), if_pos howner]

theorem claimAction_of_free_or_seized {seize : Bool} (h : (v.region r).state = .current)
    (howner : (v.region r).owner = none ∨ seize = true ∧ (v.region r).owner ≠ some v.stationNumber) :
    v.claimAction l r seize = v.placeFrame l (.claim seize r) := by
  have hother : (v.region r).owner ≠ some v.stationNumber := by
    rcases howner with howner | ⟨-, howner⟩
    · rw [howner]; simp
    · exact howner
  rw [claimAction, if_neg (not_not.2 h), if_neg hother, if_pos (howner.symm.imp_left And.left)]

theorem claimAction_of_owned_elsewhere {t : Station} (h : (v.region r).state = .current)
    (howner : (v.region r).owner = some t) (hother : t ≠ v.stationNumber) :
    v.claimAction l r false = v.completeLane l .claimLost := by
  rw [claimAction, if_neg (not_not.2 h), if_neg (by simpa [howner] using hother), if_neg (by simp [howner])]

theorem releaseAction_of_not_current (h : (v.region r).state ≠ .current) :
    v.releaseAction l r = v.completeLane l .notCurrent := if_pos h

theorem releaseAction_of_own (h : (v.region r).state = .current) (howner : (v.region r).owner = some v.stationNumber) :
    v.releaseAction l r = v.placeFrame l (.release r) := by
  rw [releaseAction, if_neg (not_not.2 h), if_pos howner]

theorem releaseAction_of_not_own (h : (v.region r).state = .current)
    (howner : (v.region r).owner ≠ some v.stationNumber) : v.releaseAction l r = v.completeLane l .notOwner := by
  rw [releaseAction, if_neg (not_not.2 h), if_neg howner]

end Claim

theorem takenWith_region {v s : State} {l last e n c} (h : v.TakenWith s l last e n c) (r : RegionNo) :
    v.region r = s.region r := by
  obtain ⟨hregions, -⟩ := takenWith_keeps h
  simp only [region, hregions]

end State

/-- Settles O54: the note leaves the region table as it was, so the actions read the owner of the statement. -/
theorem claimAndReleaseEntriesAreTaken : Obligations.ClaimAndReleaseEntriesAreTaken := by
  constructor
  · intro s l i htakes hvalid r seize owner
    obtain ⟨hcur, hcode⟩ := State.takes_kind htakes
    have hkind : Entry.kind s.chain (s.lane l).cur = some .claim := by simp only [State.entry_kind_eq, hcode]
    obtain ⟨v, htaken, hexec⟩ := State.exec_take_single htakes hvalid (State.takeEntry_of_claim hkind)
    obtain ⟨-, hnumber, -, -, -⟩ := State.takenWith_keeps htaken
    have hregion : s.region r = v.region r := (State.takenWith_region htaken r).symm
    refine ⟨v, htaken, ?_⟩
    simp only [owner, hregion, ← hnumber, hexec]
    refine ⟨fun hstate => ?_, fun hstate => ⟨fun howner => ?_, fun howner => ?_, fun hseize t howner hother => ?_⟩⟩
    · exact congrArg (fun u => Host.Outcome.next u.settle) (State.claimAction_of_not_current l hstate)
    · exact congrArg (fun u => Host.Outcome.next u.settle) (State.claimAction_of_own l hstate howner)
    · exact ⟨_, congrArg (fun u => Host.Outcome.next u.settle) (State.claimAction_of_free_or_seized l hstate howner),
        State.placeFrame_places v l _⟩
    · have hplain : Entry.seize s.chain i = false := hseize
      rw [hplain]
      exact congrArg (fun u => Host.Outcome.next u.settle) (State.claimAction_of_owned_elsewhere l hstate howner hother)
  · intro s l i htakes hvalid r
    obtain ⟨hcur, hcode⟩ := State.takes_kind htakes
    have hkind : Entry.kind s.chain (s.lane l).cur = some .release := by simp only [State.entry_kind_eq, hcode]
    obtain ⟨v, htaken, hexec⟩ := State.exec_take_single htakes hvalid (State.takeEntry_of_release hkind)
    obtain ⟨-, hnumber, -, -, -⟩ := State.takenWith_keeps htaken
    have hregion : s.region r = v.region r := (State.takenWith_region htaken r).symm
    refine ⟨v, htaken, ?_⟩
    simp only [hregion, ← hnumber, hexec]
    refine ⟨fun hstate => ?_, fun hstate => ⟨fun howner => ?_, fun howner => ?_⟩⟩
    · exact congrArg (fun u => Host.Outcome.next u.settle) (State.releaseAction_of_not_current l hstate)
    · exact ⟨_, congrArg (fun u => Host.Outcome.next u.settle) (State.releaseAction_of_own l hstate howner),
        State.placeFrame_places v l _⟩
    · exact congrArg (fun u => Host.Outcome.next u.settle) (State.releaseAction_of_not_own l hstate howner)

/-! ## WAIT (R116, R117) -/

namespace State

theorem waitAction_of_holds {v : State} {c : WaitCond} (l : LaneNo) (n : Nat) (h : v.WaitTest c) :
    v.waitAction l c n = v.completeLane l .done := if_pos ((waitHolds_iff v c).2 h)

theorem waitAction_of_not_holds {v : State} {c : WaitCond} (l : LaneNo) (n : Nat) (h : ¬ v.WaitTest c) :
    v.waitAction l c n =
      v.modifyLane l fun x =>
        { x with state := .waiting, wait := some c, deadline := if n = 0 then none else some n } :=
  if_neg fun hholds => h ((waitHolds_iff v c).1 hholds)

end State

/-- The number of a WAIT mode in bits 10 to 9 of word 0 (R99). -/
def WaitMode.number : WaitMode → Nat
  | .ready => 0
  | .changed => 1
  | .unowned => 2
  | .mine => 3

theorem Entry.mode_of_number {m : Memory} {i : Index} {mode : WaitMode}
    (h : (Entry.word m i 0).toNat / 512 % 4 = mode.number) : Entry.mode m i = mode := by
  rw [Entry.mode, Entry.mode_code, h]
  cases mode with
  | ready | changed | unowned | mine => rfl

/-- The condition of a WAIT entry is the one its fields give (R116). -/
theorem State.waitCondOf_eq {m : Memory} {i : Index} {c : WaitCond}
    (hregion : c.region = regionOf (Entry.word m i 1).toNat)
    (hmode : (Entry.word m i 0).toNat / 512 % 4 = c.mode.number)
    (hchanged : c.mode = .changed → c.value = Entry.word m i 4) (hother : c.mode ≠ .changed → c.value = 0) :
    waitCondOf m i = c := by
  obtain ⟨region, mode, value⟩ := c
  simp only at hregion hchanged hother
  rw [waitCondOf, Entry.mode_of_number hmode, hregion, Entry.region]
  congr 1
  by_cases h : mode = .changed
  · rw [if_pos h, hchanged h, Entry.value]
  · rw [if_neg h, hother h]

/-- Settles O55: the WAIT take's two outcomes on the condition of its fields. -/
theorem waitEntriesAreTaken : Obligations.WaitEntriesAreTaken := by
  intro s l i c htakes hvalid hregion hmode hchanged hother
  obtain ⟨hcur, hcode⟩ := State.takes_kind htakes
  have hkind : Entry.kind s.chain (s.lane l).cur = some .wait := by simp only [State.entry_kind_eq, hcode]
  obtain ⟨v, htaken, hexec⟩ := State.exec_take_single htakes hvalid (State.takeEntry_of_wait hkind)
  obtain ⟨hregions, hnumber, -, -, -⟩ := State.takenWith_keeps htaken
  have hnum : (Entry.word s.chain i 0).toNat / 512 % 4 = c.mode.number := by
    rw [hmode]
    cases c.mode with
    | ready | changed | unowned | mine => rfl
  have htest : s.WaitTest c ↔ v.WaitTest c := by
    simp only [State.WaitTest, State.region, hregions, hnumber]
  rw [htest, hexec, State.waitCondOf_eq hregion hnum hchanged hother]
  refine ⟨v, htaken, fun hholds => ?_, fun hholds => ?_⟩
  · rw [State.waitAction_of_holds l _ hholds]
  · have htimeout : Entry.timeout s.chain i = 0 ↔ Entry.word s.chain i 6 = 0 :=
      ⟨fun h => BitVec.eq_of_toNat_eq h, fun h => by rw [Entry.timeout, h]; rfl⟩
    refine ⟨_, rfl, ?_, fun k => ?_⟩
    · rw [State.waitAction_of_not_holds l _ hholds]
      rfl
    · rw [State.waitAction_of_not_holds l _ hholds, State.lane_modifyLane]
      simp only [htimeout]
      rfl

/-! ## GET (R16, R111, R123) -/

namespace State

theorem exec_entryTake_get {s : State} {l : LaneNo} {i : Index} {g : Group} (ht : s.Takes l i 2)
    (hg : Entry.readGroup s.chain .get i = .ok g) :
    ∃ v : State,
      v.TakenWith s l g.last { next := g.next, alt := Entry.failIndex s.chain i, size := g.size } g.note g.notes ∧
        exec (.entryTake l) s =
          .next (v.getAction l (Entry.region s.chain i) (Entry.offset s.chain i) g).settle := by
  obtain ⟨hreset, hrunning, hcur, hcode⟩ := ht
  have hkind : Entry.kind s.chain (s.lane l).cur = some .get := by simp only [hcur, entry_kind_eq, hcode]
  obtain ⟨v, htaken, hact⟩ := takeTransfer_of_read (fun u r k g => u.getAction l r k g) hcur hg
  exact ⟨v, htaken, by rw [State.exec_entryTake_running hreset hrunning, takeEntry_of_get hkind, unmarked, hact]⟩

theorem getAction_of_not_current {v : State} {r : RegionNo} (l : LaneNo) (k : Nat) (g : Group)
    (h : (v.region r).state ≠ .current) : v.getAction l r k g = v.completeLane l .notCurrent := if_pos h

theorem getAction_of_current {v : State} {r : RegionNo} (l : LaneNo) (k : Nat) (g : Group)
    (h : (v.region r).state = .current) :
    v.getAction l r k g =
      { v with staging := scatter v.area (128 * r.val + k) g.segs v.staging }.completeLane l .done :=
  if_neg (not_not.2 h)

end State

/-- Settles O53: the bytes a GET scatters, a later segment over an earlier one. -/
theorem getCopiesTheRegion : Obligations.GetCopiesTheRegion := by
  intro s l i g htakes hread hstores r from_ inside
  obtain ⟨-, -, hstaging, -⟩ := hstores
  obtain ⟨v, htaken, hexec⟩ := State.exec_entryTake_get htakes hread
  obtain ⟨-, -, -, harea, hkept⟩ := State.takenWith_keeps htaken
  have hregion : s.region r = v.region r := (State.takenWith_region htaken r).symm
  have hfrom : 128 * (Entry.region s.chain i).val + Entry.offset s.chain i = from_ := by
    rw [State.entry_offset_eq, State.entry_region_eq]
  obtain ⟨hlast, hrest⟩ := State.read_scatter s.area g.segs from_ s.staging hstaging
  rw [hexec, hregion]
  refine ⟨v, htaken, fun hstate => ?_, fun hstate => ⟨State.scatter s.area from_ g.segs s.staging, ?_, hlast, hrest⟩⟩
  · exact congrArg (fun u => Host.Outcome.next u.settle) (State.getAction_of_not_current l _ g hstate)
  · rw [State.getAction_of_current (r := Entry.region s.chain i) l _ g hstate, hfrom, harea, hkept]

/-! ## GOTO (R103) -/

namespace State

theorem lane_takeGoto_other {s : State} {l k : LaneNo} (h : k ≠ l) : (s.takeGoto l).lane k = s.lane k := by
  unfold takeGoto
  extract_lets i
  split
  · rw [lane_endLane, if_neg h]
  · split
    · rw [lane_modifyLane, if_neg h]
    · rw [lane_endLane, if_neg h]

theorem takeGoto_eq (s : State) (l : LaneNo) : s.takeGoto l = { s with lanes := (s.takeGoto l).lanes } := by
  unfold takeGoto
  extract_lets i
  split
  · rfl
  · split
    · rfl
    · rfl

theorem takeGoto_of_bad_sequence {s : State} {l : LaneNo} (h : (s.lane l).completed = 0 ∨ (s.lane l).prevGoto = true) :
    s.takeGoto l = s.endLane l .badSequence := if_pos h

theorem takeGoto_of_bad_entry {s : State} {l : LaneNo} (hcount : (s.lane l).completed ≠ 0)
    (hprev : (s.lane l).prevGoto = false) (h : Entry.valid s.chain (s.lane l).cur = false) :
    s.takeGoto l = s.endLane l .badEntry := by
  rw [takeGoto, if_neg (by simp [hcount, hprev]), h, if_neg Bool.false_ne_true]

theorem takeGoto_of_valid {s : State} {l : LaneNo} (hcount : (s.lane l).completed ≠ 0)
    (hprev : (s.lane l).prevGoto = false) (h : Entry.valid s.chain (s.lane l).cur = true) :
    s.takeGoto l = s.modifyLane l fun x =>
      { x with completed := satAdd 65535 x.completed 1, cur := Entry.target s.chain (s.lane l).cur
               prevGoto := true } := by
  rw [takeGoto, if_neg (by simp [hcount, hprev]), if_pos h]

end State

/-- Settles O50: the branches of `State.takeGoto`. -/
theorem gotosMoveTheLane : Obligations.GotosMoveTheLane := by
  intro s l i htakes
  obtain ⟨hreset, hrunning, rfl, hcode⟩ := htakes
  have hkind : Entry.kind s.chain (s.lane l).cur = some .goto := Entry.kind_eq_goto_iff.2 hcode
  refine ⟨s.takeGoto l, ?_, s.takeGoto_eq l, fun k => State.lane_takeGoto_other, fun hbad => ?_,
    fun hcount hprev => ⟨fun hbad => ?_, fun target hvalid htarget => ?_⟩⟩
  · rw [State.exec_entryTake_running hreset hrunning, State.takeEntry_of_goto hkind]
  · rw [State.takeGoto_of_bad_sequence hbad, State.lane_endLane, if_pos rfl]
  · rw [State.takeGoto_of_bad_entry hcount hprev hbad, State.lane_endLane, if_pos rfl]
  · rw [State.takeGoto_of_valid hcount hprev hvalid, State.lane_modifyLane_same, Entry.target_eq htarget]
    rfl

/-! ## Failed takes (R102, R106) -/

namespace State

theorem takeSingle_of_invalid {s : State} {l : LaneNo} (act : State → Index → State)
    (h : Entry.valid s.chain (s.lane l).cur = false) : s.takeSingle l act = s.endLane l .badEntry := by
  rw [takeSingle, h, if_neg Bool.false_ne_true]

/-- An invalid entry that is no transfer and no GOTO ends the chain BAD_ENTRY. -/
theorem takeEntry_of_invalid {s : State} {l : LaneNo} {n : Nat}
    (hcode : (Entry.word s.chain (s.lane l).cur 0).toNat % 16 = n) (hput : n ≠ 1) (hget : n ≠ 2) (hgoto : n ≠ 6)
    (hinvalid : Entry.valid s.chain (s.lane l).cur = false) :
    s.takeEntry l = (s.unmarked l).endLane l .badEntry := by
  have hvalid : Entry.valid (s.unmarked l).chain ((s.unmarked l).lane l).cur = false := by
    rw [lane_unmarked, if_pos rfl]
    exact hinvalid
  obtain ⟨-, -, hclaim, hrelease, hwait, -, hnone⟩ := Entry.kind_of_code s.chain (s.lane l).cur
  rcases (by omega : n = 3 ∨ n = 4 ∨ n = 5 ∨ n = 0 ∨ 6 < n) with h | h | h | h
  · rw [takeEntry_of_claim (hclaim (hcode.trans h)), takeSingle_of_invalid _ hvalid]
  · rw [takeEntry_of_release (hrelease (hcode.trans h)), takeSingle_of_invalid _ hvalid]
  · rw [takeEntry_of_wait (hwait (hcode.trans h)), takeSingle_of_invalid _ hvalid]
  · exact takeEntry_of_no_kind (hnone (by omega))

theorem takeTransfer_of_failed_read {s : State} {l : LaneNo} {k : EntryKind} {st : Status} {q : Index}
    (act : State → RegionNo → Nat → Group → State)
    (h : Entry.readGroup s.chain k (s.lane l).cur = .fail st q) : s.takeTransfer l k act = s.failTake l st q := by
  simp only [takeTransfer, h]

theorem takeEntry_of_failed_read {s : State} {l : LaneNo} {k : EntryKind} {st : Status} {q : Index}
    (hkind : Entry.kind s.chain (s.lane l).cur = some k) (htransfer : k = .put ∨ k = .get)
    (h : Entry.readGroup s.chain k (s.lane l).cur = .fail st q) : s.takeEntry l = (s.unmarked l).failTake l st q := by
  have hread : Entry.readGroup (s.unmarked l).chain k ((s.unmarked l).lane l).cur = .fail st q := by
    rw [lane_unmarked, if_pos rfl]
    exact h
  rcases htransfer with rfl | rfl
  · rw [takeEntry_of_put hkind]
    exact takeTransfer_of_failed_read _ hread
  · rw [takeEntry_of_get hkind, takeTransfer_of_failed_read _ hread]

end State

/-- Settles O49: the mark of a GOTO before is cleared, and the chain ends with the failure. -/
theorem failedTakesEndTheChain : Obligations.FailedTakesEndTheChain := by
  refine ⟨fun s l hreset => ⟨fun hstate => ?_, fun i n htakes hput hget hgoto hinvalid => ?_⟩,
    fun s l i k st q htakes hread => ?_⟩
  · rw [exec_entryTake l hreset, State.entryTake, if_neg hstate]
  · obtain ⟨-, hrunning, rfl, hcode⟩ := htakes
    refine ⟨(s.unmarked l).endLane l .badEntry, ?_, fun k => ?_, rfl⟩
    · rw [State.exec_entryTake_running hreset hrunning, State.takeEntry_of_invalid hcode hput hget hgoto hinvalid]
    · rw [State.lane_endLane, State.lane_unmarked, if_pos rfl, State.lane_unmarked]
      split
      · rfl
      · rfl
  · have hkind : s.inReset = false ∧ (s.lane l).state = .running ∧ (s.lane l).cur = i ∧
        Entry.kind s.chain (s.lane l).cur = some k ∧ (k = .put ∨ k = .get) := by
      obtain ⟨hput, hget, -⟩ := Entry.kind_of_code s.chain (s.lane l).cur
      rcases htakes with ⟨⟨hreset, hrunning, rfl, hcode⟩, rfl⟩ | ⟨⟨hreset, hrunning, rfl, hcode⟩, rfl⟩
      · exact ⟨hreset, hrunning, rfl, hput hcode, .inl rfl⟩
      · exact ⟨hreset, hrunning, rfl, hget hcode, .inr rfl⟩
    obtain ⟨hreset, hrunning, rfl, hkind, htransfer⟩ := hkind
    refine ⟨(s.unmarked l).failTake l st q, ?_, fun j => ?_, rfl⟩
    · rw [State.exec_entryTake_running hreset hrunning, State.takeEntry_of_failed_read hkind htransfer hread]
    · rw [State.failTake, State.lane_endLane, State.lane_modifyLane_same, State.lane_modifyLane, State.lane_unmarked,
        if_pos rfl, State.lane_unmarked]
      split
      · rfl
      · rfl

end Sys2Proof.Machine
end

section
/-! PROOFS. The station controller (R71 to R88, R92): REJOIN, LEAVE, the completion of a join, and the expiry of the
refresh window. -/

namespace Sys2Proof.Machine

set_option Elab.async false -- as in Tests/Slice0.lean: fewer threads, within the check's memory limit

namespace State

/-! ## REJOIN (R71, R92) -/

theorem rejoin_of_refused {s : State}
    (h : s.stationState = .offline ∨ s.stationState = .leaving ∨ s.stationState = .halted) :
    s.rejoin = s.answer .wrongState 0 := by
  rcases h with h | h | h
  · simp only [rejoin, h]
  · simp only [rejoin, h]
  · simp only [rejoin, h]

theorem rejoin_of_accepted {s : State}
    (h : s.stationState = .joining ∨ s.stationState = .active ∨ s.stationState = .adrift) :
    s.rejoin = s.driftFlush.joiningEntry.answer .ok 0 := by
  rcases h with h | h | h
  · simp only [rejoin, h]
  · simp only [rejoin, h]
  · simp only [rejoin, h]

/-- A frame of the station slot goes on to its end through a flush, so the JOIN waits for it (R37, R50, R72). -/
theorem joiningEntry_of_flush {s u : State} (h : u.IsFlushOf s) :
    u.settle.joiningEntry =
      { u.settle with
        stationState := .joining, spoilStreak := 0, join := some newJoin
        stationSlot :=
          if s.flight.map Flight.slot = some .station then none
          else some { frame := .join, attempts := 0, held := false }
        stationNext := if s.flight.map Flight.slot = some .station then some .join else none } := by
  obtain ⟨-, -, hu⟩ := h
  have hpass : u.passCount = 0 := congrArg passCount hu
  have hwindow : u.window = none := congrArg window hu
  have hslot : u.stationSlot = none := congrArg stationSlot hu
  have hnext : u.stationNext = none := congrArg stationNext hu
  have hflight : u.settle.flight.map Flight.slot = s.flight.map Flight.slot := by
    rw [hu]
    simp [Function.comp_def]
  by_cases hline : s.flight.map Flight.slot = some .station
  · rw [joiningEntry_of_on_line (stationFrameOnLine_iff.2 (hflight.trans hline))]
    ext1 <;> simp [hline, hpass, hwindow, hslot]
  · have hoff : u.settle.stationFrameOnLine = false := by
      rw [stationFrameOnLine_eq, hflight, decide_eq_false hline]
    rw [joiningEntry_of_not_on_line hoff]
    ext1 <;> simp [hline, hpass, hwindow, hnext]

/-! ## LEAVE (R71, R86) -/

theorem leave_of_refused {s : State} (hjoining : s.stationState ≠ .joining) (hactive : s.stationState ≠ .active) :
    s.leave = s.answer .wrongState 0 := by
  unfold leave
  split
  next h => exact absurd h hjoining
  next h => exact absurd h hactive
  all_goals rfl

/-- The state in which LEAVE places its frame (R86, R138). -/
def leavingBegun (s : State) : State :=
  { s.detachLanes.dropLaneFrames with window := none, join := none, stationState := .leaving }

/-- The state of LEAVE before its CHAIN_END records are handed over (R86, R138). -/
def leaving (s : State) : State := s.leavingBegun.placeStation .leave

theorem leave_of_accepted {s : State} (h : s.stationState = .joining ∨ s.stationState = .active) :
    s.leave = s.leaving.settle.answer .ok 0 := by
  rcases h with h | h
  · simp only [leave, h, leaving, leavingBegun]
  · simp only [leave, h, leaving, leavingBegun]

theorem lane_leaving (s : State) (l : LaneNo) : s.leaving.lane l = (s.lane l).detached l := by
  have hlanes : s.leaving.lane l = s.detachLanes.lane l := by simp [leaving, leavingBegun, lane]
  rw [hlanes, detachLanes, lane_mapLanes, Lane.detached]

theorem flight_leaving (s : State) :
    s.leaving.flight = s.flight.map fun f => { f with attached := f.attached && decide (∀ l, f.slot ≠ .lane l) } := by
  have hflight : s.leaving.flight = s.detachLanes.dropLaneFrames.flight := by simp [leaving, leavingBegun]
  rw [hflight, flight_dropLaneFrames]
  simp

theorem leaving_slots (s : State) :
    (s.flight.map Flight.slot ≠ some .station →
      s.leaving.stationSlot = some { frame := .leave, attempts := 0, held := false } ∧
        s.leaving.stationNext = s.stationNext) ∧
    (s.flight.map Flight.slot = some .station →
      s.leaving.stationSlot = s.stationSlot.map (fun o => { o with held := true }) ∧
        s.leaving.stationNext = some .leave) := by
  have hline : s.leavingBegun.flight.map Flight.slot = s.flight.map Flight.slot := by
    rw [leavingBegun, flight_dropLaneFrames]
    simp [Function.comp_def]
  constructor
  · intro h
    rw [leaving, placeStation_of_not_on_line _ ((stationFrameOnLine_eq _).trans (decide_eq_false (hline ▸ h)))]
    exact ⟨rfl, by simp [leavingBegun]⟩
  · intro h
    rw [leaving, placeStation_of_on_line _ (stationFrameOnLine_iff.2 (hline.trans h))]
    exact ⟨by simp [leavingBegun], rfl⟩

theorem leaving_eq (s : State) :
    s.leaving =
      { s with
        lanes := s.leaving.lanes, laneSlots := Vector.replicate 4 none, placement := []
        flight := s.leaving.flight, stationSlot := s.leaving.stationSlot, stationNext := s.leaving.stationNext
        window := none, join := none, stationState := .leaving } := by
  have hslots : s.leaving.laneSlots = Vector.replicate 4 none ∧ s.leaving.placement = [] := by
    simp [leaving, leavingBegun, dropLaneFrames]
  ext1 <;> simp [hslots]
  all_goals simp [leaving, leavingBegun]

end State

/-- Settles O8: the flush of `State.driftFlush`, then the JOINING entry. -/
theorem rejoinFlushesAndJoins : Obligations.RejoinFlushesAndJoins := by
  intro s hreset
  simp only [exec_rejoin hreset, Host.Outcome.next.injEq]
  refine ⟨State.rejoin_of_refused, fun h => ?_⟩
  obtain ⟨u, hflush, hu⟩ := s.driftFlush_spec
  refine ⟨u, hflush, ?_⟩
  rw [State.rejoin_of_accepted h, hu, State.joiningEntry_of_flush hflush]
  rfl

/-- Settles O9: the lanes detached with their frames, and the LEAVE placed. -/
theorem leaveDetachesAndOffersLeave : Obligations.LeaveDetachesAndOffersLeave := by
  intro s hreset
  simp only [exec_leave hreset, Host.Outcome.next.injEq]
  refine ⟨State.leave_of_refused, fun h => ⟨s.leaving, State.leave_of_accepted h, s.lane_leaving, fun hnone => ?_,
    fun f hf => ?_, (s.leaving_slots).1, (s.leaving_slots).2, s.leaving_eq⟩⟩
  · rw [s.flight_leaving, hnone, Option.map_none]
  · rw [s.flight_leaving, hf, Option.map_some]

/-! ## The completion of a join (R80) -/

namespace State

theorem tryComplete_of_incomplete {s : State} (n : Nat) (h : ¬ s.joinComplete) : s.tryComplete n = s := if_neg h

theorem tryComplete_of_complete {s : State} (n : Nat) (h : s.joinComplete) :
    s.tryComplete n =
      ({ s with window := none, stationSlot := withoutAsk s.stationSlot, stationState := .active
                join := none } : State).handEvent .joined n := if_pos h

theorem withoutAsk_of_ask {o : StationSlot} {a b : Nat} (h : o.frame = .ask a b) : withoutAsk (some o) = none := by
  simp only [withoutAsk, h]

theorem withoutAsk_of_other {o : StationSlot} (h : ∀ a b, o.frame ≠ .ask a b) : withoutAsk (some o) = some o := by
  rcases hframe : o.frame with _ | _ | ⟨a, b⟩
  · simp only [withoutAsk, hframe]
  · simp only [withoutAsk, hframe]
  · exact absurd hframe (h a b)

end State

/-- Settles O46: the completion test and its actions. -/
theorem joinsCompleteWhenTheTableIsCurrent : Obligations.JoinsCompleteWhenTheTableIsCurrent := by
  intro s orphans
  refine ⟨State.tryComplete_of_incomplete orphans, fun h => ⟨_, State.tryComplete_of_complete orphans h, fun o ho =>
    ⟨fun a b hask => ?_, fun hother => ?_⟩, fun hnone => ?_, rfl⟩⟩
  · simp only [ho, State.withoutAsk_of_ask hask]
  · simp only [ho, State.withoutAsk_of_other hother]
  · simp only [hnone, State.withoutAsk]

/-! ## The refresh window (R76, R77) -/

namespace State

theorem windowExpiry_of_stopped {s : State} (h : s.window = none) : s.windowExpiry = s := by
  simp only [windowExpiry, h]

theorem windowExpiry_of_running {s : State} (h : s.window.isSome = true) (harea : s.area.wf) :
    s.windowExpiry.PassEnded { s with window := none } fun r => (s.region r).state = .refreshing := by
  obtain ⟨t, ht⟩ := Option.isSome_iff_exists.1 h
  refine passEnded_of_count { s with window := none } harea s.isRefreshing _ (fun r => decide_eq_true_iff) _ ?_
  simp only [windowExpiry, ht]

end State

/-- Settles O47: `State.windowExpiry`, a pass's end. -/
theorem windowExpiryEndsAPass : Obligations.WindowExpiryEndsAPass := by
  intro s hreset hstores
  obtain ⟨harea, -⟩ := hstores
  simp only [exec_refreshWindowExpiry hreset, Host.Outcome.next.injEq]
  refine ⟨fun hnone => by rw [State.windowExpiry_of_stopped hnone], fun hsome => ⟨_, State.windowExpiry_of_running hsome
    harea, rfl⟩⟩

end Sys2Proof.Machine
end

section
/-! PROOFS. The line unit (R29 to R33, R35, R40): openings and start edges, lost arbitration, and the readback
difference. -/

namespace Sys2Proof.Machine

set_option Elab.async false -- as in Tests/Slice0.lean: fewer threads, within the check's memory limit

/-! ## Openings (R30, R31) -/

/-- Settles O29: the opening leaves the arbiter's choice as it was; the start symbol is begun while access is open. -/
theorem accessOpens : Obligations.AccessOpens := by
  intro s hreset
  simp only [exec_accessOpening hreset, Host.Outcome.next.injEq]
  refine ⟨fun hphase => ⟨_, rfl, ?_, fun hlistening => ?_, fun hsilent => ?_⟩, fun hphase => ?_⟩
  · simp only [State.accessOpening, hphase]
  · have hlistens : ({ s with phase := .accessOpen } : State).listening = true := hlistening
    simp only [State.accessOpening, hphase, State.startSymbol, hlistens, decide_true, Bool.and_self, if_true]
    rfl
  · have hlistens : ({ s with phase := .accessOpen } : State).listening = false := hsilent
    simp only [State.accessOpening, hphase, State.startSymbol, hlistens, Bool.false_and, Bool.false_eq_true, if_false]
  · unfold State.accessOpening
    split
    next h => exact absurd h hphase
    all_goals rfl

/-! ## Start edges (R31, R35) -/

namespace State

theorem startEdge_of_idle {s : State} (h : s.phase = .counting ∨ s.phase = .accessOpen) :
    s.startEdge =
      if s.listening then ({ s with phase := .inFrame } : State).joinIn else { s with phase := .inFrame } := by
  rcases h with h | h
  · simp only [startEdge, h]
  · simp only [startEdge, h]

theorem joinIn_station {u : State} {o : StationSlot} (h : u.stationSlot = some o) :
    u.joinIn =
      { u with
        flight := some { slot := .station, frame := { sender := u.stationNumber, body := o.frame.body }
                         attached := true, differed := false } } := by
  have hbody : u.slotBody .station = some o.frame.body := by simp only [slotBody, h, Option.map_some]
  rw [joinIn_some (arbiterChoice_station h) hbody, markOnLine]

theorem joinIn_lane {u : State} {l : LaneNo} {o : LaneSlot} (hchoice : u.arbiterChoice = some (.lane l))
    (h : u.laneSlot l = some o) :
    u.joinIn =
      { u.modifyLane l (fun x => { x with state := .onLine }) with
        flight := some { slot := .lane l, frame := { sender := u.stationNumber, body := o.frame.body }
                         attached := true, differed := false } } := by
  have hbody : u.slotBody (.lane l) = some o.frame.body := by simp only [slotBody, h, Option.map_some]
  rw [joinIn_some hchoice hbody, markOnLine]

theorem joinIn_image {u : State} {o : ImageSlot} (hchoice : u.arbiterChoice = some .image) (h : u.imageSlot = some o) :
    u.joinIn =
      { u with
        flight := some
          { slot := .image
            frame :=
              { sender := u.stationNumber
                body := .image o.region (u.region o.region).owner (u.region o.region).count
                  (u.regionBytes o.region 0 128) }
            attached := true, differed := false } } := by
  have hbody : u.slotBody .image = some (.image o.region (u.region o.region).owner (u.region o.region).count
      (u.regionBytes o.region 0 128)) := by simp only [slotBody, h, Option.map_some]
  rw [joinIn_some hchoice hbody, markOnLine]

/-- A placed CLAIM or RELEASE that no other comes before is chosen ahead of the image slot. -/
theorem arbiterChoice_of_claim_or_release {u : State} {l : LaneNo} {o : LaneSlot} {before after : List LaneNo}
    (hstation : u.stationSlot = none) (hplaced : u.placement = before ++ l :: after) (ho : u.laneSlot l = some o)
    (hkind : o.frame.isUpdate = false)
    (hbefore : ∀ k, k ∈ before → ∀ p, u.laneSlot k = some p → p.frame.isUpdate = true) :
    u.arbiterChoice = some (.lane l) :=
  arbiterChoice_lane hstation (firstPlaced_eq_some hplaced ho (by simp [hkind]) fun k hk p hp => by
    simp [hbefore k hk p hp])

section OnlyUpdates

variable {u : State} (hstation : u.stationSlot = none)
  (hupdates : ∀ k, k ∈ u.placement → ∀ p, u.laneSlot k = some p → p.frame.isUpdate = true)

include hstation hupdates

omit hstation in
theorem firstPlaced_of_only_updates : u.firstPlaced (fun f => !f.isUpdate) = none :=
  firstPlaced_eq_none fun k hk p hp => by simp [hupdates k hk p hp]

/-- With nothing ahead of them and no IMAGE the first placed UPDATE is chosen. -/
theorem arbiterChoice_of_update {l : LaneNo} {o : LaneSlot} {before after : List LaneNo} (himage : u.imageSlot = none)
    (hplaced : u.placement = before ++ l :: after) (ho : u.laneSlot l = some o)
    (hbefore : ∀ k, k ∈ before → u.laneSlot k = none) : u.arbiterChoice = some (.lane l) := by
  have hl : l ∈ u.placement := by rw [hplaced]; simp
  rw [arbiterChoice_update hstation (firstPlaced_of_only_updates hupdates) himage,
    firstPlaced_eq_some hplaced ho (hupdates l hl o ho) fun k hk p hp => by rw [hbefore k hk] at hp; cases hp]
  rfl

theorem arbiterChoice_of_nothing (himage : u.imageSlot = none) (hnone : ∀ k, k ∈ u.placement → u.laneSlot k = none) :
    u.arbiterChoice = none := by
  rw [arbiterChoice_update hstation (firstPlaced_of_only_updates hupdates) himage,
    firstPlaced_eq_none fun k hk p hp => by rw [hnone k hk] at hp; cases hp]
  rfl

end OnlyUpdates

end State

/-- Settles O30: the arbiter's choice in the order of R35, and the frame that goes on the line for each. -/
theorem startEdgeFollowsThePreference : Obligations.StartEdgeFollowsThePreference := by
  intro s hreset hidle onLine laneGoes
  simp only [laneGoes, exec_startEdge hreset, Host.Outcome.next.injEq, State.startEdge_of_idle hidle]
  have hlane : ∀ (l : LaneNo) (o : LaneSlot), ({ s with phase := .inFrame } : State).arbiterChoice = some (.lane l) →
      s.laneSlot l = some o →
      ∃ t, ({ s with phase := .inFrame } : State).joinIn = t ∧
        (∀ k, t.lane k = if k = l then { s.lane l with state := .onLine } else s.lane k) ∧
        t = { s with phase := .inFrame, lanes := t.lanes, flight := onLine (.lane l) o.frame.body } := by
    intro l o hchoice ho
    refine ⟨_, rfl, ?_⟩
    rw [State.joinIn_lane hchoice ho]
    exact ⟨fun k => State.lane_modifyLane s l k (fun x => { x with state := .onLine }), rfl⟩
  refine ⟨fun hsilent => by rw [hsilent, if_neg Bool.false_ne_true], fun hlistening => ?_⟩
  simp only [hlistening, if_true]
  refine ⟨fun o ho => State.joinIn_station ho, fun hstation => ⟨fun l o before after hplaced ho hkind hbefore =>
    hlane l o (State.arbiterChoice_of_claim_or_release hstation hplaced ho hkind hbefore) ho, fun hupdates =>
    ⟨fun o ho => ?_, fun himage => ⟨fun l o before after hplaced ho hbefore => ?_, fun hnone => ?_⟩⟩⟩⟩
  · exact State.joinIn_image (State.arbiterChoice_image hstation (State.firstPlaced_of_only_updates hupdates) ho)
      ho
  · exact hlane l o (State.arbiterChoice_of_update hstation hupdates himage hplaced ho hbefore) ho
  · exact State.joinIn_none (State.arbiterChoice_of_nothing hstation hupdates himage hnone)

end Sys2Proof.Machine
end

section
/-! PROOFS. The line unit (R27, R29, R33, R40, R46): what a frame's end is at a receiving station, lost arbitration, the
readback difference, and the streak that ends in ADRIFT. -/

namespace Sys2Proof.Machine

set_option Elab.async false -- as in Tests/Slice0.lean: fewer threads, within the check's memory limit

/-! ## A frame's end at a station that receives it (R38 to R43) -/

section Receives

variable {s : State} (h : s.Receives)

include h

theorem receivesHere_of_receives : s.receivesHere = true :=
  have ⟨_, hlistening, hphase⟩ := h
  State.receivesHere_iff.2 ⟨hlistening, hphase⟩

theorem exec_framingBreak_of_receives : exec .framingBreak s = .next s.countAgain.spoil.settle := by
  obtain ⟨hreset, hlistening, hphase⟩ := h
  rw [exec_framingBreak hreset hphase, State.framingBreak_of_listening hlistening]

theorem exec_spoiledFrameEnd_of_receives (bytes : List Byte) :
    exec (.spoiledFrameEnd bytes) s = .next ((s.resolveReadback bytes).spoiledHere bytes).settle := by
  obtain ⟨hreset, hlistening, hphase⟩ := h
  rw [exec_spoiledFrameEnd bytes hreset hphase, State.spoiledFrameEnd_of_listening bytes hlistening]

theorem exec_carriedFrameEnd_of_receives (bytes : List Byte) :
    exec (.carriedFrameEnd bytes) s = .next (s.carriedHere bytes) := by
  obtain ⟨hreset, hlistening, hphase⟩ := h
  rw [exec_carriedFrameEnd bytes hreset hphase, State.carriedFrameEnd_of_listening bytes hlistening]

end Receives

namespace State

theorem spoilAttempt_of_no_flight {s : State} (h : s.flight = none) : s.spoilAttempt = s := by
  simp only [spoilAttempt, h]

theorem loseAttempt_of_no_flight {s : State} (h : s.flight = none) : s.loseAttempt = s := by
  simp only [loseAttempt, h]

theorem resolveReadback_of_no_flight {s : State} (h : s.flight = none) (bytes : List Byte) :
    s.resolveReadback bytes = s := by
  simp only [resolveReadback, h]

theorem findsBad_of_differed {s : State} {f : Flight} (hf : s.flight = some f) (hd : f.differed = true)
    (bytes : List Byte) : s.findsBad bytes = true := by
  simp [findsBad, sent, hf, hd]

theorem findsBad_of_sent {s : State} {f : Flight} (hf : s.flight = some f) (hd : f.differed = false)
    {bytes : List Byte} (hbytes : f.frame.bytes = bytes) : s.findsBad bytes = false := by
  simp [findsBad, sent, hf, hd, hbytes]

theorem spoiledHere_of_bad {s : State} {bytes : List Byte} (h : s.findsBad bytes = true) :
    s.spoiledHere bytes = s.countAgain.spoil := if_pos h

theorem spoiledHere_of_clean {s : State} {bytes : List Byte} (h : s.findsBad bytes = false) :
    s.spoiledHere bytes = s.atFrameEnd.spoilAttempt :=
  if_neg (Bool.eq_false_iff.1 h)

/-! ## The streak (R46) -/

/-- Below the last spoil of the streak the attempt of this station, if there is one, ends spoiled. -/
theorem spoil_of_low {s : State} (h : s.spoilStreak < 15) :
    s.spoil = ({ s with spoilStreak := s.spoilStreak + 1 } : State).spoilAttempt := by
  have hraise : s.raiseStreak = { s with spoilStreak := s.spoilStreak + 1 } := by
    simp only [raiseStreak, satAdd, Config.maxStreak]
    congr 1
    omega
  have hlow : s.spoilStreak + 1 ≠ Config.maxStreak := by simp only [Config.maxStreak]; omega
  rw [spoil, hraise, if_neg hlow]

theorem spoil_of_low_of_no_flight {s : State} (h : s.spoilStreak < 15) (hf : s.flight = none) :
    s.spoil = { s with spoilStreak := s.spoilStreak + 1 } := by
  rw [spoil_of_low h, spoilAttempt_of_no_flight (by exact hf)]

/-- The spoil that brings the streak to 16 takes the station to ADRIFT. -/
theorem spoil_of_high {s : State} (h : 15 ≤ s.spoilStreak) :
    ∃ u : State, u.IsFlushOf { s with spoilStreak := 16 } ∧
      s.spoil = { (({ u.settle with stationState := .adrift } : State).handEvent .adrift 1).settle with
                  flight := none } := by
  have hraise : s.raiseStreak = { s with spoilStreak := 16 } := by
    simp only [raiseStreak, satAdd, Config.maxStreak]
    congr 1
    omega
  have hmax : s.raiseStreak.spoilStreak = Config.maxStreak := by rw [hraise]; rfl
  obtain ⟨u, hflush, hu⟩ := driftFlush_spec { s with spoilStreak := 16 }
  refine ⟨u, hflush, ?_⟩
  rw [spoil, if_pos hmax, hraise, adriftEntry, hu]
  rfl

/-! ## The mark of a readback difference (R40) -/

/-- A lost attempt is the same whether or not its readback differed. -/
theorem loseAttempt_differed {s : State} {f : Flight} (hf : s.flight = some f) :
    ({ s with flight := some { f with differed := true } } : State).loseAttempt = s.loseAttempt := by
  simp only [loseAttempt, hf]

/-- A spoiled attempt is the same whether or not its readback differed. -/
theorem spoilAttempt_differed {s : State} {f : Flight} (hf : s.flight = some f) :
    ({ s with flight := some { f with differed := true } } : State).spoilAttempt = s.spoilAttempt := by
  simp only [spoilAttempt, hf]

theorem resolveReadback_of_differed {s : State} {f : Flight} (hf : s.flight = some f) (hd : f.differed = true)
    (bytes : List Byte) : s.resolveReadback bytes = s := by
  simp [resolveReadback, hf, hd]

theorem spoilSlot_of_differed {s : State} (h : s.Receives) {f : Flight} (hf : s.flight = some f)
    (hd : f.differed = true) (bytes : List Byte) : s.spoilSlot bytes = LineCode.spoilCells := by
  rw [spoilSlot_of_receives bytes (receivesHere_of_receives h), resolveReadback_of_differed hf hd,
    findsBad_of_differed hf hd, if_pos rfl]

theorem carriedHere_congr {s t : State} {bytes : List Byte} (hlost : s.loseAttempt = t.loseAttempt)
    (hread : s.resolveReadback bytes = t.resolveReadback bytes) : s.carriedHere bytes = t.carriedHere bytes := by
  simp only [carriedHere, hlost, hread]

theorem readbackDifference_of_flight {s : State} {f : Flight} (hf : s.flight = some f) :
    s.readbackDifference = { s with flight := some { f with differed := true } } := by
  simp only [readbackDifference, hf, Option.map_some]

theorem readbackDifference_of_no_flight {s : State} (hf : s.flight = none) : s.readbackDifference = s := by
  ext1 <;> simp [readbackDifference, hf]

theorem receivesHere_of_not_listening {s : State} (h : s.listening = false) : s.receivesHere = false := by
  simp [receivesHere, h]

end State

/-- Settles O32: a difference marked by a command and one found in the bytes leave the same state behind. -/
theorem readbackDifferenceMarksTheFrame : Obligations.ReadbackDifferenceMarksTheFrame := by
  refine ⟨fun s f bytes hreceives hf hbytes hkey => ?_,
    fun s hreset => ⟨fun f hf => ⟨fun hd => ?_, ?_, ?_⟩, fun hf => ?_⟩⟩
  · have hread := State.resolveReadback_differs hf hbytes hkey
    have hmarked : ({ s with flight := some { f with differed := true } } : State).Receives := hreceives
    have hagain :=
      State.resolveReadback_of_differed (s := { s with flight := some { f with differed := true } }) rfl rfl bytes
    refine ⟨?_, ?_⟩
    · rw [State.spoilSlot_of_receives bytes (receivesHere_of_receives hreceives), hread,
        State.findsBad_of_differed rfl rfl]
      rfl
    · rintro c (rfl | rfl)
      · rw [exec_spoiledFrameEnd_of_receives hreceives, exec_spoiledFrameEnd_of_receives hmarked, hread, hagain]
      · rw [exec_carriedFrameEnd_of_receives hreceives, exec_carriedFrameEnd_of_receives hmarked,
          State.carriedHere_congr (State.loseAttempt_differed hf).symm (hread.trans hagain.symm)]
  · rw [State.drivenCells_of_flight hf, hd, if_neg Bool.false_ne_true]
  · rw [exec_readbackDifference hreset, State.readbackDifference_of_flight hf]
  · intro t bytes ht
    rw [exec_readbackDifference hreset, State.readbackDifference_of_flight hf, Host.Outcome.next.injEq] at ht
    subst ht
    refine ⟨by simp [State.sent], by simp [State.drivenCells], fun hreceives => ?_, fun hsilent => ?_⟩
    · exact State.spoilSlot_of_differed (s := { s with flight := some { f with differed := true } })
        hreceives rfl rfl bytes
    · have hquiet := State.receivesHere_of_not_listening (s := { s with flight := some { f with differed := true } })
        hsilent
      exact ⟨State.spoilSlot_of_silent bytes hquiet, State.spoilMark_of_silent hquiet⟩
  · rw [exec_readbackDifference hreset, State.readbackDifference_of_no_flight hf]

namespace State

theorem carriedFromPeer_of_peer {s : State} {f : Frame} (h : f.sender ≠ s.stationNumber) :
    s.carriedFromPeer f = (s.applyPeer f).settle := if_neg h

theorem arbitrationLost_of_undiffered {s : State} {f : Flight} (hf : s.flight = some f) (hd : f.differed = false) :
    s.arbitrationLost = s.loseAttempt.settle := by
  simp [arbitrationLost, hf, hd]

end State

/-- Settles O31: told by a command or found in the key, arbitration is lost in the same way, and what ends is then a
peer's frame. -/
theorem arbitrationLossKeepsTheFrame : Obligations.ArbitrationLossKeepsTheFrame := by
  refine ⟨fun s f hreset hf hd => ?_, fun s bytes f own hreceives hf hd hcheck hkey hpeer => ?_,
    fun s bytes own hreceives hf hd hkey => ?_⟩
  · refine ⟨_, ?_, State.loseAttempt_lost hf⟩
    rw [exec_arbitrationLost hreset, State.arbitrationLost_of_undiffered hf hd]
  · refine ⟨_, State.loseAttempt_lost hf, ?_⟩
    have hread := State.resolveReadback_lost hf hd hkey
    rw [exec_carriedFrameEnd_of_receives hreceives, State.carriedHere_peer hcheck (by rw [hread]; simp), hread,
      State.carriedFromPeer_of_peer (by simpa [State.atFrameEnd] using hpeer)]
  · refine ⟨_, State.loseAttempt_lost hf, ?_⟩
    have hread := State.resolveReadback_lost hf hd hkey
    have hnone : s.loseAttempt.settle.flight = none := by simp
    have hstreak : s.loseAttempt.settle.countAgain.spoilStreak = s.spoilStreak := by simp [State.countAgain]
    have hbad := State.findsBad_of_no_flight hnone bytes
    simp only [State.spoilSlot_of_receives bytes (receivesHere_of_receives hreceives),
      exec_spoiledFrameEnd_of_receives hreceives, hread, hbad]
    refine ⟨fun hcheck => ?_, fun hcheck => ?_⟩
    · rw [Option.isNone_eq_false_iff.2 hcheck] at hbad ⊢
      rw [State.spoiledHere_of_clean hbad, State.spoilAttempt_of_no_flight (s := s.loseAttempt.settle.atFrameEnd) hnone]
      exact ⟨rfl, rfl⟩
    · rw [hcheck] at hbad ⊢
      rw [State.spoiledHere_of_bad hbad]
      refine ⟨rfl, fun hlow => ?_, fun hhigh => ?_⟩
      · rw [State.spoil_of_low_of_no_flight (s := s.loseAttempt.settle.countAgain) (by rwa [hstreak]) hnone, hstreak]
        rfl
      · obtain ⟨v, hflush, hv⟩ := State.spoil_of_high (s := s.loseAttempt.settle.countAgain) (by rwa [hstreak])
        exact ⟨v, hflush, by rw [hv]⟩

end Sys2Proof.Machine
end

section
/-! PROOFS. The line unit (R36, R37, R40 to R42): what a spoiled attempt costs the frame of each slot. -/

namespace Sys2Proof.Machine

set_option Elab.async false -- as in Tests/Slice0.lean: fewer threads, within the check's memory limit

/-- However the spoil comes about, what follows it is the end of a spoiled attempt. -/
theorem exec_of_spoilEnds {s : State} {c : Instr} {n : Nat} (h : s.SpoilEnds c n) :
    exec c s = .next ({ s with phase := .counting, spoilStreak := n } : State).spoilAttempt.settle := by
  obtain ⟨hreceives, hn, ⟨rfl, rfl⟩ | ⟨f, bytes, hf, rfl, ⟨hd, hbytes, rfl⟩ | ⟨hd | ⟨hbytes, hkey⟩, rfl⟩⟩⟩ := h
  · rw [exec_framingBreak_of_receives hreceives, State.spoil_of_low (s := s.countAgain) (Nat.lt_of_succ_lt_succ hn)]
    rfl
  · rw [exec_spoiledFrameEnd_of_receives hreceives, State.resolveReadback_sent hf hbytes,
      State.spoiledHere_of_clean (State.findsBad_of_sent hf hd hbytes)]
    rfl
  · rw [exec_spoiledFrameEnd_of_receives hreceives, State.resolveReadback_of_differed hf hd,
      State.spoiledHere_of_bad (State.findsBad_of_differed hf hd bytes),
      State.spoil_of_low (s := s.countAgain) (Nat.lt_of_succ_lt_succ hn)]
    rfl
  · have hbad : ({ s with flight := some { f with differed := true } } : State).findsBad bytes = true :=
      State.findsBad_of_differed rfl rfl bytes
    rw [exec_spoiledFrameEnd_of_receives hreceives, State.resolveReadback_differs hf hbytes hkey,
      State.spoiledHere_of_bad hbad,
      State.spoil_of_low (s := ({ s with flight := some { f with differed := true } } : State).countAgain)
        (Nat.lt_of_succ_lt_succ hn)]
    have hsame := State.spoilAttempt_differed (s := { s with phase := .counting, spoilStreak := s.spoilStreak + 1 }) hf
    exact congrArg (fun u => Host.Outcome.next u.settle) hsame

namespace State

/-! ## A lane's frame (R41, R42, R136) -/

section LaneAttempt

variable {s : State} {f : Flight} {l : LaneNo} (hf : s.flight = some f) (hslot : f.slot = .lane l)

include hf hslot

theorem spoilAttempt_lane_detached (ha : f.attached = false) : s.spoilAttempt = { s with flight := none } := by
  simp [spoilAttempt, hf, hslot, ha]

theorem spoilAttempt_lane_stopped (ha : f.attached = true) (hstop : (s.lane l).stopPending = true) :
    s.spoilAttempt = ({ s with flight := none } : State).stopAtEnd l := by
  simp only [spoilAttempt, hf, hslot, ha, if_true]
  exact if_pos hstop

theorem spoilAttempt_lane_counted (ha : f.attached = true) (hstop : (s.lane l).stopPending = false) :
    s.spoilAttempt = ({ s with flight := none } : State).countLaneAttempt l := by
  simp only [spoilAttempt, hf, hslot, ha, if_true]
  exact if_neg (Bool.eq_false_iff.1 hstop)

end LaneAttempt

theorem countLaneAttempt_of_low {s : State} {l : LaneNo} {o : LaneSlot} (ho : s.laneSlot l = some o)
    (h : o.attempts + 1 < 8) :
    s.countLaneAttempt l = (s.setLaneSlot l (some { o with attempts := o.attempts + 1 })).backToOffered l := by
  simp only [countLaneAttempt, ho]
  exact if_pos h

theorem countLaneAttempt_of_eighth {s : State} {l : LaneNo} {o : LaneSlot} (ho : s.laneSlot l = some o)
    (h : 8 ≤ o.attempts + 1) : s.countLaneAttempt l = (s.clearLaneSlot l).completeLane l .abandoned := by
  simp only [countLaneAttempt, ho]
  exact if_neg (Nat.not_lt.2 h)

end State

/-- Settles O33: counted below the eighth attempt; with a stop pending, or at the eighth, the frame leaves its slot. -/
theorem spoiledLaneFramesAreCounted : Obligations.SpoiledLaneFramesAreCounted := by
  refine ⟨fun s c n f l hends hf hslot ha => ?_, fun s c n f l o hends hf hslot ha ho => ?_⟩
  · rw [exec_of_spoilEnds hends,
      State.spoilAttempt_lane_detached (s := { s with phase := .counting, spoilStreak := n }) hf hslot ha]
  · refine ⟨_, exec_of_spoilEnds hends, ?_⟩
    by_cases hstop : (s.lane l).stopPending = true
    · rw [State.spoilAttempt_lane_stopped (s := { s with phase := .counting, spoilStreak := n }) hf hslot ha hstop]
      refine ⟨rfl, fun hgoes => ?_, fun _ => ⟨fun k => ?_, fun k => ?_, rfl⟩⟩
      · rw [hstop] at hgoes
        cases hgoes
      · rw [State.lane_stopAtEnd, if_pos hstop]
        rfl
      · rw [State.laneSlot_stopAtEnd]
        rfl
    · have hgoes := Bool.eq_false_iff.2 hstop
      rw [State.spoilAttempt_lane_counted (s := { s with phase := .counting, spoilStreak := n }) hf hslot ha hgoes]
      by_cases hcount : o.attempts + 1 < 8
      · rw [State.countLaneAttempt_of_low
          (s := { s with phase := .counting, spoilStreak := n, flight := none }) ho hcount]
        refine ⟨rfl, fun _ _ => ⟨fun k => ?_, fun k => ?_, rfl⟩, fun hover => absurd hover ?_⟩
        · rw [State.lane_backToOffered]
          rfl
        · exact State.laneSlot_setLaneSlot s l k _
        · exact not_or.2 ⟨hstop, Nat.not_le.2 hcount⟩
      · rw [State.countLaneAttempt_of_eighth
          (s := { s with phase := .counting, spoilStreak := n, flight := none }) ho (Nat.not_lt.1 hcount)]
        refine ⟨rfl, fun _ hlow => absurd hlow hcount, fun _ => ⟨fun k => ?_, fun k => ?_, rfl⟩⟩
        · rw [State.lane_completeLane, if_neg hstop]
          rfl
        · exact State.laneSlot_clearLaneSlot s l k

namespace State

/-! ## The station slot's frame (R37, R42, R79, R81, R88) -/

section StationAttempt

variable {s : State} {f : Flight} (hf : s.flight = some f) (hslot : f.slot = .station)

include hf hslot

theorem spoilAttempt_station_detached (ha : f.attached = false) :
    s.spoilAttempt = ({ s with flight := none } : State).nextEntered := by
  simp [spoilAttempt, hf, hslot, ha, enterNext_eq]

theorem spoilAttempt_station_attached (ha : f.attached = true) :
    s.spoilAttempt = ({ s with flight := none } : State).countStationAttempt := by
  simp [spoilAttempt, hf, hslot, ha]

end StationAttempt

section CountStation

variable {s : State} {o : StationSlot} (ho : s.stationSlot = some o)

include ho

theorem countStationAttempt_of_held (hheld : o.held = true) : s.countStationAttempt = s.emptyStationSlot := by
  simp [countStationAttempt, ho, hheld]

theorem countStationAttempt_of_low (hheld : o.held = false) (h : o.attempts + 1 < 8) :
    s.countStationAttempt = { s with stationSlot := some { o with attempts := o.attempts + 1 } } := by
  simp only [countStationAttempt, ho, hheld, Bool.false_eq_true, if_false]
  exact if_pos h

theorem countStationAttempt_of_eighth (hheld : o.held = false) (h : 8 ≤ o.attempts + 1) :
    s.countStationAttempt = ({ s with stationSlot := none } : State).stationAbandoned o.frame := by
  simp only [countStationAttempt, ho, hheld, Bool.false_eq_true, if_false]
  exact if_neg (Nat.not_lt.2 h)

end CountStation

theorem adriftEntry_of_flush (s : State) (cause : DriftCause) :
    ∃ u : State, u.IsFlushOf s ∧
      s.adriftEntry cause =
        (({ u.settle with stationState := .adrift } : State).handEvent .adrift cause.code).settle := by
  obtain ⟨u, hflush, hu⟩ := driftFlush_spec s
  exact ⟨u, hflush, by rw [adriftEntry, hu]⟩

theorem askAbandoned_of_joining {s : State} (h : s.stationState = .joining) (hjoin : s.join.isSome = true)
    (harea : s.area.wf) : s.askAbandoned.PassEnded s fun r => (s.region r).state ≠ .current := by
  obtain ⟨j, hj⟩ := Option.isSome_iff_exists.1 hjoin
  have hspan : ∀ r, (s.isStale r || s.isRefreshing r) = true ↔ (s.region r).state ≠ .current := fun r => by
    rw [isStale, isRefreshing]
    cases (s.region r).state <;> decide
  refine passEnded_of_count s harea (fun r => s.isStale r || s.isRefreshing r) _ hspan _ ?_
  simp only [askAbandoned, h, hj]

theorem askAbandoned_of_not_joining {s : State} (h : s.stationState ≠ .joining) : s.askAbandoned = s := by
  unfold askAbandoned
  split
  next hjoining _ => exact absurd hjoining h
  next => rfl

end State

/-- Settles O34: the three ends of a spoiled attempt, and at the eighth what the frame's kind asks for. -/
theorem spoiledStationFramesAreCounted : Obligations.SpoiledStationFramesAreCounted := by
  refine ⟨fun s c n f hends hf hslot ha => ?_, fun s c n f o hends hf hslot ha ho hstores => ?_⟩
  · rw [exec_of_spoilEnds hends,
      State.spoilAttempt_station_detached (s := { s with phase := .counting, spoilStreak := n }) hf hslot ha]
    unfold State.nextEntered
    dsimp only
    split <;> rfl
  · intro t e
    obtain ⟨harea, -⟩ := hstores
    have hexec : exec c s = .next t.countStationAttempt.settle := by
      rw [exec_of_spoilEnds hends,
        State.spoilAttempt_station_attached (s := { s with phase := .counting, spoilStreak := n }) hf hslot ha]
    rw [hexec]
    refine ⟨fun hheld => ?_, fun hheld hlow => ?_, fun hheld hover => ?_⟩
    · rw [State.countStationAttempt_of_held (s := t) ho hheld, State.emptyStationSlot_eq]
    · rw [State.countStationAttempt_of_low (s := t) ho hheld hlow]
    · rw [State.countStationAttempt_of_eighth (s := t) ho hheld hover]
      refine ⟨fun hjoin => ?_, fun a b hask => ⟨fun hjoining hsome => ?_, fun hother => ?_⟩, fun hleave => ?_⟩
      · obtain ⟨u, hflush, hu⟩ := State.adriftEntry_of_flush e .joinAbandoned
        exact ⟨u, hflush, by rw [hjoin, ← DriftCause.code, ← hu]; rfl⟩
      · exact ⟨_, State.askAbandoned_of_joining (s := e) hjoining hsome harea, by rw [hask]; rfl⟩
      · rw [hask]
        exact congrArg (fun u => Host.Outcome.next u.settle) (State.askAbandoned_of_not_joining (s := e) hother)
      · exact ⟨_, State.endOfLeave_ended e, by rw [hleave]; rfl⟩

/-! ## The image slot's frame (R36, R42, R84) -/

namespace State

section ImageAttempt

variable {s : State} {f : Flight} (hf : s.flight = some f) (hslot : f.slot = .image)

include hf hslot

theorem spoilAttempt_image_detached (ha : f.attached = false) :
    s.spoilAttempt = ({ s with flight := none } : State).moveImageSlot := by
  simp [spoilAttempt, hf, hslot, ha, syncImageSlot_of_no_flight]

theorem spoilAttempt_image_attached (ha : f.attached = true) :
    s.spoilAttempt = ({ s with flight := none } : State).countImageAttempt := by
  simp [spoilAttempt, hf, hslot, ha]

end ImageAttempt

theorem countImageAttempt_of_low {s : State} {o : ImageSlot} (ho : s.imageSlot = some o) (hf : s.flight = none)
    (h : o.attempts + 1 < 8) :
    s.countImageAttempt =
      ({ s with imageSlot := some { o with attempts := o.attempts + 1 } } : State).moveImageSlot := by
  simp only [countImageAttempt, ho]
  exact (if_pos h).trans (syncImageSlot_of_no_flight _ hf)

theorem countImageAttempt_of_eighth {s : State} {o : ImageSlot} (ho : s.imageSlot = some o)
    (h : 8 ≤ o.attempts + 1) :
    s.countImageAttempt = ({ s with imageSlot := none } : State).dropResponse o.region := by
  simp only [countImageAttempt, ho]
  exact if_neg (Nat.not_lt.2 h)

theorem dropResponse_of_no_flight {s : State} (hf : s.flight = none) (r : RegionNo) :
    s.dropResponse r = (s.setRegion r { s.region r with responding := false }).moveImageSlot :=
  syncImageSlot_of_no_flight _ hf

end State

/-- Settles O35: below the eighth attempt the set is unchanged; the eighth takes the region out of it. -/
theorem spoiledImagesAreCounted : Obligations.SpoiledImagesAreCounted := by
  refine ⟨fun s c n f hends hf hslot ha => ?_, fun s c n f o hends hf hslot ha ho => ?_⟩
  · refine ⟨_, exec_of_spoilEnds hends, ?_⟩
    rw [State.spoilAttempt_image_detached (s := { s with phase := .counting, spoilStreak := n }) hf hslot ha]
    exact ⟨State.moveImageSlot_follows _, State.moveImageSlot_eq _⟩
  · refine ⟨_, exec_of_spoilEnds hends, ?_⟩
    rw [State.spoilAttempt_image_attached (s := { s with phase := .counting, spoilStreak := n }) hf hslot ha]
    by_cases hcount : o.attempts + 1 < 8
    · rw [State.countImageAttempt_of_low
        (s := { s with phase := .counting, spoilStreak := n, flight := none }) ho rfl hcount]
      refine ⟨?_, fun _ => ⟨?_, State.moveImageSlot_follows _⟩, fun hover => absurd hcount (Nat.not_lt.2 hover)⟩
      · ext1 <;> simp
      · simp
    · rw [State.countImageAttempt_of_eighth
        (s := { s with phase := .counting, spoilStreak := n, flight := none }) ho (Nat.not_lt.1 hcount),
        State.dropResponse_of_no_flight rfl]
      refine ⟨?_, fun hlow => absurd hlow hcount, fun _ => ⟨fun r => ?_, State.moveImageSlot_follows _⟩⟩
      · ext1 <;> simp
      · rw [State.region_moveImageSlot, State.region_setRegion]
        split
        next hr => rw [hr]; rfl
        next => rfl

end Sys2Proof.Machine
end

section
/-! PROOFS. The line unit (R29, R46, R47, R49, R93): frames this station does not send, ADRIFT, and duplicates. -/

namespace Sys2Proof.Machine

set_option Elab.async false -- as in Tests/Slice0.lean: fewer threads, within the check's memory limit

/-- Settles O36: below the last spoil only the streak moves; the last one is the ADRIFT entry. -/
theorem spoilsMoveTheStreakToAdrift : Obligations.SpoilsMoveTheStreakToAdrift := by
  refine ⟨fun s hreceives hf => ⟨?_, fun hlow => ?_, fun bytes => ?_⟩, fun s hreceives hhigh c hc => ?_⟩
  · rw [State.spoilMark_of_receives (receivesHere_of_receives hreceives)]
    rfl
  · rw [exec_framingBreak_of_receives hreceives, State.spoil_of_low_of_no_flight (s := s.countAgain) hlow hf]
    rfl
  · have hread := State.resolveReadback_of_no_flight hf bytes
    have hbad := State.findsBad_of_no_flight hf bytes
    rw [State.spoilSlot_of_receives bytes (receivesHere_of_receives hreceives),
      exec_spoiledFrameEnd_of_receives hreceives, hread]
    refine ⟨fun hcheck => ?_, fun hcheck => ?_, fun hcheck hlow => ?_, fun hcheck => ?_⟩
    · rw [hbad, hcheck]
      rfl
    · rw [hbad, Option.isNone_eq_false_iff.2 hcheck]
      rfl
    · rw [hcheck] at hbad
      rw [State.spoiledHere_of_bad hbad, State.spoil_of_low_of_no_flight (s := s.countAgain) hlow hf]
      rfl
    · rw [Option.isNone_eq_false_iff.2 hcheck] at hbad
      rw [State.spoiledHere_of_clean hbad, State.spoilAttempt_of_no_flight (s := s.atFrameEnd) hf]
  · have hspoils : exec c s = .next s.countAgain.spoil.settle := by
      rcases hc with rfl | ⟨bytes, rfl, ⟨hf, hcheck⟩ | ⟨f, hf, hd⟩⟩
      · exact exec_framingBreak_of_receives hreceives
      · have hbad := State.findsBad_of_no_flight hf bytes
        rw [hcheck] at hbad
        rw [exec_spoiledFrameEnd_of_receives hreceives, State.resolveReadback_of_no_flight hf,
          State.spoiledHere_of_bad hbad]
      · rw [exec_spoiledFrameEnd_of_receives hreceives, State.resolveReadback_of_differed hf hd,
          State.spoiledHere_of_bad (State.findsBad_of_differed hf hd bytes)]
    obtain ⟨u, hflush, hu⟩ := State.spoil_of_high (s := s.countAgain) hhigh
    exact ⟨u, hflush, by rw [hspoils, hu]⟩

namespace State

/-! ## ADRIFT and HALTED (R29, R47, R49, R93) -/

theorem haltedEntry_haltedFrom (s : State) : s.haltedEntry.HaltedFrom s := by
  obtain ⟨u, hflush, hu⟩ := driftFlush_spec s
  exact ⟨u, hflush, by rw [haltedEntry, hu]⟩

theorem carriedFromPeer_of_duplicate {s : State} {f : Frame} (h : f.sender = s.stationNumber) :
    s.carriedFromPeer f = s.haltedEntry := if_pos h

theorem sent_iff {s : State} {bytes : List Byte} :
    s.sent bytes = true ↔ ∃ f, s.flight = some f ∧ f.differed = false ∧ f.frame.bytes = bytes := by
  unfold sent
  split
  next f hf => simp [hf]
  next hf => simp [hf]

theorem receivesHere_of_not_inFrame {s : State} (h : s.phase ≠ .inFrame) : s.receivesHere = false := by
  simp [receivesHere, h]

section Adrift

variable {s : State} (h : s.stationState = .adrift)

include h

theorem receivesHere_of_adrift : s.receivesHere = false :=
  receivesHere_of_not_listening (by simp [listening, h])

theorem framingBreak_of_adrift : s.framingBreak = { s with phase := .counting, flight := none } := by
  simp only [framingBreak, h, countAgain]

theorem spoiledFrameEnd_of_adrift (bytes : List Byte) :
    s.spoiledFrameEnd bytes = { s with phase := .counting, flight := none } := by
  simp only [spoiledFrameEnd, h, countAgain]

theorem carriedFrameEnd_of_adrift (bytes : List Byte) : s.carriedFrameEnd bytes = s.carriedAdrift bytes := by
  simp only [carriedFrameEnd, h]

end Adrift

section CarriedAdrift

variable {s : State} {bytes : List Byte}

theorem carriedAdrift_of_bad (h : checkFrame bytes = none) :
    s.carriedAdrift bytes = { s with phase := .counting, flight := none } := by
  simp only [carriedAdrift, h, countAgain]

variable {f : Frame} (h : checkFrame bytes = some f)

include h

theorem carriedAdrift_of_peer (hpeer : f.sender ≠ s.stationNumber) :
    s.carriedAdrift bytes = ({ s with phase := .counting, flight := none } : State).joiningEntry := by
  simp only [carriedAdrift, h, countAgain]
  exact if_neg hpeer

theorem carriedAdrift_of_sent (hown : f.sender = s.stationNumber) (hsent : s.sent bytes = true) :
    s.carriedAdrift bytes = { s with phase := .counting, flight := none } := by
  simp only [carriedAdrift, h, countAgain]
  exact (if_pos hown).trans (if_pos hsent)

theorem carriedAdrift_of_duplicate (hown : f.sender = s.stationNumber) (hsent : ¬ s.sent bytes = true) :
    s.carriedAdrift bytes = ({ s with phase := .counting, flight := none } : State).haltedEntry := by
  simp only [carriedAdrift, h, countAgain]
  exact (if_pos hown).trans (if_neg hsent)

end CarriedAdrift

end State

/-- Settles O37: by whether the line unit is in a frame, then by the frame that ends in ADRIFT. -/
theorem silentStationsApplyNothing : Obligations.SilentStationsApplyNothing := by
  refine ⟨fun s bytes hphase => ⟨whileReceiving_other _ hphase, whileReceiving_other _ hphase,
    whileReceiving_other _ hphase, ?_, ?_⟩, fun s bytes hreset hphase hadrift => ⟨?_, ?_, ?_, ?_, fun hcheck => ?_⟩,
    fun s bytes f hreset hphase hadrift hcheck => ?_⟩
  · exact State.spoilMark_of_silent (State.receivesHere_of_not_inFrame hphase)
  · exact State.spoilSlot_of_silent bytes (State.receivesHere_of_not_inFrame hphase)
  · exact State.spoilMark_of_silent (State.receivesHere_of_adrift hadrift)
  · exact State.spoilSlot_of_silent bytes (State.receivesHere_of_adrift hadrift)
  · rw [exec_framingBreak hreset hphase, State.framingBreak_of_adrift hadrift]
  · rw [exec_spoiledFrameEnd bytes hreset hphase, State.spoiledFrameEnd_of_adrift hadrift]
  · rw [exec_carriedFrameEnd bytes hreset hphase, State.carriedFrameEnd_of_adrift hadrift,
      State.carriedAdrift_of_bad hcheck]
  · rw [exec_carriedFrameEnd bytes hreset hphase, State.carriedFrameEnd_of_adrift hadrift]
    refine ⟨fun hpeer => ?_, fun hown => ⟨fun own hf hd hbytes => ?_, fun hunsent => ?_⟩⟩
    · rw [State.carriedAdrift_of_peer hcheck hpeer,
        State.joiningEntry_of_not_on_line (State.stationFrameOnLine_of_no_flight rfl)]
      rfl
    · rw [State.carriedAdrift_of_sent hcheck hown (State.sent_iff.2 ⟨own, hf, hd, hbytes⟩)]
    · have hsent : ¬ s.sent bytes = true := fun hsent => by
        obtain ⟨own, hf, hd, hbytes⟩ := State.sent_iff.1 hsent
        rcases hunsent own hf with hd' | hbytes'
        · simp [hd] at hd'
        · exact hbytes' hbytes
      exact ⟨_, State.haltedEntry_haltedFrom _, by rw [State.carriedAdrift_of_duplicate hcheck hown hsent]⟩

namespace State

/-- A difference told by a command and one found in the bytes come to the same mark (R40, log 2). -/
theorem resolveReadback_marks {s : State} {f : Flight} {bytes : List Byte} (hf : s.flight = some f)
    (h : f.differed = true ∨ bytes.head? = some f.frame.key ∧ f.frame.bytes ≠ bytes) :
    s.resolveReadback bytes = { s with flight := some { f with differed := true } } := by
  rcases h with hd | ⟨hkey, hbytes⟩
  · have hmark : ({ f with differed := true } : Flight) = f := by rw [← hd]
    rw [resolveReadback_of_differed hf hd, hmark, ← hf]
  · exact resolveReadback_differs hf hbytes hkey

/-- A carried frame whose readback differed is not this station's: its own attempt is over before it is applied. -/
theorem carriedHere_of_marked {s : State} {f : Flight} {bytes : List Byte} {g : Frame} (hf : s.flight = some f)
    (hcheck : checkFrame bytes = some g)
    (hread : s.resolveReadback bytes = { s with flight := some { f with differed := true } }) :
    s.carriedHere bytes = s.atFrameEnd.loseAttempt.settle.carriedFromPeer g := by
  have hlost := loseAttempt_differed (s := s.atFrameEnd) hf
  simp only [carriedHere, hcheck, hread, countAgain, sent, Bool.not_true, Bool.false_and, Bool.false_eq_true, if_false]
  exact congrArg (fun u : State => u.settle.carriedFromPeer g) hlost

end State

/-- Settles O38: with no frame of its own, after lost arbitration, and with a frame whose readback differed. -/
theorem duplicatesHalt : Obligations.DuplicatesHalt := by
  intro s bytes f hreceives hcheck hown
  rw [exec_carriedFrameEnd_of_receives hreceives]
  refine ⟨fun hf => ?_, fun own hf => ⟨fun hd hkey => ?_, fun hmarked => ?_⟩⟩
  · have hread := State.resolveReadback_of_no_flight hf bytes
    refine ⟨_, State.haltedEntry_haltedFrom _, ?_⟩
    rw [State.carriedHere_peer hcheck (by rw [hread]; exact hf), hread,
      State.carriedFromPeer_of_duplicate (by exact hown)]
  · have hread := State.resolveReadback_lost hf hd hkey
    refine ⟨_, _, State.loseAttempt_lost hf, State.haltedEntry_haltedFrom _, ?_⟩
    rw [State.carriedHere_peer hcheck (by rw [hread]; simp), hread,
      State.carriedFromPeer_of_duplicate (by simpa [State.atFrameEnd] using hown)]
  · have hlost := State.loseAttempt_lost (s := s.atFrameEnd) hf
    refine ⟨s.atFrameEnd.loseAttempt, _, hlost, State.haltedEntry_haltedFrom _, ?_⟩
    rw [State.carriedHere_of_marked hf hcheck (State.resolveReadback_marks hf hmarked),
      State.carriedFromPeer_of_duplicate (by simpa [State.atFrameEnd] using hown)]

end Sys2Proof.Machine
end

section
/-! PROOFS. Carried frames (R7 to R10, R43, R53 to R57, R82 to R84): UPDATEs, IMAGEs, ownership frames and ASKs. -/

namespace Sys2Proof.Machine

set_option Elab.async false -- as in Tests/Slice0.lean: fewer threads, within the check's memory limit

/-- Settles O39: `State.applyUpdate` at a peer's frame. -/
theorem carriedUpdatesAreAppliedOrRefused : Obligations.CarriedUpdatesAreAppliedOrRefused := by
  intro s bytes f r k data hhears hbody hstores applies
  obtain ⟨harea, -⟩ := hstores
  have hexec : exec (.carriedFrameEnd bytes) s = .next (s.atFrameEnd.applyUpdate f.sender r k data).settle := by
    simp only [State.exec_of_hears hhears, State.applyPeer, hbody]
  obtain ⟨-, -, -, hpeer⟩ := hhears
  have hown : decide (f.sender = s.atFrameEnd.stationNumber) = false := decide_eq_false hpeer
  refine ⟨fun happlies => ?_, fun hrefused => ?_⟩
  · obtain ⟨u, hwritten, hu⟩ := State.applyUpdate_of_applies (s := s.atFrameEnd) (k := k) (d := data) harea happlies
    exact ⟨u, hwritten, by rw [hexec, hu, hown]⟩
  · rw [hexec, State.applyUpdate_of_refused (s := s.atFrameEnd) hrefused]

/-- Settles O41: `State.applyClaim`, `State.applyRelease` and `State.clearOwner` at a peer's frame. -/
theorem carriedOwnershipFramesMoveOwners : Obligations.CarriedOwnershipFramesMoveOwners := by
  refine ⟨fun s bytes f seize r hhears hbody => ⟨_, State.applyClaim_taken s.atFrameEnd f.sender seize r, ?_⟩,
    fun s bytes f hhears => ⟨fun r hbody => ⟨_, State.applyRelease_taken s.atFrameEnd f.sender r, ?_⟩, fun hbody =>
    ⟨_, State.clearOwner_cleared s.atFrameEnd f.sender, ?_⟩⟩⟩
  · simp only [State.exec_of_hears hhears, State.applyPeer, hbody]
  · simp only [State.exec_of_hears hhears, State.applyPeer, hbody]
  · rcases hbody with hbody | hbody
    · simp only [State.exec_of_hears hhears, State.applyPeer, hbody]
    · simp only [State.exec_of_hears hhears, State.applyPeer, hbody]

theorem inRange_iff {first count : Nat} {r : RegionNo} :
    State.inRange first count r = true ↔ first ≤ r.val ∧ r.val < first + count := by
  simp [State.inRange]

/-- Settles O42: `State.addResponses` with no frame of this station on the line. -/
theorem carriedAsksFillTheResponseSet : Obligations.CarriedAsksFillTheResponseSet := by
  intro s bytes f first count hhears hbody
  have hexec : exec (.carriedFrameEnd bytes) s = .next (s.atFrameEnd.addResponses first count).settle := by
    simp only [State.exec_of_hears hhears, State.applyPeer, hbody]
  obtain ⟨-, hf, -⟩ := hhears
  rw [hexec, State.addResponses, State.syncImageSlot_of_no_flight _ (by simpa [State.atFrameEnd] using hf)]
  refine ⟨_, rfl, fun r => ?_, ?_, ?_⟩
  · rw [State.region_moveImageSlot, State.region_mapRegions]
    simp only [inRange_iff, and_assoc]
    rfl
  · simpa [State.atFrameEnd] using State.moveImageSlot_follows (s.atFrameEnd.mapRegions _)
  · ext1 <;> simp [State.atFrameEnd]

namespace State

/-! ## IMAGE (R9, R10, R76, R80, R84) -/

theorem takeOut_image {s : State} {f : Flight} (hslot : f.slot = .image) :
    s.takeOut f = { s with flight := none, imageSlot := if f.attached then none else s.imageSlot } := by
  rcases ha : f.attached with _ | _
  · simp [takeOut, hslot, ha]
  · simp [takeOut, hslot, ha]

theorem region_dropResponse (s : State) (r q : RegionNo) :
    (s.dropResponse r).region q = if q = r then { s.region q with responding := false } else s.region q := by
  have hregion : (s.dropResponse r).region q = (s.setRegion r { s.region r with responding := false }).region q := by
    rw [dropResponse, syncImageSlot]
    split
    · rfl
    · exact region_moveImageSlot _ q
  rw [hregion, region_setRegion]
  split
  next hq => rw [hq]
  next => rfl

theorem dropResponse_follows {s : State} (hf : s.flight = none) (r : RegionNo) :
    (s.dropResponse r).ImageSlotFollows s.imageSlot := by
  rw [dropResponse_of_no_flight hf]
  exact moveImageSlot_follows _

theorem dropResponse_eq (s : State) (r : RegionNo) :
    s.dropResponse r = { s with regions := (s.dropResponse r).regions, imageSlot := (s.dropResponse r).imageSlot } := by
  ext1 <;> simp

/-- The image slot follows the response set, whatever else the two states hold. -/
theorem ImageSlotFollows.congr {s t : State} {before : Option ImageSlot} (h : s.ImageSlotFollows before)
    (hregion : ∀ q, t.region q = s.region q) (hslot : t.imageSlot = s.imageSlot) : t.ImageSlotFollows before := by
  simpa only [ImageSlotFollows, hregion, hslot] using h

/-- The state in which an IMAGE has been written into its region and not yet reported (R9). -/
def imageWritten (s : State) (r : RegionNo) (owner : Option Station) (count : Word) (data : List Byte) : State :=
  (s.writeRegionBytes r 0 data).setRegion r { s.region r with state := .current, owner := owner, count := count }

section TakeImage

variable {v : State} {r : RegionNo} (owner : Option Station) (count : Word) (data : List Byte)

theorem installImage_eq :
    v.installImage r owner count data =
      (v.imageWritten r owner count data).report
        { region := r, content := true, owner := owner.isSome, own := false } := rfl

theorem region_imageWritten (q : RegionNo) :
    (v.imageWritten r owner count data).region q =
      if q = r then { v.region r with state := .current, owner := owner, count := count } else v.region q := by
  rw [imageWritten, region_setRegion]
  rfl

theorem takeImage_of_current (h : (v.region r).state = .current) :
    v.takeImage r owner count data = v.dropResponse r := by
  have hnot : v.installs r = false := by simp [installs, h]
  rw [takeImage, hnot, if_neg Bool.false_ne_true]

theorem takeImage_of_not_current (h : (v.region r).state ≠ .current) :
    v.takeImage r owner count data = ((v.installImage r owner count data).dropResponse r).afterInstall := by
  have hinstalls : v.installs r = true := by simp [installs, h]
  rw [takeImage, hinstalls, if_pos rfl]

end TakeImage

end State

/-- Settles O40: heard or sent, the IMAGE meets one operation, which installs it or drops its region from the set. -/
theorem carriedImagesAreInstalledOrDropped : Obligations.CarriedImagesAreInstalledOrDropped := by
  intro s v bytes r owner count data hcarried hstores
  obtain ⟨harea, -⟩ := hstores
  have hv : exec (.carriedFrameEnd bytes) s = .next (v.takeImage r owner count data).settle ∧
      v.flight = none ∧ v.regions = s.regions ∧ v.area = s.area ∧ v.window = s.window ∧ data.length = 128 := by
    rcases hcarried with ⟨f, hhears, hbody, rfl⟩ | ⟨f, hsends, hbody, hslot, rfl⟩
    · have hexec := State.exec_of_hears hhears
      obtain ⟨-, hf, hcheck, -⟩ := hhears
      have hwf := wf_of_checkFrame hcheck
      rw [hbody] at hwf
      exact ⟨by simp only [hexec, State.applyPeer, hbody], hf, rfl, rfl, rfl, hwf⟩
    · have hexec := State.exec_of_sends hsends
      obtain ⟨-, -, -, -, -, hcheck⟩ := hsends
      have hwf := wf_of_checkFrame hcheck
      rw [hbody] at hwf
      refine ⟨?_, rfl, rfl, rfl, rfl, hwf⟩
      rw [hexec, State.takeOut_image hslot]
      simp only [State.applyOwn, hbody]
      rfl
  obtain ⟨hexec, hf, hregions, hva, hwindow, hlength⟩ := hv
  have hregion : ∀ q, v.region q = s.region q := fun q => by simp only [State.region, hregions]
  refine ⟨fun hcurrent => ?_, fun hstale => ?_⟩
  · refine ⟨_, by rw [hexec, State.takeImage_of_current owner count data (by rwa [hregion r])], fun q => ?_,
      State.dropResponse_follows hf r, State.dropResponse_eq v r⟩
    rw [State.region_dropResponse, hregion]
    split
    next hq => rw [hq]
    next => rfl
  · obtain ⟨hwritten, hkept⟩ := State.writeRegionBytes_replaced v r 0 data (by rwa [hva])
    have hfollows := State.dropResponse_follows (s := v.installImage r owner count data) (by simpa using hf) r
    have hslot : (v.installImage r owner count data).imageSlot = v.imageSlot := by simp
    rw [hslot] at hfollows
    refine ⟨v.imageWritten r owner count data,
      { (v.installImage r owner count data).dropResponse r with window := s.window.map fun _ => Config.windowMs }, ?_,
      ⟨hwritten, fun a ha => ?_⟩, hlength, fun q => ?_, rfl, fun q => ?_, hfollows.congr (fun _ => rfl) rfl, ?_⟩
    · have hrunning : ((v.installImage r owner count data).dropResponse r).window = s.window := by simp [hwindow]
      rw [hexec, State.takeImage_of_not_current owner count data (by rwa [hregion r]), State.afterInstall, hrunning]
    · rw [← hva]
      exact hkept a ha
    · rw [State.region_imageWritten]
      simp only [hregion]
    · refine (State.region_dropResponse (v.installImage r owner count data) r q).trans ?_
      rw [State.installImage_eq, State.region_report]
      split
      next hq => rw [hq]
      next => rfl
    · ext1 <;> simp [← State.installImage_eq, Config.windowMs]

end Sys2Proof.Machine
end

section
/-! PROOFS. This station's own carried frames (R44, R50, R58 to R60, R73 to R75, R88): lanes told, the join moved. -/

namespace Sys2Proof.Machine

set_option Elab.async false -- as in Tests/Slice0.lean: fewer threads, within the check's memory limit

namespace State

/-! ## What each body does to its own sender (R44) -/

section ApplyOwn

variable {v : State} {f : Flight}

theorem applyOwn_claim {seize : Bool} {r : RegionNo} (hbody : f.frame.body = .claim seize r) :
    v.applyOwn f =
      (v.applyClaim f.frame.sender seize r).tellLane f ((v.applyClaim f.frame.sender seize r).claimOutcome r) := by
  simp only [applyOwn, hbody]

theorem applyOwn_release {r : RegionNo} (hbody : f.frame.body = .release r) :
    v.applyOwn f =
      (v.applyRelease f.frame.sender r).tellLane f ((v.applyRelease f.frame.sender r).releaseOutcome r) := by
  simp only [applyOwn, hbody]

theorem applyOwn_update_of_applies {r : RegionNo} {k : Nat} {data : List Byte}
    (hbody : f.frame.body = .update r k data) (hsender : f.frame.sender = v.stationNumber) (harea : v.area.wf)
    (happlies : (v.region r).state = .current ∧
      ((v.region r).owner = none ∨ (v.region r).owner = some v.stationNumber)) :
    ∃ u : State, u.UpdateWritten v r k data ∧
      v.applyOwn f = (u.report { region := r, content := true, owner := false, own := true }).tellLane f .done := by
  rw [← hsender] at happlies
  obtain ⟨u, hwritten, hu⟩ := applyUpdate_of_applies (k := k) (d := data) harea happlies
  rw [decide_eq_true hsender] at hu
  exact ⟨u, hwritten, by simp only [applyOwn, hbody, hu, updateApplies_iff.2 happlies, if_true]⟩

theorem applyOwn_update_of_refused {r : RegionNo} {k : Nat} {data : List Byte}
    (hbody : f.frame.body = .update r k data) (hsender : f.frame.sender = v.stationNumber)
    (hrefused : ¬ ((v.region r).state = .current ∧
      ((v.region r).owner = none ∨ (v.region r).owner = some v.stationNumber))) :
    v.applyOwn f = v.tellLane f .refusedOwner := by
  rw [← hsender] at hrefused
  have hnot : v.updateApplies r f.frame.sender = false :=
    Bool.eq_false_iff.2 fun h => hrefused (updateApplies_iff.1 h)
  simp only [applyOwn, hbody, applyUpdate_of_refused hrefused, hnot, Bool.false_eq_true, if_false]

end ApplyOwn

theorem claimOutcome_of_done {t : State} {r : RegionNo}
    (h : (t.region r).state = .current ∧ (t.region r).owner = some t.stationNumber) : t.claimOutcome r = .done :=
  if_pos h

theorem claimOutcome_of_lost {t : State} {r : RegionNo}
    (h : ¬ ((t.region r).state = .current ∧ (t.region r).owner = some t.stationNumber)) :
    t.claimOutcome r = .claimLost := if_neg h

theorem releaseOutcome_of_done {t : State} {r : RegionNo}
    (h : (t.region r).state = .current ∧ (t.region r).owner = none) : t.releaseOutcome r = .done := if_pos h

theorem releaseOutcome_of_not_owner {t : State} {r : RegionNo}
    (h : ¬ ((t.region r).state = .current ∧ (t.region r).owner = none)) : t.releaseOutcome r = .notOwner := if_neg h

end State

/-- Settles O44: out of its slot, the frame is applied as a peer's would be; its lane, if still attached, is told. -/
theorem ownLaneFramesTellTheirLane : Obligations.OwnLaneFramesTellTheirLane := by
  intro s bytes f l hsends hslot hstores me
  have hexec := State.exec_of_sends hsends
  obtain ⟨-, -, -, -, hsender, -⟩ := hsends
  obtain ⟨harea, -⟩ := hstores
  refine ⟨fun ha => ?_, fun ha => ?_⟩
  · intro v
    rw [State.takeOut_lane_attached hslot ha] at hexec
    have hme : ∀ seize r, (v.applyClaim me seize r).stationNumber = me := fun seize r => by
      simp [v, me, State.atFrameEnd, State.withoutLaneFrame]
    refine ⟨fun r k data hbody => ⟨fun happlies => ?_, fun hrefused => ?_⟩, fun seize r hbody =>
      ⟨_, State.applyClaim_taken v me seize r, fun hdone => ?_, fun hlost => ?_⟩, fun r hbody =>
      ⟨_, State.applyRelease_taken v me r, fun hdone => ?_, fun hnot => ?_⟩⟩
    · obtain ⟨u, hwritten, hu⟩ := State.applyOwn_update_of_applies (v := v) hbody hsender harea happlies
      exact ⟨u, hwritten, by rw [hexec, hu, State.tellLane_attached hslot ha]⟩
    · rw [hexec, State.applyOwn_update_of_refused (v := v) hbody hsender hrefused, State.tellLane_attached hslot ha]
    · rw [hexec, State.applyOwn_claim hbody, State.tellLane_attached hslot ha, hsender,
        State.claimOutcome_of_done (by rwa [hme])]
    · rw [hexec, State.applyOwn_claim hbody, State.tellLane_attached hslot ha, hsender,
        State.claimOutcome_of_lost (by rwa [hme])]
    · rw [hexec, State.applyOwn_release hbody, State.tellLane_attached hslot ha, hsender,
        State.releaseOutcome_of_done hdone]
    · rw [hexec, State.applyOwn_release hbody, State.tellLane_attached hslot ha, hsender,
        State.releaseOutcome_of_not_owner hnot]
  · intro v
    rw [State.takeOut_lane_detached hslot ha] at hexec
    refine ⟨fun r k data hbody => ⟨fun happlies => ?_, fun hrefused => ?_⟩, fun seize r hbody =>
      ⟨_, State.applyClaim_taken v me seize r, ?_⟩, fun r hbody => ⟨_, State.applyRelease_taken v me r, ?_⟩⟩
    · obtain ⟨u, hwritten, hu⟩ := State.applyOwn_update_of_applies (v := v) hbody hsender harea happlies
      exact ⟨u, hwritten, by rw [hexec, hu, State.tellLane_detached ha]⟩
    · rw [hexec, State.applyOwn_update_of_refused (v := v) hbody hsender hrefused, State.tellLane_detached ha]
    · rw [hexec, State.applyOwn_claim hbody, State.tellLane_detached ha, hsender]
    · rw [hexec, State.applyOwn_release hbody, State.tellLane_detached ha, hsender]

namespace State

/-! ## The station slot's frames (R37, R73 to R75, R88) -/

theorem takeOut_station_attached {s : State} {f : Flight} (hslot : f.slot = .station) (ha : f.attached = true) :
    s.takeOut f = { s with flight := none, stationSlot := entering s.stationNext, stationNext := none } := by
  simp only [takeOut, hslot, ha, if_true]
  exact emptyStationSlot_eq _

/-- With nothing left in the slot the waiting frame enters, if there is one, and else the slot stays empty. -/
theorem takeOut_station_detached {s : State} {f : Flight} (hslot : f.slot = .station) (ha : f.attached = false)
    (hempty : s.stationSlot = none) :
    s.takeOut f = { s with flight := none, stationSlot := entering s.stationNext, stationNext := none } := by
  have hemptied :
      ({ s with flight := none } : State).emptyStationSlot = ({ s with flight := none } : State).enterNext :=
    congrArg (fun x => ({ s with flight := none, stationSlot := x } : State).enterNext) hempty.symm
  simp only [takeOut, hslot, ha, Bool.false_eq_true, if_false]
  rw [← hemptied]
  exact emptyStationSlot_eq _

section JoinCarried

variable {s : State} {j : JoinProgress}

theorem joinCarried_of_not_joining (h : s.stationState ≠ .joining) : s.joinCarried = s := by
  unfold joinCarried
  split
  next hjoining _ => exact absurd hjoining h
  next => rfl

variable (h : s.stationState = .joining) (hjoin : s.join = some j)

include h hjoin

theorem joinCarried_of_none_stale (hnone : ∀ r, (s.region r).state ≠ .stale) :
    s.joinCarried = ({ s with join := some { j with joinCarried := true } } : State).tryComplete 0 := by
  have hlowest : lowest s.isStale = none := by
    cases hx : lowest s.isStale with
    | none => rfl
    | some r => exact absurd (of_decide_eq_true (lowest_some hx).1) (hnone r)
  simp only [joinCarried, h, hjoin, hlowest, Option.isSome_none, Bool.false_eq_true, if_false]

theorem joinCarried_of_stale (hsome : ∃ r, (s.region r).state = .stale) :
    s.joinCarried = ({ s with join := some { j with joinCarried := true } } : State).placeAsk s.isStale := by
  obtain ⟨r, hr⟩ := hsome
  have hlowest : (lowest s.isStale).isSome = true := by
    cases hx : lowest s.isStale with
    | none => exact absurd (lowest_none hx r) (by simp [isStale, hr])
    | some _ => rfl
  simp only [joinCarried, h, hjoin, hlowest, if_true]

end JoinCarried

theorem askCarried_of_joining {s : State} {j : JoinProgress} (h : s.stationState = .joining) (hjoin : s.join = some j)
    (first count : Nat) :
    s.askCarried first count =
      ({ s.refreshRange first count with join := some { j with askCarried := true }, window := some 20 } :
        State).tryComplete 0 := by
  simp only [askCarried, h, hjoin, Config.windowMs]

theorem askCarried_of_not_joining {s : State} (h : s.stationState ≠ .joining) (first count : Nat) :
    s.askCarried first count = s.refreshRange first count := by
  unfold askCarried
  split
  next hjoining _ => exact absurd hjoining h
  next => rfl

end State

/-- Settles O45: the slot emptied, each of its frames moves the join or ends the leaving; a leftover one only frees
regions. -/
theorem ownStationFramesMoveTheJoin : Obligations.OwnStationFramesMoveTheJoin := by
  intro s bytes f hsends hslot v me
  have hexec := State.exec_of_sends hsends
  obtain ⟨-, -, -, -, hsender, -⟩ := hsends
  have hstate : (v.clearOwner me).stationState = s.stationState := by simp [v, State.atFrameEnd]
  have hjoins : (v.clearOwner me).join = s.join := by simp [v, State.atFrameEnd]
  refine ⟨fun ha => ?_, fun ha hempty => ?_⟩
  · have htake : s.atFrameEnd.takeOut f = v := State.takeOut_station_attached hslot ha
    rw [htake] at hexec
    refine ⟨fun hbody => ?_, fun first count hbody => ?_, fun hbody => ?_⟩
    · have hown : v.applyOwn f = (v.clearOwner me).joinCarried := by
        simp only [State.applyOwn, hbody, ha, if_true, hsender, me]
      rw [hexec, hown]
      refine ⟨_, State.clearOwner_cleared v me, fun j hjoining hjoin =>
        ⟨_, rfl, fun hnone => ?_, fun hsome => ⟨_, State.placeAsk_placed _ (v.clearOwner me).isStale _
          (fun _ => decide_eq_true_iff), ?_⟩⟩, fun hother => ?_⟩
      · rw [State.joinCarried_of_none_stale (hstate.trans hjoining) (hjoins.trans hjoin) hnone]
      · rw [State.joinCarried_of_stale (hstate.trans hjoining) (hjoins.trans hjoin) hsome]
      · rw [State.joinCarried_of_not_joining (by rwa [hstate])]
    · have hown : v.applyOwn f = v.askCarried first count := by simp only [State.applyOwn, hbody, ha, if_true]
      rw [hexec, hown]
      refine ⟨v.refreshRange first count, fun r => ?_, rfl, fun j hjoining hjoin => ?_, fun hother => ?_⟩
      · simp only [State.region_refreshRange, inRange_iff, and_assoc]
        rfl
      · rw [State.askCarried_of_joining (s := v) hjoining hjoin]
      · rw [State.askCarried_of_not_joining (s := v) hother]
    · have hown : v.applyOwn f = (v.clearOwner me).endOfLeave := by
        simp only [State.applyOwn, hbody, ha, if_true, hsender, me]
      exact ⟨_, _, State.clearOwner_cleared v me, State.endOfLeave_ended _, by rw [hexec, hown]⟩
  · have htake : s.atFrameEnd.takeOut f = v := State.takeOut_station_detached (s := s.atFrameEnd) hslot ha hempty
    rw [htake] at hexec
    refine ⟨fun hbody => ⟨_, State.clearOwner_cleared v me, ?_⟩, fun first count hbody => ?_⟩
    · have hown : v.applyOwn f = v.clearOwner me := by
        rcases hbody with hbody | hbody
        · simp only [State.applyOwn, hbody, ha, Bool.false_eq_true, if_false, hsender, me]
        · simp only [State.applyOwn, hbody, ha, Bool.false_eq_true, if_false, hsender, me]
      rw [hexec, hown]
    · have hown : v.applyOwn f = v := by simp only [State.applyOwn, hbody, ha, Bool.false_eq_true, if_false]
      rw [hexec, hown]

end Sys2Proof.Machine
end

section
/-! PROOFS. The line unit's phase (R29 to R31): it is off in OFFLINE and HALTED alone through every operation, and a
frame of this station is on the line only while a frame is in progress. -/

namespace Sys2Proof.Machine

set_option Elab.async false -- as in Tests/Slice0.lean: fewer threads, within the check's memory limit

namespace State

/-- The line unit is off in OFFLINE and HALTED alone (R29): the half of `PhaseFits` that holds even within a frame's
end. -/
def OffFits (s : State) : Prop := s.phase = .off ↔ s.stationState = .offline ∨ s.stationState = .halted

/-- The station is in a state with its line unit on (R29). -/
def IsOn (s : State) : Prop := s.stationState ≠ .offline ∧ s.stationState ≠ .halted

theorem isOn_of_listening {s : State} (h : s.listening = true) : s.IsOn := not_offline_of_listening h

theorem isOn_of_adrift {s : State} (h : s.stationState = .adrift) : s.IsOn := by simp [IsOn, h]

theorem phaseFits_iff {s : State} : s.PhaseFits ↔ s.OffFits ∧ (s.flight.isSome = true → s.phase = .inFrame) := Iff.rfl

namespace OffFits

variable {s t : State}

theorem congr (h : s.OffFits) (hphase : t.phase = s.phase := by simp)
    (hstate : t.stationState = s.stationState := by simp) : t.OffFits := by
  rw [OffFits, hphase, hstate]
  exact h

/-- From one state with the line unit on to another, the phase as it was. -/
theorem on (h : s.OffFits) (hs : s.IsOn) (ht : t.IsOn) (hphase : t.phase = s.phase := by simp) : t.OffFits := by
  obtain ⟨hoffline, hhalted⟩ := hs
  obtain ⟨hoffline', hhalted'⟩ := ht
  rw [OffFits, hphase]
  exact ⟨fun hoff => absurd (h.1 hoff) (by simp [hoffline, hhalted]), by simp [hoffline', hhalted']⟩

theorem of_counting (ht : t.IsOn) (hphase : t.phase = .counting := by simp) : t.OffFits := by
  obtain ⟨hoffline, hhalted⟩ := ht
  simp [OffFits, hphase, hoffline, hhalted]

/-! ## The controller's operations -/

theorem adriftEntry (h : s.OffFits) (hs : s.IsOn) (c : DriftCause) : (s.adriftEntry c).OffFits :=
  h.on hs (isOn_of_adrift (by simp))

theorem haltedEntry : s.haltedEntry.OffFits := by simp [OffFits]

theorem endOfLeave : s.endOfLeave.OffFits := by simp [OffFits, State.endOfLeave]

theorem tryComplete (h : s.OffFits) (n : Nat) : (s.tryComplete n).OffFits := by
  by_cases hcomplete : s.joinComplete
  · have ⟨hjoining, _⟩ := hcomplete
    rw [tryComplete_of_complete n hcomplete]
    exact h.on (isOn_of_listening (listening_of_joining hjoining)) (by simp [IsOn])
  · rwa [tryComplete_of_incomplete n hcomplete]

/-- The completion test of a state with other join progress. -/
theorem tryComplete_of (h : s.OffFits) (hphase : t.phase = s.phase) (hstate : t.stationState = s.stationState)
    (n : Nat) : (t.tryComplete n).OffFits := (h.congr hphase hstate).tryComplete n

theorem thirdPassEnd (h : s.OffFits) (hs : s.IsOn) : s.thirdPassEnd.OffFits := by
  unfold State.thirdPassEnd
  split
  · exact OffFits.tryComplete h.congr _
  · exact h.adriftEntry hs _

theorem askAbandoned (h : s.OffFits) : s.askAbandoned.OffFits := by
  unfold State.askAbandoned
  split
  next hjoining _ =>
    dsimp only
    split
    · exact h.congr
    · exact OffFits.thirdPassEnd h (isOn_of_listening (listening_of_joining hjoining))
  next => exact h

theorem windowExpiry (h : s.OffFits) (hs : s.window.isSome = true → s.IsOn) : s.windowExpiry.OffFits := by
  unfold State.windowExpiry
  split
  next => exact h
  next n hwindow =>
    dsimp only
    split
    · exact h.congr
    · exact OffFits.thirdPassEnd h (hs (by simp [hwindow]))

theorem joinCarried (h : s.OffFits) : s.joinCarried.OffFits := by
  unfold State.joinCarried
  split
  next =>
    dsimp only
    split
    · exact h.congr
    · exact h.tryComplete_of (by rfl) (by rfl) 0
  next => exact h

theorem askCarried (h : s.OffFits) (a b : Nat) : (s.askCarried a b).OffFits := by
  have hrange : (s.refreshRange a b).OffFits := h.congr
  unfold State.askCarried
  dsimp only
  split
  · exact hrange.tryComplete_of (by simp) (by simp) 0
  · exact hrange

theorem takeImage (h : s.OffFits) (r : RegionNo) (o : Option Station) (c : Word) (d : List Byte) :
    (s.takeImage r o c d).OffFits := by
  unfold State.takeImage
  split
  · exact OffFits.tryComplete h.congr _
  · exact h.congr

/-! ## The ends of frames and attempts -/

theorem countStationAttempt (h : s.OffFits) (hs : s.IsOn) : s.countStationAttempt.OffFits := by
  unfold State.countStationAttempt
  split
  next o _ =>
    split_ifs
    · exact h.congr
    · exact h.congr
    · cases o.frame with
      | join => exact OffFits.adriftEntry h hs _
      | leave => exact endOfLeave
      | ask a b => exact OffFits.askAbandoned h
  next => exact h.congr

theorem spoilAttempt (h : s.OffFits) (hs : s.IsOn) : s.spoilAttempt.OffFits := by
  unfold State.spoilAttempt
  split
  next => exact h
  next f _ =>
    dsimp only
    split
    next => split_ifs <;> exact h.congr
    next =>
      split
      · exact OffFits.countStationAttempt h hs
      · exact h.congr
    next => split <;> exact h.congr

theorem applyPeer (h : s.OffFits) (f : Frame) : (s.applyPeer f).OffFits := by
  unfold State.applyPeer
  split
  case h_6 => exact h.takeImage _ _ _ _
  all_goals exact h.congr

theorem applyOwn (h : s.OffFits) (f : Flight) : (s.applyOwn f).OffFits := by
  unfold State.applyOwn
  split
  next =>
    split
    · exact OffFits.joinCarried h.congr
    · exact h.congr
  next =>
    split
    · exact endOfLeave
    · exact h.congr
  next =>
    split
    · exact h.askCarried _ _
    · exact h
  next => exact h.takeImage _ _ _ _
  all_goals exact h.congr

theorem of_move (h : s.OffFits) (hmove : LineMove s t) : t.OffFits := by
  cases hmove with
  | count hoffline hhalted => exact of_counting ⟨hoffline, hhalted⟩ rfl
  | streak n _ | silent _ => exact h
  | settle | lose | differ => exact h.congr
  | spoilAttempt hl => exact h.spoilAttempt (isOn_of_listening hl)
  | drift hl => exact (h.adriftEntry (isOn_of_listening hl) .streak).congr rfl rfl
  | peer f b _ _ _ => exact h.applyPeer f
  | own f _ _ => exact OffFits.applyOwn h.congr f
  | halt _ => exact haltedEntry
  | join hadrift => exact h.on (isOn_of_adrift hadrift) (by simp [IsOn, State.joiningEntry])

theorem of_moves (h : s.OffFits) (hpath : LineMoves s t) : t.OffFits :=
  hpath.keeps (P := OffFits) (fun _ _ => OffFits.of_move) h

end OffFits

/-! ## No frame of this station outlasts a frame's end -/

theorem flight_spoil (s : State) : s.spoil.flight = none := by
  unfold spoil
  split
  · rfl
  · simp

theorem flight_framingBreak (s : State) : s.framingBreak.flight = none := by
  unfold framingBreak
  split
  case h_1 | h_2 | h_3 => simp [flight_spoil]
  case h_4 | h_5 | h_6 => rfl

theorem flight_spoiledFrameEnd (s : State) (b : List Byte) : (s.spoiledFrameEnd b).flight = none := by
  have hhere : ∀ u : State, (u.spoiledHere b).flight = none := fun u => by
    unfold spoiledHere
    split
    · exact flight_spoil _
    · simp
  unfold spoiledFrameEnd
  split
  case h_1 | h_2 | h_3 => simp [hhere]
  case h_4 | h_5 | h_6 => rfl

theorem flight_carriedFromPeer {s : State} (hf : s.flight = none) (f : Frame) :
    (s.carriedFromPeer f).flight = none := by
  unfold carriedFromPeer
  split
  · simp [hf]
  · simpa using hf

theorem flight_carriedHere (s : State) (b : List Byte) : (s.carriedHere b).flight = none := by
  unfold carriedHere
  split
  next => simp [countAgain]
  next =>
    dsimp only
    split
    next =>
      split
      · simp
      · exact flight_carriedFromPeer (by simp) _
    next hf => exact flight_carriedFromPeer (s := { (s.resolveReadback b).countAgain with spoilStreak := 0 }) hf _

theorem flight_carriedFrameEnd (s : State) (b : List Byte) : (s.carriedFrameEnd b).flight = none := by
  unfold carriedFrameEnd
  split
  case h_1 | h_2 | h_3 => exact s.flight_carriedHere b
  case h_4 =>
    unfold carriedAdrift
    dsimp only
    split
    next => rfl
    next =>
      split_ifs
      · rfl
      · simp
      · simp
  case h_5 | h_6 => rfl

end State

end Sys2Proof.Machine
end

section
/-! PROOFS. The controller at the end of a frame (R37, R41 to R44, R88): each line unit move keeps it in order. -/

namespace Sys2Proof.Machine

set_option Elab.async false -- as in Tests/Slice0.lean: fewer threads, within the check's memory limit

namespace State

variable {s t : State}

/-! ## The end of an attempt -/

theorem ControllerSound.landed_elsewhere (h : s.ControllerSound) {f : Flight} (hf : s.flight = some f)
    (hslot : f.slot ≠ .station) : ControllerSound { s with flight := none } :=
  h.landed_same (h.base.next_none_of_slot hf hslot)

/-- The station slot's frame leaves it with nothing waiting. -/
theorem ControllerSound.vacated (h : s.ControllerSound) (hnext : s.stationNext = none) :
    ControllerSound { s with flight := none, stationSlot := none } :=
  h.landed hnext fun _ ho => nomatch ho

theorem ControllerSound.stationAbandoned (h : s.ControllerSound) (hflight : s.flight = none)
    (hslot : s.stationSlot = none) (hnext : s.stationNext = none) {g : StationFrame} (hg : s.FrameFits g) :
    (s.stationAbandoned g).ControllerSound := by
  cases g with
  | join => exact controllerSound_adriftEntry s _
  | ask a b => exact h.askAbandoned fun hjoining => (hg hjoining).1
  | leave => exact h.endOfLeave hg hslot hnext hflight

theorem ControllerSound.countStationAttempt (h : s.ControllerSound) :
    ({ s with flight := none } : State).countStationAttempt.ControllerSound := by
  unfold State.countStationAttempt
  split
  next o ho =>
    split_ifs with hheld
    · exact h.entered
    · have hnext := h.base.next_none_of_not_held ho (Bool.eq_false_iff.2 hheld)
      refine h.landed hnext fun p hp => ?_
      cases hp
      exact ⟨(h.base.slot o ho).1, o, ho⟩
    · have hnext := h.base.next_none_of_not_held ho (Bool.eq_false_iff.2 hheld)
      exact (h.vacated hnext).stationAbandoned rfl rfl hnext (h.base.slot o ho).1
  next => exact h.enterNext

theorem state_countImageAttempt (s : State) (q : RegionNo) :
    (s.countImageAttempt.region q).state = (s.region q).state := by
  unfold State.countImageAttempt
  split
  next =>
    split
    · simp [region]
    · exact state_dropResponse _ _ q
  next => simp [region]

theorem ControllerSound.spoilAttempt (h : s.ControllerSound) (hl : s.listening = true) :
    s.spoilAttempt.ControllerSound := by
  unfold State.spoilAttempt
  split
  next => exact h
  next f hf =>
    dsimp only
    split
    next l hslot =>
      have hlanded := h.landed_elsewhere hf (by simp [hslot])
      split_ifs
      · exact hlanded.congr
      · exact hlanded.congr
      · exact hlanded
    next =>
      split
      · exact h.countStationAttempt
      · exact h.enterNext
    next hslot =>
      have hlanded := h.landed_elsewhere hf (by simp [hslot])
      split
      · exact hlanded.congr_listening hl (state_countImageAttempt _)
      · exact hlanded.congr_listening hl

/-- At a station that does not listen no region is CURRENT, so the image slot stays empty (R82). -/
theorem imageSlot_syncImageSlot_of_quiet (h : s.ControllerSound) (hregions : s.RegionsOk) (hl : s.listening = false) :
    s.syncImageSlot.imageSlot = none := by
  obtain ⟨hstale, -, -, himage, -⟩ := h.base.quiet hl
  unfold syncImageSlot
  split
  · exact himage
  · refine s.moveImageSlot_follows.1 fun r => ?_
    rw [region_moveImageSlot]
    exact (hregions r (by simp [hstale r])).2

theorem ControllerSound.syncImageSlot (h : s.ControllerSound) (hregions : s.RegionsOk) :
    s.syncImageSlot.ControllerSound :=
  h.congr (himage := fun hl _ => imageSlot_syncImageSlot_of_quiet h hregions hl)

theorem ControllerSound.loseAttempt (h : s.ControllerSound) (hregions : s.RegionsOk) :
    s.loseAttempt.ControllerSound := by
  unfold State.loseAttempt
  split
  next => exact h
  next f hf =>
    dsimp only
    split
    next l hslot =>
      have hlanded := h.landed_elsewhere hf (by simp [hslot])
      split_ifs
      · exact hlanded.congr
      · exact hlanded.congr
      · exact hlanded
    next =>
      split
      · split
        next o ho =>
          split
          · exact h.entered
          next hheld => exact h.landed_same (h.base.next_none_of_not_held ho (Bool.eq_false_iff.2 hheld))
        next => exact h.enterNext
      · exact h.enterNext
    next hslot => exact ControllerSound.syncImageSlot (h.landed_elsewhere hf (by simp [hslot])) hregions

/-! ## Frames taken out and applied (R43, R44) -/

theorem ControllerSound.takeOut (h : s.ControllerSound) {f : Flight} (hf : s.flight = some f) :
    (s.takeOut f).ControllerSound := by
  unfold State.takeOut
  dsimp only
  split
  next l hslot =>
    have hlanded := h.landed_elsewhere hf (by simp [hslot])
    split
    · exact hlanded.congr
    · exact hlanded
  next =>
    split
    · exact h.entered
    · exact h.enterNext
  next hslot =>
    have hlanded := h.landed_elsewhere hf (by simp [hslot])
    split
    · exact hlanded.congr (himage := fun _ _ => rfl)
    · exact hlanded

section Listening

variable (h : s.ControllerSound) (hl : s.listening = true)

include h hl

theorem ControllerSound.clearOwner (x : Station) : (s.clearOwner x).ControllerSound :=
  h.congr_listening hl (state_clearOwner s x)

theorem ControllerSound.applyClaim (x : Station) (b : Bool) (r : RegionNo) : (s.applyClaim x b r).ControllerSound :=
  h.congr_listening hl (state_applyClaim s x b r)

theorem ControllerSound.applyRelease (x : Station) (r : RegionNo) : (s.applyRelease x r).ControllerSound :=
  h.congr_listening hl (state_applyRelease s x r)

theorem ControllerSound.applyUpdate (x : Station) (r : RegionNo) (k : Nat) (d : List Byte) :
    (s.applyUpdate x r k d).ControllerSound :=
  h.congr_listening hl (state_applyUpdate s x r k d)

theorem ControllerSound.applyPeer (f : Frame) : (s.applyPeer f).ControllerSound := by
  unfold State.applyPeer
  split
  · exact h.clearOwner hl _
  · exact h.clearOwner hl _
  · exact h.applyClaim hl _ _ _
  · exact h.applyRelease hl _ _
  · exact h.congr_listening hl (state_addResponses s _ _)
  · exact h.takeImage hl _ _ _ _
  · exact h.applyUpdate hl _ _ _ _

/-- This station's carried frame, out of its slot: what its body asks of the state is what the frame had to fit. -/
theorem ControllerSound.applyOwn {f : Flight} (hflight : s.flight = none)
    (hleave : f.attached = true → f.frame.body = .leave →
      s.stationState = .leaving ∧ s.stationSlot = none ∧ s.stationNext = none)
    (hask : ∀ a b, f.attached = true → f.frame.body = .ask a b → s.FrameFits (.ask a b)) :
    (s.applyOwn f).ControllerSound := by
  have hcleared := h.clearOwner hl f.frame.sender
  unfold State.applyOwn
  split
  next =>
    split
    · exact hcleared.joinCarried ((listening_congr (by simp)).trans hl)
    · exact hcleared
  next hbody =>
    split
    next ha =>
      obtain ⟨hleaving, hslot, hnext⟩ := hleave ha hbody
      exact hcleared.endOfLeave (by simpa using hleaving) (by simpa using hslot) (by simpa using hnext)
        (by simpa using hflight)
    next => exact hcleared
  next a b hbody =>
    split
    next ha => exact h.askCarried hl (hask a b ha hbody)
    next => exact h
  next => exact h.takeImage hl _ _ _ _
  next b r _ => exact (h.applyClaim hl f.frame.sender b r).congr
  next r _ => exact (h.applyRelease hl f.frame.sender r).congr
  next r k d _ => exact (h.applyUpdate hl f.frame.sender r k d).congr

end Listening

/-- Out of its slot, this station's LEAVE leaves the station slot empty with nothing waiting (R86). -/
theorem takeOut_leave (h : s.ControllerSound) {f : Flight} (hf : s.flight = some f) (ha : f.attached = true)
    (hbody : f.frame.body = .leave) :
    (s.takeOut f).stationState = .leaving ∧ (s.takeOut f).stationSlot = none ∧ (s.takeOut f).stationNext = none := by
  obtain ⟨hslot, hleaving, hnext⟩ := (h.base.flight f hf ha).1 hbody
  rw [takeOut_station_attached hslot ha]
  exact ⟨hleaving, by simp [entering, hnext], rfl⟩

theorem takeOut_ask (h : s.ControllerSound) {f : Flight} (hf : s.flight = some f) (a b : Nat) (ha : f.attached = true)
    (hbody : f.frame.body = .ask a b) : (s.takeOut f).FrameFits (.ask a b) :=
  ((h.base.flight f hf ha).2 a b hbody).mono (by simp) (by simp) fun r hr => by simpa [region] using hr

/-- A readback difference marks the frame on the line and changes nothing the controller looks at (R40). -/
theorem ControllerSound.readbackDifference (h : s.ControllerSound) : s.readbackDifference.ControllerSound where
  base :=
    { h.base with
      next := fun g hg => by
        obtain ⟨hfits, honLine⟩ := h.base.next g hg
        exact ⟨hfits, by simpa [State.readbackDifference, Function.comp_def] using honLine⟩
      flight := fun f hf ha => by
        obtain ⟨g, hg, rfl⟩ := Option.map_eq_some_iff.1 hf
        exact h.base.flight g hg ha
      quiet := fun hl => by
        obtain ⟨hstale, hslot, hnext, himage, hdetached⟩ := h.base.quiet hl
        refine ⟨hstale, hslot, hnext, himage, fun f hf => ?_⟩
        obtain ⟨g, hg, rfl⟩ := Option.map_eq_some_iff.1 hf
        exact hdetached g hg }
  goesOn := h.goesOn

theorem ControllerSound.of_move (h : s.ControllerSound) (hregions : s.RegionsOk) (hmove : LineMove s t) :
    t.ControllerSound := by
  cases hmove with
  | count _ _ | settle => exact h.congr
  | streak n _ => exact h.congr (fun _ => rfl) rfl rfl rfl rfl rfl rfl rfl fun _ => id
  | lose => exact h.loseAttempt hregions
  | differ => exact h.readbackDifference
  | spoilAttempt hl => exact h.spoilAttempt hl
  | drift _ => exact (controllerSound_adriftEntry s .streak).landed_same (by simp)
  | silent hl =>
    obtain ⟨-, -, hnext, -⟩ := h.base.quiet hl
    exact h.landed_same hnext
  | peer f b _ hl _ => exact h.applyPeer hl f
  | own f hl hf =>
    exact (h.takeOut hf).applyOwn ((listening_congr (by simp)).trans hl) (by simp) (takeOut_leave h hf)
      (takeOut_ask h hf)
  | halt _ => exact controllerSound_haltedEntry s
  | join hadrift =>
    obtain ⟨-, hslot, hnext, -, hdetached⟩ := h.base.quiet (by simp [listening, hadrift])
    exact controllerSound_joiningEntry hslot hnext hdetached

/-- The controller through a frame's end: the region records go with it. -/
theorem ControllerSound.of_moves (h : s.ControllerSound) (hregions : s.RegionsOk) (hpath : LineMoves s t) :
    t.ControllerSound :=
  (hpath.keeps (P := fun u => u.ControllerSound ∧ u.RegionsOk)
    (fun _ _ hu hmove => ⟨hu.1.of_move hu.2 hmove, hu.2.of_move hmove⟩) ⟨h, hregions⟩).1

end State

end Sys2Proof.Machine
end

section
/-! PROOFS. The controller through every command (R71 to R93): CONFIGURE, REJOIN, LEAVE, start edges, the refresh
window, and the clock. -/

namespace Sys2Proof.Machine

set_option Elab.async false -- as in Tests/Slice0.lean: fewer threads, within the check's memory limit

namespace State

variable {s t : State}

theorem controllerOk_of_sound (h : s.ControllerSound) (hphase : s.PhaseFits) : s.ControllerOk :=
  controllerOk_iff.2 ⟨h.base, h.goesOn, hphase⟩

theorem PhaseFits.congr (h : s.PhaseFits) (hphase : t.phase = s.phase := by simp)
    (hstate : t.stationState = s.stationState := by simp) (hflight : t.flight = s.flight := by simp) : t.PhaseFits :=
  ⟨OffFits.congr h.1 hphase hstate, by rw [hflight, hphase]; exact h.2⟩

theorem phaseFits_of_no_flight (h : s.OffFits) (hf : s.flight = none) : s.PhaseFits :=
  ⟨h, fun hsome => by simp [hf] at hsome⟩

/-- While no frame is in progress, no frame of this station is on the line (R31). -/
theorem PhaseFits.no_flight (h : s.PhaseFits) (hphase : s.phase ≠ .inFrame) : s.flight = none := by
  obtain ⟨-, hinFrame⟩ := h
  cases hf : s.flight with
  | none => rfl
  | some f => exact absurd (hinFrame (by simp [hf])) hphase

/-! ## CONFIGURE, REJOIN, LEAVE -/

theorem controllerOk_configure (h : s.ControllerSound) (hphase : s.PhaseFits) : s.configure.ControllerOk := by
  by_cases hp0 : s.p0 &&& 0xFFEC = 0
  · by_cases hoffline : s.stationState = .offline
    · rw [configure_of_offline hp0 hoffline]
      obtain ⟨-, hslot, hnext, -, hdetached⟩ := h.base.quiet (by simp [listening, hoffline])
      have hjoins : ControllerSound ({ s with
          rateCode := s.p0.setWidth 2, irqEnable := s.p0.getLsbD 4, phase := .counting } : State).joiningEntry :=
        controllerSound_joiningEntry hslot hnext hdetached
      refine controllerOk_of_sound hjoins.congr (phaseFits_of_no_flight (.of_counting ?_) ?_)
      · simp [IsOn, joiningEntry]
      · simpa using flight_eq_none_of_offline hphase hoffline
    · rw [configure_of_not_offline hp0 hoffline]
      exact controllerOk_of_sound h.congr hphase.congr
  · rw [configure_of_bad_parameter hp0]
    exact controllerOk_of_sound h.congr hphase.congr

theorem controllerOk_rejoin (h : s.ControllerSound) (hphase : s.PhaseFits) : s.rejoin.ControllerOk := by
  by_cases haccepted : s.stationState = .joining ∨ s.stationState = .active ∨ s.stationState = .adrift
  · rw [rejoin_of_accepted haccepted]
    obtain ⟨hslot, hnext, hflight, -⟩ := s.driftFlush_fields
    have hjoins : s.driftFlush.joiningEntry.ControllerSound :=
      controllerSound_joiningEntry hslot hnext fun f hf => attached_of_map_detach (hflight.symm.trans hf)
    obtain ⟨hoff, hinFrame⟩ := hphase
    have hon : s.IsOn := by rcases haccepted with hs | hs | hs <;> simp [IsOn, hs]
    refine controllerOk_of_sound hjoins.congr ⟨OffFits.on hoff hon (by simp [IsOn, joiningEntry]), fun hsome => ?_⟩
    have hphases : (s.driftFlush.joiningEntry.answer .ok 0).phase = s.phase := by simp
    rw [hphases]
    exact hinFrame (by simpa [hflight] using hsome)
  · have hrefused : s.stationState = .offline ∨ s.stationState = .leaving ∨ s.stationState = .halted := by
      cases hstate : s.stationState <;> simp [hstate] at haccepted ⊢
    rw [rejoin_of_refused hrefused]
    exact controllerOk_of_sound h.congr hphase.congr

theorem leavingBegun_flight (s : State) :
    s.leavingBegun.flight =
      s.flight.map fun f => { f with attached := f.attached && decide (∀ l, f.slot ≠ .lane l) } := by
  rw [leavingBegun, flight_dropLaneFrames]
  simp

/-- In LEAVING, JOINs and ASKs go on to their end, and no LEAVE was there before (R86). -/
theorem frameFits_of_leaving (ht : t.stationState = .leaving) (g : StationFrame) : t.FrameFits g := by
  cases g with
  | join => trivial
  | leave => exact ht
  | ask a b => exact frameFits_ask_of_not_joining (by simp [ht]) a b

/-- LEAVE begins: no join is left, the lanes offer nothing, and no LEAVE is on the line. -/
theorem controllerSound_leavingBegun (h : s.ControllerSound)
    (hstate : s.stationState = .joining ∨ s.stationState = .active) :
    s.leavingBegun.ControllerSound ∧
      ∀ f, s.leavingBegun.flight = some f → f.attached = true → f.frame.body ≠ .leave := by
  have hno : ∀ f, s.leavingBegun.flight = some f → f.attached = true → f.frame.body ≠ .leave := by
    intro f hf ha hbody
    rw [leavingBegun_flight] at hf
    obtain ⟨g, hg, rfl⟩ := Option.map_eq_some_iff.1 hf
    obtain ⟨hattached, -⟩ := Bool.and_eq_true_iff.1 ha
    obtain ⟨-, hleaving, -⟩ := (h.base.flight g hg hattached).1 hbody
    simp [hleaving] at hstate
  have hleaving : s.leavingBegun.stationState = .leaving := rfl
  have hslots : s.leavingBegun.stationSlot = s.stationSlot ∧ s.leavingBegun.stationNext = s.stationNext := by
    simp [leavingBegun]
  obtain ⟨hslot, hnext⟩ := hslots
  refine ⟨⟨{
    active := fun ha => by simp [hleaving] at ha
    join_iff := by simp [leavingBegun]
    window_asked := by simp [leavingBegun]
    window_le := by simp [leavingBegun]
    pass_le := by simpa [leavingBegun] using h.base.pass_le
    asked := by simp [leavingBegun]
    slot := fun o ho => by
      rw [hnext]
      exact ⟨frameFits_of_leaving hleaving o.frame, (h.base.slot o (hslot.symm.trans ho)).2⟩
    next := fun g hg => by
      refine ⟨frameFits_of_leaving hleaving g, ?_⟩
      rw [leavingBegun_flight, Option.map_map]
      exact (h.base.next g (hnext.symm.trans hg)).2
    flight := fun f hf ha => ⟨fun hbody => absurd hbody (hno f hf ha), fun a b _ => frameFits_of_leaving hleaving _⟩
    quiet := by simp [listening, hleaving] }, joinGoesOn_of_none rfl⟩, hno⟩

theorem controllerOk_leave (h : s.ControllerSound) (hphase : s.PhaseFits) : s.leave.ControllerOk := by
  by_cases haccepted : s.stationState = .joining ∨ s.stationState = .active
  · rw [leave_of_accepted haccepted]
    obtain ⟨hbegun, hno⟩ := controllerSound_leavingBegun h haccepted
    have hleaving : s.leaving.ControllerSound :=
      hbegun.placeStation (by simp [listening, leavingBegun]) (frameFits_of_leaving rfl _) hno
    obtain ⟨hoff, hinFrame⟩ := hphase
    have hon : s.IsOn := by rcases haccepted with hs | hs <;> simp [IsOn, hs]
    have hstate : s.leaving.stationState = .leaving := by simp [leaving, leavingBegun]
    have hphases : s.leaving.phase = s.phase := by simp [leaving, leavingBegun]
    refine controllerOk_of_sound hleaving.congr
      ⟨OffFits.on hoff hon (by simp [IsOn, hstate]) (by simpa using hphases), fun hsome => ?_⟩
    have hphases' : (s.leaving.settle.answer .ok 0).phase = s.phase := by simpa using hphases
    rw [hphases']
    exact hinFrame (by simpa [flight_leaving] using hsome)
  · obtain ⟨hjoining, hactive⟩ := not_or.1 haccepted
    rw [leave_of_refused hjoining hactive]
    exact controllerOk_of_sound h.congr hphase.congr

/-! ## Openings and start edges (R30, R31) -/

theorem controllerOk_accessOpening (h : s.ControllerSound) (hphase : s.PhaseFits) : s.accessOpening.ControllerOk := by
  refine controllerOk_of_sound h.congr ?_
  unfold accessOpening
  split
  next hcounting =>
    refine phaseFits_of_no_flight ?_ (hphase.no_flight (by simp [hcounting]))
    obtain ⟨hoff, -⟩ := hphase
    have hon := mt hoff.2 (by simp [hcounting])
    simpa [OffFits] using hon
  all_goals exact hphase

/-- A LEAVE or an ASK stands in the station slot alone. -/
theorem slotBody_station {x : SlotId} {b : FrameBody} (hb : s.slotBody x = some b)
    (hkind : b = .leave ∨ ∃ first count, b = .ask first count) :
    x = .station ∧ ∃ o, s.stationSlot = some o ∧ o.frame.body = b := by
  cases x with
  | lane l =>
    obtain ⟨o, -, rfl⟩ := Option.map_eq_some_iff.1 hb
    cases hframe : o.frame <;> simp [hframe, LaneFrame.body] at hkind
  | station =>
    obtain ⟨o, ho, rfl⟩ := Option.map_eq_some_iff.1 hb
    exact ⟨rfl, o, ho, rfl⟩
  | image =>
    obtain ⟨o, -, rfl⟩ := Option.map_eq_some_iff.1 hb
    simp at hkind

theorem frame_of_body_leave {g : StationFrame} (h : g.body = .leave) : g = .leave := by
  cases g <;> simp_all [StationFrame.body]

theorem frame_of_body_ask {g : StationFrame} {a b : Nat} (h : g.body = .ask a b) : g = .ask a b := by
  cases g <;> simp_all [StationFrame.body]

/-- Joining in puts on the line what the arbiter chose from a slot in order. -/
theorem ControllerSound.joinIn (h : s.ControllerSound) (hl : s.listening = true) (hf : s.flight = none) :
    s.joinIn.ControllerSound := by
  rcases s.joinIn_cases with heq | ⟨x, body, -, hbody, heq⟩
  · rw [heq]
    exact h
  · rw [heq]
    have hnext : (s.markOnLine x).stationNext = none := by simpa using h.base.next_none_of_no_flight hf
    have hmarked : (s.markOnLine x).ControllerSound := h.congr
    refine ⟨{ hmarked.base with
      next := fun g hg => absurd (hnext.symm.trans hg) (by simp)
      flight := fun f hflight _ => ?_
      quiet := fun hq => Bool.noConfusion (hq.symm.trans ((listening_congr (by simp)).trans hl)) }, hmarked.goesOn⟩
    cases hflight
    refine ⟨fun hleave => ?_, fun a b hask => ?_⟩
    · obtain ⟨rfl, o, ho, hframe⟩ := slotBody_station hbody (.inl hleave)
      have hfits := (h.base.slot o ho).1
      rw [frame_of_body_leave (hframe.trans hleave)] at hfits
      exact ⟨rfl, hfits, hnext⟩
    · obtain ⟨rfl, o, ho, hframe⟩ := slotBody_station hbody (.inr ⟨a, b, hask⟩)
      have hfits := (h.base.slot o ho).1
      rw [frame_of_body_ask (hframe.trans hask)] at hfits
      exact hfits

theorem controllerOk_startEdge (h : s.ControllerSound) (hphase : s.PhaseFits) : s.startEdge.ControllerOk := by
  rcases s.startEdge_cases with heq | ⟨hidle, heq⟩
  · rw [heq]
    exact controllerOk_of_sound h hphase
  · have hf : s.flight = none := hphase.no_flight (by rcases hidle with hp | hp <;> simp [hp])
    have hbegun : ControllerSound { s with phase := .inFrame } :=
      h.congr (fun _ => rfl) rfl rfl rfl rfl rfl rfl rfl fun _ => id
    obtain ⟨hoff, -⟩ := hphase
    have hon := mt hoff.2 (by rcases hidle with hp | hp <;> simp [hp])
    have hoff' : OffFits { s with phase := .inFrame } := by simpa [OffFits] using hon
    rcases heq with heq | ⟨hl, heq⟩
    · rw [heq]
      exact controllerOk_of_sound hbegun ⟨hoff', fun _ => rfl⟩
    · rw [heq]
      exact controllerOk_of_sound (hbegun.joinIn hl hf) ⟨hoff'.congr, fun _ => by simp⟩

/-! ## Every command, and the clock -/

/-- A millisecond counts the window down (R76). -/
theorem controllerOk_tick (h : s.ControllerSound) (hphase : s.PhaseFits) : s.tick.ControllerOk := by
  have hlanes : (s.mapLanes fun _ x => { x with deadline := x.deadline.map fun t => t - 1 }).ControllerSound := h.congr
  refine controllerOk_of_sound ⟨{ hlanes.base with
    window_asked := fun hw => hlanes.base.window_asked ?_
    window_le := fun n hn => ?_
    quiet := hlanes.base.quiet }, hlanes.goesOn⟩ hphase.congr
  · simpa [State.tick] using hw
  · obtain ⟨m, hm, rfl⟩ := Option.map_eq_some_iff.1 hn
    exact (Nat.sub_le m 1).trans (h.base.window_le m hm)

theorem state_setGuards (s : State) (b : Bool) (r : RegionNo) :
    ((s.setGuards b).region r).state = (s.region r).state := by
  cases hok : s.guardRangeOk with
  | false =>
    rw [setGuards_of_refused b hok]
    rfl
  | true =>
    rw [region_setGuards b hok]
    split <;> rfl

theorem isOn_of_window (h : s.ControllerSound) (hwindow : s.window.isSome = true) : s.IsOn := by
  obtain ⟨j, hj, -⟩ := Option.map_eq_some_iff.1 (h.base.window_asked hwindow)
  exact isOn_of_listening (listening_of_joining (h.base.joining_of_join hj))

/-- A path of moves that ends with no frame on the line ends in order. -/
theorem controllerOk_of_moves (h : s.ControllerSound) (hphase : s.PhaseFits) (hregions : s.RegionsOk)
    (hpath : LineMoves s t) (hf : t.flight = none) : t.ControllerOk :=
  controllerOk_of_sound (h.of_moves hregions hpath) (phaseFits_of_no_flight (OffFits.of_moves hphase.1 hpath) hf)

theorem controllerOk_arbitrationLost (h : s.ControllerSound) (hphase : s.PhaseFits) (hregions : s.RegionsOk) :
    s.arbitrationLost.ControllerOk := by
  unfold arbitrationLost
  split
  next =>
    split
    · exact controllerOk_of_sound h hphase
    · exact controllerOk_of_moves h hphase hregions (.head .lose (.single .settle)) (by simp)
  next => exact controllerOk_of_sound h hphase

theorem ControllerOk.of_leaves (hok : s.ControllerOk) (hregions : s.RegionsOk) (hleft : Leaves s t) :
    t.ControllerOk := by
  obtain ⟨hbase, hgoes, hphase⟩ := controllerOk_iff.1 hok
  have h : s.ControllerSound := ⟨hbase, hgoes⟩
  cases hleft with
  | same => exact hok
  | configure => exact controllerOk_configure h hphase
  | rejoin => exact controllerOk_rejoin h hphase
  | leave => exact controllerOk_leave h hphase
  | accessOpening => exact controllerOk_accessOpening h hphase
  | startEdge => exact controllerOk_startEdge h hphase
  | softReset n x | pinReset => exact controllerOk_reset
  | pinResetEnd x =>
    unfold pinResetEnd
    split
    · exact controllerOk_reset
    · exact hok
  | staging w v hw | chain w v hw | params a b c d => exact hok
  | setGuards b => exact controllerOk_of_sound (h.congr (state_setGuards s b)) hphase.congr
  | start | stop | watchArm | watchDisarm | unknown | popHead | waitTimeout l | entryTake l =>
    exact controllerOk_of_sound h.congr hphase.congr
  | windowExpiry =>
    have hflight : s.windowExpiry.settle.flight.isSome = true → s.windowExpiry.settle.phase = .inFrame := by
      intro hsome
      have hsome' : s.flight.isSome = true := by
        rcases s.windowExpiry_flightKept with heq | heq
        · simpa [heq] using hsome
        · simpa [heq] using hsome
      simpa using hphase.2 hsome'
    exact controllerOk_of_sound h.windowExpiry.congr
      ⟨OffFits.congr (OffFits.windowExpiry hphase.1 (isOn_of_window h)), hflight⟩
  | readbackDifference =>
    obtain ⟨hoff, hinFrame⟩ := hphase
    exact controllerOk_of_sound h.readbackDifference
      ⟨OffFits.congr hoff, fun hsome => hinFrame (by simpa [State.readbackDifference] using hsome)⟩
  | arbitrationLost => exact controllerOk_arbitrationLost h hphase hregions
  | framingBreak _ => exact controllerOk_of_moves h hphase hregions framingBreak_moves s.flight_framingBreak
  | spoiledFrameEnd b _ =>
    exact controllerOk_of_moves h hphase hregions (s.spoiledFrameEnd_moves b) (s.flight_spoiledFrameEnd b)
  | carriedFrameEnd b _ =>
    exact controllerOk_of_moves h hphase hregions (s.carriedFrameEnd_moves b) (s.flight_carriedFrameEnd b)

end State

/-- The region records and the controller through every state a command can leave. -/
theorem step_keeps_regions_and_controller {s t : State} (hregions : s.RegionsOk) (hcontroller : s.ControllerOk)
    (hstep : step s = .next t) : t.RegionsOk ∧ t.ControllerOk := by
  refine step_keeps (P := fun u => u.RegionsOk ∧ u.ControllerOk) (fun u hu => ?_) (fun u rest hu => ?_)
    (fun u v hu hleft => ⟨hu.1.of_leaves hleft, hu.2.of_leaves hu.1 hleft⟩) ⟨hregions, hcontroller⟩ hstep
  · obtain ⟨hbase, hgoes, hphase⟩ := State.controllerOk_iff.1 hu.2
    exact ⟨hu.1.congr, State.controllerOk_tick ⟨hbase, hgoes⟩ hphase⟩
  · exact hu

end Sys2Proof.Machine
end

section
/-! PROOFS. The lanes in order (R34, R35, R127 to R145): what a lane's context says by itself, what it says of its slot
and of the frame on the line, and what may change while one lane is being dealt with. -/

namespace Sys2Proof.Machine

set_option Elab.async false -- as in Tests/Slice0.lean: fewer threads, within the check's memory limit

/-! ## One lane's context -/

namespace Lane

/-- What the context of lane l says by itself: the part of `LaneFits` that names no slot, and `HeldFits`. -/
structure Sound (l : LaneNo) (x : Lane) : Prop where
  stop : x.stopPending = true → x.state = .onLine
  wait : x.wait.isSome = true ↔ x.state = .waiting
  deadline : x.deadline.isSome = true → x.state = .waiting
  entry : x.entry.isSome = true ↔ x.state = .offered ∨ x.state = .onLine ∨ x.state = .waiting
  note : x.note.isSome = true → x.state.busy = true
  endStatus : x.state.busy = true → x.endStatus = none
  held : x.HeldFits l

/-- No end of the chain is set, and no record of one is kept. -/
def Fresh (x : Lane) : Prop := x.endStatus = none ∧ x.held = none

/-- The lane's frame stands in its slot. -/
def Offers (x : Lane) : Prop := x.state = .offered ∨ x.state = .onLine

/-- From a lane in order, `y` is in order too, with its frame on the line or in its slot just where that of `x` was. -/
def Steps (l : LaneNo) (x y : Lane) : Prop :=
  x.Sound l → y.Sound l ∧ (y.Offers ↔ x.Offers) ∧ (y.state = .onLine ↔ x.state = .onLine)

variable {l : LaneNo} {x y z : Lane}

theorem Sound.fresh (h : x.Sound l) (hbusy : x.state.busy = true) : x.Fresh := by
  obtain ⟨hheld, -⟩ := h.held
  refine ⟨h.endStatus hbusy, ?_⟩
  cases hx : x.held with
  | none => rfl
  | some c =>
    have hholding := hheld.1 (by simp [hx])
    simp [hholding, LaneState.busy] at hbusy

theorem Steps.refl (l : LaneNo) (x : Lane) : Steps l x x := fun h => ⟨h, .rfl, .rfl⟩

theorem Steps.trans (h : Steps l x y) (h' : Steps l y z) : Steps l x z := fun hx =>
  let ⟨hy, hoffers, honLine⟩ := h hx
  let ⟨hz, hoffers', honLine'⟩ := h' hy
  ⟨hz, hoffers'.trans hoffers, honLine'.trans honLine⟩

/-- From outside the slot to outside the slot. -/
theorem Steps.of_not_offers (hx : ¬ x.Offers) (hy : x.Sound l → y.Sound l ∧ ¬ y.Offers) : Steps l x y := fun h =>
  let ⟨hsound, hoffers⟩ := hy h
  ⟨hsound, iff_of_false hoffers hx, iff_of_false (fun hline => hoffers (.inr hline)) fun hline => hx (.inr hline)⟩

/-- The state is as it was, and what else changed leaves the lane in order. -/
theorem Steps.of_state (hstate : y.state = x.state) (hy : x.Sound l → y.Sound l) : Steps l x y := fun h =>
  ⟨hy h, by simp only [Offers, hstate], by rw [hstate]⟩

theorem not_offers_of_waiting (h : x.state = .waiting) : ¬ x.Offers := by simp [Offers, h]

theorem not_offers_of_running (h : x.state = .running) : ¬ x.Offers := by simp [Offers, h]

/-! ### The end of a chain and the completion of an entry (R104, R105, R139) -/

theorem sound_endChain (l : LaneNo) (st : Status) (x : Lane) : (x.endChain l st).Sound l where
  stop := by simp [endChain]
  wait := by simp [endChain]
  deadline := by simp [endChain]
  entry := by simp [endChain]
  note := by simp [endChain]
  endStatus := by simp [endChain, LaneState.busy]
  held := by simp [endChain, HeldFits]

theorem not_offers_endChain (l : LaneNo) (st : Status) (x : Lane) : ¬ (x.endChain l st).Offers := by
  simp [Offers, endChain]

theorem Fresh.sound_goOn (h : x.Fresh) (hstop : x.stopPending = false) (i : Index) : (x.goOn i).Sound l := by
  obtain ⟨hend, hheld⟩ := h
  exact {
    stop := by simp [goOn, hstop]
    wait := by simp [goOn]
    deadline := by simp [goOn]
    entry := by simp [goOn]
    note := by simp [goOn, LaneState.busy]
    endStatus := by simp [goOn, hend]
    held := by simp [goOn, HeldFits, hheld] }

/-- An entry completes into RUNNING or HOLDING, in order if no end was set before. -/
theorem Fresh.complete (h : x.Fresh) (l : LaneNo) (st : Status) :
    (x.complete l st).Sound l ∧ ¬ (x.complete l st).Offers := by
  unfold Lane.complete
  extract_lets counted
  have hcounted : counted.Fresh := h
  have hrunning : ∀ i, ¬ (counted.goOn i).Offers := fun i => by simp [Offers, goOn]
  by_cases hstop : x.stopPending = true
  · rw [if_pos hstop]
    exact ⟨sound_endChain l _ _, not_offers_endChain l _ _⟩
  · rw [if_neg hstop]
    have hgoes : ∀ i, (counted.goOn i).Sound l := hcounted.sound_goOn (Bool.eq_false_iff.2 hstop)
    split
    · split
      · split
        · exact ⟨hgoes _, hrunning _⟩
        · exact ⟨sound_endChain l _ _, not_offers_endChain l _ _⟩
      · exact ⟨sound_endChain l _ _, not_offers_endChain l _ _⟩
    · split
      · exact ⟨hgoes _, hrunning _⟩
      · exact ⟨sound_endChain l _ _, not_offers_endChain l _ _⟩

/-- A WAITING lane's entry completes. -/
theorem steps_complete_of_waiting (hstate : x.state = .waiting) (st : Status) : Steps l x (x.complete l st) :=
  .of_not_offers (not_offers_of_waiting hstate) fun h => (h.fresh (by simp [hstate, LaneState.busy])).complete l st

/-- A lane whose frame is not in its slot ends its chain. -/
theorem steps_endChain (hoffers : ¬ x.Offers) (st : Status) : Steps l x (x.endChain l st) :=
  .of_not_offers hoffers fun _ => ⟨sound_endChain l st x, not_offers_endChain l st x⟩

/-! ### Records posted and time passing (R133, R140, R142) -/

/-- The completion unit takes the CHAIN_END record of a HOLDING lane, which becomes FREE. -/
theorem steps_freed (hstate : x.state = .holding) : Steps l x { x with state := .free, held := none } :=
  .of_not_offers (by simp [Offers, hstate]) fun h => by
    have hstop : x.stopPending = false := Bool.eq_false_iff.2 fun hp => by simp [h.stop hp] at hstate
    have hwait : x.wait.isSome = false := Bool.eq_false_iff.2 fun hp => by simp [h.wait.1 hp] at hstate
    have hdeadline : x.deadline.isSome = false := Bool.eq_false_iff.2 fun hp => by simp [h.deadline hp] at hstate
    have hentry : x.entry.isSome = false := Bool.eq_false_iff.2 fun hp => by simp [hstate, h.entry] at hp
    have hnote : x.note.isSome = false := Bool.eq_false_iff.2 fun hp => by
      simpa [hstate, LaneState.busy] using h.note hp
    refine ⟨⟨?_, ?_, ?_, ?_, ?_, ?_, ?_⟩, by simp [Offers]⟩
    · simp [hstop]
    · simp [hwait]
    · simp [hdeadline]
    · simp [hentry]
    · simp [hnote]
    · simp [LaneState.busy]
    · simp [HeldFits]

theorem steps_note_taken (l : LaneNo) (x : Lane) : Steps l x { x with note := none } :=
  .of_state rfl fun h => { h with note := by simp, held := h.held }

/-- A millisecond of a running deadline. -/
theorem steps_tick (l : LaneNo) (x : Lane) : Steps l x { x with deadline := x.deadline.map fun n => n - 1 } :=
  .of_state rfl fun h => { h with deadline := by simpa using h.deadline, held := h.held }

end Lane

namespace State

/-! ### What changes every lane by a step -/

theorem steps_serve (s : State) (p : Producer) (k : LaneNo) : Lane.Steps k (s.lane k) ((s.serve p).lane k) := by
  rcases hrec : s.recordOf p with _ | rec
  · rw [serve_of_none hrec]
    exact .refl k _
  · rw [serve_of_some hrec]
    cases p with
    | event _ | lost _ | watch _ => exact .refl k _
    | chainEnd l =>
      have hlane : (({ s.clearProducer (.chainEnd l) with queue := s.queue ++ [rec] } : State)).lane k =
          if k = l then { s.lane l with state := .free, held := none } else s.lane k :=
        lane_modifyLane s l k fun x => { x with state := .free, held := none }
      rw [hlane]
      split
      next hk =>
        subst hk
        refine Lane.steps_freed ?_
        simp only [recordOf] at hrec
        split at hrec
        next hholding => exact hholding
        next => cases hrec
      next => exact .refl k _
    | note l =>
      have hlane : (({ s.clearProducer (.note l) with queue := s.queue ++ [rec] } : State)).lane k =
          if k = l then { s.lane l with note := none } else s.lane k :=
        lane_modifyLane s l k fun x => { x with note := none }
      rw [hlane]
      split
      next hk =>
        subst hk
        exact Lane.steps_note_taken k _
      next => exact .refl k _

theorem steps_offer (s : State) (p : Producer) (k : LaneNo) : Lane.Steps k (s.lane k) ((s.offer p).lane k) := by
  unfold offer
  split
  · exact steps_serve s p k
  · exact .refl k _

theorem steps_foldl_offer (ps : List Producer) (k : LaneNo) :
    ∀ s : State, Lane.Steps k (s.lane k) ((ps.foldl offer s).lane k) := by
  induction ps with
  | nil => exact fun s => .refl k _
  | cons p ps ih => exact fun s => (steps_offer s p k).trans (ih (s.offer p))

theorem steps_settle (s : State) (k : LaneNo) : Lane.Steps k (s.lane k) (s.settle.lane k) :=
  steps_foldl_offer (s.schedule.flatMap s.turns) k { s with choices := s.choices + 1 }

/-- A report reaches WAITING lanes alone (R118). -/
theorem report_lane_cases (s : State) (rep : ChangeReport) (k : LaneNo) :
    (s.report rep).lane k = s.lane k ∨
      (s.lane k).state = .waiting ∧ (s.report rep).lane k = (s.lane k).complete k .done := by
  rw [lane_report]
  rcases hwait : (s.lane k).wait with _ | c
  · exact .inl (lane_reportLanes_of_no_wait hwait)
  · rw [lane_reportLanes_of_wait hwait]
    split
    next h => exact .inr ⟨h.1, rfl⟩
    next => exact .inl rfl

theorem steps_report (s : State) (rep : ChangeReport) (k : LaneNo) :
    Lane.Steps k (s.lane k) ((s.report rep).lane k) := by
  rcases s.report_lane_cases rep k with h | ⟨hstate, h⟩
  · rw [h]
    exact .refl k _
  · rw [h]
    exact Lane.steps_complete_of_waiting hstate .done

/-! ## The lanes together -/

/-- This station's frame on the line is lane l's, and still in its slot. -/
def LaneOnLine (s : State) (l : LaneNo) : Prop := ∃ f, s.flight = some f ∧ f.attached = true ∧ f.slot = .lane l

/-- The lanes in order, but for the one in hand: an operation has taken its frame from its slot, or has begun its entry,
and has not yet said what becomes of the lane. -/
structure LanesFit (hand : Option LaneNo) (s : State) : Prop where
  fits : ∀ l, hand ≠ some l →
    (s.lane l).Sound l ∧ ((s.laneSlot l).isSome = true ↔ (s.lane l).Offers) ∧
      ((s.lane l).state = .onLine ↔ s.LaneOnLine l)
  placed : ∀ l, l ∈ s.placement ↔ (s.laneSlot l).isSome = true
  inHand : ∀ l, hand = some l →
    (s.lane l).Fresh ∧ (s.lane l).state ≠ .waiting ∧ s.laneSlot l = none ∧ ¬ s.LaneOnLine l
  nodup : s.placement.Nodup
  holds : ∀ f, s.flight = some f → f.slot.Holds f.frame.body

theorem lanesOk_iff {s : State} : s.LanesOk ↔ s.LanesFit none := by
  constructor
  · rintro ⟨hlanes, hnodup, hholds⟩
    refine ⟨fun l _ => ?_, fun l => ?_, fun l hl => (nomatch hl), hnodup, hholds⟩
    · obtain ⟨⟨hoffers, -, honLine, hstop, hwait, hdeadline, hentry, hnote, hend⟩, hheld⟩ := hlanes l
      exact ⟨⟨hstop, hwait, hdeadline, hentry, hnote, hend, hheld⟩, hoffers, honLine⟩
    · obtain ⟨⟨-, hplaced, -⟩, -⟩ := hlanes l
      exact hplaced
  · rintro ⟨hfits, hplaced, -, hnodup, hholds⟩
    refine ⟨fun l => ?_, hnodup, hholds⟩
    obtain ⟨hsound, hoffers, honLine⟩ := hfits l (by simp)
    exact ⟨⟨hoffers, hplaced l, honLine, hsound.stop, hsound.wait, hsound.deadline, hsound.entry, hsound.note,
      hsound.endStatus⟩, hsound.held⟩

namespace LanesFit

variable {s t : State} {hand : Option LaneNo}

/-- Lanes go on by steps, the one in hand as it is; slots, order and line as they were. -/
theorem steps (h : s.LanesFit hand) (hother : ∀ l, hand ≠ some l → Lane.Steps l (s.lane l) (t.lane l))
    (hhand : ∀ l, hand = some l → t.lane l = s.lane l) (hslots : t.laneSlots = s.laneSlots := by simp)
    (hplacement : t.placement = s.placement := by simp) (hflight : t.flight = s.flight := by simp) :
    t.LanesFit hand := by
  have hslot : ∀ l, t.laneSlot l = s.laneSlot l := laneSlot_congr hslots
  have honLine : ∀ l, t.LaneOnLine l ↔ s.LaneOnLine l := fun l => by rw [LaneOnLine, LaneOnLine, hflight]
  refine ⟨fun l hl => ?_, fun l => ?_, fun l hl => ?_, by rw [hplacement]; exact h.nodup,
    by rw [hflight]; exact h.holds⟩
  · obtain ⟨hsound, hoffers, hline⟩ := h.fits l hl
    obtain ⟨hsound', hoffers', hline'⟩ := hother l hl hsound
    rw [hslot, honLine]
    exact ⟨hsound', hoffers.trans hoffers'.symm, hline'.trans hline⟩
  · rw [hplacement, hslot]
    exact h.placed l
  · rw [hhand l hl, hslot, honLine]
    exact h.inHand l hl

/-- Nothing the lanes look at has changed. -/
theorem congr (h : s.LanesFit hand) (hlanes : t.lanes = s.lanes := by simp)
    (hslots : t.laneSlots = s.laneSlots := by simp) (hplacement : t.placement = s.placement := by simp)
    (hflight : t.flight = s.flight := by simp) : t.LanesFit hand := by
  have hlane : ∀ l, t.lane l = s.lane l := fun l => by simp only [lane, hlanes]
  exact h.steps (fun l _ => by rw [hlane]; exact .refl l _) (fun l _ => hlane l) hslots hplacement hflight

theorem settle (h : s.LanesFit none) : s.settle.LanesFit none :=
  h.steps (fun l _ => steps_settle s l) fun l hl => nomatch hl

theorem report (h : s.LanesFit hand) (rep : ChangeReport) : (s.report rep).LanesFit hand := by
  refine h.steps (fun l _ => steps_report s rep l) fun l hl => ?_
  obtain ⟨-, hstate, -⟩ := h.inHand l hl
  exact (s.report_lane_cases rep l).resolve_right fun hw => hstate hw.1

theorem reports {α : Type} (rep : α → ChangeReport) (xs : List α) :
    ∀ {s : State}, s.LanesFit hand → (xs.foldl (fun u x => u.report (rep x)) s).LanesFit hand := by
  induction xs with
  | nil => exact fun h => h
  | cons x xs ih => exact fun h => ih (h.report (rep x))

/-- No frame of a lane is on the line any more, where none was in its slot. -/
theorem landed (h : s.LanesFit hand) (hline : ∀ l, ¬ s.LaneOnLine l) (hlanes : t.lanes = s.lanes := by simp)
    (hslots : t.laneSlots = s.laneSlots := by simp) (hplacement : t.placement = s.placement := by simp)
    (hflight : t.flight = none := by simp) : t.LanesFit hand := by
  have hlane : ∀ l, t.lane l = s.lane l := fun l => by simp only [lane, hlanes]
  have hslot : ∀ l, t.laneSlot l = s.laneSlot l := laneSlot_congr hslots
  have hnone : ∀ l, ¬ t.LaneOnLine l := fun l hl => by simp [LaneOnLine, hflight] at hl
  refine ⟨fun l hl => ?_, fun l => ?_, fun l hl => ?_, by rw [hplacement]; exact h.nodup, by simp [hflight]⟩
  · obtain ⟨hsound, hoffers, honLine⟩ := h.fits l hl
    rw [hlane, hslot]
    exact ⟨hsound, hoffers, honLine.trans (iff_of_false (hline l) (hnone l))⟩
  · rw [hplacement, hslot]
    exact h.placed l
  · obtain ⟨hfresh, hstate, hempty, -⟩ := h.inHand l hl
    rw [hlane, hslot]
    exact ⟨hfresh, hstate, hempty, hnone l⟩

/-- A lane's frame leaves its slot, and with it the line: the lane is in hand. -/
theorem vacated (h : s.LanesFit none) {l : LaneNo} (hoffers : (s.lane l).Offers)
    (hline : ∀ k, t.LaneOnLine k ↔ k ≠ l ∧ s.LaneOnLine k)
    (hholds : ∀ f, t.flight = some f → f.slot.Holds f.frame.body) (hlanes : t.lanes = s.lanes := by simp)
    (hslots : t.laneSlots = (s.clearLaneSlot l).laneSlots := by simp)
    (hplacement : t.placement = (s.clearLaneSlot l).placement := by simp) : t.LanesFit (some l) := by
  have hlane : ∀ k, t.lane k = s.lane k := fun k => by simp only [lane, hlanes]
  have hslot : ∀ k, t.laneSlot k = if k = l then none else s.laneSlot k := fun k =>
    (laneSlot_congr hslots k).trans (laneSlot_clearLaneSlot s l k)
  have hplaces : t.placement = s.placement.filter fun k => k != l := hplacement
  have hbusy : (s.lane l).state.busy = true := by rcases hoffers with hs | hs <;> simp [hs, LaneState.busy]
  refine ⟨fun k hk => ?_, fun k => ?_, fun k hk => ?_, by rw [hplaces]; exact h.nodup.filter _, hholds⟩
  · have hkl : k ≠ l := fun heq => hk (congrArg some heq.symm)
    obtain ⟨hsound, hoffer, honLine⟩ := h.fits k (by simp)
    rw [hlane, hslot, if_neg hkl, hline]
    exact ⟨hsound, hoffer, honLine.trans (by simp [hkl])⟩
  · rw [hplaces, hslot, List.mem_filter, h.placed]
    by_cases hkl : k = l <;> simp [hkl]
  · cases hk
    obtain ⟨hsound, -, -⟩ := h.fits l (by simp)
    rw [hlane, hslot, if_pos rfl, hline]
    refine ⟨hsound.fresh hbusy, ?_, rfl, by simp⟩
    rcases hoffers with hs | hs <;> simp [hs]

/-- The lane in hand is let go, in order and outside its slot. -/
theorem released (h : s.LanesFit hand) {l : LaneNo} (hhand : hand = none ∧ ¬ (s.lane l).Offers ∨ hand = some l)
    {y : Lane} (hy : y.Sound l ∧ ¬ y.Offers) (hlane : ∀ k, t.lane k = if k = l then y else s.lane k)
    (hslots : t.laneSlots = s.laneSlots := by simp) (hplacement : t.placement = s.placement := by simp)
    (hflight : t.flight = s.flight := by simp) : t.LanesFit none := by
  obtain ⟨hsound, hoffers⟩ := hy
  have hslot : ∀ k, t.laneSlot k = s.laneSlot k := laneSlot_congr hslots
  have honLine : ∀ k, t.LaneOnLine k ↔ s.LaneOnLine k := fun k => by rw [LaneOnLine, LaneOnLine, hflight]
  have hempty : s.laneSlot l = none ∧ ¬ s.LaneOnLine l := by
    rcases hhand with ⟨rfl, hout⟩ | rfl
    · obtain ⟨-, hslot, hline⟩ := h.fits l (by simp)
      refine ⟨Option.not_isSome_iff_eq_none.1 (mt hslot.1 hout), mt hline.2 fun hs => hout (.inr hs)⟩
    · obtain ⟨-, -, hempty, hline⟩ := h.inHand l rfl
      exact ⟨hempty, hline⟩
  refine ⟨fun k _ => ?_, fun k => ?_, fun k hk => (nomatch hk), by rw [hplacement]; exact h.nodup,
    by rw [hflight]; exact h.holds⟩
  · rw [hlane, hslot, honLine]
    split
    next hk =>
      subst hk
      obtain ⟨hnone, hline⟩ := hempty
      rw [hnone]
      exact ⟨hsound, iff_of_false (by simp) hoffers, iff_of_false (fun hs => hoffers (.inr hs)) hline⟩
    next hk =>
      refine h.fits k ?_
      rcases hhand with ⟨rfl, -⟩ | rfl
      · simp
      · simpa using Ne.symm hk
  · rw [hplacement, hslot]
    exact h.placed k

theorem completeLane {l : LaneNo} (h : s.LanesFit (some l)) (st : Status) : (s.completeLane l st).LanesFit none := by
  obtain ⟨hfresh, -⟩ := h.inHand l rfl
  exact h.released (.inr rfl) (hfresh.complete l st) (lane_completeLane s l st)

theorem endLane {l : LaneNo} (h : s.LanesFit (some l)) (st : Status) : (s.endLane l st).LanesFit none :=
  h.released (.inr rfl) ⟨Lane.sound_endChain l st _, Lane.not_offers_endChain l st _⟩ (lane_endLane s l st)

end LanesFit

end State

end Sys2Proof.Machine
end

section
/-! PROOFS. The lanes at the end of a frame (R37, R41 to R44, R50, R61, R131): every move of the line unit leaves them
in order. -/

namespace Sys2Proof.Machine

set_option Elab.async false -- as in Tests/Slice0.lean: fewer threads, within the check's memory limit

namespace State

theorem not_laneOnLine_of_no_flight {s : State} (hf : s.flight = none) (l : LaneNo) : ¬ s.LaneOnLine l := by
  rintro ⟨f, hflight, -⟩
  simp [hf] at hflight

/-- A frame of another slot, or one its slot has let go, is no lane's. -/
theorem not_laneOnLine {s : State} {f : Flight} (hf : s.flight = some f)
    (h : f.attached = false ∨ ∀ l, f.slot ≠ .lane l) (l : LaneNo) : ¬ s.LaneOnLine l := by
  rintro ⟨g, hg, ha, hslot⟩
  cases hf.symm.trans hg
  rcases h with h | h
  · simp [h] at ha
  · exact h l hslot

namespace LanesFit

variable {s t : State} {hand : Option LaneNo}

/-! ## Owners, UPDATEs and IMAGEs -/

theorem withdrawalCheck (h : s.LanesFit hand) (hf : s.flight = none) (changed : RegionNo → Bool) :
    (s.withdrawalCheck changed).LanesFit hand := by
  have hnone := not_laneOnLine_of_no_flight (s := s.withdrawalCheck changed) (by simpa using hf)
  refine ⟨fun k hk => ?_, fun k => ?_, fun k hk => ?_, h.nodup.filter _, by simpa using h.holds⟩
  · obtain ⟨hsound, hoffer, honLine⟩ := h.fits k hk
    cases hw : s.withdrawalOf changed k with
    | none =>
      obtain ⟨hlane, hslot, -⟩ := withdrawalCheck_of_not_withdrawn hw
      rw [hlane, hslot]
      exact ⟨hsound, hoffer, honLine.trans (iff_of_false (not_laneOnLine_of_no_flight hf k) (hnone k))⟩
    | some st =>
      obtain ⟨hlane, hslot, -⟩ := withdrawalCheck_of_withdrawn hw
      have hoffers : (s.lane k).Offers := hoffer.1 (Option.isSome_iff_ne_none.2 fun hempty => by
        simp [withdrawalOf_of_empty hempty] at hw)
      have hbusy : (s.lane k).state.busy = true := by rcases hoffers with hs | hs <;> simp [hs, LaneState.busy]
      obtain ⟨hsound', hout⟩ := (hsound.fresh hbusy).complete k st
      rw [hlane, hslot]
      exact ⟨hsound', iff_of_false (by simp) hout, iff_of_false (fun hs => hout (.inr hs)) (hnone k)⟩
  · rw [mem_placement_withdrawalCheck, h.placed]
    cases hw : s.withdrawalOf changed k with
    | none => simp [withdrawalCheck_of_not_withdrawn hw]
    | some st => simp [withdrawalCheck_of_withdrawn hw]
  · obtain ⟨hfresh, hstate, hempty, -⟩ := h.inHand k hk
    obtain ⟨hlane, hslot, -⟩ := withdrawalCheck_of_not_withdrawn (withdrawalOf_of_empty (changed := changed) hempty)
    rw [hlane, hslot]
    exact ⟨hfresh, hstate, hempty, hnone k⟩

theorem changeOwner (h : s.LanesFit hand) (hf : s.flight = none) (x : Station) (r : RegionNo) (o : Option Station) :
    (s.changeOwner x r o).LanesFit hand := by
  have hgiven : (s.setRegion r { s.region r with owner := o }).LanesFit hand := h.congr
  exact (hgiven.report _).withdrawalCheck (by simpa using hf) _

theorem loseOwnership (h : s.LanesFit hand) (r : RegionNo) (x : Station) : (s.loseOwnership r x).LanesFit hand := by
  obtain ⟨-, -, hlost⟩ := loseOwnership_lost s r x
  rw [hlost]
  exact h.congr rfl rfl rfl rfl

theorem applyClaim (h : s.LanesFit hand) (hf : s.flight = none) (x : Station) (b : Bool) (r : RegionNo) :
    (s.applyClaim x b r).LanesFit hand := by
  unfold State.applyClaim
  repeat' split
  · exact h.changeOwner hf _ _ _
  · exact h
  · exact (h.loseOwnership r x).changeOwner (by simpa using hf) _ _ _
  · exact h.changeOwner hf _ _ _
  · exact h
  · exact h
  · exact h

theorem applyRelease (h : s.LanesFit hand) (hf : s.flight = none) (x : Station) (r : RegionNo) :
    (s.applyRelease x r).LanesFit hand := by
  unfold State.applyRelease
  split
  · exact h.changeOwner hf _ _ _
  · exact h

theorem clearOwner (h : s.LanesFit hand) (hf : s.flight = none) (x : Station) : (s.clearOwner x).LanesFit hand := by
  have hfreed : (s.mapRegions fun r y => if s.ownedBy x r then { y with owner := none } else y).LanesFit hand := h.congr
  have hreported := hfreed.reports
    (fun r => { region := r, content := false, owner := true, own := decide (x = s.stationNumber) })
    ((List.finRange 128).filter (s.ownedBy x))
  refine hreported.withdrawalCheck ?_ _
  rw [foldl_keeps State.flight _ fun u r => by simp]
  simpa using hf

theorem applyUpdate (h : s.LanesFit hand) (x : Station) (r : RegionNo) (k : Nat) (d : List Byte) :
    (s.applyUpdate x r k d).LanesFit hand := by
  unfold State.applyUpdate
  split
  · refine LanesFit.report ?_ _
    exact h.congr
  · exact h

theorem takeImage (h : s.LanesFit hand) (r : RegionNo) (o : Option Station) (c : Word) (d : List Byte) :
    (s.takeImage r o c d).LanesFit hand := by
  unfold State.takeImage
  split
  · have hwritten : (s.imageWritten r o c d).LanesFit hand := h.congr (by simp [imageWritten]) (by simp [imageWritten])
      (by simp [imageWritten]) (by simp [imageWritten])
    have hinstalled : (s.installImage r o c d).LanesFit hand := hwritten.report _
    exact hinstalled.congr
  · exact h.congr

theorem declareOrphans (h : s.LanesFit none) : s.declareOrphans.LanesFit none := by
  unfold State.declareOrphans
  rw [fold_writeRegionBytes]
  refine LanesFit.reports _ _ ?_
  exact h.congr

/-! ## Every lane emptied (R50, R86, R89, R138) -/

theorem emptied (h : s.LanesFit none) (hlane : ∀ l, t.lane l = (s.lane l).detached l)
    (hslots : t.laneSlots = Vector.replicate 4 none) (hplacement : t.placement = [])
    (hflight : ∀ f, t.flight = some f → (f.attached = false ∨ ∀ l, f.slot ≠ .lane l) ∧ f.slot.Holds f.frame.body) :
    t.LanesFit none := by
  have hslot : ∀ l, t.laneSlot l = none := laneSlot_of_laneSlots_empty hslots
  have hnone : ∀ l, ¬ t.LaneOnLine l := fun l hline => by
    obtain ⟨f, hf, ha, hlane⟩ := hline
    exact not_laneOnLine hf (hflight f hf).1 l ⟨f, hf, ha, hlane⟩
  refine ⟨fun l _ => ?_, fun l => by simp [hplacement, hslot], fun l hl => (nomatch hl), by simp [hplacement],
    fun f hf => (hflight f hf).2⟩
  have hy : (t.lane l).Sound l ∧ ¬ (t.lane l).Offers := by
    rw [hlane, Lane.detached]
    split
    next => exact ⟨Lane.sound_endChain l _ _, Lane.not_offers_endChain l _ _⟩
    next hbusy =>
      obtain ⟨hsound, -, -⟩ := h.fits l (by simp)
      refine ⟨hsound, fun hoffers => hbusy ?_⟩
      rcases hoffers with hs | hs <;> simp [hs, LaneState.busy]
  obtain ⟨hsound, hout⟩ := hy
  exact ⟨hsound, iff_of_false (by simp [hslot]) hout, iff_of_false (fun hs => hout (.inr hs)) (hnone l)⟩

theorem driftFlush (h : s.LanesFit none) : s.driftFlush.LanesFit none := by
  obtain ⟨u, ⟨-, hlane, hu⟩, hflush⟩ := driftFlush_spec s
  rw [hflush]
  refine LanesFit.settle (h.emptied hlane (congrArg laneSlots hu) (congrArg placement hu) fun f hf => ?_)
  obtain ⟨g, hg, rfl⟩ := Option.map_eq_some_iff.1 ((congrArg flight hu).symm.trans hf)
  exact ⟨.inl rfl, h.holds g hg⟩

theorem adriftEntry (h : s.LanesFit none) (c : DriftCause) : (s.adriftEntry c).LanesFit none :=
  LanesFit.settle (h.driftFlush.congr rfl rfl rfl rfl)

theorem haltedEntry (h : s.LanesFit none) : s.haltedEntry.LanesFit none :=
  LanesFit.settle (h.driftFlush.congr rfl rfl rfl rfl)

theorem thirdPassEnd (h : s.LanesFit none) : s.thirdPassEnd.LanesFit none := by
  unfold State.thirdPassEnd
  split
  · exact h.declareOrphans.congr
  · exact h.adriftEntry _

theorem askAbandoned (h : s.LanesFit none) : s.askAbandoned.LanesFit none := by
  unfold State.askAbandoned
  split
  next =>
    dsimp only
    split
    · exact h.congr
    · refine LanesFit.thirdPassEnd ?_
      exact h.congr rfl rfl rfl rfl
  next => exact h

theorem windowExpiry (h : s.LanesFit none) : s.windowExpiry.LanesFit none := by
  unfold State.windowExpiry
  split
  next => exact h
  next =>
    dsimp only
    split
    · exact h.congr
    · refine LanesFit.thirdPassEnd ?_
      exact h.congr rfl rfl rfl rfl

/-! ## The end of an attempt (R37, R41, R42, R131, R136) -/

section Attempt

variable {f : Flight} (h : s.LanesFit none) (hf : s.flight = some f)

include h hf

theorem overElsewhere (hslot : f.attached = false ∨ ∀ l, f.slot ≠ .lane l) :
    ({ s with flight := none } : State).LanesFit none :=
  h.landed (not_laneOnLine hf hslot) rfl rfl rfl rfl

variable {l : LaneNo} (hslot : f.slot = .lane l) (ha : f.attached = true)

include hslot ha

theorem onLine_of_flight : (s.lane l).state = .onLine :=
  let ⟨_, _, honLine⟩ := h.fits l (by simp)
  honLine.2 ⟨f, hf, ha, hslot⟩

/-- The frame on the line leaves its lane's slot as it ends. -/
theorem takenOut : (({ s with flight := none } : State).clearLaneSlot l).LanesFit (some l) := by
  have hnone := not_laneOnLine_of_no_flight (s := ({ s with flight := none } : State).clearLaneSlot l) (by simp)
  refine h.vacated (.inr (h.onLine_of_flight hf hslot ha)) (fun k => iff_of_false (hnone k) ?_) (by simp) rfl rfl rfl
  rintro ⟨hkl, g, hg, -, hgslot⟩
  cases hf.symm.trans hg
  exact hkl (SlotId.lane.inj (hgslot.symm.trans hslot))

/-- The frame on the line ends and stays offered. -/
theorem returned (hstop : (s.lane l).stopPending = false)
    (hlane : ∀ k, t.lane k = if k = l then { s.lane l with state := .offered } else s.lane k)
    (hslots : ∀ k, (t.laneSlot k).isSome = (s.laneSlot k).isSome) (hplacement : t.placement = s.placement)
    (hflight : t.flight = none) : t.LanesFit none := by
  have hnone := not_laneOnLine_of_no_flight hflight
  have hstate := h.onLine_of_flight hf hslot ha
  refine ⟨fun k _ => ?_, fun k => ?_, fun k hk => (nomatch hk), by rw [hplacement]; exact h.nodup, by simp [hflight]⟩
  · obtain ⟨hsound, hoffer, honLine⟩ := h.fits k (by simp)
    rw [hlane, hslots]
    split
    next hk =>
      subst hk
      refine ⟨?_, hoffer.trans (by simp [Lane.Offers, hstate]), iff_of_false (by simp) (hnone k)⟩
      exact {
        stop := by simp [hstop]
        wait := by simpa [hstate] using hsound.wait
        deadline := by simpa [hstate] using hsound.deadline
        entry := by simpa [hstate] using hsound.entry
        note := by simp [LaneState.busy]
        endStatus := fun _ => hsound.endStatus (by simp [hstate, LaneState.busy])
        held := by simpa [Lane.HeldFits, hstate] using hsound.held }
    next hk =>
      refine ⟨hsound, hoffer, honLine.trans (iff_of_false ?_ (hnone k))⟩
      rintro ⟨g, hg, -, hgslot⟩
      cases hf.symm.trans hg
      exact hk (SlotId.lane.inj (hgslot.symm.trans hslot))
  · rw [hplacement, hslots]
    exact h.placed k

end Attempt

end LanesFit

end State

end Sys2Proof.Machine
end

section
/-! PROOFS. The lanes through the moves of the line unit (R33, R41 to R44), and the quiet stations, whose frames no slot
holds (R29, R50). -/

namespace Sys2Proof.Machine

set_option Elab.async false -- as in Tests/Slice0.lean: fewer threads, within the check's memory limit

namespace State

namespace LanesFit

variable {s t : State}

/-! ## An attempt lost or spoiled -/

theorem loseAttempt (h : s.LanesFit none) : s.loseAttempt.LanesFit none := by
  rcases Option.eq_none_or_eq_some s.flight with hf | ⟨f, hf⟩
  · rwa [loseAttempt_of_no_flight hf]
  · unfold State.loseAttempt
    rw [hf]
    dsimp only
    split
    next l hslot =>
      split_ifs with ha hstop
      · exact (h.takenOut hf hslot ha).endLane .stopped
      · exact h.returned hf hslot ha (Bool.eq_false_iff.2 hstop) (lane_backToOffered _ l) (fun _ => rfl) rfl rfl
      · exact h.overElsewhere hf (.inl (Bool.eq_false_iff.2 ha))
    next hslot =>
      have hover := h.overElsewhere hf (.inr (by simp [hslot]))
      repeat' split
      · exact hover.congr
      · exact hover
      · exact hover.congr
      · exact hover.congr
    next hslot => exact (h.overElsewhere hf (.inr (by simp [hslot]))).congr

theorem stationAbandoned (h : s.LanesFit none) (g : StationFrame) : (s.stationAbandoned g).LanesFit none := by
  cases g with
  | join => exact h.adriftEntry _
  | ask a b => exact h.askAbandoned
  | leave => exact LanesFit.congr (t := s.endOfLeave) h

theorem countStationAttempt (h : s.LanesFit none) : s.countStationAttempt.LanesFit none := by
  unfold State.countStationAttempt
  split
  next o _ =>
    split_ifs
    · exact h.congr
    · exact h.congr rfl rfl rfl rfl
    · refine LanesFit.stationAbandoned ?_ _
      exact h.congr rfl rfl rfl rfl
  next => exact h.congr

/-- At its eighth spoil the frame leaves its slot and the lane learns it; before, it stays offered. -/
theorem countLaneAttempt {f : Flight} {l : LaneNo} (h : s.LanesFit none) (hf : s.flight = some f)
    (hslot : f.slot = .lane l) (ha : f.attached = true) (hstop : (s.lane l).stopPending = false) :
    (({ s with flight := none } : State).countLaneAttempt l).LanesFit none := by
  obtain ⟨-, hoffer, -⟩ := h.fits l (by simp)
  obtain ⟨o, ho⟩ := Option.isSome_iff_exists.1 (hoffer.2 (.inr (h.onLine_of_flight hf hslot ha)))
  by_cases hlow : o.attempts + 1 < 8
  · rw [countLaneAttempt_of_low (s := { s with flight := none }) ho hlow]
    refine h.returned hf hslot ha hstop (lane_backToOffered _ l) (fun k => ?_) rfl rfl
    have hk :
        (({ s with flight := none } : State).setLaneSlot l (some { o with attempts := o.attempts + 1 })).laneSlot k =
          if k = l then some { o with attempts := o.attempts + 1 } else s.laneSlot k :=
      laneSlot_setLaneSlot _ l k _
    refine (congrArg Option.isSome hk).trans ?_
    split
    next heq => rw [heq, ho]; rfl
    next => rfl
  · rw [countLaneAttempt_of_eighth (s := { s with flight := none }) ho (Nat.not_lt.1 hlow)]
    exact (h.takenOut hf hslot ha).completeLane .abandoned

theorem spoilAttempt (h : s.LanesFit none) : s.spoilAttempt.LanesFit none := by
  rcases Option.eq_none_or_eq_some s.flight with hf | ⟨f, hf⟩
  · rwa [spoilAttempt_of_no_flight hf]
  · cases ha : f.attached with
    | false =>
      have hover := h.overElsewhere hf (.inl ha)
      cases hslot : f.slot with
      | lane l =>
        rw [spoilAttempt_lane_detached hf hslot ha]
        exact hover
      | station =>
        rw [spoilAttempt_station_detached hf hslot ha, ← enterNext_eq]
        exact hover.congr
      | image =>
        rw [spoilAttempt_image_detached hf hslot ha]
        exact hover.congr
    | true =>
      cases hslot : f.slot with
      | lane l =>
        by_cases hstop : (s.lane l).stopPending = true
        · rw [spoilAttempt_lane_stopped hf hslot ha hstop]
          exact (h.takenOut hf hslot ha).endLane .stopped
        · rw [spoilAttempt_lane_counted hf hslot ha (Bool.eq_false_iff.2 hstop)]
          exact h.countLaneAttempt hf hslot ha (Bool.eq_false_iff.2 hstop)
      | station =>
        rw [spoilAttempt_station_attached hf hslot ha]
        exact (h.overElsewhere hf (.inr (by simp [hslot]))).countStationAttempt
      | image =>
        rw [spoilAttempt_image_attached hf hslot ha]
        exact (h.overElsewhere hf (.inr (by simp [hslot]))).congr

/-! ## Carried frames -/

theorem applyPeer (h : s.LanesFit none) (hf : s.flight = none) (f : Frame) : (s.applyPeer f).LanesFit none := by
  unfold State.applyPeer
  split
  · exact h.clearOwner hf _
  · exact h.clearOwner hf _
  · exact h.applyClaim hf _ _ _
  · exact h.applyRelease hf _ _
  · exact h.congr
  · exact h.takeImage _ _ _ _
  · exact h.applyUpdate _ _ _ _

/-- A frame that no lane waits for is applied to a state in which every lane is in order. -/
theorem applyOwn_elsewhere (h : s.LanesFit none) (hf : s.flight = none) {f : Flight}
    (hslot : f.attached = false ∨ ∀ l, f.slot ≠ .lane l) : (s.applyOwn f).LanesFit none := by
  have htell : ∀ (u : State) (st : Status), u.tellLane f st = u := fun u st => by
    rcases hslot with ha | hlane
    · exact tellLane_detached ha
    · unfold tellLane
      split
      next =>
        split
        next l hl => exact absurd hl (hlane l)
        next => rfl
        next => rfl
      next => rfl
  have hcleared := h.clearOwner hf f.frame.sender
  unfold State.applyOwn
  split
  next =>
    split
    · exact hcleared.congr
    · exact hcleared
  next =>
    split
    · exact hcleared.congr
    · exact hcleared
  next =>
    split
    · exact h.congr
    · exact h
  next => exact h.takeImage _ _ _ _
  next => rw [htell]; exact h.applyClaim hf _ _ _
  next => rw [htell]; exact h.applyRelease hf _ _
  next => rw [htell]; exact h.applyUpdate _ _ _ _

/-- A lane's frame, out of its slot, is an UPDATE, a CLAIM or a RELEASE, and its lane learns the outcome. -/
theorem applyOwn_lane {f : Flight} {l : LaneNo} (h : s.LanesFit (some l)) (hf : s.flight = none)
    (hslot : f.slot = .lane l) (ha : f.attached = true) (hholds : f.slot.Holds f.frame.body) :
    (s.applyOwn f).LanesFit none := by
  rw [hslot] at hholds
  rcases hholds with ⟨r, k, data, hbody⟩ | ⟨seize, r, hbody⟩ | ⟨r, hbody⟩
  · simp only [State.applyOwn, hbody, tellLane_attached hslot ha]
    exact (h.applyUpdate _ _ _ _).completeLane _
  · simp only [State.applyOwn, hbody, tellLane_attached hslot ha]
    exact (h.applyClaim hf _ _ _).completeLane _
  · simp only [State.applyOwn, hbody, tellLane_attached hslot ha]
    exact (h.applyRelease hf _ _).completeLane _

theorem own (h : s.LanesFit none) {f : Flight} (hf : s.flight = some f) :
    ((s.takeOut f).applyOwn f).LanesFit none := by
  have hnone : (s.takeOut f).flight = none := by simp
  by_cases hlane : f.attached = true ∧ ∃ l, f.slot = .lane l
  · obtain ⟨ha, l, hslot⟩ := hlane
    have htake : s.takeOut f = ({ s with flight := none } : State).clearLaneSlot l := by
      simp only [State.takeOut, hslot, ha, if_true]
    rw [htake] at hnone ⊢
    exact (h.takenOut hf hslot ha).applyOwn_lane hnone hslot ha (h.holds f hf)
  · have hslot : f.attached = false ∨ ∀ l, f.slot ≠ .lane l := by
      cases ha : f.attached with
      | false => exact .inl rfl
      | true => exact .inr fun l hl => hlane ⟨ha, l, hl⟩
    have hover := h.overElsewhere hf hslot
    refine LanesFit.applyOwn_elsewhere ?_ hnone hslot
    unfold State.takeOut
    dsimp only
    split
    next l hl =>
      split
      next ha => exact absurd ⟨ha, l, hl⟩ hlane
      next => exact hover
    next => split <;> exact hover.congr
    next =>
      split
      · exact hover.congr rfl rfl rfl rfl
      · exact hover

theorem readbackDifference (h : s.LanesFit none) : s.readbackDifference.LanesFit none := by
  have honLine : ∀ l, s.readbackDifference.LaneOnLine l ↔ s.LaneOnLine l := fun l => by
    simp [LaneOnLine, State.readbackDifference]
  refine ⟨fun l hl => ?_, h.placed, fun l hl => (nomatch hl), h.nodup, fun f hf => ?_⟩
  · rw [honLine]
    exact h.fits l hl
  · obtain ⟨g, hg, rfl⟩ := Option.map_eq_some_iff.1 hf
    exact h.holds g hg

end LanesFit

/-! ## Quiet stations (R29, R50) -/

/-- At a station that does not listen no slot holds the frame on the line. -/
def Quiet (s : State) : Prop := s.listening = false → ∀ f, s.flight = some f → f.attached = false

theorem quiet_of_no_flight {s : State} (hf : s.flight = none) : s.Quiet := fun _ f h => by simp [hf] at h

theorem Quiet.congr {s t : State} (h : s.Quiet) (hstate : t.stationState = s.stationState := by simp)
    (hflight : t.flight = s.flight := by simp) : t.Quiet := fun hl f hf =>
  h ((listening_congr hstate).symm.trans hl) f (hflight.symm.trans hf)

theorem Quiet.of_move {s t : State} (h : s.Quiet) (hmove : LineMove s t) : t.Quiet := by
  cases hmove with
  | count _ _ | settle => exact h.congr
  | streak n _ => exact h
  | differ =>
    intro hl f hf
    obtain ⟨g, hg, rfl⟩ := Option.map_eq_some_iff.1 hf
    exact h hl g hg
  | lose | spoilAttempt _ | own f _ _ => exact quiet_of_no_flight (by simp)
  | drift _ | silent _ => exact quiet_of_no_flight rfl
  | peer f b _ _ hf => exact quiet_of_no_flight (by simpa using hf)
  | halt hf => exact quiet_of_no_flight (by simp [hf])
  | join _ => exact fun hl => by simp [listening, joiningEntry] at hl

theorem LanesFit.of_move {s t : State} (h : s.LanesFit none) (hquiet : s.Quiet) (hmove : LineMove s t) :
    t.LanesFit none := by
  cases hmove with
  | count _ _ => exact h.congr
  | settle => exact h.settle
  | streak n _ => exact h.congr rfl rfl rfl rfl
  | lose => exact h.loseAttempt
  | differ => exact h.readbackDifference
  | spoilAttempt _ => exact h.spoilAttempt
  | drift _ =>
    have hadrift := h.adriftEntry .streak
    refine hadrift.landed (fun l hline => ?_) rfl rfl rfl rfl
    obtain ⟨f, hf, ha, -⟩ := hline
    have hdetached := attached_of_map_detach (x := s.flight) (f := f) (by simpa using hf)
    simp [ha] at hdetached
  | silent hl =>
    refine h.landed (fun l hline => ?_) rfl rfl rfl rfl
    obtain ⟨f, hf, ha, -⟩ := hline
    simp [hquiet hl f hf] at ha
  | peer f b _ _ hf => exact h.applyPeer hf f
  | own f _ hf => exact h.own hf
  | halt _ => exact h.haltedEntry
  | join _ => exact h.congr

theorem LanesFit.of_moves {s t : State} (h : s.LanesFit none) (hquiet : s.Quiet) (hpath : LineMoves s t) :
    t.LanesFit none :=
  (hpath.keeps (P := fun u => u.LanesFit none ∧ u.Quiet)
    (fun _ _ hu hmove => ⟨hu.1.of_move hu.2 hmove, hu.2.of_move hmove⟩) ⟨h, hquiet⟩).1

end State

end Sys2Proof.Machine
end

section
/-! PROOFS. The lanes through every command (R31, R102 to R119, R128 to R138): START and STOP, takes, WAITs, start
edges, LEAVE, and the clock. -/

namespace Sys2Proof.Machine

set_option Elab.async false -- as in Tests/Slice0.lean: fewer threads, within the check's memory limit

/-! ## A lane whose entry has been read (R102) -/

namespace Lane

/-- The lane is RUNNING, with an entry under way that has not yet said what becomes of the lane. -/
structure Taking (x : Lane) : Prop where
  running : x.state = .running
  fresh : x.Fresh
  stop : x.stopPending = false
  wait : x.wait = none
  deadline : x.deadline = none
  entry : x.entry.isSome = true

variable {l : LaneNo} {x : Lane}

/-- The entry of a RUNNING lane in order has been read, with or without a note. -/
theorem Sound.taking (h : x.Sound l) (hrunning : x.state = .running) (cur : Index) (e : EntryCtx) (note : Option Note) :
    Taking { x with prevGoto := false, cur := cur, entry := some e, note := note } where
  running := hrunning
  fresh := h.fresh (by simp [hrunning, LaneState.busy])
  stop := Bool.eq_false_iff.2 fun hstop => by simp [h.stop hstop] at hrunning
  wait := Option.not_isSome_iff_eq_none.1 fun hwait => by simp [h.wait.1 hwait] at hrunning
  deadline := Option.not_isSome_iff_eq_none.1 fun hdeadline => by simp [h.deadline hdeadline] at hrunning
  entry := rfl

theorem Taking.sound_offered (h : x.Taking) : Sound l { x with state := .offered } where
  stop := by simp [h.stop]
  wait := by simp [h.wait]
  deadline := by simp [h.deadline]
  entry := by simp [h.entry]
  note := by simp [LaneState.busy]
  endStatus := fun _ => h.fresh.1
  held := by simp [HeldFits, h.fresh.2]

theorem Taking.sound_waiting (h : x.Taking) (c : WaitCond) (d : Option Nat) :
    Sound l { x with state := .waiting, wait := some c, deadline := d } where
  stop := by simp [h.stop]
  wait := by simp
  deadline := by simp
  entry := by simp [h.entry]
  note := by simp [LaneState.busy]
  endStatus := fun _ => h.fresh.1
  held := by simp [HeldFits, h.fresh.2]

/-- A GOTO moves a RUNNING lane (R103). -/
theorem steps_goto (hrunning : x.state = .running) (n : Nat) (i : Index) :
    Steps l x { x with completed := n, cur := i, prevGoto := true } :=
  .of_state rfl fun h =>
    { h with
      held := by
        obtain ⟨-, hheld⟩ := h.fresh (by simp [hrunning, LaneState.busy])
        simp [HeldFits, hheld, hrunning] }

theorem steps_stopPending (hline : x.state = .onLine) : Steps l x { x with stopPending := true } :=
  .of_state rfl fun h => { h with stop := fun _ => hline, held := h.held }

theorem sound_started (l : LaneNo) (i : Index) (tag : Word) : (State.startedLane i tag).Sound l where
  stop := by simp [State.startedLane]
  wait := by simp [State.startedLane]
  deadline := by simp [State.startedLane]
  entry := by simp [State.startedLane]
  note := by simp [State.startedLane]
  endStatus := by simp [State.startedLane]
  held := by simp [State.startedLane, HeldFits]

end Lane

namespace State

namespace LanesFit

variable {s t v : State} {l : LaneNo}

/-! ## Entry takes (R102 to R117) -/

/-- What every take does before its action brings the lane in hand. -/
theorem taken (h : s.LanesFit none) (hrunning : (s.lane l).state = .running) {last : Index} {e : EntryCtx}
    {note : Option (Index × Word)} {n : Nat} (htaken : v.TakenWith s l last e note n) :
    v.LanesFit (some l) ∧ (v.lane l).Taking := by
  obtain ⟨hsound, hoffer, honLine⟩ := h.fits l (by simp)
  obtain ⟨hv, hother, hbare, hnoted⟩ := htaken
  have htaking : (v.lane l).Taking := by
    rcases note with _ | ⟨i, label⟩
    · rw [(hbare rfl).1]
      exact hsound.taking hrunning last e _
    · obtain ⟨hroom, hfull, hmerged⟩ := hnoted i label rfl
      rcases Option.eq_none_or_eq_some (s.lane l).note with hnote | ⟨m, hnote⟩
      · rcases Nat.lt_or_ge s.queue.length 32 with hlt | hge
        · rw [(hroom hnote hlt).1]
          exact hsound.taking hrunning last e _
        · rw [(hfull hnote hge).1]
          exact hsound.taking hrunning last e _
      · rw [(hmerged m hnote).1]
        exact hsound.taking hrunning last e _
  have hslots : v.laneSlots = s.laneSlots := by rw [hv]
  have hplacement : v.placement = s.placement := by rw [hv]
  have hflight : v.flight = s.flight := by rw [hv]
  have hslot : ∀ k, v.laneSlot k = s.laneSlot k := laneSlot_congr hslots
  have hline : ∀ k, v.LaneOnLine k ↔ s.LaneOnLine k := fun k => by rw [LaneOnLine, LaneOnLine, hflight]
  have hout := Lane.not_offers_of_running hrunning
  refine ⟨⟨fun k hk => ?_, fun k => ?_, fun k hk => ?_, ?_, fun f hf => h.holds f (hflight.symm.trans hf)⟩,
    htaking⟩
  · rw [hother k fun heq => hk (congrArg some heq.symm), hslot, hline]
    exact h.fits k (by simp)
  · rw [hslot, hplacement]
    exact h.placed k
  · cases hk
    rw [hslot, hline]
    exact ⟨htaking.fresh, by simp [htaking.running], Option.not_isSome_iff_eq_none.1 (mt hoffer.1 hout),
      mt honLine.2 fun hs => hout (.inr hs)⟩
  · rw [hplacement]
    exact h.nodup

theorem placeFrame (h : v.LanesFit (some l)) (htaking : (v.lane l).Taking) (f : LaneFrame) :
    (v.placeFrame l f).LanesFit none := by
  obtain ⟨hlane, hslot, hplacement, hv⟩ := placeFrame_places v l f
  obtain ⟨-, -, hempty, hout⟩ := h.inHand l rfl
  have hflight : (v.placeFrame l f).flight = v.flight := by rw [hv]
  have hline : ∀ k, (v.placeFrame l f).LaneOnLine k ↔ v.LaneOnLine k := fun k => by
    rw [LaneOnLine, LaneOnLine, hflight]
  have hunplaced : l ∉ v.placement := mt (h.placed l).1 (by simp [hempty])
  refine ⟨fun k _ => ?_, fun k => ?_, fun k hk => (nomatch hk), ?_, by rw [hflight]; exact h.holds⟩
  · rw [hlane, hslot, hline]
    split
    next hk =>
      subst hk
      exact ⟨htaking.sound_offered, by simp [Lane.Offers], iff_of_false (by simp) hout⟩
    next hk => exact h.fits k fun heq => hk (Option.some.inj heq).symm
  · rw [hplacement, hslot]
    have hplaced := h.placed k
    by_cases hk : k = l
    · simp [hk]
    · simpa [hk] using hplaced
  · rw [hplacement]
    refine List.nodup_append.2 ⟨h.nodup.filter _, List.nodup_singleton l, ?_⟩
    intro a ha b hb
    rw [List.mem_singleton.1 hb]
    simpa using (List.mem_filter.1 ha).2

theorem putAction (h : v.LanesFit (some l)) (htaking : (v.lane l).Taking) (r : RegionNo) (k : Nat) (g : Group) :
    (v.putAction l r k g).LanesFit none := by
  unfold State.putAction
  split_ifs
  · exact h.completeLane _
  · exact h.completeLane _
  · exact h.completeLane _
  · exact h.placeFrame htaking _

theorem getAction (h : v.LanesFit (some l)) (r : RegionNo) (k : Nat) (g : Group) :
    (v.getAction l r k g).LanesFit none := by
  unfold State.getAction
  split
  · exact h.completeLane _
  · refine LanesFit.completeLane ?_ _
    exact h.congr rfl rfl rfl rfl

theorem claimAction (h : v.LanesFit (some l)) (htaking : (v.lane l).Taking) (r : RegionNo) (seize : Bool) :
    (v.claimAction l r seize).LanesFit none := by
  unfold State.claimAction
  split_ifs
  · exact h.completeLane _
  · exact h.completeLane _
  · exact h.placeFrame htaking _
  · exact h.completeLane _

theorem releaseAction (h : v.LanesFit (some l)) (htaking : (v.lane l).Taking) (r : RegionNo) :
    (v.releaseAction l r).LanesFit none := by
  unfold State.releaseAction
  split_ifs
  · exact h.completeLane _
  · exact h.placeFrame htaking _
  · exact h.completeLane _

theorem waitAction (h : v.LanesFit (some l)) (htaking : (v.lane l).Taking) (c : WaitCond) (n : Nat) :
    (v.waitAction l c n).LanesFit none := by
  unfold State.waitAction
  split
  · exact h.completeLane _
  · exact h.released (.inr rfl) ⟨htaking.sound_waiting c _, by simp [Lane.Offers]⟩
      (fun k => lane_modifyLane v l k fun x =>
        { x with state := .waiting, wait := some c, deadline := if n = 0 then none else some n })

/-- A take that fails ends the chain of a lane whose frame is in no slot. -/
theorem ended (h : s.LanesFit none) (hrunning : (s.lane l).state = .running) {y : Lane} {st : Status}
    (hlane : ∀ k, t.lane k = if k = l then y.endChain l st else s.lane k)
    (hslots : t.laneSlots = s.laneSlots := by simp)
    (hplacement : t.placement = s.placement := by simp) (hflight : t.flight = s.flight := by simp) : t.LanesFit none :=
  h.released (.inl ⟨rfl, Lane.not_offers_of_running hrunning⟩)
    ⟨Lane.sound_endChain l st y, Lane.not_offers_endChain l st y⟩ hlane hslots hplacement hflight

theorem endLane_unmarked (h : s.LanesFit none) (hrunning : (s.lane l).state = .running) (st : Status) :
    ((s.unmarked l).endLane l st).LanesFit none := by
  refine h.ended hrunning (y := { s.lane l with prevGoto := false }) (st := st) (fun k => ?_) rfl rfl rfl
  rw [lane_endLane, lane_unmarked, if_pos rfl, lane_unmarked]
  split <;> rfl

theorem failTake_unmarked (h : s.LanesFit none) (hrunning : (s.lane l).state = .running) (st : Status) (i : Index) :
    ((s.unmarked l).failTake l st i).LanesFit none := by
  refine h.ended hrunning (y := { s.lane l with prevGoto := false, cur := i }) (st := st) (fun k => ?_) rfl rfl rfl
  rw [State.failTake, lane_endLane, lane_modifyLane_same, lane_modifyLane, lane_unmarked, if_pos rfl, lane_unmarked]
  split <;> rfl

theorem takeSingle (h : s.LanesFit none) (hrunning : (s.lane l).state = .running) {act : State → Index → State}
    (hact : ∀ (u : State) i, u.LanesFit (some l) → (u.lane l).Taking → (act u i).LanesFit none) :
    ((s.unmarked l).takeSingle l act).LanesFit none := by
  cases hvalid : Entry.valid s.chain (s.lane l).cur with
  | true =>
    obtain ⟨v, htaken, heq⟩ := takeSingle_of_valid act rfl hvalid
    obtain ⟨hfits, htaking⟩ := h.taken hrunning htaken
    rw [unmarked, heq]
    exact hact v _ hfits htaking
  | false =>
    have hinvalid : Entry.valid (s.unmarked l).chain ((s.unmarked l).lane l).cur = false := by
      rw [lane_unmarked, if_pos rfl]
      exact hvalid
    rw [takeSingle_of_invalid act hinvalid]
    exact h.endLane_unmarked hrunning _

theorem takeTransfer (h : s.LanesFit none) (hrunning : (s.lane l).state = .running) (kind : EntryKind)
    {act : State → RegionNo → Nat → Group → State}
    (hact : ∀ (u : State) r k g, u.LanesFit (some l) → (u.lane l).Taking → (act u r k g).LanesFit none) :
    ((s.unmarked l).takeTransfer l kind act).LanesFit none := by
  cases hread : Entry.readGroup s.chain kind (s.lane l).cur with
  | ok g =>
    obtain ⟨v, htaken, heq⟩ := takeTransfer_of_read act rfl hread
    obtain ⟨hfits, htaking⟩ := h.taken hrunning htaken
    rw [unmarked, heq]
    exact hact v _ _ g hfits htaking
  | fail st q =>
    have hfailed : Entry.readGroup (s.unmarked l).chain kind ((s.unmarked l).lane l).cur = .fail st q := by
      rw [lane_unmarked, if_pos rfl]
      exact hread
    rw [takeTransfer_of_failed_read act hfailed]
    exact h.failTake_unmarked hrunning st q

theorem takeGoto (h : s.LanesFit none) (hrunning : (s.lane l).state = .running) : (s.takeGoto l).LanesFit none := by
  unfold State.takeGoto
  dsimp only
  split
  · exact h.ended hrunning (lane_endLane s l _) rfl rfl rfl
  · split
    · refine h.steps (fun k _ => ?_) (fun k hk => nomatch hk) rfl rfl rfl
      rw [lane_modifyLane]
      split
      next hk =>
        subst hk
        exact Lane.steps_goto hrunning _ _
      next => exact .refl k _
    · exact h.ended hrunning (lane_endLane s l _) rfl rfl rfl

theorem takeEntry (h : s.LanesFit none) (hrunning : (s.lane l).state = .running) : (s.takeEntry l).LanesFit none := by
  rcases hkind : Entry.kind s.chain (s.lane l).cur with _ | kind
  · rw [takeEntry_of_no_kind hkind]
    exact h.endLane_unmarked hrunning _
  · cases kind with
    | goto =>
      rw [takeEntry_of_goto hkind]
      exact h.takeGoto hrunning
    | put =>
      rw [takeEntry_of_put hkind]
      exact h.takeTransfer hrunning .put fun u r k g hu htaking => hu.putAction htaking r k g
    | get =>
      rw [takeEntry_of_get hkind]
      exact h.takeTransfer hrunning .get fun u r k g hu _ => hu.getAction r k g
    | claim =>
      rw [takeEntry_of_claim hkind]
      exact h.takeSingle hrunning fun u i hu htaking => hu.claimAction htaking _ _
    | release =>
      rw [takeEntry_of_release hkind]
      exact h.takeSingle hrunning fun u i hu htaking => hu.releaseAction htaking _
    | wait =>
      rw [takeEntry_of_wait hkind]
      exact h.takeSingle hrunning fun u i hu htaking => hu.waitAction htaking _ _

theorem entryTake (h : s.LanesFit none) (l : LaneNo) : (s.entryTake l).LanesFit none := by
  unfold State.entryTake
  split
  next hrunning => exact (h.takeEntry hrunning).settle
  next => exact h

end LanesFit

end State

end Sys2Proof.Machine
end

section
/-! PROOFS. The lanes through the requests, timers, start edges and the clock (R31, R86, R119, R128 to R138, R149). -/

namespace Sys2Proof.Machine

set_option Elab.async false -- as in Tests/Slice0.lean: fewer threads, within the check's memory limit

/-- An OFFERED lane goes on the line with its context as it was. -/
theorem Lane.Sound.onLine {l : LaneNo} {x : Lane} (h : x.Sound l) (hstate : x.state = .offered) :
    Lane.Sound l { x with state := .onLine } where
  stop := by simp
  wait := by simpa [hstate] using h.wait
  deadline := by simpa [hstate] using h.deadline
  entry := by simpa [hstate] using h.entry
  note := by simp [LaneState.busy]
  endStatus := fun _ => h.endStatus (by simp [hstate, LaneState.busy])
  held := by simpa [Lane.HeldFits, hstate] using h.held

namespace State

namespace LanesFit

variable {s t : State}

/-! ## START, STOP, POP, and the end of a WAIT -/

theorem start (h : s.LanesFit none) : s.start.LanesFit none := by
  rcases s.start_cases with ⟨a, heq⟩ | ⟨l, i, v, hfree, heq⟩
  · rw [heq]
    exact h.congr
  · rw [heq]
    exact h.released (.inl ⟨rfl, by simp [Lane.Offers, hfree]⟩)
      ⟨Lane.sound_started l i s.p1, Lane.not_offers_of_running rfl⟩ (fun k => lane_setLane s l k _) rfl rfl rfl

/-- An OFFERED lane's frame leaves its slot; whatever is on the line is not this lane's. -/
theorem withdrawn {l : LaneNo} (h : s.LanesFit none) (hoffered : (s.lane l).state = .offered) :
    (s.clearLaneSlot l).LanesFit (some l) := by
  obtain ⟨-, -, honLine⟩ := h.fits l (by simp)
  have hnot : ¬ s.LaneOnLine l := mt honLine.2 (by simp [hoffered])
  refine h.vacated (.inl hoffered) (fun k => ⟨fun hk => ⟨?_, hk⟩, fun hk => hk.2⟩) h.holds rfl rfl rfl
  rintro rfl
  exact hnot hk

theorem stopLane (h : s.LanesFit none) (l : LaneNo) : (s.stopLane l).LanesFit none := by
  cases hstate : (s.lane l).state with
  | free =>
    rw [stopLane_of_free hstate]
    exact h.congr
  | holding =>
    rw [stopLane_of_holding hstate]
    exact h.congr
  | onLine =>
    rw [stopLane_of_onLine hstate]
    have hstops : (s.modifyLane l fun x => { x with stopPending := true }).LanesFit none := by
      refine h.steps (fun k _ => ?_) (fun k hk => nomatch hk) rfl rfl rfl
      rw [lane_modifyLane]
      split
      next hk =>
        subst hk
        exact Lane.steps_stopPending hstate
      next => exact .refl k _
    exact hstops.congr
  | running | waiting =>
    rw [stopLane_of_running_or_waiting (by simp [hstate])]
    have hended : (s.endLane l .stopped).LanesFit none :=
      h.released (.inl ⟨rfl, by simp [Lane.Offers, hstate]⟩)
        ⟨Lane.sound_endChain l .stopped _, Lane.not_offers_endChain l .stopped _⟩ (lane_endLane s l .stopped)
        rfl rfl rfl
    exact hended.settle.congr rfl rfl rfl rfl
  | offered =>
    rw [stopLane_of_offered hstate]
    exact ((h.withdrawn hstate).endLane .stopped).settle.congr rfl rfl rfl rfl

theorem stop (h : s.LanesFit none) : s.stop.LanesFit none := by
  unfold State.stop
  split
  · exact h.stopLane _
  · exact h.congr

theorem popHead (h : s.LanesFit none) : s.popHead.LanesFit none := by
  unfold State.popHead
  split
  · exact h
  next rest _ =>
    have hpopped : ({ s with queue := rest } : State).LanesFit none := h.congr rfl rfl rfl rfl
    split
    · exact hpopped
    next p _ _ => exact hpopped.steps (fun l _ => steps_serve _ p l) fun l hl => nomatch hl

theorem waitTimeout (h : s.LanesFit none) (l : LaneNo) : (s.waitTimeout l).LanesFit none := by
  unfold State.waitTimeout
  split
  next hwaiting =>
    obtain ⟨hstate, -⟩ := hwaiting
    refine LanesFit.settle (h.steps (fun k _ => ?_) (fun k hk => nomatch hk) rfl rfl rfl)
    rw [lane_completeLane]
    split
    next hk =>
      subst hk
      exact Lane.steps_complete_of_waiting hstate .waitTimeout
    next => exact .refl k _
  next => exact h

theorem tick (h : s.LanesFit none) : s.tick.LanesFit none :=
  h.steps (fun l _ => by rw [lane_tick]; exact Lane.steps_tick l _) (fun l hl => nomatch hl) rfl rfl rfl

/-! ## REJOIN and LEAVE -/

theorem rejoin (h : s.LanesFit none) : s.rejoin.LanesFit none := by
  unfold State.rejoin
  split
  case h_1 | h_2 | h_3 => exact h.driftFlush.congr
  case h_4 | h_5 | h_6 => exact h.congr

theorem leave (h : s.LanesFit none) : s.leave.LanesFit none := by
  by_cases haccepted : s.stationState = .joining ∨ s.stationState = .active
  · rw [leave_of_accepted haccepted]
    have hleaving : s.leaving.LanesFit none := by
      refine h.emptied (lane_leaving s) (congrArg laneSlots s.leaving_eq) (congrArg placement s.leaving_eq)
        fun f hf => ?_
      rw [flight_leaving] at hf
      obtain ⟨g, hg, rfl⟩ := Option.map_eq_some_iff.1 hf
      refine ⟨?_, h.holds g hg⟩
      by_cases hlane : ∀ l, g.slot ≠ .lane l
      · exact .inr hlane
      · exact .inl (by simp [hlane])
    exact hleaving.settle.congr rfl rfl rfl rfl
  · obtain ⟨hjoining, hactive⟩ := not_or.1 haccepted
    rw [leave_of_refused hjoining hactive]
    exact h.congr

end LanesFit

/-! ## Start edges (R31, R35) -/

/-- A slot offers a frame of the kind it holds. -/
theorem holds_of_slotBody {s : State} {x : SlotId} {b : FrameBody} (hb : s.slotBody x = some b) : x.Holds b := by
  cases x with
  | lane l =>
    obtain ⟨o, -, rfl⟩ := Option.map_eq_some_iff.1 hb
    cases o.frame <;> simp [LaneFrame.body, SlotId.Holds]
  | station =>
    obtain ⟨o, -, rfl⟩ := Option.map_eq_some_iff.1 hb
    cases o.frame <;> simp [StationFrame.body, SlotId.Holds]
  | image =>
    obtain ⟨o, -, rfl⟩ := Option.map_eq_some_iff.1 hb
    simp [SlotId.Holds]

theorem lane_markOnLine (s : State) (x : SlotId) (k : LaneNo) :
    (s.markOnLine x).lane k = if x = .lane k then { s.lane k with state := .onLine } else s.lane k := by
  cases x with
  | lane l =>
    refine (lane_modifyLane s l k fun x => { x with state := .onLine }).trans ?_
    by_cases hk : k = l
    · simp [hk]
    · simp [hk, Ne.symm hk]
  | station | image => rfl

namespace LanesFit

variable {s t : State}

theorem joinIn (h : s.LanesFit none) (hf : s.flight = none) : s.joinIn.LanesFit none := by
  rcases s.joinIn_cases with heq | ⟨x, b, -, hb, heq⟩
  · rw [heq]
    exact h
  · have hlane : ∀ k, s.joinIn.lane k = if x = .lane k then { s.lane k with state := .onLine } else s.lane k :=
      fun k => by rw [heq]; exact lane_markOnLine s x k
    have hslots : s.joinIn.laneSlots = s.laneSlots := by simp
    have hplacement : s.joinIn.placement = s.placement := by simp
    have hflight : ∀ f, s.joinIn.flight = some f → f.attached = true ∧ f.slot = x ∧ f.slot.Holds f.frame.body := by
      intro f hjoined
      rw [heq] at hjoined
      cases hjoined
      exact ⟨rfl, rfl, holds_of_slotBody hb⟩
    have honLine : ∀ k, s.joinIn.LaneOnLine k ↔ x = .lane k := by
      intro k
      constructor
      · rintro ⟨f, hjoined, -, hslot⟩
        exact (hflight f hjoined).2.1.symm.trans hslot
      · intro hx
        rw [heq]
        exact ⟨_, rfl, rfl, hx⟩
    have hnone := not_laneOnLine_of_no_flight hf
    refine ⟨fun k _ => ?_, fun k => ?_, fun k hk => (nomatch hk), by rw [hplacement]; exact h.nodup,
      fun f hjoined => (hflight f hjoined).2.2⟩
    · obtain ⟨hsound, hoffer, hline⟩ := h.fits k (by simp)
      rw [hlane, laneSlot_congr hslots, honLine]
      split
      next hx =>
        have hsome : (s.laneSlot k).isSome = true := by
          rw [hx] at hb
          obtain ⟨o, ho, -⟩ := Option.map_eq_some_iff.1 hb
          simp [ho]
        have hoffered : (s.lane k).state = .offered := (hoffer.1 hsome).resolve_right (mt hline.1 (hnone k))
        exact ⟨hsound.onLine hoffered, by simp [hsome, Lane.Offers], by simp [hx]⟩
      next hx => exact ⟨hsound, hoffer, hline.trans (iff_of_false (hnone k) hx)⟩
    · rw [hplacement, laneSlot_congr hslots]
      exact h.placed k

theorem startEdge (h : s.LanesFit none) (hphase : s.PhaseFits) : s.startEdge.LanesFit none := by
  rcases s.startEdge_cases with heq | ⟨hidle, heq⟩
  · rw [heq]
    exact h
  · have hf : s.flight = none := hphase.no_flight (by rcases hidle with hp | hp <;> simp [hp])
    have hbegun : ({ s with phase := .inFrame } : State).LanesFit none := h.congr rfl rfl rfl rfl
    rcases heq with heq | ⟨-, heq⟩
    · rw [heq]
      exact hbegun
    · rw [heq]
      exact hbegun.joinIn hf

theorem of_leaves (h : s.LanesFit none) (hquiet : s.Quiet) (hphase : s.PhaseFits) (hleft : Leaves s t) :
    t.LanesFit none := by
  have hreset : State.reset.LanesFit none := lanesOk_iff.1 lanesOk_reset
  cases hleft with
  | same => exact h
  | configure | setGuards b | watchArm | watchDisarm | unknown | accessOpening => exact h.congr
  | staging w v hw | chain w v hw | params a b c d => exact h.congr rfl rfl rfl rfl
  | softReset n x | pinReset => exact hreset.congr rfl rfl rfl rfl
  | pinResetEnd x =>
    unfold pinResetEnd
    split
    · exact hreset.congr rfl rfl rfl rfl
    · exact h
  | rejoin => exact h.rejoin
  | leave => exact h.leave
  | start => exact h.start
  | stop => exact h.stop
  | popHead => exact h.popHead
  | startEdge => exact h.startEdge hphase
  | windowExpiry => exact h.windowExpiry.settle
  | waitTimeout l => exact h.waitTimeout l
  | entryTake l => exact h.entryTake l
  | readbackDifference => exact h.readbackDifference
  | arbitrationLost => exact h.of_moves hquiet s.arbitrationLost_moves
  | framingBreak _ => exact h.of_moves hquiet framingBreak_moves
  | spoiledFrameEnd b _ => exact h.of_moves hquiet (s.spoiledFrameEnd_moves b)
  | carriedFrameEnd b _ => exact h.of_moves hquiet (s.carriedFrameEnd_moves b)

end LanesFit

end State

end Sys2Proof.Machine
end

section
/-! PROOFS. The image slot and the response set (R36, R82 to R84): the slot follows the set through every operation. -/

namespace Sys2Proof.Machine

set_option Elab.async false -- as in Tests/Slice0.lean: fewer threads, within the check's memory limit

namespace State

/-! ## The response set under the other operations -/

theorem responding_changeOwner (s : State) (x : Station) (r : RegionNo) (o : Option Station) (q : RegionNo) :
    ((s.changeOwner x r o).region q).responding = (s.region q).responding := by
  obtain ⟨u, hregion, -, ht⟩ := changeOwner_given s x r o
  have hq : (s.changeOwner x r o).region q = u.region q := by
    rw [ht]
    simp [region]
  rw [hq, hregion]
  split
  next h => rw [h]
  next => rfl

theorem responding_applyClaim (s : State) (x : Station) (b : Bool) (r q : RegionNo) :
    ((s.applyClaim x b r).region q).responding = (s.region q).responding := by
  unfold State.applyClaim
  repeat' split
  · rw [responding_changeOwner]
  · rfl
  · rw [responding_changeOwner, region_loseOwnership]
  · rw [responding_changeOwner]
  · rfl
  · rfl
  · rfl

theorem responding_applyRelease (s : State) (x : Station) (r q : RegionNo) :
    ((s.applyRelease x r).region q).responding = (s.region q).responding := by
  unfold State.applyRelease
  split
  · rw [responding_changeOwner]
  · rfl

theorem responding_clearOwner (s : State) (x : Station) (q : RegionNo) :
    ((s.clearOwner x).region q).responding = (s.region q).responding := by
  rw [region_clearOwner]
  split <;> rfl

theorem responding_applyUpdate (s : State) (x : Station) (r : RegionNo) (k : Nat) (d : List Byte) (q : RegionNo) :
    ((s.applyUpdate x r k d).region q).responding = (s.region q).responding := by
  unfold State.applyUpdate
  split
  · rw [region_report, region_setRegion]
    split
    next h => rw [h]
    next => simp [region]
  · rfl

theorem responding_refreshRange (s : State) (a b : Nat) (q : RegionNo) :
    ((s.refreshRange a b).region q).responding = (s.region q).responding := by
  rw [region_refreshRange]
  split <;> rfl

theorem responding_declareOrphans (s : State) (q : RegionNo) :
    (s.declareOrphans.region q).responding = (s.region q).responding := by
  rw [region_declareOrphans]
  split <;> rfl

theorem responding_setGuards (s : State) (b : Bool) (q : RegionNo) :
    ((s.setGuards b).region q).responding = (s.region q).responding := by
  cases hok : s.guardRangeOk with
  | false =>
    rw [setGuards_of_refused b hok]
    rfl
  | true =>
    rw [region_setGuards b hok]
    split <;> rfl

/-! ## What the slot in order is -/

theorem imageOnLine_iff {s : State} :
    s.imageOnLine = true ↔ ∃ f, s.flight = some f ∧ f.attached = true ∧ f.slot = .image := by
  unfold imageOnLine
  split
  next f hf => simp [hf]
  next hf => simp [hf]

theorem imageFits_iff {s : State} :
    s.ImageFits ↔ (s.imageOnLine = true → s.imageSlot.isSome = true) ∧
      (s.imageOnLine = false → s.imageSlot.map ImageSlot.region = s.lowestResponding) := by
  unfold ImageFits
  dsimp only
  rw [← imageOnLine_iff, Bool.not_eq_true]
  refine and_congr_right fun _ => imp_congr_right fun _ => ⟨fun ⟨hempty, hlowest⟩ => ?_, fun hslot => ⟨fun hall => ?_,
    fun r hr hleast => ?_⟩⟩
  · cases hx : s.lowestResponding with
    | none => rw [hempty (lowest_none hx), Option.map_none]
    | some r =>
      obtain ⟨hr, hleast⟩ := lowest_some hx
      exact hlowest r hr fun q hq => Bool.eq_false_iff.2 fun hresponds => absurd (hleast q hresponds) (not_le.2 hq)
  · have hnone : s.lowestResponding = none := by
      cases hx : s.lowestResponding with
      | none => rfl
      | some r => exact absurd (lowest_some hx).1 (by simp [hall r])
    exact Option.map_eq_none_iff.1 (hslot.trans hnone)
  · refine hslot.trans (lowest_eq hr fun q hq => ?_)
    by_contra hlt
    simp [hleast q (not_le.1 hlt)] at hq

theorem lowestResponding_congr {s t : State} (h : ∀ r, (t.region r).responding = (s.region r).responding) :
    t.lowestResponding = s.lowestResponding := by
  simp only [lowestResponding, h]

namespace ImageFits

variable {s t : State}

theorem of_line (h : s.ImageFits) (hline : t.imageOnLine = s.imageOnLine)
    (hresponding : ∀ r, (t.region r).responding = (s.region r).responding)
    (himage : t.imageSlot.map ImageSlot.region = s.imageSlot.map ImageSlot.region) : t.ImageFits := by
  obtain ⟨honLine, hslot⟩ := imageFits_iff.1 h
  have hsome : t.imageSlot.isSome = s.imageSlot.isSome := by
    rw [← Option.isSome_map (f := ImageSlot.region), himage, Option.isSome_map]
  rw [imageFits_iff, hline, hsome, himage, lowestResponding_congr hresponding]
  exact ⟨honLine, hslot⟩

/-- Neither the response set, the image slot nor the line has changed. -/
theorem congr (h : s.ImageFits)
    (hresponding : ∀ r, (t.region r).responding = (s.region r).responding := by intro r; simp [State.region])
    (himage : t.imageSlot = s.imageSlot := by simp) (hflight : t.flight = s.flight := by simp) : t.ImageFits :=
  h.of_line (by simp only [imageOnLine, hflight]) hresponding (by rw [himage])

/-- The frame on the line is over, and it was no IMAGE of the image slot. -/
theorem landed (h : s.ImageFits) (hline : s.imageOnLine = false)
    (hresponding : ∀ r, (t.region r).responding = (s.region r).responding := by intro r; simp [State.region])
    (himage : t.imageSlot = s.imageSlot := by simp) (hflight : t.flight = none := by simp) : t.ImageFits :=
  h.of_line (by rw [hline]; simp [imageOnLine, hflight]) hresponding (by rw [himage])

/-- The response set is empty, and with it the image slot (R25). -/
theorem of_lost (hresponding : ∀ r, (t.region r).responding = false) (himage : t.imageSlot = none)
    (hline : t.imageOnLine = false) : t.ImageFits := by
  refine imageFits_iff.2 ⟨by simp [hline], fun _ => ?_⟩
  cases hx : t.lowestResponding with
  | none => rw [himage, Option.map_none]
  | some r => exact absurd (lowest_some hx).1 (by simp [hresponding r])

/-- Where no IMAGE is on the line the slot takes the lowest region of the set, whatever it held. -/
theorem syncImageSlot (h : s.imageOnLine = true → s.imageSlot.isSome = true) : s.syncImageSlot.ImageFits := by
  cases hline : s.imageOnLine with
  | true =>
    have hsame : s.syncImageSlot = s := by rw [State.syncImageSlot, hline, if_pos rfl]
    rw [hsame]
    exact imageFits_iff.2 ⟨h, by simp [hline]⟩
  | false =>
    have hmoved : s.syncImageSlot = s.moveImageSlot := by rw [State.syncImageSlot, hline, if_neg Bool.false_ne_true]
    have hline' : s.moveImageSlot.imageOnLine = false := by simpa [imageOnLine] using hline
    have hset : s.moveImageSlot.lowestResponding = s.lowestResponding :=
      lowestResponding_congr fun r => by rw [region_moveImageSlot]
    rw [hmoved]
    refine imageFits_iff.2 ⟨by simp [hline'], fun _ => ?_⟩
    rw [hset]
    unfold moveImageSlot
    split
    next hnone => rw [hnone]; rfl
    next r hr =>
      rw [hr]
      split
      next o ho =>
        split
        next heq => rw [ho, Option.map_some, heq]
        next => rfl
      next => rfl

theorem syncImageSlot_of_no_flight (hf : s.flight = none) : s.syncImageSlot.ImageFits :=
  syncImageSlot fun hline => by simp [imageOnLine, hf] at hline

theorem dropResponse (hf : s.flight = none) (r : RegionNo) : (s.dropResponse r).ImageFits :=
  syncImageSlot_of_no_flight (by simpa using hf)

theorem takeImage (hf : s.flight = none) (r : RegionNo) (o : Option Station) (c : Word) (d : List Byte) :
    (s.takeImage r o c d).ImageFits := by
  unfold State.takeImage
  split
  · have hdropped : ((s.installImage r o c d).dropResponse r).ImageFits := dropResponse (by simpa using hf) r
    exact hdropped.congr
  · exact dropResponse hf r

/-! ## Drift, the end of LEAVE, and the join -/

/-- After a drift flush, whatever the station state becomes. -/
theorem of_flushed (hregions : t.regions = s.driftFlush.regions) (himage : t.imageSlot = none)
    (hflight : t.flight = s.flight.map Flight.detach) : t.ImageFits := by
  refine of_lost (fun r => ?_) himage (Bool.eq_false_iff.2 fun hline => ?_)
  · have hr : t.region r = s.driftFlush.region r := by simp only [region, hregions]
    rw [hr, region_driftFlush]
  · obtain ⟨f, hf, ha, -⟩ := imageOnLine_iff.1 hline
    simp [attached_of_map_detach (hflight.symm.trans hf)] at ha

theorem driftFlush (s : State) : s.driftFlush.ImageFits :=
  let ⟨_, _, hflight, _, _, _, himage, _⟩ := s.driftFlush_fields
  of_flushed rfl himage hflight

theorem adriftEntry (s : State) (c : DriftCause) : (s.adriftEntry c).ImageFits :=
  of_flushed (s := s) (by simp [State.adriftEntry]) (by simp) (by simp)

theorem haltedEntry (s : State) : s.haltedEntry.ImageFits :=
  of_flushed (s := s) (by simp [State.haltedEntry]) (by simp) (by simp)

theorem endOfLeave (hf : s.flight = none) : s.endOfLeave.ImageFits := by
  obtain ⟨u, hregion, -, ht⟩ := endOfLeave_ended s
  refine of_lost (fun r => ?_) (by simp [State.endOfLeave, loseRegions]) (by simp [imageOnLine, hf])
  have hr : s.endOfLeave.region r = u.region r := by
    rw [ht]
    simp [region]
  rw [hr, hregion]
  rfl

theorem thirdPassEnd (h : s.ImageFits) : s.thirdPassEnd.ImageFits := by
  unfold State.thirdPassEnd
  split
  · have hdeclared : s.declareOrphans.ImageFits := h.congr (responding_declareOrphans s)
    exact hdeclared.congr
  · exact adriftEntry s _

theorem askAbandoned (h : s.ImageFits) : s.askAbandoned.ImageFits := by
  unfold State.askAbandoned
  split
  next =>
    dsimp only
    split
    · exact h.congr
    · refine ImageFits.thirdPassEnd ?_
      exact h.congr (fun _ => rfl) rfl rfl
  next => exact h

theorem windowExpiry (h : s.ImageFits) : s.windowExpiry.ImageFits := by
  unfold State.windowExpiry
  split
  next => exact h
  next =>
    dsimp only
    split
    · exact h.congr
    · refine ImageFits.thirdPassEnd ?_
      exact h.congr (fun _ => rfl) rfl rfl
  
/-! ## The ends of attempts and frames -/

theorem countStationAttempt (h : s.ImageFits) (hf : s.flight = none) : s.countStationAttempt.ImageFits := by
  unfold State.countStationAttempt
  split
  next o _ =>
    split_ifs
    · exact h.congr
    · exact h.congr (fun _ => rfl) rfl rfl
    · cases o.frame with
      | join => exact adriftEntry _ _
      | leave => exact endOfLeave hf
      | ask a b =>
        refine ImageFits.askAbandoned (s := { s with stationSlot := none }) ?_
        exact h.congr (fun _ => rfl) rfl rfl
  next => exact h.congr

theorem countImageAttempt (hf : s.flight = none) : s.countImageAttempt.ImageFits := by
  unfold State.countImageAttempt
  split
  next o _ =>
    split
    · exact syncImageSlot_of_no_flight hf
    · exact dropResponse (s := { s with imageSlot := none }) hf _
  next => exact syncImageSlot_of_no_flight hf

/-- The frame of another slot is over. -/
theorem overElsewhere (h : s.ImageFits) {f : Flight} (hf : s.flight = some f) (hslot : f.slot ≠ .image) :
    ({ s with flight := none } : State).ImageFits :=
  h.landed (by simp [imageOnLine, hf, hslot]) (fun _ => rfl) rfl rfl

theorem loseAttempt (h : s.ImageFits) : s.loseAttempt.ImageFits := by
  unfold State.loseAttempt
  split
  next => exact h
  next f hf =>
    dsimp only
    split
    next l hslot =>
      have hover := h.overElsewhere hf (by simp [hslot])
      split_ifs
      · exact hover.congr
      · exact hover.congr
      · exact hover
    next hslot =>
      have hover := h.overElsewhere hf (by simp [hslot])
      repeat' split
      · exact hover.congr
      · exact hover
      · exact hover.congr
      · exact hover.congr
    next => exact syncImageSlot_of_no_flight rfl

theorem spoilAttempt (h : s.ImageFits) : s.spoilAttempt.ImageFits := by
  unfold State.spoilAttempt
  split
  next => exact h
  next f hf =>
    dsimp only
    split
    next l hslot =>
      have hover := h.overElsewhere hf (by simp [hslot])
      split_ifs
      · exact hover.congr
      · exact hover.congr
      · exact hover
    next hslot =>
      have hover := h.overElsewhere hf (by simp [hslot])
      split
      · exact hover.countStationAttempt rfl
      · exact hover.congr
    next =>
      split
      · exact countImageAttempt rfl
      · exact syncImageSlot_of_no_flight rfl

theorem applyPeer (h : s.ImageFits) (hf : s.flight = none) (f : Frame) : (s.applyPeer f).ImageFits := by
  unfold State.applyPeer
  split
  · exact h.congr (responding_clearOwner s _)
  · exact h.congr (responding_clearOwner s _)
  · exact h.congr (responding_applyClaim s _ _ _)
  · exact h.congr (responding_applyRelease s _ _)
  · exact syncImageSlot_of_no_flight (by simpa using hf)
  · exact takeImage hf _ _ _ _
  · exact h.congr (responding_applyUpdate s _ _ _ _)

theorem applyOwn (h : s.ImageFits) (hf : s.flight = none) (f : Flight) : (s.applyOwn f).ImageFits := by
  have hcleared : (s.clearOwner f.frame.sender).ImageFits := h.congr (responding_clearOwner s _)
  unfold State.applyOwn
  split
  next =>
    split
    · exact hcleared.congr
    · exact hcleared
  next =>
    split
    · exact endOfLeave (by simpa using hf)
    · exact hcleared
  next a b _ =>
    have hrange : (s.refreshRange a b).ImageFits := h.congr (responding_refreshRange s a b)
    split
    · unfold State.askCarried
      dsimp only
      split
      · exact hrange.congr
      · exact hrange
    · exact h
  next => exact takeImage hf _ _ _ _
  next b r _ =>
    have hclaimed : (s.applyClaim f.frame.sender b r).ImageFits := h.congr (responding_applyClaim s _ _ _)
    exact hclaimed.congr
  next r _ =>
    have hreleased : (s.applyRelease f.frame.sender r).ImageFits := h.congr (responding_applyRelease s _ _)
    exact hreleased.congr
  next r k d _ =>
    have happlied : (s.applyUpdate f.frame.sender r k d).ImageFits := h.congr (responding_applyUpdate s _ _ _ _)
    exact happlied.congr

/-- Of this station's own frames an IMAGE alone touches the image slot, and it brings the slot back in order. -/
theorem own (h : s.ImageFits) {f : Flight} (hf : s.flight = some f) (hholds : f.slot.Holds f.frame.body) :
    ((s.takeOut f).applyOwn f).ImageFits := by
  have hnone : (s.takeOut f).flight = none := by simp
  by_cases hslot : f.slot = .image
  · rw [hslot] at hholds
    obtain ⟨r, owner, count, data, hbody⟩ := hholds
    simp only [State.applyOwn, hbody]
    exact takeImage hnone _ _ _ _
  · refine ImageFits.applyOwn ?_ hnone f
    have hover := h.overElsewhere hf hslot
    unfold State.takeOut
    dsimp only
    split
    next => split <;> exact hover.congr
    next => split <;> exact hover.congr
    next himage => exact absurd himage hslot

theorem of_move (h : s.ImageFits) (hlanes : s.LanesFit none) (hquiet : s.Quiet) (hmove : LineMove s t) :
    t.ImageFits := by
  cases hmove with
  | count _ _ | settle | join _ => exact h.congr
  | streak n _ => exact h.congr (fun _ => rfl) rfl rfl
  | lose => exact h.loseAttempt
  | differ =>
    refine h.of_line ?_ (fun _ => rfl) rfl
    unfold imageOnLine readbackDifference
    cases s.flight <;> rfl
  | spoilAttempt _ => exact h.spoilAttempt
  | drift _ =>
    refine (adriftEntry s .streak).landed (Bool.eq_false_iff.2 fun hline => ?_) (fun _ => rfl) rfl rfl
    obtain ⟨f, hf, ha, -⟩ := imageOnLine_iff.1 hline
    have hdetached := attached_of_map_detach (x := s.flight) (f := f) (by simpa using hf)
    simp [ha] at hdetached
  | silent hl =>
    refine h.landed (Bool.eq_false_iff.2 fun hline => ?_) (fun _ => rfl) rfl rfl
    obtain ⟨f, hf, ha, -⟩ := imageOnLine_iff.1 hline
    simp [hquiet hl f hf] at ha
  | peer f b _ _ hf => exact h.applyPeer hf f
  | own f _ hf => exact h.own hf (hlanes.holds f hf)
  | halt _ => exact haltedEntry s

theorem of_moves (h : s.ImageFits) (hlanes : s.LanesFit none) (hquiet : s.Quiet) (hpath : LineMoves s t) :
    t.ImageFits :=
  (hpath.keeps (P := fun u => u.ImageFits ∧ u.LanesFit none ∧ u.Quiet)
    (fun _ _ ⟨hi, hl, hq⟩ hmove => ⟨hi.of_move hl hq hmove, hl.of_move hq hmove, hq.of_move hmove⟩)
    ⟨h, hlanes, hquiet⟩).1

/-! ## Commands -/

theorem rejoin (h : s.ImageFits) : s.rejoin.ImageFits := by
  unfold State.rejoin
  split
  case h_1 | h_2 | h_3 => exact (driftFlush s).congr
  case h_4 | h_5 | h_6 => exact h.congr

/-- LEAVE lets go of a lane's frame on the line; an IMAGE goes on in its slot (R50, R86). -/
theorem leave (h : s.ImageFits) : s.leave.ImageFits := by
  refine h.of_line ?_ (fun r => by simp [region]) (by simp)
  rcases s.flight_leave with hflight | hflight
  · simp only [imageOnLine, hflight]
  · rw [Bool.eq_iff_iff, imageOnLine_iff, imageOnLine_iff, hflight]
    constructor
    · rintro ⟨f, hf, ha, hslot⟩
      obtain ⟨g, hg, rfl⟩ := Option.map_eq_some_iff.1 hf
      exact ⟨g, hg, (Bool.and_eq_true_iff.1 ha).1, hslot⟩
    · rintro ⟨f, hf, ha, hslot⟩
      exact ⟨{ f with attached := f.attached && decide (∀ l, f.slot ≠ .lane l) }, by rw [hf, Option.map_some],
        by simp [ha, hslot], hslot⟩

theorem joinIn (h : s.ImageFits) (hf : s.flight = none) : s.joinIn.ImageFits := by
  rcases s.joinIn_cases with heq | ⟨x, b, -, hb, heq⟩
  · rw [heq]
    exact h
  · obtain ⟨-, hslot⟩ := imageFits_iff.1 h
    have himage : s.joinIn.imageSlot = s.imageSlot := by simp
    have hresponding : s.joinIn.lowestResponding = s.lowestResponding :=
      lowestResponding_congr fun r => by simp [region]
    rw [imageFits_iff, himage, hresponding]
    refine ⟨fun hline => ?_, fun _ => hslot (by simp [imageOnLine, hf])⟩
    obtain ⟨f, hjoined, -, hfslot⟩ := imageOnLine_iff.1 hline
    rw [heq] at hjoined
    cases hjoined
    have hx : x = .image := hfslot
    rw [hx] at hb
    obtain ⟨o, ho, -⟩ := Option.map_eq_some_iff.1 hb
    simp [ho]

theorem startEdge (h : s.ImageFits) (hphase : s.PhaseFits) : s.startEdge.ImageFits := by
  rcases s.startEdge_cases with heq | ⟨hidle, heq⟩
  · rw [heq]
    exact h
  · have hf : s.flight = none := hphase.no_flight (by rcases hidle with hp | hp <;> simp [hp])
    have hbegun : ({ s with phase := .inFrame } : State).ImageFits := h.congr (fun _ => rfl) rfl rfl
    rcases heq with heq | ⟨-, heq⟩
    · rw [heq]
      exact hbegun
    · rw [heq]
      exact hbegun.joinIn hf

theorem of_leaves (h : s.ImageFits) (hlanes : s.LanesFit none) (hquiet : s.Quiet) (hphase : s.PhaseFits)
    (hleft : Leaves s t) : t.ImageFits := by
  cases hleft with
  | same => exact h
  | configure | start | stop | watchArm | watchDisarm | unknown | popHead | accessOpening | waitTimeout l
  | entryTake l => exact h.congr
  | setGuards b => exact h.congr (responding_setGuards s b)
  | staging w v hw | chain w v hw | params a b c d => exact h.congr (fun _ => rfl) rfl rfl
  | softReset n x | pinReset => exact imageFits_reset.congr (fun _ => rfl) rfl rfl
  | pinResetEnd x =>
    unfold pinResetEnd
    split
    · exact imageFits_reset.congr (fun _ => rfl) rfl rfl
    · exact h
  | rejoin => exact h.rejoin
  | leave => exact h.leave
  | startEdge => exact h.startEdge hphase
  | windowExpiry => exact h.windowExpiry.congr
  | readbackDifference => exact h.of_move hlanes hquiet .differ
  | arbitrationLost => exact h.of_moves hlanes hquiet s.arbitrationLost_moves
  | framingBreak _ => exact h.of_moves hlanes hquiet framingBreak_moves
  | spoiledFrameEnd b _ => exact h.of_moves hlanes hquiet (s.spoiledFrameEnd_moves b)
  | carriedFrameEnd b _ => exact h.of_moves hlanes hquiet (s.carriedFrameEnd_moves b)

end ImageFits

end State

end Sys2Proof.Machine
end

section
/-! PROOFS. Every step keeps the station in order: the three invariants of Safety.lean, each through what a command can
leave. -/

namespace Sys2Proof.Machine

set_option Elab.async false -- as in Tests/Slice0.lean: fewer threads, within the check's memory limit

namespace State

theorem ControllerOk.quiet_and_phase {s : State} (h : s.ControllerOk) : s.Quiet ∧ s.PhaseFits := by
  obtain ⟨hbase, -, hphase⟩ := controllerOk_iff.1 h
  refine ⟨fun hl => ?_, hphase⟩
  obtain ⟨-, -, -, -, hdetached⟩ := hbase.quiet hl
  exact hdetached

end State

/-- The lanes and the image slot through a step: of the controller they need only the state before. -/
theorem step_keeps_lanes_and_image {s t : State} (hcontroller : s.ControllerOk) (hlanes : s.LanesOk)
    (himage : s.ImageFits) (hstep : step s = .next t) : t.LanesOk ∧ t.ImageFits := by
  obtain ⟨hquiet, hphase⟩ := hcontroller.quiet_and_phase
  rw [State.lanesOk_iff] at hlanes ⊢
  rcases step_leaves hstep with rfl | ⟨rest, hleft⟩
  · exact ⟨hlanes.tick, himage.congr⟩
  · have hlanes' : ({ s with pending := rest } : State).LanesFit none := hlanes.congr rfl rfl rfl rfl
    exact ⟨hlanes'.of_leaves hquiet hphase hleft,
      State.ImageFits.of_leaves (s := { s with pending := rest }) himage hlanes' hquiet hphase hleft⟩

/-- Settles O59: over what a command can leave (`Leaves`) and, within a frame's end, over the moves of the line unit
(`LineMove`). -/
theorem stepsKeepTheStationInOrder : Obligations.StepsKeepTheStationInOrder :=
  ⟨fun _ _ hqueue hcounters hstep => step_keeps_queue_and_counters hqueue hcounters hstep,
    fun _ _ hregions hcontroller hstep => step_keeps_regions_and_controller hregions hcontroller hstep,
    fun _ _ hcontroller hlanes himage hstep => step_keeps_lanes_and_image hcontroller hlanes himage hstep⟩

end Sys2Proof.Machine
end
